-- ==== Sys2Proof/Word.lean ====
section
/-! DEFINITION. The machine word (rule R10: every register and every memory location is one word of
32 bits, an address is one word) and the byte in which characters and file data are counted (R62). -/

namespace Sys2Proof

/-- One word: the unit of memory, of every register and of every address (R10). -/
abbrev Word := BitVec 32

/-- One character or file byte; bytes exist only packed inside words (R62). -/
abbrev Byte := BitVec 8

end Sys2Proof
end

