-- ==== Sys2Proof/Syntax.lean ====
section
/-! DEFINITION. The abstract instructions of the machine (rules R102, R103, R109) and the names its
assembler knows (R106): registers, special registers, flags, conditions, operands, the 27 instructions
of spec/opcode_table.json and the 20 peripheral operations. -/

namespace Sys2Proof

/-- A general register that an operand may name: R0..R12, SP, FP (R11, R103). PC is a register of the
machine and no operand (R15, decision D29), so it has no constructor here; the decoder rejects it by name. -/
inductive Reg where
  | gp (n : Fin 13)
  | sp
  | fp
  deriving DecidableEq, Repr

/-- The eleven special registers, in the order that numbers them 0 to 10 (R20, R32). -/
inductive SReg where
  | flags | pdbr | intvec | cgbr | cglen | debug | timer | sysSP | sysFP | usrSP | usrFP
  deriving DecidableEq, Repr

/-- The seven flags, in the order that numbers them 0 to 6 (R35). -/
inductive Flag where
  | r | z | n | err | sys | ip | vm
  deriving DecidableEq, Repr

/-- A condition of JCOND. `err` is the one the spec names (R127); the names and meanings of the others
are the open parameter `jcond_conditions` (decision D28), so they are only numbered here. -/
inductive Cond where
  | err
  | other (k : Fin 15)
  deriving DecidableEq, Repr

/-- The five operand forms (R103). A constant is any 32-bit number at this level. -/
inductive Operand where
  | const (n : Word)
  | reg (r : Reg)
  | base (r : Reg)
  | baseDisp (r : Reg) (n : Word)
  | abs (n : Word)
  deriving DecidableEq, Repr

/-- The instructions: one constructor for each row of spec/opcode_table.json, in the table's order.
Shapes: R102 and R109; where no line of the source shows the shape (EXBR, DPBR, EXBRV, DPBRV, PHLOAD,
PHSTORE, CLRPP) it is taken by analogy (log entry 3). -/
inductive Instr where
  | getsr (r : Reg) (op : Operand)
  | setsr (r : Reg) (op : Operand)
  | getfl (r : Reg) (op : Operand)
  | setfl (r : Reg) (op : Operand)
  | flagsj (r : Reg) (op : Operand)
  | comp (r : Reg) (op : Operand)
  | compz (op : Operand)
  | jcond (c : Cond) (op : Operand)
  | sbit (r : Reg) (op : Operand)
  | cbit (r : Reg) (op : Operand)
  | exbr (r : Reg) (op : Operand)
  | dpbr (r : Reg) (op : Operand)
  | exbrv (r : Reg) (op : Operand)
  | dpbrv (r : Reg) (op : Operand)
  | load (r : Reg) (op : Operand)
  | store (r : Reg) (op : Operand)
  | push (op : Operand)
  | inc (op : Operand)
  | call (op : Operand)
  | ret
  | syscall (op : Operand)
  | iret
  | halt
  | phload (r : Reg) (op : Operand)
  | phstore (r : Reg) (op : Operand)
  | clrpp
  | peri (r : Reg) (op : Operand)
  deriving DecidableEq, Repr

/-- The twenty peripheral operations of PERI, in the order rule R106 lists their `$`-names. -/
inductive PeriOp where
  | discCheck | discRead | discWrite
  | tapeCheck | tapeRewind | tapeLoad | tapeLength | tapeUnload | tapeRead | tapeWrite
  | termInC | termOutC | termInW | termOutW
  | netSS | netSend | netRecv
  | seconds | useconds | dateTime
  deriving DecidableEq, Repr

end Sys2Proof
end

