-- ==== Sys2Proof/Config.lean ====
section
/-! DEFINITION. What an implementation fixes and the manual leaves open: the free values (constants
without a body, so that nothing can be proved of one of them) and the launch parameters of rule R6, as plain
data that State carries, so that every statement about all states is a statement about all of their values. -/

namespace Sys2Proof

/-- A word the spec leaves undefined: draw number `k` (93_implementation_defined.md, treatment "any value").
It has no body: no proof can give its value. Log entry 5. -/
opaque Config.freeWord : Nat → Word

/-- A one-bit value the spec leaves undefined: draw number `k`. Log entry 5. -/
opaque Config.freeBit : Nat → Bool

/-- Where one party to a bit-range instruction lives: the main register, the operand, or a register the
instruction implies. "Which of them is the main register, which the operand, and whether a third is implied"
is in no source (R143). -/
inductive Place where
  | main
  | operand
  | implied (r : Reg)
  deriving DecidableEq, Repr

/-- The places of one bit-range instruction: the word worked on (for EXBRV and DPBRV, the address of
the first word), the descriptor, and the data: the result of an extract, the value of a deposit. -/
structure BitPlaces where
  word : Place
  desc : Place
  data : Place
  deriving DecidableEq, Repr

/-- The open parameter `bitrange_roles` (R6, decision D44). -/
structure BitRoles where
  exbr : BitPlaces
  dpbr : BitPlaces
  exbrv : BitPlaces
  dpbrv : BitPlaces
  deriving DecidableEq, Repr

/-- What a word of code spells under the launch parameters (R6, R101): one of the 27 instructions; nothing,
so that it raises UNIMPOP (R110); an instruction that names PC as an operand (D29), under whatever number
`gpr_number` gives PC; or an instruction outside the 27 (R109, U24). One of the 27 with an operand form that the
source does not show (two registers in one address, double indirection, a negative displacement), which R103 has
refused too, counts as the last: `otherInstruction` (DESIGN CHOICE). Log entries 1 and 34. -/
inductive Spelling where
  | instr (i : Instr)
  | nothing
  | pcOperand
  | otherInstruction
  deriving DecidableEq, Repr

/-- The launch parameters of R6: what the manual leaves to the implementation, fixed for a run.
No step changes them. -/
structure Launch where
  /-- `PHYS_WORDS`: how many words of physical memory exist (R61, D7). -/
  physWords : Nat
  /-- `encode`/`decode` (R101, D1): the words whose spelling differs from the default encoding of
  Sys2Proof/Decode.lean, each with what it spells. Every map from words to spellings is some such list. -/
  code : List (Word × Spelling)
  /-- `peri_code` (R191, D33): the number of each peripheral operation, in the order of `PeriOp`; injective
  in a well-formed state (`Launch.wf` in Safety.lean). -/
  periCode : Vector Word 20
  /-- `trap_saved_pc` (R280, D15): bit `c` set means that the entry for the synchronous cause with code `c`
  saves `here + 1`; clear, that it saves `here`. -/
  trapSavesNext : BitVec 14
  /-- `jcond_conditions` (R127, D28): the conditions beyond ERR, each with the set of FLAGS words
  (bits 6..0) on which it holds. A number that is not listed is no condition of the machine. -/
  conds : List (Fin 15 × BitVec 128)
  /-- `bitrange_roles` (R143 to R146, D44). -/
  roles : BitRoles
  /-- `datetime_zone` (R252, D42): the seconds to add to a time value, each from the time value
  it starts to hold; before the first entry, 0. -/
  zone : List (Nat × Int)
  /-- The layout of the six address bytes in the "two words" of a network address (R240, U17): the byte
  (0 to 7, the first word's bytes first, least significant first) in which each of them stands. -/
  netLayout : Vector (Fin 8) 6
  deriving DecidableEq, Repr

/-- The roles at reset: the operand is the word worked on (R140: the instructions "work directly on
their operand"), the main register the data, and, for an extract, the descriptor too; for a deposit the
descriptor is in R12. DESIGN CHOICE, log entry 4. -/
def BitRoles.atReset : BitRoles where
  exbr := ⟨.operand, .main, .main⟩
  dpbr := ⟨.operand, .implied (.gp 12), .main⟩
  exbrv := ⟨.operand, .main, .main⟩
  dpbrv := ⟨.operand, .implied (.gp 12), .main⟩

/-- The launch parameters at reset. Every one is a DESIGN CHOICE (log entries 1, 2, 4, 11, 12, 13, 14, 15). -/
def Launch.atReset : Launch where
  physWords := 0x10000
  code := []
  periCode := #v[1, 2, 3, 4, 5, 6, 7, 8, 9, 10, 11, 12, 13, 14, 15, 16, 17, 18, 19, 20]
  trapSavesNext := 0
  conds := []
  roles := BitRoles.atReset
  zone := []
  netLayout := #v[0, 1, 2, 3, 4, 5]

end Sys2Proof
end

