-- ==== Sys2Proof/Machine/State.lean ====
section
/-! DEFINITION. The machine's state as plain data: every piece of state the spec names (10_state.md), the
world outside the CPU that PERI reads and changes (R51 to R56), the inputs of the `Host` oracle as a script
(decision D34), the launch parameters (R6), and the counter of free values; the interrupt causes; the
reasons a step can stop; the state at start-up. -/

namespace Sys2Proof.Machine

/-- The seven one-bit flags (R35, R36); the FLAGS special register is a view of them (R21, R45). -/
structure Flags where
  /-- "Indicates that the CPU is running, not halted" (R37). -/
  r : Bool
  /-- Zero or equal (R38). -/
  z : Bool
  /-- Negative (R39). -/
  n : Bool
  /-- The outcome of the latest PERI (R40). -/
  err : Bool
  /-- System mode (R41). -/
  sys : Bool
  /-- Interrupt in progress (R42). -/
  ip : Bool
  /-- Virtual memory (R43). -/
  vm : Bool
  deriving DecidableEq, Repr

/-- The ten special registers that are storage (R20 to R31); the eleventh, FLAGS, is `Flags`. SP and FP
are names for the stack and frame pointers of the current mode (R13, R14). -/
structure SpecialRegs where
  pdbr : Word
  intvec : Word
  cgbr : Word
  cglen : Word
  debug : Word
  timer : Word
  sysSP : Word
  sysFP : Word
  usrSP : Word
  usrFP : Word
  deriving DecidableEq, Repr

/-- A store of words by address, in one canonical form: addresses strictly rising (`Memory.wf` in
Machine/Ops.lean). An unlisted address holds no value (log entry 6). The machine's addressable unit is the
word (R60, R62), so an entry is a word. -/
abbrev Memory := List (Nat × Word)

/-- A disc drive: its size in blocks and the words written so far, word `j` of block `b` at `128 * b + j`
(R52, R198). -/
structure Disc where
  size : Nat
  words : Memory
  deriving DecidableEq, Repr

/-- How a tape was loaded: 'R' or 'W' (R205). -/
inductive TapeMode where
  | read
  | write
  deriving DecidableEq, Repr

/-- A loaded tape unit: the host file's name, the mode, the position in bytes (R53, R205). -/
structure Tape where
  file : List Byte
  mode : TapeMode
  pos : Nat
  deriving DecidableEq, Repr

/-- A packet: the six-byte simulated address of its other end and its bytes (R240). -/
structure Packet where
  addr : BitVec 48
  bytes : List Byte
  deriving DecidableEq, Repr

/-- A network unit that is on: its six-byte address and its queue of received packets, oldest first (R54). -/
structure NetUnit where
  addr : BitVec 48
  queue : List Packet
  deriving DecidableEq, Repr

/-- A file of the host system as tapes see it (R205, R208): `content` is `none` when the file does not
exist; `writable` then says whether the host would create it. -/
structure HostFile where
  name : List Byte
  content : Option (List Byte)
  readable : Bool
  writable : Bool
  deriving DecidableEq, Repr

/-- What the host may do between two instructions (R288, decision D34). -/
inductive HostEvent where
  /-- A key is pressed: its code joins the keyboard buffer (R230). -/
  | key (c : Byte)
  /-- A packet arrives at a unit (R240). -/
  | packet (unit : Fin 2) (p : Packet)
  /-- The clock advances by so many microseconds (R55, R250). -/
  | advance (microseconds : Nat)
  /-- A host file appears, changes or (content `none`) goes away. -/
  | file (f : HostFile)
  deriving DecidableEq, Repr

/-- The codes with which the host can turn down a requested port (R241, U22). -/
inductive NetDenial where
  | readParams
  | memory
  | devNumber
  | inUse
  deriving DecidableEq, Repr

/-- The host's answer to the start of a network unit: the real IP address, an unused port for a start that
requests none, and, for one that requests a port, the code with which the host turns it down, if it does. A
start that leaves the port to the host is never turned down (R241, U22). -/
structure NetStart where
  ip : BitVec 32
  port : BitVec 16
  denial : Option NetDenial
  deriving DecidableEq, Repr

/-- The inputs of the `Host` oracle still to come (decision D34): the moves before each instruction, the
answers to network starts, and, for each operation the device can fail, whether it does. -/
structure HostScript where
  events : List (List HostEvent)
  netStarts : List NetStart
  failures : List Bool
  deriving DecidableEq, Repr

/-- The world outside the CPU (R51 to R56): seen only through PERI and the KEYBD interrupt. -/
structure World where
  /-- The hardware keyboard buffer, oldest character first (R51). -/
  keyboard : List Byte
  /-- The characters printed so far, oldest first (R56). -/
  output : List Byte
  /-- Disc drives 1 to 8, `none` where no such drive exists (R52, R197). -/
  discs : Vector (Option Disc) 8
  /-- Tape units 1 to 8, `none` where unloaded (R53). -/
  tapes : Vector (Option Tape) 8
  /-- Network units 1 and 2, `none` where off (R54). -/
  nets : Vector (Option NetUnit) 2
  /-- The packets handed to the host so far, oldest first, with the sending unit (R242). -/
  sent : List (Fin 2 × Packet)
  /-- The hardware clock: microseconds since midnight on 1st January 2000 (R55). -/
  clock : Nat
  /-- The files of the host system (R205). -/
  files : List HostFile
  /-- The host's inputs still to come. -/
  host : HostScript
  deriving DecidableEq, Repr

/-- The whole state of the machine. -/
structure State where
  /-- R0 to R12 (R12). -/
  gpr : Vector Word 13
  /-- The program counter (R15). -/
  pc : Word
  flags : Flags
  sr : SpecialRegs
  /-- Physical memory (R60, R61). -/
  mem : Memory
  world : World
  /-- How many free values have been drawn: the MODEL's own field (log entry 5). -/
  draws : Nat
  /-- Whether a handler of INTRFAULT is in progress, from which IRET has no meaning (R278): `none`, none is;
  `some n`, one is, and `n` interrupt handlers are in progress inside it. The MODEL's own field (log
  entry 21). -/
  faultNesting : Option Nat
  /-- The launch parameters (R6); no step changes them. -/
  cfg : Launch
  deriving DecidableEq, Repr

/-- The thirteen interrupt causes (R260). Code 0, IV$NONE, is "not a real interrupt code". -/
inductive Cause where
  | memory | pagefault | unimpop | halt | divzero | unwrop | timer | privop | keybd | badcall
  | pagepriv | debug | intrfault
  deriving DecidableEq, Repr

/-- The reasons a step stops the machine. -/
inductive Fault where
  /-- `FatalStop(code, addr, info)` of R273: raised by a fatal cause that is not trapped (IP = 1, vector
  entry zero), by a failed INTRFAULT entry (R278), and by a failing access inside SYSCALL or IRET (U8).
  `none` is the spec's "-". `stopped` is the state the machine stops in: R is 0, all else as it was.
  Safe: nothing runs after it. -/
  | fatalStop (cause : Cause) (addr info : Option Word) (stopped : State)
  /-- A step from R = 0: "A halted CPU executes no instruction" (R298, U28: stuck). Raised by the step
  itself. Safe. -/
  | halted
  /-- A read of a word of physical memory that exists and that nothing has written since launch (U21: "a
  careful model faults on read-before-write"). Raised by every read of memory. Safe. -/
  | unwritten (pa : Nat)
  /-- A string the operation must read to its zero byte has none in the whole address space: the
  operation never completes. Raised by $TAPELOAD, $TERMOUTC, $TERMOUTW. Safe. -/
  | endlessString
  deriving DecidableEq, Repr

/-- The reasons the model gives a step no meaning: `refuse(reason)` of R7. Each one is safe: nothing can be
proved of what follows. -/
inductive Refusal where
  /-- An instruction whose arm of `exec` has no meaning yet. Raised by no arm of this model. -/
  | notModelled (mnemonic : String)
  /-- GETSR or SETSR with a number outside 0 to 10 (U1). -/
  | specialRegisterNumber (n : Word)
  /-- GETFL or SETFL with a number above 6 (U2). -/
  | flagNumber (n : Word)
  /-- SBIT or CBIT with a bit number of 32 or more (U4). -/
  | bitNumber (n : Word)
  /-- A bit range that runs past bit 31 (U5). Raised by EXBR, DPBR, EXBRV, DPBRV. -/
  | bitRange (d : Word)
  /-- IRET on a frame whose marker is not 40 (U9). -/
  | iretMarker (m : Word)
  /-- IRET from an INTRFAULT handler (R278, log entry 21). -/
  | iretFromIntrFault
  /-- JCOND with a condition the launch parameters do not define (D28, U24). -/
  | jcondCondition (k : Fin 15)
  /-- PHLOAD in system mode (R173, U24). -/
  | phloadInSystemMode
  /-- PHSTORE in system mode (R174, U24). -/
  | phstoreInSystemMode
  /-- CLRPP in system mode (R175, U24). -/
  | clrppInSystemMode
  /-- A word that names PC as an operand register (D29, U24). Raised by the fetch. -/
  | pcOperand
  /-- A word that spells an instruction outside the 27 (R109, U24), or one of the 27 with an operand form the source
  does not show (R103, log entry 34). Raised by the fetch. -/
  | otherInstruction
  /-- A PERI count of zero or less where the spec describes a positive one (U13). -/
  | periCount (n : Word)
  /-- A negative time value for $DATETIME (U13). -/
  | negativeTime (t : Word)
  /-- Misuse of a tape unit to which the operation's rule gives no code (U15). -/
  | tapeMisuse
  /-- $TERMOUTW of a word with a bit above bit 7 set (U16). -/
  | wideCharacter
  /-- $NETSS with a command other than 0 or 1 (U22). -/
  | netCommand (n : Word)
  deriving DecidableEq, Repr

/-- The world at start-up: keyboard and output empty, disc drive 1 of 6000 unwritten blocks (the example
line of R197) and no other, tapes unloaded, network off, clock at the epoch, no host files and no host
inputs. DESIGN CHOICE, log entry 8: the spec gives none of it. -/
def World.reset : World where
  keyboard := []
  output := []
  discs := #v[some ⟨6000, []⟩, none, none, none, none, none, none, none]
  tapes := #v[none, none, none, none, none, none, none, none]
  nets := #v[none, none]
  sent := []
  clock := 0
  files := []
  host := ⟨[], [], []⟩

/-- The machine at start-up: SYS = 1, IP = 1, VM = 0 (R50, R320) and R = 1 (R50). Every other value is a
DESIGN CHOICE (log entries 5, 7, 8, 21): the spec gives none. -/
def State.reset : State where
  gpr := #v[0, 0, 0, 0, 0, 0, 0, 0, 0, 0, 0, 0, 0]
  pc := 0
  flags := { r := true, z := false, n := false, err := false, sys := true, ip := true, vm := false }
  sr := { pdbr := 0, intvec := 0, cgbr := 0, cglen := 0, debug := 0, timer := 0,
          sysSP := 0, sysFP := 0, usrSP := 0, usrFP := 0 }
  mem := []
  world := World.reset
  draws := 0
  faultNesting := none
  cfg := Launch.atReset

end Sys2Proof.Machine
end

