-- ==== Sys2Proof/Machine/Flags.lean ====
section
/-! DEFINITION. The FLAGS word as a view of the seven flags (R21, R36, R45), single flags by number
(R35), and the flag computations of COMP, COMPZ and PERI (R125, R126, R192). -/

namespace Sys2Proof.Machine

/-- The FLAGS word: R in bit 0 up to VM in bit 6, bits 31..7 zero (R36, R45). -/
def Flags.toWord (f : Flags) : Word :=
  (0 : BitVec 25) ++ BitVec.ofBool f.vm ++ BitVec.ofBool f.ip ++ BitVec.ofBool f.sys ++
    BitVec.ofBool f.err ++ BitVec.ofBool f.n ++ BitVec.ofBool f.z ++ BitVec.ofBool f.r

/-- All seven flags at once from bits 6..0 of a word; bits 31..7 are discarded (R21, R45). -/
def Flags.ofWord (w : Word) : Flags where
  r := w.getLsbD 0
  z := w.getLsbD 1
  n := w.getLsbD 2
  err := w.getLsbD 3
  sys := w.getLsbD 4
  ip := w.getLsbD 5
  vm := w.getLsbD 6

/-- One flag (R122). -/
def Flags.get (f : Flags) : Flag → Bool
  | .r => f.r
  | .z => f.z
  | .n => f.n
  | .err => f.err
  | .sys => f.sys
  | .ip => f.ip
  | .vm => f.vm

/-- One flag set to a value (R123). -/
def Flags.set (f : Flags) (k : Flag) (b : Bool) : Flags :=
  match k with
  | .r => { f with r := b }
  | .z => { f with z := b }
  | .n => { f with n := b }
  | .err => { f with err := b }
  | .sys => { f with sys := b }
  | .ip => { f with ip := b }
  | .vm => { f with vm := b }

/-- Z and N written, the other flags kept (R125, R126). -/
def Flags.setZN (f : Flags) (z n : Bool) : Flags := { f with z := z, n := n }

/-- SYS and IP on, the other flags kept: what entering an interrupt and SYSCALL do (R280, R170). -/
def Flags.entering (f : Flags) : Flags := { f with sys := true, ip := true }

/-- R off, the other flags kept: the CPU is halted (R37). -/
def Flags.halted (f : Flags) : Flags := { f with r := false }

/-- The flag a number names, 0 to 6 (R35). -/
def flagOf (n : Word) : Option Flag :=
  match n.toNat with
  | 0 => some .r
  | 1 => some .z
  | 2 => some .n
  | 3 => some .err
  | 4 => some .sys
  | 5 => some .ip
  | 6 => some .vm
  | _ => none

/-- The flags user mode may not write (R44, R123). -/
def flagProtected : Flag → Bool
  | .r => true
  | .sys => true
  | .ip => true
  | .vm => true
  | .z => false
  | .n => false
  | .err => false

/-- The special register a number names, 0 to 10 (R32). -/
def sregOf (n : Word) : Option SReg :=
  match n.toNat with
  | 0 => some .flags
  | 1 => some .pdbr
  | 2 => some .intvec
  | 3 => some .cgbr
  | 4 => some .cglen
  | 5 => some .debug
  | 6 => some .timer
  | 7 => some .sysSP
  | 8 => some .sysFP
  | 9 => some .usrSP
  | 10 => some .usrFP
  | _ => none

/-- Z of COMP: the values are equal (R125). -/
def compareZ (a b : Word) : Bool := a == b

/-- N of COMP where the difference does not overflow: `a` is less than `b` as signed numbers (R125). -/
def compareN (a b : Word) : Bool := decide (a.toInt < b.toInt)

/-- The signed difference `a - b` does not fit 32 bits: N of COMP is then unspecified (U3). -/
def compareOverflows (a b : Word) : Bool :=
  decide (a.toInt - b.toInt < -2 ^ 31) || decide (2 ^ 31 ≤ a.toInt - b.toInt)

/-- Z of COMPZ (R126). -/
def compareZeroZ (a : Word) : Bool := a == 0

/-- N of COMPZ (R126). -/
def compareZeroN (a : Word) : Bool := decide (a.toInt < 0)

/-- ERR after a PERI: 1 exactly when its result is negative (R190, R192). -/
def errOf (result : Word) : Bool := decide (result.toInt < 0)

/-- A set of FLAGS words, one bit for each of the 128, holds the word of these flags (D28). -/
def inFlagSet (set : BitVec 128) (f : Flags) : Bool := set.getLsbD f.toWord.toNat

end Sys2Proof.Machine
end

