-- ==== Sys2Proof/Machine/Ops.lean ====
section
/-! DEFINITION. The shared operations of the machine: the result of a part of an instruction, memory and
translation (20_memory.md), registers with their banks (10_state.md), the stack (R153), free values, and
signalling, entering and completing (60_exceptions.md). -/

namespace Sys2Proof.Machine

/-! ## Results of parts of an instruction -/

/-- Why a step ends without a next state. -/
inductive Stop where
  | fault (f : Fault)
  | refusal (r : Refusal)
  deriving DecidableEq, Repr

/-- A stop as the outcome of a step. -/
def Stop.outcome : Stop → Host.Outcome State Fault Refusal
  | .fault f => .fault f
  | .refusal r => .refused r

/-- What a part of an instruction gives: a value, an interrupt it raises (`raise Interrupt(code, addr,
info)` of R7, `none` for "-"), or a stop. -/
inductive Res (α : Type) where
  | ok (a : α)
  | raise (c : Cause) (addr info : Option Word)
  | stop (x : Stop)
  deriving DecidableEq, Repr

/-- The next part, run when the first gave a value; a raise abandons the rest (R7). -/
def Res.bind {α β : Type} (x : Res α) (k : α → Res β) : Res β :=
  match x with
  | .ok a => k a
  | .raise c addr info => .raise c addr info
  | .stop y => .stop y

/-! ## Updates of the state, one field each -/

def State.setGpr (s : State) (g : Vector Word 13) : State := { s with gpr := g }
def State.setPc (s : State) (v : Word) : State := { s with pc := v }
def State.setFlags (s : State) (f : Flags) : State := { s with flags := f }
def State.setSpecials (s : State) (x : SpecialRegs) : State := { s with sr := x }
def State.setMem (s : State) (m : Memory) : State := { s with mem := m }
def State.setWorld (s : State) (w : World) : State := { s with world := w }
def State.setDraws (s : State) (n : Nat) : State := { s with draws := n }
def State.setFaultNesting (s : State) (n : Option Nat) : State := { s with faultNesting := n }

/-- The pc moved to the next instruction: every instruction is one word (R15, R100). -/
def State.advance (s : State) : State := s.setPc (s.pc + 1)

/-! ## Free values -/

/-- A word the spec leaves undefined, and the state with that draw made. -/
def drawWord (s : State) : Word × State := (Config.freeWord s.draws, s.setDraws (s.draws + 1))

/-- A bit the spec leaves undefined, and the state with that draw made. -/
def drawBit (s : State) : Bool × State := (Config.freeBit s.draws, s.setDraws (s.draws + 1))

/-- `k` free words. -/
def drawWords : Nat → State → List Word × State
  | 0, s => ([], s)
  | k + 1, s =>
    let (w, s1) := drawWord s
    let (ws, s2) := drawWords k s1
    (w :: ws, s2)

/-- A free number of 0 to `n`. -/
def drawUpTo (n : Nat) (s : State) : Nat × State :=
  let (w, s1) := drawWord s
  (w.toNat % (n + 1), s1)

/-- The word given, or a free one where none is defined (R281, U20). -/
def orFree (x : Option Word) (s : State) : Word × State :=
  match x with
  | some w => (w, s)
  | none => drawWord s

/-! ## Physical memory (R60, R61, R64) -/

/-- The word at an address, `none` where no entry lists it. -/
def Memory.read : Memory → Nat → Option Word
  | [], _ => none
  | (b, w) :: m, a => if a = b then some w else Memory.read m a

/-- The word at an address replaced, keeping addresses strictly rising. -/
def Memory.write : Memory → Nat → Word → Memory
  | [], a, v => [(a, v)]
  | (b, w) :: m, a, v =>
    if a < b then (a, v) :: (b, w) :: m
    else if a = b then (a, v) :: m
    else (b, w) :: Memory.write m a v

/-- The canonical form of a memory: addresses strictly rising. -/
abbrev Memory.wf (m : Memory) : Prop := (m.map Prod.fst).Pairwise (· < ·)

/-- `PhysValid` (R61, decision D7). -/
def physValid (s : State) (pa : Word) : Bool := decide (pa.toNat < s.cfg.physWords)

/-- `PhysRead(pa, 1)` (R64). A word nothing has written since launch stops the model (U21, log entry 6). -/
def physRead (s : State) (pa : Word) : Res Word :=
  if physValid s pa then
    match Memory.read s.mem pa.toNat with
    | some w => .ok w
    | none => .stop (.fault (.unwritten pa.toNat))
  else .raise .memory (some pa) none

/-! ## Translation (R66 to R77) -/

/-- `DIR`: the page table number, bits 31..22 of a virtual address (R67). -/
def dirOf (a : Word) : Word := (a >>> 22) &&& 0x3FF

/-- `PG`: the page number, bits 21..11 (R67). -/
def pgOf (a : Word) : Word := (a >>> 11) &&& 0x7FF

/-- `OFFS`: the offset, bits 10..0 (R67). -/
def offsOf (a : Word) : Word := a &&& 0x7FF

/-- The physical address of the directory entry of a virtual address; the low ten bits of PDBR are
ignored (R68, C3). -/
def dirEntryAddr (s : State) (a : Word) : Word := (s.sr.pdbr &&& 0xFFFFFC00) + dirOf a

/-- The physical address of the table entry of a virtual address, from its directory entry (R69, R72). -/
def tableEntryAddr (dirEntry a : Word) : Word := pgOf a + (dirEntry &&& 0xFFFFF800)

/-- Bit 0 of a table entry: Resident or Valid (R70). -/
def resident (entry : Word) : Bool := entry.getLsbD 0

/-- Bit 1 of a table entry: System (R70). -/
def systemPage (entry : Word) : Bool := entry.getLsbD 1

/-- The physical address a table entry gives for a virtual address (R70, R72). -/
def physOf (entry a : Word) : Word := (entry &&& 0xFFFFF800) + offsOf a

/-- `Translate(A)`, the MEMORY ACCESS ALGORITHM (R72). -/
def translate (s : State) (a : Word) : Res Word :=
  if s.flags.vm then
    (physRead s (dirEntryAddr s a)).bind fun dirEntry =>
      if dirEntry = 0 then .raise .pagefault (some a) none
      else
        (physRead s (tableEntryAddr dirEntry a)).bind fun entry =>
          if !resident entry then .raise .pagefault (some a) none
          else if systemPage entry && !s.flags.sys then .raise .pagepriv (some a) none
          else .ok (physOf entry a)
  else .ok a

/-- `MemRead(a, 1)` (R7). -/
def memRead (s : State) (a : Word) : Res Word := (translate s a).bind (physRead s)

/-- The physical address a store to `a` writes: translated, and one that exists (R64, R66). -/
def target (s : State) (a : Word) : Res Word :=
  (translate s a).bind fun pa =>
    if physValid s pa then .ok pa else .raise .memory (some pa) none

/-- The word at a physical address replaced. -/
def State.poke (s : State) (pa : Word) (v : Word) : State :=
  s.setMem (Memory.write s.mem pa.toNat v)

/-- `MemWrite(a, 1, v)` (R7, R64). -/
def memWrite (s : State) (a v : Word) : Res State :=
  (target s a).bind fun pa => .ok (s.poke pa v)

/-- `n` consecutive words from `a`, address by address. -/
def readWords (s : State) : Word → Nat → Res (List Word)
  | _, 0 => .ok []
  | a, n + 1 => (memRead s a).bind fun w => (readWords s (a + 1) n).bind fun ws => .ok (w :: ws)

/-! ## Registers (R12 to R15, R20 to R34) -/

/-- `x[SP]`: SYSSP in system mode, USRSP in user mode (R13). -/
def State.sp (s : State) : Word := if s.flags.sys then s.sr.sysSP else s.sr.usrSP

/-- `x[FP]`: SYSFP in system mode, USRFP in user mode (R14). -/
def State.fp (s : State) : Word := if s.flags.sys then s.sr.sysFP else s.sr.usrFP

/-- `x[SP] <- v` (R13). -/
def State.setSP (s : State) (v : Word) : State :=
  if s.flags.sys then s.setSpecials { s.sr with sysSP := v }
  else s.setSpecials { s.sr with usrSP := v }

/-- `x[FP] <- v` (R14). -/
def State.setFP (s : State) (v : Word) : State :=
  if s.flags.sys then s.setSpecials { s.sr with sysFP := v }
  else s.setSpecials { s.sr with usrFP := v }

/-- `x[r]` (R7). -/
def State.getReg (s : State) : Reg → Word
  | .gp n => s.gpr[n]
  | .sp => s.sp
  | .fp => s.fp

/-- `x[r] <- v` (R7). -/
def State.setReg (s : State) (r : Reg) (v : Word) : State :=
  match r with
  | .gp n => s.setGpr (s.gpr.set n v)
  | .sp => s.setSP v
  | .fp => s.setFP v

/-- `SR[n]` (R120). -/
def State.getSpecial (s : State) : SReg → Word
  | .flags => s.flags.toWord
  | .pdbr => s.sr.pdbr
  | .intvec => s.sr.intvec
  | .cgbr => s.sr.cgbr
  | .cglen => s.sr.cglen
  | .debug => s.sr.debug
  | .timer => s.sr.timer
  | .sysSP => s.sr.sysSP
  | .sysFP => s.sr.sysFP
  | .usrSP => s.sr.usrSP
  | .usrFP => s.sr.usrFP

/-- `SR[n] <- v`; FLAGS takes bits 6..0 and discards the rest (R121, R45). -/
def State.setSpecial (s : State) (k : SReg) (v : Word) : State :=
  match k with
  | .flags => s.setFlags (Flags.ofWord v)
  | .pdbr => s.setSpecials { s.sr with pdbr := v }
  | .intvec => s.setSpecials { s.sr with intvec := v }
  | .cgbr => s.setSpecials { s.sr with cgbr := v }
  | .cglen => s.setSpecials { s.sr with cglen := v }
  | .debug => s.setSpecials { s.sr with debug := v }
  | .timer => s.setSpecials { s.sr with timer := v }
  | .sysSP => s.setSpecials { s.sr with sysSP := v }
  | .sysFP => s.setSpecials { s.sr with sysFP := v }
  | .usrSP => s.setSpecials { s.sr with usrSP := v }
  | .usrFP => s.setSpecials { s.sr with usrFP := v }

/-! ## The stack (R153) -/

/-- `Push(v)`: SP lowered by one, then the word stored at the new SP. A push that raises changes
nothing (D38): the state is discarded with the raise. -/
def push (s : State) (v : Word) : Res State := memWrite (s.setSP (s.sp - 1)) (s.sp - 1) v

/-- `Pop()`: the word at SP and the state with SP raised by one. -/
def pop (s : State) : Res (Word × State) :=
  (memRead s s.sp).bind fun v => .ok (v, s.setSP (s.sp + 1))

/-- What a sequence of pushes comes to: all done, or a push that raised, with the state it left
(earlier words stored, SP as far down as it got) and what it raised. -/
inductive Pushed where
  | done (s : State)
  | failed (s : State) (c : Cause) (addr : Option Word)
  | stop (x : Stop)
  deriving DecidableEq, Repr

/-- The words pushed in order, as the entry sequences push them (R280, R170). -/
def pushAll : List Word → State → Pushed
  | [], s => .done s
  | v :: vs, s =>
    match push s v with
    | .ok t => pushAll vs t
    | .raise c addr _ => .failed (s.setSP (s.sp - 1)) c addr
    | .stop x => .stop x

/-! ## Signalling and entering an interrupt (60_exceptions.md) -/

/-- The code of a cause: its position in the interrupt vector (R260). -/
def Cause.code : Cause → Word
  | .memory => 1
  | .pagefault => 2
  | .unimpop => 3
  | .halt => 4
  | .divzero => 5
  | .unwrop => 6
  | .timer => 7
  | .privop => 8
  | .keybd => 9
  | .badcall => 10
  | .pagepriv => 11
  | .debug => 12
  | .intrfault => 13

/-- The two kinds: fatal, or (TIMER, KEYBD, DEBUG) notification (R261, decision D16). -/
def Cause.fatal : Cause → Bool
  | .timer => false
  | .keybd => false
  | .debug => false
  | .memory => true
  | .pagefault => true
  | .unimpop => true
  | .halt => true
  | .divzero => true
  | .unwrop => true
  | .privop => true
  | .badcall => true
  | .pagepriv => true
  | .intrfault => true

/-- `FatalStop(code, addr, info)`: R cleared, all other state as it was (R273). -/
def fatalStop (s : State) (c : Cause) (addr info : Option Word) : Stop :=
  .fault (.fatalStop c addr info (s.setFlags s.flags.halted))

/-- What signalling a cause comes to: a handler entered, nothing, or a stop. -/
inductive Signalled where
  | entered (s : State)
  | ignored
  | stopped (x : Stop)
  deriving DecidableEq, Repr

/-- The vector entry of a cause, read at its physical address (R23, R73). -/
def vectorEntry (s : State) (c : Cause) : Res Word := physRead s (s.sr.intvec + c.code)

/-- SYS and IP turned on (R280, R170). -/
def State.entering (s : State) : State := s.setFlags s.flags.entering

/-- R0 to R12 in push order. -/
def State.gprList (s : State) : List Word := s.gpr.toList

/-- The words an entry pushes first: R0 to R12, then SP and FP of the system bank, then a PC (R280).
Called with SYS on. `spSlot` is the word "PUSH SP" stores (U6). -/
def savedRegs (s : State) (spSlot savedPc : Word) : List Word :=
  s.gprList ++ [spSlot, s.sr.sysFP, savedPc]

/-- The word "PUSH SP" stores in an entry sequence: SYSSP as it stands after the thirteen register
pushes, before or after its own decrement, a free choice of the two (U6, decision D14, log entry 17). -/
def drawSpSlot (s : State) : Word × State :=
  let (before, s1) := drawBit s
  (if before then s.sr.sysSP - 13 else s.sr.sysSP - 14, s1)

/-- `faultNesting` once a handler has been entered from a state: one deeper inside an INTRFAULT handler that
runs in system mode; a handler that has gone on to user mode is over (log entry 21). -/
def nestingOnEntry (s : State) : Option Nat :=
  if s.flags.sys then s.faultNesting.map (· + 1) else none

/-- `IntrFault(orig, addr)` (R278), from the state the failed entry left. `addrWord` is the word the frame
holds as address, the original interrupt's. Every other word of the frame but the code, the info and the
40 is free (U11). -/
def intrFault (s : State) (orig : Cause) (addr : Option Word) (addrWord : Word) : Signalled :=
  let dead : Signalled := .stopped (fatalStop s .intrfault addr (some orig.code))
  match vectorEntry s .intrfault with
  | .raise _ _ _ => dead
  | .stop x => .stopped x
  | .ok h =>
    if h = 0 then dead
    else
      let (saved, s1) := drawWords 16 s.entering
      let (oldflags, s2) := drawWord s1
      match pushAll (saved ++ [orig.code, addrWord, Cause.intrfault.code, oldflags, 40]) s2 with
      | .failed _ _ _ => dead
      | .stop x => .stopped x
      | .done t =>
        match vectorEntry t .intrfault with
        | .ok h' => .entered ((t.setFaultNesting (some 0)).setPc h')
        | .raise _ _ _ => dead
        | .stop x => .stopped x

/-- `Enter(code, addr, info)` (R280): flags saved, SYS and IP on, 21 words pushed on the system stack, pc
from the interrupt vector; an address or info that is not defined is a free word (R281, U20). -/
def enter (s : State) (c : Cause) (addr info : Option Word) (savedPc : Word) : Signalled :=
  let (addrWord, s1) := orFree addr s
  let (infoWord, s2) := orFree info s1
  let (spSlot, s3) := drawSpSlot s2
  match pushAll (savedRegs s spSlot savedPc ++ [infoWord, addrWord, c.code, s.flags.toWord, 40])
      s3.entering with
  | .failed t _ _ => intrFault t c addr addrWord
  | .stop x => .stopped x
  | .done t =>
    match vectorEntry t c with
    | .ok h => .entered ((t.setFaultNesting (nestingOnEntry s)).setPc h)
    | .raise _ _ _ => intrFault t c addr addrWord
    | .stop x => .stopped x

/-- `Signal(code, addr, info)` (R270 to R272, R279). -/
def signal (s : State) (c : Cause) (addr info : Option Word) (savedPc : Word) : Signalled :=
  if s.flags.ip then
    if c.fatal then .stopped (fatalStop s c addr info) else .ignored
  else
    match vectorEntry s c with
    | .raise _ _ _ =>
      let (addrWord, s1) := orFree addr s
      intrFault s1 c addr addrWord
    | .stop x => .stopped x
    | .ok h =>
      if h = 0 then
        if c.fatal then .stopped (fatalStop s c addr info) else .ignored
      else enter s c addr info savedPc

/-- `trap_saved_pc(code)`: the PC the entry for a synchronous cause saves, `here` or `here + 1` (R280,
decision D15). -/
def trapSavedPc (s : State) (c : Cause) : Word :=
  if s.cfg.trapSavesNext.getLsbD c.code.toNat then s.pc + 1 else s.pc

/-- A raise abandons its instruction with nothing changed (R287) and is signalled (R288). Every cause an
instruction raises is fatal, so `ignored` does not arise from one. -/
def takeException (s : State) (c : Cause) (addr info : Option Word) : Host.Outcome State Fault Refusal :=
  match signal s c addr info (trapSavedPc s c) with
  | .entered t => .next t
  | .ignored => .next s
  | .stopped x => x.outcome

/-! ## Completing an instruction -/

/-- The TIMER register one lower. -/
def State.countDown (s : State) : State := s.setSpecials { s.sr with timer := s.sr.timer - 1 }

/-- `TimerTick` (R294), run after each instruction that completed without raising. A CPU that the
instruction halted "ticks no timer and takes no interrupt" (R298, log entry 18). -/
def complete (s : State) : Host.Outcome State Fault Refusal :=
  if s.flags.r && s.sr.timer != 0 then
    if s.countDown.sr.timer = 0 then
      match signal s.countDown .timer none none s.pc with
      | .entered t => .next t
      | .ignored => .next s.countDown
      | .stopped x => x.outcome
    else .next s.countDown
  else .next s

/-- The end of an instruction run at `s`: completed, an exception taken, or a stop (R288). -/
def finish (s : State) (x : Res State) : Host.Outcome State Fault Refusal :=
  match x with
  | .ok t => complete t
  | .raise c addr info => takeException s c addr info
  | .stop y => y.outcome

/-- A privileged instruction: PRIVOP in user mode before anything else it does (R176). -/
def privileged (s : State) (body : Res State) : Res State :=
  if s.flags.sys then body else .raise .privop (some s.pc) none

end Sys2Proof.Machine
end

