-- ==== Sys2Proof/Machine/Operands.lean ====
section
/-! DEFINITION. Operands: effective addresses, values, stores, and the places of the bit-range
instructions (R103 to R105, R112, R143 to R146). -/

namespace Sys2Proof.Machine

/-- The effective address of a memory operand; `none` for a constant or a register (R103, R112). -/
def effAddr (s : State) : Operand → Option Word
  | .const _ => none
  | .reg _ => none
  | .base r => some (s.getReg r)
  | .baseDisp r n => some (s.getReg r + n)
  | .abs n => some n

/-- `Val(op)` (R104). -/
def val (s : State) : Operand → Res Word
  | .const n => .ok n
  | .reg r => .ok (s.getReg r)
  | .base r => memRead s (s.getReg r)
  | .baseDisp r n => memRead s (s.getReg r + n)
  | .abs n => memRead s n

/-- `Store(op, v)`; a constant operand raises UNWROP (R105). -/
def storeOperand (s : State) (op : Operand) (v : Word) : Res State :=
  match op with
  | .const _ => .raise .unwrop (some s.pc) none
  | .reg r => .ok (s.setReg r v)
  | .base r => memWrite s (s.getReg r) v
  | .baseDisp r n => memWrite s (s.getReg r + n) v
  | .abs n => memWrite s n v

/-- A place of a bit-range instruction, as an operand (R143 to R146, decision D44). -/
def placeOperand (r : Reg) (op : Operand) : Place → Operand
  | .main => .reg r
  | .operand => op
  | .implied q => .reg q

/-- The special register an operand's value names (R120, R121, U1). -/
def specialOf (n : Word) : Res SReg :=
  match sregOf n with
  | some k => .ok k
  | none => .stop (.refusal (.specialRegisterNumber n))

/-- The flag an operand's value names (R122, R123, U2). -/
def flagNumbered (n : Word) : Res Flag :=
  match flagOf n with
  | some k => .ok k
  | none => .stop (.refusal (.flagNumber n))

/-- The one-bit mask of a bit number (R128, R129, U4). -/
def bitMask (n : Word) : Res Word :=
  if n.toNat < 32 then .ok ((1 : Word) <<< n.toNat) else .stop (.refusal (.bitNumber n))

end Sys2Proof.Machine
end

