-- ==== Sys2Proof/Machine/BitRangeFamily.lean ====
section
/-! DEFINITION. Bit-range instructions (41_bit_range_instructions.md): the descriptor, `Extract` and
`Deposit`, and EXBR, DPBR, EXBRV, DPBRV with the operand roles of the launch parameter (D44). -/

namespace Sys2Proof.Machine

/-- `len`: bits 4..0 of a descriptor, 0 standing for 32 (R140). -/
def rangeLen (d : Word) : Nat :=
  if (d.extractLsb' 0 5).toNat = 0 then 32 else (d.extractLsb' 0 5).toNat

/-- `sh`: bits 9..5, the number of bits to the right of the range (R140). -/
def rangeShift (d : Word) : Nat := (d.extractLsb' 5 5).toNat

/-- `skip`: bits 31..10, the number of whole words to skip, unsigned (R140). -/
def rangeSkip (d : Word) : Word := (d.extractLsb' 10 22).zeroExtend 32

/-- The range lies within its word (R141). -/
def rangeFits (d : Word) : Bool := decide (rangeShift d + rangeLen d ≤ 32)

/-- `2^len - 1` as a word. -/
def rangeMask (d : Word) : Word := BitVec.ofNat 32 (2 ^ rangeLen d - 1)

/-- `Extract(w, D)` for a range that fits: right-aligned, zero-filled (R141). -/
def extractRange (w d : Word) : Word := (w >>> rangeShift d) &&& rangeMask d

/-- `Deposit(w, D, v)` for a range that fits (R142). -/
def depositRange (w d v : Word) : Word :=
  (w &&& ~~~(rangeMask d <<< rangeShift d)) ||| ((v &&& rangeMask d) <<< rangeShift d)

/-- The descriptor's range, refused where it runs past bit 31 (U5). -/
def fittingRange (d : Word) : Res Word :=
  if rangeFits d then .ok d else .stop (.refusal (.bitRange d))

/-- EXBR with given places (R143). -/
def extractAt (p : BitPlaces) (r : Reg) (op : Operand) (s : State) : Res State :=
  (val s (placeOperand r op p.word)).bind fun w =>
    (val s (placeOperand r op p.desc)).bind fun d =>
      (fittingRange d).bind fun d =>
        (storeOperand s (placeOperand r op p.data) (extractRange w d)).bind fun t => .ok t.advance

/-- DPBR with given places (R144): the word is also the destination. Where that is a constant and the range
runs past bit 31, both UNWROP (R105, R267) and the refusal of U5 apply and the spec gives no order: the model
refuses, since no word to store has then been defined (DESIGN CHOICE, log entry 4). -/
def depositAt (p : BitPlaces) (r : Reg) (op : Operand) (s : State) : Res State :=
  (val s (placeOperand r op p.word)).bind fun w =>
    (val s (placeOperand r op p.desc)).bind fun d =>
      (val s (placeOperand r op p.data)).bind fun v =>
        (fittingRange d).bind fun d =>
          (storeOperand s (placeOperand r op p.word) (depositRange w d v)).bind fun t =>
            .ok t.advance

/-- EXBRV with given places (R145): the word worked on is the one `skip` words after the address,
read before the range is looked at. -/
def extractVectorAt (p : BitPlaces) (r : Reg) (op : Operand) (s : State) : Res State :=
  (val s (placeOperand r op p.word)).bind fun a =>
    (val s (placeOperand r op p.desc)).bind fun d =>
      (memRead s (a + rangeSkip d)).bind fun w =>
        (fittingRange d).bind fun d =>
          (storeOperand s (placeOperand r op p.data) (extractRange w d)).bind fun t => .ok t.advance

/-- DPBRV with given places (R146): a read and a write of one word, the read before the range is looked at. -/
def depositVectorAt (p : BitPlaces) (r : Reg) (op : Operand) (s : State) : Res State :=
  (val s (placeOperand r op p.word)).bind fun a =>
    (val s (placeOperand r op p.desc)).bind fun d =>
      (val s (placeOperand r op p.data)).bind fun v =>
        (memRead s (a + rangeSkip d)).bind fun w =>
          (fittingRange d).bind fun d =>
            (memWrite s (a + rangeSkip d) (depositRange w d v)).bind fun t => .ok t.advance

/-- EXBR (R143). -/
def execExbr (r : Reg) (op : Operand) (s : State) : Host.Outcome State Fault Refusal :=
  finish s (extractAt s.cfg.roles.exbr r op s)

/-- DPBR (R144). -/
def execDpbr (r : Reg) (op : Operand) (s : State) : Host.Outcome State Fault Refusal :=
  finish s (depositAt s.cfg.roles.dpbr r op s)

/-- EXBRV (R145). -/
def execExbrv (r : Reg) (op : Operand) (s : State) : Host.Outcome State Fault Refusal :=
  finish s (extractVectorAt s.cfg.roles.exbrv r op s)

/-- DPBRV (R146). -/
def execDpbrv (r : Reg) (op : Operand) (s : State) : Host.Outcome State Fault Refusal :=
  finish s (depositVectorAt s.cfg.roles.dpbrv r op s)

end Sys2Proof.Machine
end

