-- ==== Sys2Proof/Machine/GeneralFamily.lean ====
section
/-! DEFINITION. The general instructions (42_general_instructions.md): LOAD, STORE, PUSH, INC, CALL, RET. -/

namespace Sys2Proof.Machine

/-- LOAD (R150). -/
def execLoad (r : Reg) (op : Operand) (s : State) : Host.Outcome State Fault Refusal :=
  finish s ((val s op).bind fun v => .ok (s.setReg r v).advance)

/-- STORE (R151). -/
def execStore (r : Reg) (op : Operand) (s : State) : Host.Outcome State Fault Refusal :=
  finish s ((storeOperand s op (s.getReg r)).bind fun t => .ok t.advance)

/-- The value PUSH pushes: its operand's, read first; for `PUSH SP` a free choice of SP before and after
the decrement (R152, U6, log entry 17). -/
def pushValue (s : State) (op : Operand) : Res (Word × State) :=
  if op = .reg .sp then
    let (before, t) := drawBit s
    .ok (if before then s.sp else s.sp - 1, t)
  else (val s op).bind fun v => .ok (v, s)

/-- PUSH (R152). -/
def execPush (op : Operand) (s : State) : Host.Outcome State Fault Refusal :=
  finish s ((pushValue s op).bind fun vt => (push vt.2 vt.1).bind fun u => .ok u.advance)

/-- Z and N replaced by free bits (U7). -/
def freeZN (s : State) : State :=
  let (z, s1) := drawBit s
  let (n, s2) := drawBit s1
  s2.setFlags (s.flags.setZN z n)

/-- INC (R154): one more, modulo 2^32; Z and N are free afterwards (U7). -/
def execInc (op : Operand) (s : State) : Host.Outcome State Fault Refusal :=
  finish s ((val s op).bind fun v =>
    (storeOperand s op (v + 1)).bind fun t => .ok (freeZN t).advance)

/-- CALL (R155): the target first, then `here + 1` pushed. -/
def execCall (op : Operand) (s : State) : Host.Outcome State Fault Refusal :=
  finish s ((val s op).bind fun t => (push s (s.pc + 1)).bind fun u => .ok (u.setPc t))

/-- RET (R156). -/
def execRet (s : State) : Host.Outcome State Fault Refusal :=
  finish s ((pop s).bind fun vt => .ok (vt.2.setPc vt.1))

end Sys2Proof.Machine
end

