-- ==== Sys2Proof/Machine/Peripheral.lean ====
section
/-! DEFINITION. What all PERI operations share (44_peri_disc_tape.md section 1): the operation codes, the
error codes, reading the control structure, moving words and packed bytes between memory and a device, the
host's answers, and the free values that a failed operation leaves (U10). -/

namespace Sys2Proof.Machine

/-- What a PERI operation gives: the result word and the state; a raise does not occur in it. -/
abbrev PeriRes := Res (Word × State)

/-! ## Codes -/

/-- The position of an operation's number in the launch parameter `periCode`. -/
def periIndex : PeriOp → Fin 20
  | .discCheck => 0
  | .discRead => 1
  | .discWrite => 2
  | .tapeCheck => 3
  | .tapeRewind => 4
  | .tapeLoad => 5
  | .tapeLength => 6
  | .tapeUnload => 7
  | .tapeRead => 8
  | .tapeWrite => 9
  | .termInC => 10
  | .termOutC => 11
  | .termInW => 12
  | .termOutW => 13
  | .netSS => 14
  | .netSend => 15
  | .netRecv => 16
  | .seconds => 17
  | .useconds => 18
  | .dateTime => 19

/-- The twenty operations. -/
def periOps : List PeriOp :=
  [.discCheck, .discRead, .discWrite, .tapeCheck, .tapeRewind, .tapeLoad, .tapeLength, .tapeUnload,
   .tapeRead, .tapeWrite, .termInC, .termOutC, .termInW, .termOutW, .netSS, .netSend, .netRecv,
   .seconds, .useconds, .dateTime]

/-- `peri_code(op)` (R191). -/
def periCodeOf (s : State) (o : PeriOp) : Word := s.cfg.periCode[periIndex o]

/-- The operation whose number a word is; `none` where the code is not recognised (R193). -/
def periOpOf (s : State) (w : Word) : Option PeriOp := periOps.find? fun o => periCodeOf s o == w

/-! The error codes (R194). -/

def errBadCode : Word := BitVec.ofInt 32 (-1)
def errReadParams : Word := BitVec.ofInt 32 (-2)
def errDevNumber : Word := BitVec.ofInt 32 (-3)
def errPosition : Word := BitVec.ofInt 32 (-4)
def errMemory : Word := BitVec.ofInt 32 (-5)
def errDevFailed : Word := BitVec.ofInt 32 (-6)
def errNotFound : Word := BitVec.ofInt 32 (-7)
def errBadParam : Word := BitVec.ofInt 32 (-8)
def errInUse : Word := BitVec.ofInt 32 (-9)
def errNoData : Word := BitVec.ofInt 32 (-11)

/-- An operation that ends with a result. -/
def answer (code : Word) (s : State) : PeriRes := .ok (code, s)

/-- A successful result the spec does not state: a free word that is zero or positive (U18). -/
def answerUnstated (s : State) : PeriRes :=
  let (w, t) := drawWord s
  .ok (w &&& 0x7FFFFFFF, t)

/-- A successful result that is a count: the spec gives its value and says that success is zero or positive
(R192). It does not say what a count of 2^31 or more, which no word holds as a positive number, gives: the
result is then a free word that is zero or positive (DESIGN CHOICE, log entry 36). -/
def answerCount (n : Nat) (s : State) : PeriRes :=
  if n < 2 ^ 31 then answer (BitVec.ofNat 32 n) s else answerUnstated s

/-- A memory access inside an operation: a failure is no interrupt but ends the operation (R87). -/
def access {α : Type} (x : Res α) (failed : PeriRes) (k : α → PeriRes) : PeriRes :=
  match x with
  | .ok a => k a
  | .raise _ _ _ => failed
  | .stop y => .stop y

/-- `cs[k]`: one word of the control structure (R191). -/
def param (s : State) (cs : Word) (k : Nat) : Res Word := memRead s (cs + BitVec.ofNat 32 k)

/-- `cs[1]`, or -2 (R195). -/
def withParam1 (s : State) (cs : Word) (k : Word → PeriRes) : PeriRes :=
  access (param s cs 1) (answer errReadParams s) k

/-- `cs[1]`, `cs[2]`, or -2. -/
def withParams2 (s : State) (cs : Word) (k : Word → Word → PeriRes) : PeriRes :=
  withParam1 s cs fun a => access (param s cs 2) (answer errReadParams s) fun b => k a b

/-- `cs[1]` to `cs[3]`, or -2. -/
def withParams3 (s : State) (cs : Word) (k : Word → Word → Word → PeriRes) : PeriRes :=
  withParams2 s cs fun a b => access (param s cs 3) (answer errReadParams s) fun c => k a b c

/-- `cs[1]` to `cs[4]`, or -2. -/
def withParams4 (s : State) (cs : Word) (k : Word → Word → Word → Word → PeriRes) : PeriRes :=
  withParams3 s cs fun a b c => access (param s cs 4) (answer errReadParams s) fun d => k a b c d

/-! ## Packed bytes (R62, R213) -/

/-- Up to four bytes packed in a word, the first in the least significant bits (R62). -/
def packWord : List Byte → Word
  | [] => 0
  | b :: bs => b.zeroExtend 32 ||| (packWord bs <<< 8)

/-- The four bytes of a word, the first in the least significant bits (R62). -/
def unpackWord (w : Word) : List Byte :=
  [w.extractLsb' 0 8, w.extractLsb' 8 8, w.extractLsb' 16 8, w.extractLsb' 24 8]

/-- Bytes in groups of four; the last group may be shorter. -/
def chunks : List Byte → List (List Byte)
  | a :: b :: c :: d :: rest => [a, b, c, d] :: chunks rest
  | [] => []
  | short => [short]

/-- One word to be stored: the bits of `mask` are defined by `value`, the others are free. -/
structure Item where
  value : Word
  mask : Word
  deriving DecidableEq, Repr

/-- A word defined whole. -/
def Item.exact (w : Word) : Item := ⟨w, 0xFFFFFFFF⟩

/-- A word not defined at all (U12, U14). -/
def Item.undefined : Item := ⟨0, 0⟩

/-- Up to four bytes in the low bits of a word; the bits above them are not defined (U14). -/
def Item.ofBytes (bs : List Byte) : Item := ⟨packWord bs, packWord (bs.map fun _ => 0xFF)⟩

/-- The word an item stores. -/
def Item.draw (i : Item) (s : State) : Word × State :=
  if i.mask = 0xFFFFFFFF then (i.value, s)
  else
    let (w, t) := drawWord s
    ((i.value &&& i.mask) ||| (w &&& ~~~i.mask), t)

/-- The `n` words from an address can all be stored to. -/
def reachable (s : State) : Word → Nat → Res Unit
  | _, 0 => .ok ()
  | a, n + 1 => (target s a).bind fun _ => reachable s (a + 1) n

/-- Items stored at consecutive addresses, one access at a time (R80, R87). -/
def storeItems : List Item → Word → State → Res State
  | [], _, s => .ok s
  | i :: is, a, s =>
    let (w, t) := i.draw s
    (memWrite t a w).bind fun u => storeItems is (a + 1) u

/-- The words read before the first that cannot be, at most `n` of them. -/
def readablePrefix (s : State) : Word → Nat → List Word
  | _, 0 => []
  | a, n + 1 =>
    match memRead s a with
    | .ok w => w :: readablePrefix s (a + 1) n
    | .raise _ _ _ => []
    | .stop _ => []

/-- How many addresses there are: no string is longer. -/
def addressSpace : Nat := 2 ^ 32

/-- The bytes of a zero-terminated packed string, up to and without its zero byte (R62). -/
def readString (s : State) : Word → Nat → Res (List Byte)
  | _, 0 => .stop (.fault .endlessString)
  | a, n + 1 =>
    (memRead s a).bind fun w =>
      if (unpackWord w).contains 0 then .ok ((unpackWord w).takeWhile (· != 0))
      else (readString s (a + 1) n).bind fun bs => .ok (unpackWord w ++ bs)

/-! ## What a failed operation leaves (U10) -/

/-- The addresses of `n` words from `a`. -/
def addressRange (a : Word) (n : Nat) : List Word :=
  (List.range n).map fun k => a + BitVec.ofNat 32 k

/-- A free word stored at a physical address. -/
def scribbleAt (s : State) (pa : Word) : State :=
  let (w, t) := drawWord s
  t.poke pa w

/-- The places that stores to addresses in turn lead to, each translated by the tables as the stores before it
have left them (R77), with a free word in each; an address that leads nowhere is passed over. So is an address whose
table walk reads a word that nothing has written: this search for the words to free is no access of the operation,
and does not stop as the operation's own reads do (log entry 6), so the words such an address could lead to stay as
they were (DESIGN CHOICE, log entry 23). Also the state after those stores. -/
def scribblePlaces : List Word → State → List Word × State
  | [], s => ([], s)
  | a :: as, s =>
    match target s a with
    | .ok pa =>
      let (pas, t) := scribblePlaces as (scribbleAt s pa)
      (pa :: pas, t)
    | .raise _ _ _ => scribblePlaces as s
    | .stop _ => scribblePlaces as s

/-- The places that items stored at consecutive addresses reach before the first access that fails, and the state
those stores and their draws leave (R80, R87). -/
def storedPlaces : List Item → Word → State → List Word × State
  | [], _, s => ([], s)
  | i :: is, a, s =>
    let (w, t) := i.draw s
    match target t a with
    | .ok pa =>
      let (pas, u) := storedPlaces is (a + 1) (t.poke pa w)
      (pa :: pas, u)
    | .raise _ _ _ => ([], t)
    | .stop _ => ([], t)

/-- The places already stored to, and every other word that stores to addresses in turn could have written, get
free values (U10). With VM on these are also words reached through page tables that the stores themselves overwrote
(R77, R87): a free word in a table stands for whatever the operation had stored there. -/
def scribbleOver (done : List Word) (as : List Word) (s : State) : State :=
  let (pas, t) := scribblePlaces as s
  (done ++ pas).foldl scribbleAt t

/-- Every word that stores to addresses in turn could have written gets a free value (U10). -/
def scribbleAll (s : State) (as : List Word) : State := scribbleOver [] as s

/-- Every word of the range that a store could have written gets a free value (U10). -/
def scribble (s : State) (a : Word) (n : Nat) : State := scribbleAll s (addressRange a n)

/-- What a transfer of items leaves that failed at one of its stores, of a range of `n` words: the places it stored
to, and every other word of the range that it could have written, hold free values, drawn after the words it moved
(U10). -/
def failedStores (s : State) (items : List Item) (a : Word) (n : Nat) : State :=
  let (done, t) := storedPlaces items a s
  scribbleOver done (addressRange a n) (s.setDraws t.draws)

/-! ## Numbers of units and the host's answers -/

/-- A disc drive or tape unit number 1 to 8, as an index (R199, R205; signed comparison). -/
def unitOfEight (n : Word) : Option (Fin 8) :=
  if h : 1 ≤ n.toNat ∧ n.toNat ≤ 8 then some ⟨n.toNat - 1, by omega⟩ else none

/-- A network unit number 1 or 2, as an index (R240). -/
def unitOfTwo (n : Word) : Option (Fin 2) :=
  if h : 1 ≤ n.toNat ∧ n.toNat ≤ 2 then some ⟨n.toNat - 1, by omega⟩ else none

/-- Whether the host reports a device failure for the operation under way; a script that has run out
reports none (R201, decision D34). -/
def hostFails (s : State) : Bool × State :=
  match s.world.host.failures with
  | [] => (false, s)
  | b :: bs => (b, s.setWorld { s.world with host := { s.world.host with failures := bs } })

/-- `n` free bytes. -/
def drawBytes (n : Nat) (s : State) : List Byte × State :=
  let (ws, t) := drawWords n s
  (ws.map fun w => w.extractLsb' 0 8, t)

end Sys2Proof.Machine
end

