-- ==== Sys2Proof/Machine/Disc.lean ====
section
/-! DEFINITION. The disc operations of PERI (R197 to R201). -/

namespace Sys2Proof.Machine

/-- The drive a number names, where it exists (R199, R200). -/
def driveOf (s : State) (n : Word) : Option (Fin 8 × Disc) :=
  (unitOfEight n).bind fun u => s.world.discs[u].map fun d => (u, d)

/-- $DISCCHECK (R199): the size in blocks, or 0 for a drive that does not exist. The result of a drive of 2^31
blocks or more is unstated (`answerCount`, log entry 36). -/
def discCheck (s : State) (cs : Word) : PeriRes :=
  withParam1 s cs fun drive =>
    match unitOfEight drive with
    | none => answer errDevNumber s
    | some u =>
      match s.world.discs[u] with
      | none => answer 0 s
      | some d => answerCount d.size s

/-- Some block of the run `first .. first + count - 1` is below 0 or not below the size (R200). -/
def badRun (d : Disc) (first count : Word) : Bool :=
  decide (first.toInt < 0) || decide ((d.size : Int) < first.toInt + count.toInt)

/-- How many words of the run come before its first bad block: what an operation that then fails could
have moved (U10). -/
def wordsBeforeBad (d : Disc) (first : Word) : Nat :=
  if first.toInt < 0 then 0 else 128 * (d.size - first.toNat)

/-- The words a read of a run delivers: those written, and free words from blocks never written (U12). -/
def discItems (d : Disc) (first : Word) (n : Nat) : List Item :=
  (List.range n).map fun k =>
    match Memory.read d.words (128 * first.toNat + k) with
    | some w => .exact w
    | none => .undefined

/-- $DISCREAD (R200). -/
def discRead (s : State) (cs : Word) : PeriRes :=
  withParams4 s cs fun drive first count addr =>
    match driveOf s drive with
    | none => answer errDevNumber s
    | some (_, d) =>
      if count.toInt ≤ 0 then .stop (.refusal (.periCount count))
      else if badRun d first count then
        answer errPosition (scribble s addr (wordsBeforeBad d first))
      else
        access (storeItems (discItems d first (128 * count.toNat)) addr s)
          (answer errMemory
            (failedStores s (discItems d first (128 * count.toNat)) addr (128 * count.toNat)))
          fun t => answer count t

/-- Words written to a disc from a word position on. -/
def writeDiscWords : List Word → Nat → Memory → Memory
  | [], _, m => m
  | w :: ws, k, m => writeDiscWords ws (k + 1) (Memory.write m k w)

/-- A drive's words replaced. -/
def setDiscWords (s : State) (u : Fin 8) (d : Disc) (words : Memory) : State :=
  s.setWorld { s.world with discs := s.world.discs.set u (some { d with words := words }) }

/-- The words of a run that a failed write could have reached get free values (U10). -/
def scribbleDisc (s : State) (u : Fin 8) (d : Disc) (first : Word) (n : Nat) : State :=
  let (ws, t) := drawWords n s
  setDiscWords t u d (writeDiscWords ws (128 * first.toNat) d.words)

/-- $DISCWRITE (R201). -/
def discWrite (s : State) (cs : Word) : PeriRes :=
  withParams4 s cs fun drive first count addr =>
    match driveOf s drive with
    | none => answer errDevNumber s
    | some (u, d) =>
      if count.toInt ≤ 0 then .stop (.refusal (.periCount count))
      else if badRun d first count then
        answer errPosition (scribbleDisc s u d first (wordsBeforeBad d first))
      else
        access (readWords s addr (128 * count.toNat))
          (answer errMemory (scribbleDisc s u d first (128 * count.toNat)))
          fun ws =>
            let (fails, t) := hostFails s
            if fails then answer errDevFailed (scribbleDisc t u d first (128 * count.toNat))
            else answer count (setDiscWords t u d (writeDiscWords ws (128 * first.toNat) d.words))

end Sys2Proof.Machine
end

