-- ==== Sys2Proof/Machine/Network.lean ====
section
/-! DEFINITION. The network operations of PERI (R240 to R243). -/

namespace Sys2Proof.Machine

/-- The first and second word of an address pair as one 64-bit number, byte `p` in bits `8p+7 .. 8p`. -/
def pairBits (w0 w1 : Word) : BitVec 64 := w1 ++ w0

/-- Byte `k` of a six-byte address. -/
def addrByte (a : BitVec 48) (k : Nat) : Byte := a.extractLsb' (8 * k) 8

/-- An address laid out in two words by the launch parameter; the two bytes left over are zero (U17). -/
def layOut (layout : Vector (Fin 8) 6) (a : BitVec 48) : BitVec 64 :=
  (List.finRange 6).foldl
    (fun acc k => acc ||| ((addrByte a k.val).zeroExtend 64 <<< (8 * (layout[k]).val))) 0

/-- The address that two words hold under the launch parameter (U17). -/
def gather (layout : Vector (Fin 8) 6) (p : BitVec 64) : BitVec 48 :=
  (List.finRange 6).foldl
    (fun acc k => acc ||| ((p.extractLsb' (8 * (layout[k]).val) 8).zeroExtend 48 <<< (8 * k.val))) 0

/-- A six-byte address: the real IP address, then the port (R240). -/
def makeAddr (ip : BitVec 32) (port : BitVec 16) : BitVec 48 := port ++ ip

/-- The two words of an address pair (U17). -/
def addrItems (s : State) (a : BitVec 48) : List Item :=
  let bits := layOut s.cfg.netLayout a
  [.exact (bits.extractLsb' 0 32), .exact (bits.extractLsb' 32 32)]

/-- An address pair stored at `p` and `p + 1` (R241, R243). -/
def storeAddr (s : State) (p : Word) (a : BitVec 48) : Res State := storeItems (addrItems s a) p s

/-- A network unit's state replaced. -/
def setNet (s : State) (u : Fin 2) (n : Option NetUnit) : State :=
  s.setWorld { s.world with nets := s.world.nets.set u n }

/-- The code with which the host turns down a requested port (R241, U22). -/
def denialCode : NetDenial → Word
  | .readParams => errReadParams
  | .memory => errMemory
  | .devNumber => errDevNumber
  | .inUse => errInUse

/-- The host's answer to a start; a script that has run out grants a free address (decision D34). -/
def hostNetStart (s : State) : NetStart × State :=
  match s.world.host.netStarts with
  | [] =>
    let (ip, s1) := drawWord s
    let (port, s2) := drawWord s1
    (⟨ip, port.extractLsb' 0 16, none⟩, s2)
  | n :: ns => (n, s.setWorld { s.world with host := { s.world.host with netStarts := ns } })

/-- A pair that cannot be stored after the unit changed: the change may or may not stand (U10). -/
def netFailed (before after : State) (p : Word) (a : BitVec 48) : PeriRes :=
  let (done, t) := drawBit (failedStores after (addrItems after a) p 2)
  answer errMemory (if done then t else t.setWorld before.world)

/-- The code with which the host turns down the start of a unit with a requested port; a request of zero
leaves the port to the host, which then has none to turn down (U22). -/
def NetStart.deniedFor (n : NetStart) (port : Word) : Option NetDenial :=
  if port = 0 then none else n.denial

/-- The address of a started unit: a requested port other than zero is its port (R241). -/
def NetStart.address (n : NetStart) (port : Word) : BitVec 48 :=
  makeAddr n.ip (if port = 0 then n.port else port.extractLsb' 0 16)

/-- $NETSS turning a unit on (R241). A start that the host turns down leaves the address pair and the unit as they
were: the model takes it to have ended before it could write them, where U10 would let them hold anything (DESIGN
CHOICE, log entry 29). -/
def startNet (s : State) (u : Fin 2) (p : Word) (port : Word) : PeriRes :=
  match s.world.nets[u] with
  | some _ => answer errInUse s
  | none =>
    let (start, t) := hostNetStart s
    match start.deniedFor port with
    | some d => answer (denialCode d) t
    | none =>
      let a := start.address port
      let on := setNet t u (some ⟨a, []⟩)
      access (storeAddr on p a) (netFailed t on p a) answerUnstated

/-- $NETSS turning a unit off (R241): the two words receive its address. -/
def stopNet (s : State) (u : Fin 2) (p : Word) : PeriRes :=
  match s.world.nets[u] with
  | none => answer errDevNumber s
  | some n =>
    let off := setNet s u none
    access (storeAddr off p n.addr) (netFailed s off p n.addr) answerUnstated

/-- $NETSS (R241): the checks in the order the rule lists them, -2, -5, -3, -9. The spec gives the refusal of
a command other than 0 or 1 (U22) no place among them: the model refuses only after -5 and after the unit
number's -3 (DESIGN CHOICE, log entry 24). -/
def netSS (s : State) (cs : Word) : PeriRes :=
  withParams3 s cs fun n command p =>
    access (reachable s p 2) (answer errMemory s) fun _ =>
      match unitOfTwo n with
      | none => answer errDevNumber s
      | some u =>
        if command = 0 then stopNet s u p
        else if command = 1 then
          access (memRead s (p + 1)) (answer errMemory s) fun port => startNet s u p port
        else .stop (.refusal (.netCommand command))

/-- The words that hold a packet's bytes, none where the count is outside 0 to 1024 (R242). -/
def packetWords (count : Word) : Nat := if count.toNat ≤ 1024 then (count.toNat + 3) / 4 else 0

/-- A packet handed to the host (R242). -/
def sendPacket (s : State) (u : Fin 2) (p : Packet) : State :=
  s.setWorld { s.world with sent := s.world.sent ++ [(u, p)] }

/-- $NETSEND (R242): the checks in the order -2, -5, -3, -8, -6. -/
def netSend (s : State) (cs : Word) : PeriRes :=
  withParams4 s cs fun n p count addr =>
    access (readWords s p 2) (answer errMemory s) fun pair =>
      access (readWords s addr (packetWords count)) (answer errMemory s) fun ws =>
        match unitOfTwo n with
        | none => answer errDevNumber s
        | some u =>
          match s.world.nets[u] with
          | none => answer errDevNumber s
          | some _ =>
            if 1024 < count.toNat then answer errBadParam s
            else
              let dest := gather s.cfg.netLayout (pairBits (pair.getD 0 0) (pair.getD 1 0))
              let packet : Packet := ⟨dest, (ws.flatMap unpackWord).take count.toNat⟩
              let (fails, s1) := hostFails s
              let (away, s2) := drawBit s1
              if fails then answer errDevFailed (if away then sendPacket s2 u packet else s2)
              else answerUnstated (sendPacket s1 u packet)

/-- A packet that cannot be stored after it was taken off the queue, the stores before having overwritten the page
tables: it may or may not be gone, and the words the operation stored to or could have stored to hold free values
(U10). -/
def recvFailed (before after : State) (p addr : Word) (pair items : List Item) : PeriRes :=
  let (done, t) := storedPlaces pair p after
  let (more, u) := storedPlaces items addr t
  let (gone, v) := drawBit (scribbleOver (done ++ more)
    (addressRange p 2 ++ addressRange addr items.length) (after.setDraws u.draws))
  answer errMemory (if gone then v else v.setWorld before.world)

/-- $NETRECV (R243): the checks in the order -2, -5, -3, -6, -11. The -5 is for the address pair or any of
the 256 words that the buffer must have room for, whatever the packet's length (DESIGN CHOICE, log entry 29).
The spec gives no rule for what the buffer holds beyond a shorter packet: the model leaves the words beyond it
unchanged and frees the unused bytes of its last, partly filled word (DESIGN CHOICE, log entry 29). Nor does it
order the two stores: the model stores the address pair first and the packet's bytes after it, so that where the
two overlap the bytes stand (DESIGN CHOICE, log entry 29). -/
def netRecv (s : State) (cs : Word) : PeriRes :=
  withParams3 s cs fun n p addr =>
    access (reachable s p 2) (answer errMemory s) fun _ =>
      access (reachable s addr 256) (answer errMemory s) fun _ =>
        match unitOfTwo n with
        | none => answer errDevNumber s
        | some u =>
          match s.world.nets[u] with
          | none => answer errDevNumber s
          | some net =>
            let (fails, s1) := hostFails s
            match net.queue with
            | [] => if fails then answer errDevFailed s1 else answer errNoData s1
            | packet :: rest =>
              let taken := setNet s1 u (some { net with queue := rest })
              let items := (chunks packet.bytes).map Item.ofBytes
              let places := addressRange p 2 ++ addressRange addr items.length
              let (gone, s2) := drawBit s1
              if fails then
                answer errDevFailed
                  (scribbleAll (if gone then taken.setDraws s2.draws else s2) places)
              else
                access ((storeAddr taken p packet.addr).bind fun t => storeItems items addr t)
                  (recvFailed s1 taken p addr (addrItems taken packet.addr) items) answerUnstated

end Sys2Proof.Machine
end

