-- ==== Sys2Proof/Machine/Tape.lean ====
section
/-! DEFINITION. The magnetic tape operations of PERI (R205 to R213). -/

namespace Sys2Proof.Machine

/-- A mode's letter: 'R' = 82, 'W' = 87 (R206). -/
def modeLetter : TapeMode → Word
  | .read => 82
  | .write => 87

/-- The mode a word names (R208). -/
def modeOf (w : Word) : Option TapeMode :=
  if w = 82 then some .read else if w = 87 then some .write else none

/-- The host file of a name. -/
def hostFile (s : State) (name : List Byte) : Option HostFile :=
  s.world.files.find? fun f => f.name == name

/-- The bytes of the file on a tape, where it still exists. A file that the host has made unreadable or
unwritable since it was loaded still has its bytes: R211 and R212 list no code for it, so the unit goes on
reading or writing it (DESIGN CHOICE, log entry 26). -/
def tapeContent (s : State) (t : Tape) : Option (List Byte) :=
  (hostFile s t.file).bind fun f => f.content

/-- A tape unit's state replaced. -/
def setTape (s : State) (u : Fin 8) (t : Option Tape) : State :=
  s.setWorld { s.world with tapes := s.world.tapes.set u t }

/-- The bytes of a host file replaced. -/
def setFileBytes (s : State) (name bytes : List Byte) : State :=
  s.setWorld { s.world with
    files := s.world.files.map fun f => if f.name = name then { f with content := some bytes } else f }

/-- $TAPECHECK (R206). -/
def tapeCheck (s : State) (cs : Word) : PeriRes :=
  withParam1 s cs fun n =>
    match unitOfEight n with
    | none => answer errDevNumber s
    | some u =>
      match s.world.tapes[u] with
      | none => answer 0 s
      | some t => answer (modeLetter t.mode) s

/-- $TAPEREWIND (R207): -3 also for a unit that is not loaded (decision D45). -/
def tapeRewind (s : State) (cs : Word) : PeriRes :=
  withParam1 s cs fun n =>
    match unitOfEight n with
    | none => answer errDevNumber s
    | some u =>
      match s.world.tapes[u] with
      | none => answer errDevNumber s
      | some t => answer 1 (setTape s u (some { t with pos := 0 }))

/-- The host gives the file in some way: readable, or to be written. -/
def HostFile.accessible (f : HostFile) : Bool := (f.readable && f.content.isSome) || f.writable

/-- The end of $TAPELOAD once the file's name is read and the unit is free (R208): -7 where the host does
not give the file, -8 for a bad mode; 'W' on a file that exists is refused (U15: truncated or not). A file that
the host does not give in the mode asked for is -7, before that refusal too: 'W' on a file that exists, is
readable and may not be written is -7 (DESIGN CHOICE, log entry 26). -/
def loadTape (s : State) (u : Fin 8) (name : List Byte) (mode : Word) : PeriRes :=
  match hostFile s name with
  | none => answer errNotFound s
  | some f =>
    if !f.accessible then answer errNotFound s
    else
      match modeOf mode with
      | none => answer errBadParam s
      | some .read =>
        if f.readable && f.content.isSome then answer 1 (setTape s u (some ⟨name, .read, 0⟩))
        else answer errNotFound s
      | some .write =>
        if !f.writable then answer errNotFound s
        else if f.content.isSome then .stop (.refusal .tapeMisuse)
        else answer 1 (setTape (setFileBytes s name []) u (some ⟨name, .write, 0⟩))

/-- $TAPELOAD (R208). Loading a unit that is loaded is refused (U15), after -2, -3 and -5 and before the file
and the mode are looked at: where -7 or -8 applies too, the spec gives no order (DESIGN CHOICE, log entry 24). -/
def tapeLoad (s : State) (cs : Word) : PeriRes :=
  withParams3 s cs fun n nameAddr mode =>
    match unitOfEight n with
    | none => answer errDevNumber s
    | some u =>
      access (readString s nameAddr addressSpace) (answer errMemory s) fun name =>
        match s.world.tapes[u] with
        | some _ => .stop (.refusal .tapeMisuse)
        | none => loadTape s u name mode

/-- The length of the file on a tape, where the host still lets it be reached: $TAPELENGTH's -7 is also for a
file that is 'not accessible' (R209). -/
def tapeSize (s : State) (t : Tape) : Option Nat :=
  (hostFile s t.file).bind fun f =>
    if f.accessible then f.content.map List.length else none

/-- $TAPELENGTH (R209). The result of a file of 2^31 bytes or more is unstated (`answerCount`, log
entry 36). -/
def tapeLength (s : State) (cs : Word) : PeriRes :=
  withParam1 s cs fun n =>
    match unitOfEight n with
    | none => answer errDevNumber s
    | some u =>
      match s.world.tapes[u] with
      | none => answer errNotFound s
      | some t =>
        match tapeSize s t with
        | none => answer errNotFound s
        | some n => answerCount n s

/-- $TAPEUNLOAD (R210). -/
def tapeUnload (s : State) (cs : Word) : PeriRes :=
  withParam1 s cs fun n =>
    match unitOfEight n with
    | none => answer errDevNumber s
    | some u =>
      match s.world.tapes[u] with
      | none => answer errNotFound s
      | some _ => answer 1 (setTape s u none)

/-- The words a read of a block stores: its bytes packed, and, when the block is short, free bits beyond
them as far as 128 words (R211, R213, U14). Only the words that hold data can fail. -/
def blockItems (bytes : List Byte) : List Item := (chunks bytes).map Item.ofBytes

/-- The block at a position: at most 512 bytes (R211). -/
def blockAt (bytes : List Byte) (pos : Nat) : List Byte := (bytes.drop pos).take 512

/-- $TAPEREAD (R211). A unit loaded 'W' is refused (U15), before its file or the buffer is looked at: where -3 or
-5 applies too, the spec gives no order (DESIGN CHOICE, log entry 24). A file that has gone away since it was
loaded is -3, and one made unreadable is read on (DESIGN CHOICE, log entry 26). -/
def tapeRead (s : State) (cs : Word) : PeriRes :=
  withParams2 s cs fun n addr =>
    match unitOfEight n with
    | none => answer errDevNumber s
    | some u =>
      match s.world.tapes[u] with
      | none => answer errDevNumber s
      | some t =>
        if t.mode = .write then .stop (.refusal .tapeMisuse)
        else
          match tapeContent s t with
          | none => answer errDevNumber s
          | some bytes =>
            let block := blockAt bytes t.pos
            let items := blockItems block
            let (moved, s1) := drawUpTo block.length (failedStores s items addr 128)
            access (storeItems items addr s)
              (answer errMemory (setTape s1 u (some { t with pos := t.pos + moved })))
              fun s2 =>
                let s3 := if block = [] then s2
                  else scribble s2 (addr + BitVec.ofNat 32 items.length) (128 - items.length)
                answer (BitVec.ofNat 32 block.length)
                  (setTape s3 u (some { t with pos := t.pos + block.length }))

/-- Bytes written into a file at a position within it (R212). -/
def writeAt (bytes : List Byte) (pos : Nat) (new : List Byte) : List Byte :=
  bytes.take pos ++ new ++ bytes.drop (pos + new.length)

/-- Bytes written into the file of a tape, of which it now holds `bytes`, at the unit's position (R212). Where
the host has made the file shorter than that, the bytes between its end and the position are free (DESIGN
CHOICE, log entry 26). Writing no bytes changes nothing. -/
def writeFile (s : State) (t : Tape) (bytes new : List Byte) : State :=
  if new = [] then s
  else
    let (gap, s1) := drawBytes (t.pos - bytes.length) s
    setFileBytes s1 t.file (writeAt (bytes ++ gap) t.pos new)

/-- What a failed write of `n` bytes leaves in the file: some of the bytes, free ones (U10). -/
def scribbleFile (s : State) (t : Tape) (n : Nat) : State :=
  match tapeContent s t with
  | none => s
  | some bytes =>
    let (k, s1) := drawUpTo n s
    let (new, s2) := drawBytes k s1
    writeFile s2 t bytes new

/-- What a failed write of `n` bytes leaves: some of them in the file, and a position among them (U10). -/
def scribbleTape (s : State) (u : Fin 8) (t : Tape) (n : Nat) : State :=
  let (moved, s1) := drawUpTo n s
  setTape (scribbleFile s1 t n) u (some { t with pos := t.pos + moved })

/-- $TAPEWRITE (R212), the checks in the order -2, -3, -5, -6. A unit loaded 'R' and a byte count outside 0 to
512 are refused (U15), before the source is read and the device is asked: where -5 or -6 applies too, the spec
gives no order (DESIGN CHOICE, log entry 24). -/
def tapeWrite (s : State) (cs : Word) : PeriRes :=
  withParams3 s cs fun n addr count =>
    match unitOfEight n with
    | none => answer errDevNumber s
    | some u =>
      match s.world.tapes[u] with
      | none => answer errDevNumber s
      | some t =>
        if t.mode = .read then .stop (.refusal .tapeMisuse)
        else if 512 < count.toNat then .stop (.refusal .tapeMisuse)
        else
          access (readWords s addr ((count.toNat + 3) / 4))
            (answer errMemory (scribbleTape s u t count.toNat))
            fun ws =>
              match tapeContent s t with
              | none => answer errDevFailed s
              | some bytes =>
                let (fails, s1) := hostFails s
                if fails then answer errDevFailed (scribbleTape s1 u t count.toNat)
                else
                  answer count
                    (setTape (writeFile s1 t bytes ((ws.flatMap unpackWord).take count.toNat)) u
                      (some { t with pos := t.pos + count.toNat }))

end Sys2Proof.Machine
end

