-- ==== Sys2Proof/Machine/Terminal.lean ====
section
/-! DEFINITION. The terminal operations of PERI (R230 to R234). -/

namespace Sys2Proof.Machine

/-- The keyboard buffer without its first `n` characters. -/
def dropKeys (s : State) (n : Nat) : State :=
  s.setWorld { s.world with keyboard := s.world.keyboard.drop n }

/-- Characters appended to the terminal output (R56). -/
def printChars (s : State) (cs : List Byte) : State :=
  s.setWorld { s.world with output := s.world.output ++ cs }

/-- How many characters a read of at most `count` takes (R231). -/
def takeable (s : State) (count : Word) : Nat := min count.toNat s.world.keyboard.length

/-- The words of `n` keys as a proper string: packed, zero-terminated, zero after the terminator (R231). -/
def stringItems (keys : List Byte) : List Item :=
  (chunks (keys ++ [0])).map fun bs => .exact (packWord bs)

/-- The words of `n` keys, one a word (R233). -/
def wordItems (keys : List Byte) : List Item := keys.map fun c => .exact (c.zeroExtend 32)

/-- A keyboard read of `n` characters that stores `items`; on failure characters may have left the buffer
and words may have been stored (U10). -/
def readKeys (s : State) (n : Nat) (items : List Item) (addr : Word) : PeriRes :=
  let (gone, s1) := drawUpTo n (failedStores s items addr items.length)
  access (storeItems items addr s) (answer errMemory (dropKeys s1 gone))
    fun t => answer (BitVec.ofNat 32 n) (dropKeys t n)

/-- $TERMINC (R231). -/
def termInC (s : State) (cs : Word) : PeriRes :=
  withParams2 s cs fun count addr =>
    if count.toInt ≤ 0 then .stop (.refusal (.periCount count))
    else
      readKeys s (takeable s count) (stringItems (s.world.keyboard.take (takeable s count))) addr

/-- $TERMINW (R233). -/
def termInW (s : State) (cs : Word) : PeriRes :=
  withParams2 s cs fun count addr =>
    if count.toInt ≤ 0 then .stop (.refusal (.periCount count))
    else readKeys s (takeable s count) (wordItems (s.world.keyboard.take (takeable s count))) addr

/-- A print that failed with -5: some of the characters that could be read are printed (U10). -/
def printFailed (s : State) (chars : List Byte) : PeriRes :=
  let (k, t) := drawUpTo chars.length s
  answer errMemory (printChars t (chars.take k))

/-- A print of characters: the result is their number (R232); of 2^31 or more it is unstated
(`answerCount`, log entry 36). -/
def printed (s : State) (chars : List Byte) : PeriRes :=
  answerCount chars.length (printChars s chars)

/-- $TERMOUTC (R232): a count of zero prints a zero-terminated string. -/
def termOutC (s : State) (cs : Word) : PeriRes :=
  withParams2 s cs fun count addr =>
    if count.toInt < 0 then .stop (.refusal (.periCount count))
    else if count = 0 then
      access (readString s addr addressSpace)
        (printFailed s ((readablePrefix s addr addressSpace).flatMap unpackWord))
        (printed s)
    else
      let words := (count.toNat + 3) / 4
      access (readWords s addr words)
        (printFailed s (((readablePrefix s addr words).flatMap unpackWord).take count.toNat))
        fun ws => printed s ((ws.flatMap unpackWord).take count.toNat)

/-- The words of a zero-terminated array of characters, up to and without the zero word (R234). -/
def readUntilZero (s : State) : Word → Nat → Res (List Word)
  | _, 0 => .stop (.fault .endlessString)
  | a, n + 1 =>
    (memRead s a).bind fun w =>
      if w = 0 then .ok []
      else (readUntilZero s (a + 1) n).bind fun ws => .ok (w :: ws)

/-- The characters of words, one a word; a word with a bit above bit 7 set is refused (U16). -/
def wordChars (ws : List Word) (k : List Byte → PeriRes) : PeriRes :=
  if ws.all fun w => decide (w.toNat < 256) then k (ws.map fun w => w.extractLsb' 0 8)
  else .stop (.refusal .wideCharacter)

/-- $TERMOUTW (R234). A wide character (U16) before a word that cannot be read is refused, and is not -5: the spec
gives no order (DESIGN CHOICE, log entry 28). -/
def termOutW (s : State) (cs : Word) : PeriRes :=
  withParams2 s cs fun count addr =>
    if count.toInt < 0 then .stop (.refusal (.periCount count))
    else if count = 0 then
      access (readUntilZero s addr addressSpace)
        (wordChars (readablePrefix s addr addressSpace) (printFailed s))
        fun ws => wordChars ws (printed s)
    else
      access (readWords s addr count.toNat)
        (wordChars (readablePrefix s addr count.toNat) (printFailed s))
        fun ws => wordChars ws (printed s)

end Sys2Proof.Machine
end

