-- ==== Sys2Proof/Machine/Time.lean ====
section
/-! DEFINITION. The time operations of PERI (R250 to R252) and the Gregorian calendar (G4). -/

namespace Sys2Proof.Machine

/-- The clock in whole seconds since midnight on 1st January 2000 (R55). -/
def clockSeconds (s : State) : Nat := s.world.clock / 1000000

/-- The microseconds beyond the whole seconds (R251). -/
def clockMicros (s : State) : Nat := s.world.clock % 1000000

/-- $SECONDS (R250). The result at a clock of 2^31 seconds or more is unstated (`answerCount`, log
entries 30, 36). -/
def secondsOp (s : State) : PeriRes := answerCount (clockSeconds s) s

/-- Words stored into the control structure from `cs[k]` on; a failure is -2 (R251, R252). -/
def storeOutputs (s : State) (cs : Word) (k : Nat) (ws : List Word) : PeriRes :=
  let a := cs + BitVec.ofNat 32 k
  access (storeItems (ws.map Item.exact) a s)
    (answer errReadParams (failedStores s (ws.map Item.exact) a ws.length))
    answerUnstated

/-- $USECONDS (R251): both words modulo 2^32 (log entry 30). -/
def usecondsOp (s : State) (cs : Word) : PeriRes :=
  storeOutputs s cs 1 [BitVec.ofNat 32 (clockSeconds s), BitVec.ofNat 32 (clockMicros s)]

/-- A leap year of the Gregorian calendar. -/
def leapYear (y : Nat) : Bool := (y % 4 == 0 && y % 100 != 0) || y % 400 == 0

/-- The days of a year. -/
def yearLength (y : Nat) : Nat := if leapYear y then 366 else 365

/-- The days of the months of a year, January first. -/
def monthLengths (y : Nat) : List Nat :=
  [31, if leapYear y then 29 else 28, 31, 30, 31, 30, 31, 31, 30, 31, 30, 31]

/-- The year, and the day within it counting from 0, that lie `d` days after the first day of year `y`. -/
def splitYears : Nat → Nat → Nat → Nat × Nat
  | 0, y, d => (y, d)
  | k + 1, y, d => if d < yearLength y then (y, d) else splitYears k (y + 1) (d - yearLength y)

/-- The month (the first of the list is month `m`) and the day, both counting from 1, of day `d` of a
year, counting from 0. -/
def splitMonths : List Nat → Nat → Nat → Nat × Nat
  | [], m, d => (m, d + 1)
  | len :: rest, m, d => if d < len then (m, d + 1) else splitMonths rest (m + 1) (d - len)

/-- `datetime_zone`: the seconds to add to a time value (R252, D42). -/
def zoneOffset (zone : List (Nat × Int)) (t : Nat) : Int :=
  zone.foldl (fun off entry => if entry.1 ≤ t then entry.2 else off) 0

/-- The year in which the model's count of days begins, so that a zone behind the epoch's has days to
count: 1st January 1999 was a Friday. -/
def baseYear : Nat := 1999

/-- The parts of a time value: year, month, day, weekday, hour, minute, second (R252). -/
def dateParts (zone : List (Nat × Int)) (t : Nat) : List Nat :=
  let local_ := ((t : Int) + zoneOffset zone t + 365 * 86400).toNat
  let days := local_ / 86400
  let secs := local_ % 86400
  let yd := splitYears (days / 365 + 1) baseYear days
  let md := splitMonths (monthLengths yd.1) 1 yd.2
  [yd.1, md.1, md.2, (days + 5) % 7, secs / 3600, secs / 60 % 60, secs % 60]

/-- $DATETIME (R252): a negative time value is refused (U13). Where the outputs cannot be stored either (-2)
the spec gives no order: the model refuses first (DESIGN CHOICE, log entry 24). -/
def dateTimeOp (s : State) (cs : Word) : PeriRes :=
  withParam1 s cs fun t =>
    if t.toInt < 0 then .stop (.refusal (.negativeTime t))
    else storeOutputs s cs 2 ((dateParts s.cfg.zone t.toNat).map (BitVec.ofNat 32))

end Sys2Proof.Machine
end

