-- ==== Sys2Proof/Machine/PeriFamily.lean ====
section
/-! DEFINITION. The PERI instruction (R190 to R196). -/

namespace Sys2Proof.Machine

/-- One peripheral operation (R191). -/
def runPeriOp (o : PeriOp) (cs : Word) (s : State) : PeriRes :=
  match o with
  | .discCheck => discCheck s cs
  | .discRead => discRead s cs
  | .discWrite => discWrite s cs
  | .tapeCheck => tapeCheck s cs
  | .tapeRewind => tapeRewind s cs
  | .tapeLoad => tapeLoad s cs
  | .tapeLength => tapeLength s cs
  | .tapeUnload => tapeUnload s cs
  | .tapeRead => tapeRead s cs
  | .tapeWrite => tapeWrite s cs
  | .termInC => termInC s cs
  | .termOutC => termOutC s cs
  | .termInW => termInW s cs
  | .termOutW => termOutW s cs
  | .netSS => netSS s cs
  | .netSend => netSend s cs
  | .netRecv => netRecv s cs
  | .seconds => secondsOp s
  | .useconds => usecondsOp s cs
  | .dateTime => dateTimeOp s cs

/-- `PeriOp(cs)`: the first word of the control structure selects the operation; an unknown code is -1
and changes nothing (R191, R193, R195). -/
def periOperation (cs : Word) (s : State) : PeriRes :=
  access (param s cs 0) (answer errReadParams s) fun code =>
    match periOpOf s code with
    | none => answer errBadCode s
    | some o => runPeriOp o cs s

/-- The end of a PERI: the result in the main register, ERR set when it is negative (R190). -/
def periDone (r : Reg) (result : Word) (s : State) : State :=
  ((s.setReg r result).setFlags (s.flags.set .err (errOf result))).advance

/-- PERI (R190). -/
def execPeri (r : Reg) (op : Operand) (s : State) : Host.Outcome State Fault Refusal :=
  finish s (privileged s ((val s op).bind fun cs =>
    (periOperation cs s).bind fun result => .ok (periDone r result.1 result.2)))

end Sys2Proof.Machine
end

