-- ==== Sys2Proof/Machine/SpecialFamily.lean ====
section
/-! DEFINITION. Special-register, flag and bit instructions (40_special_register_and_flag_instructions.md):
GETSR, SETSR, GETFL, SETFL, FLAGSJ, COMP, COMPZ, JCOND, SBIT, CBIT. -/

namespace Sys2Proof.Machine

/-- GETSR (R120). -/
def execGetsr (r : Reg) (op : Operand) (s : State) : Host.Outcome State Fault Refusal :=
  finish s ((val s op).bind fun n =>
    (specialOf n).bind fun k => .ok (s.setReg r (s.getSpecial k)).advance)

/-- SETSR (R121). -/
def execSetsr (r : Reg) (op : Operand) (s : State) : Host.Outcome State Fault Refusal :=
  finish s (privileged s ((val s op).bind fun n =>
    (specialOf n).bind fun k => .ok (s.setSpecial k (s.getReg r)).advance))

/-- GETFL (R122): 0 or 1. -/
def execGetfl (r : Reg) (op : Operand) (s : State) : Host.Outcome State Fault Refusal :=
  finish s ((val s op).bind fun n =>
    (flagNumbered n).bind fun k => .ok (s.setReg r (if s.flags.get k then 1 else 0)).advance)

/-- SETFL (R123): naming R, SYS, IP or VM in user mode raises PRIVOP, whatever value is written. -/
def execSetfl (r : Reg) (op : Operand) (s : State) : Host.Outcome State Fault Refusal :=
  finish s ((val s op).bind fun n =>
    (flagNumbered n).bind fun k =>
      if !s.flags.sys && flagProtected k then .raise .privop (some s.pc) none
      else .ok (s.setFlags (s.flags.set k (s.getReg r != 0))).advance)

/-- FLAGSJ (R124): the target is evaluated under the old flags. -/
def execFlagsj (r : Reg) (op : Operand) (s : State) : Host.Outcome State Fault Refusal :=
  finish s (privileged s ((val s op).bind fun t =>
    .ok ((s.setFlags (Flags.ofWord (s.getReg r))).setPc t)))

/-- The state after COMP of `a` with `b`: Z and N written; N is free where the signed difference
overflows (R125, U3). -/
def compared (s : State) (a b : Word) : State :=
  if compareOverflows a b then
    let (n, t) := drawBit s
    t.setFlags (s.flags.setZN (compareZ a b) n)
  else s.setFlags (s.flags.setZN (compareZ a b) (compareN a b))

/-- COMP (R125). -/
def execComp (r : Reg) (op : Operand) (s : State) : Host.Outcome State Fault Refusal :=
  finish s ((val s op).bind fun b => .ok (compared s (s.getReg r) b).advance)

/-- COMPZ (R126). R126 names the operand as a register or memory operand, by analogy; R109 gives the instruction
a general operand. The model compares a constant operand with zero too (DESIGN CHOICE, log entry 3). -/
def execCompz (op : Operand) (s : State) : Host.Outcome State Fault Refusal :=
  finish s ((val s op).bind fun a =>
    .ok (s.setFlags (s.flags.setZN (compareZeroZ a) (compareZeroN a))).advance)

/-- Whether a condition of JCOND holds: ERR when the flag is 1 (R127); another condition when the set its
launch parameter gives holds the flags, and refused where no parameter defines it (D28, U24). -/
def condValue (s : State) : Cond → Res Bool
  | .err => .ok s.flags.err
  | .other k =>
    match s.cfg.conds.lookup k with
    | some set => .ok (inFlagSet set s.flags)
    | none => .stop (.refusal (.jcondCondition k))

/-- JCOND (R127). The target is evaluated only when the condition holds. -/
def execJcond (c : Cond) (op : Operand) (s : State) : Host.Outcome State Fault Refusal :=
  finish s ((condValue s c).bind fun holds =>
    if holds then (val s op).bind fun t => .ok (s.setPc t) else .ok s.advance)

/-- SBIT (R128). -/
def execSbit (r : Reg) (op : Operand) (s : State) : Host.Outcome State Fault Refusal :=
  finish s ((val s op).bind fun n =>
    (bitMask n).bind fun m => .ok (s.setReg r (s.getReg r ||| m)).advance)

/-- CBIT (R129). -/
def execCbit (r : Reg) (op : Operand) (s : State) : Host.Outcome State Fault Refusal :=
  finish s ((val s op).bind fun n =>
    (bitMask n).bind fun m => .ok (s.setReg r (s.getReg r &&& ~~~m)).advance)

end Sys2Proof.Machine
end

