-- ==== Sys2Proof/Machine/SystemFamily.lean ====
section
/-! DEFINITION. The system instructions (43_system_instructions.md): SYSCALL, IRET, HALT, PHLOAD, PHSTORE,
CLRPP. -/

namespace Sys2Proof.Machine

/-- An access inside SYSCALL or IRET that raises ends the run with `FatalStop` carrying the cause (U8). -/
def orFatal {α : Type} (s : State) (x : Res α) : Res α :=
  match x with
  | .ok a => .ok a
  | .raise c addr info => .stop (fatalStop s c addr info)
  | .stop y => .stop y

/-- A SYSCALL index is bad: "<0 or >=$CGLEN", both read as signed (R170, R25). -/
def badCall (s : State) (i : Word) : Bool := decide (i.toInt < 0) || decide (s.sr.cglen.toInt ≤ i.toInt)

/-- `faultNesting` after a system call: an INTRFAULT handler that makes one is still in progress; one that
has gone on to user mode is over (log entry 21). -/
def nestingOnCall (s : State) : Option Nat := if s.flags.sys then s.faultNesting else none

/-- The actions of SYSCALL with a good index (R170): the entry sequence without the three parameters,
and the pc from the call gate vector, read at its physical address. -/
def enterCall (s : State) (i : Word) : Res State :=
  let (spSlot, t) := drawSpSlot s
  match pushAll (savedRegs s spSlot (s.pc + 1) ++ [s.flags.toWord, 40]) t.entering with
  | .failed _ c addr => .stop (fatalStop s c addr none)
  | .stop x => .stop x
  | .done u =>
    (orFatal s (physRead u (u.sr.cgbr + i))).bind fun gate =>
      .ok ((u.setFaultNesting (nestingOnCall s)).setPc gate)

/-- SYSCALL (R170): not privileged, and acts whatever IP is. -/
def execSyscall (op : Operand) (s : State) : Host.Outcome State Fault Refusal :=
  finish s ((val s op).bind fun i =>
    if badCall s i then .raise .badcall (some s.pc) (some i) else enterCall s i)

/-- The state after IRET has popped the twenty words above the marker: oldflags, code, address, info, PC,
FP, SP slot, R12 .. R0, the first at the lowest address (R171, R282). -/
def restoreFrame (s : State) (ws : List Word) : State :=
  let t := (s.setSP (s.sp + 21)).setGpr (Vector.ofFn fun k : Fin 13 => ws.getD (19 - k.val) 0)
  (((t.setFP (ws.getD 5 0)).setFlags (Flags.ofWord (ws.getD 0 0))).setPc
    (ws.getD 4 0)).setFaultNesting (s.faultNesting.map (· - 1))

/-- The frame at SP undone: the exact inverse of the entry sequence (R171, decision D25). The return from an
INTRFAULT handler is refused, whatever its frame holds (R278, log entry 21), and so is a marker that is not
40 (U9). The code, address and info words are discarded, whatever they hold. -/
def returnFromInterrupt (s : State) : Res State :=
  if s.faultNesting = some 0 then .stop (.refusal .iretFromIntrFault)
  else
    (orFatal s (memRead s s.sp)).bind fun m =>
      if m ≠ 40 then .stop (.refusal (.iretMarker m))
      else (orFatal s (readWords s (s.sp + 1) 20)).bind fun ws => .ok (restoreFrame s ws)

/-- IRET (R171). -/
def execIret (s : State) : Host.Outcome State Fault Refusal :=
  finish s (privileged s (returnFromInterrupt s))

/-- HALT (R172): the HALT interrupt in user mode, R cleared in system mode. -/
def execHalt (s : State) : Host.Outcome State Fault Refusal :=
  finish s (if s.flags.sys then .ok (s.setFlags s.flags.halted).advance
    else .raise .halt (some s.pc) none)

/-- PHLOAD (R173): PRIVOP in user mode; in system mode the spec gives it no meaning. -/
def execPhload (_r : Reg) (_op : Operand) (s : State) : Host.Outcome State Fault Refusal :=
  finish s (privileged s (.stop (.refusal .phloadInSystemMode)))

/-- PHSTORE (R174): PRIVOP in user mode; in system mode the spec gives it no meaning. -/
def execPhstore (_r : Reg) (_op : Operand) (s : State) : Host.Outcome State Fault Refusal :=
  finish s (privileged s (.stop (.refusal .phstoreInSystemMode)))

/-- CLRPP (R175): PRIVOP in user mode; in system mode the spec gives it no meaning. -/
def execClrpp (s : State) : Host.Outcome State Fault Refusal :=
  finish s (privileged s (.stop (.refusal .clrppInSystemMode)))

end Sys2Proof.Machine
end

