-- ==== Sys2Proof/Machine/Dispatch.lean ====
section
/-! DEFINITION. The meaning of an instruction at the pc of a state, the end of the step included: the timer
tick, or the exception taken. One arm per constructor. -/

namespace Sys2Proof.Machine

def exec (i : Instr) (s : State) : Host.Outcome State Fault Refusal :=
  match i with
  | .getsr r op => Sys2Proof.Machine.execGetsr r op s
  | .setsr r op => Sys2Proof.Machine.execSetsr r op s
  | .getfl r op => Sys2Proof.Machine.execGetfl r op s
  | .setfl r op => Sys2Proof.Machine.execSetfl r op s
  | .flagsj r op => Sys2Proof.Machine.execFlagsj r op s
  | .comp r op => Sys2Proof.Machine.execComp r op s
  | .compz op => Sys2Proof.Machine.execCompz op s
  | .jcond c op => Sys2Proof.Machine.execJcond c op s
  | .sbit r op => Sys2Proof.Machine.execSbit r op s
  | .cbit r op => Sys2Proof.Machine.execCbit r op s
  | .exbr r op => Sys2Proof.Machine.execExbr r op s
  | .dpbr r op => Sys2Proof.Machine.execDpbr r op s
  | .exbrv r op => Sys2Proof.Machine.execExbrv r op s
  | .dpbrv r op => Sys2Proof.Machine.execDpbrv r op s
  | .load r op => Sys2Proof.Machine.execLoad r op s
  | .store r op => Sys2Proof.Machine.execStore r op s
  | .push op => Sys2Proof.Machine.execPush op s
  | .inc op => Sys2Proof.Machine.execInc op s
  | .call op => Sys2Proof.Machine.execCall op s
  | .ret => Sys2Proof.Machine.execRet s
  | .syscall op => Sys2Proof.Machine.execSyscall op s
  | .iret => Sys2Proof.Machine.execIret s
  | .halt => Sys2Proof.Machine.execHalt s
  | .phload r op => Sys2Proof.Machine.execPhload r op s
  | .phstore r op => Sys2Proof.Machine.execPhstore r op s
  | .clrpp => Sys2Proof.Machine.execClrpp s
  | .peri r op => Sys2Proof.Machine.execPeri r op s

end Sys2Proof.Machine
end

