-- ==== Sys2Proof/WellFormed.lean ====
section
/-! DEFINITION. Which abstract instructions have a spelling in one 32-bit word of the model's default
encoding (rule R101: the range of constants one instruction can hold is in no source; log entry 1 gives the
ranges of the default encoding). `exec` gives a meaning to every instruction, spellable or not. -/

namespace Sys2Proof

/-- The numbers of an operand fit their fields in the default encoding: 20 bits for a constant or an
absolute address, 16 bits for a displacement. -/
def Operand.fits : Operand → Bool
  | .const n => decide (n.toNat < 2 ^ 20)
  | .reg _ => true
  | .base _ => true
  | .baseDisp _ n => decide (n.toNat < 2 ^ 16)
  | .abs n => decide (n.toNat < 2 ^ 20)

/-- The instruction has a word of its own in the default encoding. -/
def Instr.wellFormed : Instr → Bool
  | .getsr _ op => op.fits
  | .setsr _ op => op.fits
  | .getfl _ op => op.fits
  | .setfl _ op => op.fits
  | .flagsj _ op => op.fits
  | .comp _ op => op.fits
  | .compz op => op.fits
  | .jcond _ op => op.fits
  | .sbit _ op => op.fits
  | .cbit _ op => op.fits
  | .exbr _ op => op.fits
  | .dpbr _ op => op.fits
  | .exbrv _ op => op.fits
  | .dpbrv _ op => op.fits
  | .load _ op => op.fits
  | .store _ op => op.fits
  | .push op => op.fits
  | .inc op => op.fits
  | .call op => op.fits
  | .ret => true
  | .syscall op => op.fits
  | .iret => true
  | .halt => true
  | .phload _ op => op.fits
  | .phstore _ op => op.fits
  | .clrpp => true
  | .peri _ op => op.fits

end Sys2Proof
end

