-- ==== Sys2Proof/Decode.lean ====
section
/-! DEFINITION. The map between words and abstract instructions. The spec gives no encoding and takes
`encode` and `decode` as an open parameter with one law, `decode (encode i) = some i` (R101, decision D1).
The default encoding below is a DESIGN CHOICE (log entry 1), kept in this one file; a launch
parameter may respell any word. The machine goes through `decode`, and `encodeWith` is its inverse: the law
holds of the two for every value of the parameter.

Default layout, bit 31 first: operation 31..27, main register or condition 26..23, operand mode 22..20,
then a 20-bit number 19..0 (modes 0 and 4), or a register 19..16 with a 16-bit number 15..0 (modes 1, 2, 3).
Operations are numbered 1 to 27 in the order of spec/opcode_table.json, registers in the push order of the
entry sequence (R16): R0..R12 are 0..12, SP 13, FP 14, PC 15. A field an instruction does not use is zero. -/

namespace Sys2Proof

/-- Why a word spells no instruction of the default encoding. -/
inductive DecodeError where
  /-- The operation number is not assigned. -/
  | unassignedOperation
  /-- The operand mode is not assigned. -/
  | unassignedMode
  /-- A field the instruction does not use is not zero. -/
  | spareFieldSet
  /-- A launch parameter says that the word spells nothing. -/
  | respelledAway
  /-- The word would name PC as an operand register, a form the spec refuses (R15, D29). -/
  | pcOperand
  /-- A launch parameter says that the word spells an instruction outside the 27, of which the spec gives
  no meaning (R109, U24), or one of the 27 with an operand form outside the abstract syntax (R103, log entry 34). -/
  | otherInstruction
  deriving DecidableEq, Repr

/-- Bits 31..27. -/
def operationField (w : Word) : BitVec 5 := w.extractLsb' 27 5

/-- Bits 26..23: the main register or the condition. -/
def mainField (w : Word) : BitVec 4 := w.extractLsb' 23 4

/-- Bits 22..20: the operand mode. -/
def modeField (w : Word) : BitVec 3 := w.extractLsb' 20 3

/-- Bits 19..16: the operand's register. -/
def indexField (w : Word) : BitVec 4 := w.extractLsb' 16 4

/-- Bits 15..0: a displacement. -/
def dispField (w : Word) : BitVec 16 := w.extractLsb' 0 16

/-- Bits 19..0: a constant or an absolute address. -/
def constField (w : Word) : BitVec 20 := w.extractLsb' 0 20

/-- The register a number names; 15 is PC. -/
def decodeReg (n : BitVec 4) : Except DecodeError Reg :=
  if h : n.toNat < 13 then .ok (.gp ⟨n.toNat, h⟩)
  else if n = 13 then .ok .sp
  else if n = 14 then .ok .fp
  else .error .pcOperand

/-- The condition a number names: 0 is ERR. -/
def decodeCond (n : BitVec 4) : Cond :=
  if h : n.toNat = 0 then .err else .other ⟨n.toNat - 1, by have := n.isLt; omega⟩

/-- The operand of a word. -/
def decodeOperand (w : Word) : Except DecodeError Operand :=
  match modeField w with
  | 0 => .ok (.const ((constField w).zeroExtend 32))
  | 1 => if dispField w = 0 then (decodeReg (indexField w)).map .reg else .error .spareFieldSet
  | 2 => if dispField w = 0 then (decodeReg (indexField w)).map .base else .error .spareFieldSet
  | 3 => (decodeReg (indexField w)).map fun r => .baseDisp r ((dispField w).zeroExtend 32)
  | 4 => .ok (.abs ((constField w).zeroExtend 32))
  | _ => .error .unassignedMode

/-- Shape "main register and operand" (R102). -/
def decodeRegOperand (w : Word) (f : Reg → Operand → Instr) : Except DecodeError Instr :=
  match decodeReg (mainField w), decodeOperand w with
  | .error e, _ => .error e
  | .ok _, .error e => .error e
  | .ok r, .ok op => .ok (f r op)

/-- Shape "operand only" (R102). -/
def decodeOperandOnly (w : Word) (f : Operand → Instr) : Except DecodeError Instr :=
  if mainField w = 0 then (decodeOperand w).map f else .error .spareFieldSet

/-- Shape "condition and operand" (R102). -/
def decodeCondOperand (w : Word) (f : Cond → Operand → Instr) : Except DecodeError Instr :=
  (decodeOperand w).map (f (decodeCond (mainField w)))

/-- Shape "none" (R102). -/
def decodeBare (w : Word) (i : Instr) : Except DecodeError Instr :=
  if w.extractLsb' 0 27 = 0 then .ok i else .error .spareFieldSet

/-- The default encoding, read: total on every word, rejecting by name. -/
def decodeWord (w : Word) : Except DecodeError Instr :=
  match operationField w with
  | 1 => decodeRegOperand w .getsr
  | 2 => decodeRegOperand w .setsr
  | 3 => decodeRegOperand w .getfl
  | 4 => decodeRegOperand w .setfl
  | 5 => decodeRegOperand w .flagsj
  | 6 => decodeRegOperand w .comp
  | 7 => decodeOperandOnly w .compz
  | 8 => decodeCondOperand w .jcond
  | 9 => decodeRegOperand w .sbit
  | 10 => decodeRegOperand w .cbit
  | 11 => decodeRegOperand w .exbr
  | 12 => decodeRegOperand w .dpbr
  | 13 => decodeRegOperand w .exbrv
  | 14 => decodeRegOperand w .dpbrv
  | 15 => decodeRegOperand w .load
  | 16 => decodeRegOperand w .store
  | 17 => decodeOperandOnly w .push
  | 18 => decodeOperandOnly w .inc
  | 19 => decodeOperandOnly w .call
  | 20 => decodeBare w .ret
  | 21 => decodeOperandOnly w .syscall
  | 22 => decodeBare w .iret
  | 23 => decodeBare w .halt
  | 24 => decodeRegOperand w .phload
  | 25 => decodeRegOperand w .phstore
  | 26 => decodeBare w .clrpp
  | 27 => decodeRegOperand w .peri
  | _ => .error .unassignedOperation

/-- The machine's decoder (R101, R110): a respelling of the launch parameters first, then the default
encoding. -/
def decode (code : List (Word × Spelling)) (w : Word) : Except DecodeError Instr :=
  match code.lookup w with
  | some (.instr i) => .ok i
  | some .nothing => .error .respelledAway
  | some .pcOperand => .error .pcOperand
  | some .otherInstruction => .error .otherInstruction
  | none => decodeWord w

/-! The encoder of the default encoding. -/

/-- The number of a register. -/
def encodeReg : Reg → BitVec 4
  | .gp n => BitVec.ofNat 4 n.val
  | .sp => 13
  | .fp => 14

/-- The number of a condition. -/
def encodeCond : Cond → BitVec 4
  | .err => 0
  | .other k => BitVec.ofNat 4 (k.val + 1)

/-- Bits 22..0 of a word: the mode and the operand's fields. -/
def encodeOperand : Operand → BitVec 23
  | .const n => (0 : BitVec 3) ++ n.extractLsb' 0 20
  | .reg r => (1 : BitVec 3) ++ encodeReg r ++ (0 : BitVec 16)
  | .base r => (2 : BitVec 3) ++ encodeReg r ++ (0 : BitVec 16)
  | .baseDisp r n => (3 : BitVec 3) ++ encodeReg r ++ n.extractLsb' 0 16
  | .abs n => (4 : BitVec 3) ++ n.extractLsb' 0 20

/-- The number of an instruction's operation: its row in spec/opcode_table.json, the first being 1. -/
def operationNumber : Instr → BitVec 5
  | .getsr _ _ => 1
  | .setsr _ _ => 2
  | .getfl _ _ => 3
  | .setfl _ _ => 4
  | .flagsj _ _ => 5
  | .comp _ _ => 6
  | .compz _ => 7
  | .jcond _ _ => 8
  | .sbit _ _ => 9
  | .cbit _ _ => 10
  | .exbr _ _ => 11
  | .dpbr _ _ => 12
  | .exbrv _ _ => 13
  | .dpbrv _ _ => 14
  | .load _ _ => 15
  | .store _ _ => 16
  | .push _ => 17
  | .inc _ => 18
  | .call _ => 19
  | .ret => 20
  | .syscall _ => 21
  | .iret => 22
  | .halt => 23
  | .phload _ _ => 24
  | .phstore _ _ => 25
  | .clrpp => 26
  | .peri _ _ => 27

/-- Bits 26..0 of an instruction's word. -/
def encodeFields : Instr → BitVec 27
  | .getsr r op => encodeReg r ++ encodeOperand op
  | .setsr r op => encodeReg r ++ encodeOperand op
  | .getfl r op => encodeReg r ++ encodeOperand op
  | .setfl r op => encodeReg r ++ encodeOperand op
  | .flagsj r op => encodeReg r ++ encodeOperand op
  | .comp r op => encodeReg r ++ encodeOperand op
  | .compz op => (0 : BitVec 4) ++ encodeOperand op
  | .jcond c op => encodeCond c ++ encodeOperand op
  | .sbit r op => encodeReg r ++ encodeOperand op
  | .cbit r op => encodeReg r ++ encodeOperand op
  | .exbr r op => encodeReg r ++ encodeOperand op
  | .dpbr r op => encodeReg r ++ encodeOperand op
  | .exbrv r op => encodeReg r ++ encodeOperand op
  | .dpbrv r op => encodeReg r ++ encodeOperand op
  | .load r op => encodeReg r ++ encodeOperand op
  | .store r op => encodeReg r ++ encodeOperand op
  | .push op => (0 : BitVec 4) ++ encodeOperand op
  | .inc op => (0 : BitVec 4) ++ encodeOperand op
  | .call op => (0 : BitVec 4) ++ encodeOperand op
  | .ret => 0
  | .syscall op => (0 : BitVec 4) ++ encodeOperand op
  | .iret => 0
  | .halt => 0
  | .phload r op => encodeReg r ++ encodeOperand op
  | .phstore r op => encodeReg r ++ encodeOperand op
  | .clrpp => 0
  | .peri r op => encodeReg r ++ encodeOperand op

/-- The word of an instruction, whether or not its numbers fit. -/
def encodeWord (i : Instr) : Word := operationNumber i ++ encodeFields i

/-- `encode` of R101: the word that spells an instruction, where it has one. -/
def encode (i : Instr) : Option Word :=
  if i.wellFormed then some (encodeWord i) else none

/-- `encode` of R101 for the machine's decoder: the first word that the launch parameter makes spell the
instruction, else its word of the default encoding where the parameter leaves that word alone. -/
def encodeWith (code : List (Word × Spelling)) (i : Instr) : Option Word :=
  match code.find? fun entry => code.lookup entry.1 == some (.instr i) with
  | some entry => some entry.1
  | none => (encode i).filter fun w => (code.lookup w).isNone

/-- The instruction the decoder reads from a word written as spec/opcode_table.json numbers its bits
(every instruction is one word, R100; the bits above `nbits` are 0). -/
def decodeTableWord (nbits w : Nat) : Option Instr :=
  match decodeWord (BitVec.ofNat 32 (w % 2 ^ nbits)) with
  | .ok i => some i
  | .error _ => none

end Sys2Proof
end

