-- ==== Sys2Proof/Machine/Fetch.lean ====
section
/-! DEFINITION. What a step does before it runs an instruction (R288): the host's moves, KEYBD, DEBUG,
fetch and decode; and where a fetched word stands. -/

namespace Sys2Proof.Machine

/-- A host file put in place of the one of its name, or added. -/
def putFile (files : List HostFile) (f : HostFile) : List HostFile :=
  if files.any fun g => g.name == f.name then
    files.map fun g => if g.name = f.name then f else g
  else files ++ [f]

/-- One move of the host (R230, R240, R250, decision D34). A packet for a unit that is off, or of more than
1024 bytes, is not received. -/
def hostMove (s : State) (e : HostEvent) : State :=
  match e with
  | .key c => s.setWorld { s.world with keyboard := s.world.keyboard ++ [c] }
  | .packet u p =>
    match s.world.nets[u] with
    | none => s
    | some n =>
      if p.bytes.length ≤ 1024 then
        s.setWorld { s.world with nets := s.world.nets.set u (some { n with queue := n.queue ++ [p] }) }
      else s
  | .advance us => s.setWorld { s.world with clock := s.world.clock + us }
  | .file f => s.setWorld { s.world with files := putFile s.world.files f }

/-- The host's moves before an instruction: the next entry of its script (R288). -/
def hostMoves (s : State) : State :=
  match s.world.host.events with
  | [] => s
  | es :: rest =>
    es.foldl hostMove (s.setWorld { s.world with host := { s.world.host with events := rest } })

/-- KEYBD is signalled while the keyboard buffer is not empty (R274). -/
def keyboardSignal (s : State) : Signalled :=
  if s.world.keyboard = [] then .ignored else signal s .keybd none none s.pc

/-- DEBUG is signalled when PC equals `$DEBUG`, before the fetch (R277). -/
def debugSignal (s : State) : Signalled :=
  if s.pc = s.sr.debug then signal s .debug (some s.pc) none s.pc else .ignored

/-- What the part of a step before `exec` comes to: the step has ended, or an instruction is to run. -/
inductive Begun where
  | ended (o : Host.Outcome State Fault Refusal)
  | run (i : Instr) (s : State)

/-- Fetch and decode at PC (R83, R110): a fetch that raises and a word that spells no instruction are
signalled; a word that names PC as an operand (D29), or an instruction outside the 27 (R109, U24),
is refused. -/
def fetch (s : State) : Begun :=
  match memRead s s.pc with
  | .raise c addr info => .ended (takeException s c addr info)
  | .stop x => .ended x.outcome
  | .ok w =>
    match decode s.cfg.code w with
    | .ok i => .run i s
    | .error .pcOperand => .ended (.refused .pcOperand)
    | .error .otherInstruction => .ended (.refused .otherInstruction)
    | .error .unassignedOperation => .ended (takeException s .unimpop (some s.pc) none)
    | .error .unassignedMode => .ended (takeException s .unimpop (some s.pc) none)
    | .error .spareFieldSet => .ended (takeException s .unimpop (some s.pc) none)
    | .error .respelledAway => .ended (takeException s .unimpop (some s.pc) none)

/-- A notification before the fetch, and what follows where it is ignored (R288). -/
def afterSignal (x : Signalled) (go : Begun) : Begun :=
  match x with
  | .entered t => .ended (.next t)
  | .stopped y => .ended y.outcome
  | .ignored => go

/-- A step up to the point where an instruction runs (R286, R288). From R = 0 there is no step (R298). -/
def beginStep (s : State) : Begun :=
  if s.flags.r then
    let t := hostMoves s
    afterSignal (keyboardSignal t) (afterSignal (debugSignal t) (fetch t))
  else .ended (.fault .halted)

/-- A word stored at the physical address a fetch at PC reads, where there is one. -/
def placeAtPc (s : State) (w : Word) : State :=
  match target s s.pc with
  | .ok pa => s.poke pa w
  | .raise _ _ _ => s
  | .stop _ => s

end Sys2Proof.Machine
end

