-- ==== Sys2Proof/Machine/Step.lean ====
section
/-! DEFINITION. One step of the CPU (R288) and the placing of one instruction where it fetches. -/

namespace Sys2Proof.Machine

/-- One step: what comes before the instruction, then the instruction (R288). -/
def step (s : State) : Host.Outcome State Fault Refusal :=
  match beginStep s with
  | .ended o => o
  | .run i t => exec i t

/-- The state with a one-word instruction stored where the next fetch reads (R100). -/
def State.withFetchWord (s : State) (nbits w : Nat) : State :=
  placeAtPc s (BitVec.ofNat 32 (w % 2 ^ nbits))

end Sys2Proof.Machine
end

