-- ==== Sys2Proof/Safety.lean ====
section
/-! DEFINITION. The words statements use: the well-formedness every step keeps, and what an instruction
leaves unchanged. -/

namespace Sys2Proof.Machine

/-- The word an address of physical memory holds; `none` where nothing has been written. -/
def State.word (s : State) (a : Nat) : Option Word := Memory.read s.mem a

/-! ## The invariant -/

/-- Memory is in its canonical form and lists only addresses that exist (R61). -/
def State.memWf (s : State) : Prop :=
  Memory.wf s.mem ∧ ∀ c ∈ s.mem, c.1 < s.cfg.physWords

/-- A disc's words are in canonical form and lie below its size (R52). -/
def Disc.wf (d : Disc) : Prop :=
  Memory.wf d.words ∧ ∀ c ∈ d.words, c.1 < 128 * d.size

/-- Every disc is well formed. -/
def World.discsWf (w : World) : Prop :=
  ∀ (u : Fin 8) (d : Disc), w.discs[u] = some d → d.wf

/-- No queued packet is longer than 1024 bytes (R240). -/
def World.netsWf (w : World) : Prop :=
  ∀ (u : Fin 2) (n : NetUnit), w.nets[u] = some n → ∀ p ∈ n.queue, p.bytes.length ≤ 1024

/-- The peripheral operations have distinct numbers (`peri_code` is injective, R191), and the six bytes of a
network address have places of their own (U17). -/
def Launch.wf (c : Launch) : Prop := c.periCode.toList.Nodup ∧ c.netLayout.toList.Nodup

/-- The invariant of the machine. -/
def State.wf (s : State) : Prop :=
  s.memWf ∧ s.world.discsWf ∧ s.world.netsWf ∧ Launch.wf s.cfg

/-! ## Completion -/

/-- A running CPU whose TIMER does not expire with the instruction at hand. -/
def Ready (s : State) : Prop := s.flags.r = true ∧ s.sr.timer ≠ 1

/-- The TIMER register after an instruction that completed: one lower, zero staying zero (R294). -/
def afterTick (timer : Word) : Word := if timer = 0 then 0 else timer - 1

/-! ## What an instruction leaves unchanged -/

/-- The special registers no ordinary instruction writes. -/
def SameControls (s t : State) : Prop :=
  t.sr.pdbr = s.sr.pdbr ∧ t.sr.intvec = s.sr.intvec ∧ t.sr.cgbr = s.sr.cgbr ∧
    t.sr.cglen = s.sr.cglen ∧ t.sr.debug = s.sr.debug

/-- The stack and frame pointers of the mode that is not current in `s` (R13, R14). -/
def SameOtherBank (s t : State) : Prop :=
  if s.flags.sys then t.sr.usrSP = s.sr.usrSP ∧ t.sr.usrFP = s.sr.usrFP
  else t.sr.sysSP = s.sr.sysSP ∧ t.sr.sysFP = s.sr.sysFP

/-- All four stack and frame pointers. -/
def SameStacks (s t : State) : Prop :=
  t.sr.sysSP = s.sr.sysSP ∧ t.sr.sysFP = s.sr.sysFP ∧ t.sr.usrSP = s.sr.usrSP ∧
    t.sr.usrFP = s.sr.usrFP

/-- Every word of memory. -/
def SameMemory (s t : State) : Prop := ∀ a : Nat, t.word a = s.word a

/-- Every word of memory but the one at a physical address. -/
def SameMemoryBut (pa : Word) (s t : State) : Prop := ∀ a : Nat, a ≠ pa.toNat → t.word a = s.word a

/-- What every instruction but PERI, SETSR, SYSCALL and IRET leaves: the controls, the world outside the CPU,
the launch parameters, whether an INTRFAULT handler is in progress; the timer counts one instruction. -/
structure Frame (s t : State) : Prop where
  controls : SameControls s t
  world : t.world = s.world
  launch : t.cfg = s.cfg
  timer : t.sr.timer = afterTick s.sr.timer
  nesting : t.faultNesting = s.faultNesting

/-- An instruction that changed, the pc and the timer apart, register `r` alone. -/
structure OnlyReg (r : Reg) (s t : State) : Prop extends Frame s t where
  others : ∀ q : Reg, q ≠ r → t.getReg q = s.getReg q
  otherBank : SameOtherBank s t
  flags : t.flags = s.flags
  memory : SameMemory s t

/-- An instruction that changed, the pc and the timer apart, flags alone. -/
structure OnlyFlags (s t : State) : Prop extends Frame s t where
  gpr : t.gpr = s.gpr
  pointers : SameStacks s t
  memory : SameMemory s t

/-- An instruction that changed, the pc and the timer apart, the word at one physical address alone. -/
structure OnlyWord (pa : Word) (s t : State) : Prop extends Frame s t where
  gpr : t.gpr = s.gpr
  pointers : SameStacks s t
  flags : t.flags = s.flags
  memory : SameMemoryBut pa s t

/-- An instruction that changed, the pc and the timer apart, nothing. -/
structure OnlyPc (s t : State) : Prop extends Frame s t where
  gpr : t.gpr = s.gpr
  pointers : SameStacks s t
  flags : t.flags = s.flags
  memory : SameMemory s t

/-- The physical address that a store to an operand reaches is `pa` (R105, R112, R72). -/
def StoresAt (s : State) (dest : Operand) (pa : Word) : Prop :=
  ∃ ea, effAddr s dest = some ea ∧ target s ea = .ok pa

/-- An operand that can be stored to: a register, or memory whose address translates to one that exists. -/
def CanStore (s : State) (dest : Operand) : Prop :=
  (∃ q, dest = .reg q) ∨ ∃ pa, StoresAt s dest pa

/-- An instruction that changed, the pc, the timer and the flags apart, its destination operand alone, to
`v` (R105): every other register and every other word of memory is as before. -/
structure WroteTo (dest : Operand) (v : Word) (s t : State) : Prop extends Frame s t where
  register : ∀ q, dest = .reg q → t.getReg q = v
  word : ∀ pa, StoresAt s dest pa → t.word pa.toNat = some v
  others : ∀ q, dest ≠ .reg q → t.getReg q = s.getReg q
  otherBank : SameOtherBank s t
  memory : ∀ a : Nat, (∀ pa, StoresAt s dest pa → a ≠ pa.toNat) → t.word a = s.word a

/-- A push of `v` on the stack of the current mode, at physical address `pa`: SP one lower, that word, and
nothing else but the pc and the timer (R153). -/
structure PushedWord (pa v : Word) (s t : State) : Prop extends Frame s t where
  pointer : t.sp = s.sp - 1
  word : t.word pa.toNat = some v
  others : ∀ q : Reg, q ≠ .sp → t.getReg q = s.getReg q
  otherBank : SameOtherBank s t
  flags : t.flags = s.flags
  memory : SameMemoryBut pa s t

/-- An instruction that halted the CPU and changed, the pc apart, flags alone; a halted CPU ticks no timer
(R298). -/
structure OnlyHalted (s t : State) : Prop where
  halted : t.flags.r = false
  controls : SameControls s t
  world : t.world = s.world
  launch : t.cfg = s.cfg
  timer : t.sr.timer = s.sr.timer
  nesting : t.faultNesting = s.faultNesting
  gpr : t.gpr = s.gpr
  pointers : SameStacks s t
  memory : SameMemory s t

/-- The seven flags as bits 6..0 of a word (R36). -/
def FlagsAre (w : Word) (f : Flags) : Prop :=
  f.r = w.getLsbD 0 ∧ f.z = w.getLsbD 1 ∧ f.n = w.getLsbD 2 ∧ f.err = w.getLsbD 3 ∧
    f.sys = w.getLsbD 4 ∧ f.ip = w.getLsbD 5 ∧ f.vm = w.getLsbD 6

/-- Every flag but Z and N. -/
def SameButZN (f g : Flags) : Prop :=
  g.r = f.r ∧ g.err = f.err ∧ g.sys = f.sys ∧ g.ip = f.ip ∧ g.vm = f.vm

/-! ## The accesses of an instruction -/

/-- The instruction comes to take the value of an operand: in the mode that may run it, with a condition that
holds, and with the operands it reads before readable (R104, R143 to R146, R176). -/
inductive ReadsOperand (s : State) : Instr → Operand → Prop where
  | getsr (r : Reg) (op : Operand) : ReadsOperand s (.getsr r op) op
  | setsr (r : Reg) (op : Operand) : s.flags.sys = true → ReadsOperand s (.setsr r op) op
  | getfl (r : Reg) (op : Operand) : ReadsOperand s (.getfl r op) op
  | setfl (r : Reg) (op : Operand) : ReadsOperand s (.setfl r op) op
  | flagsj (r : Reg) (op : Operand) : s.flags.sys = true → ReadsOperand s (.flagsj r op) op
  | comp (r : Reg) (op : Operand) : ReadsOperand s (.comp r op) op
  | compz (op : Operand) : ReadsOperand s (.compz op) op
  | jcond (c : Cond) (op : Operand) : condValue s c = .ok true → ReadsOperand s (.jcond c op) op
  | sbit (r : Reg) (op : Operand) : ReadsOperand s (.sbit r op) op
  | cbit (r : Reg) (op : Operand) : ReadsOperand s (.cbit r op) op
  | exbrWord (r : Reg) (op : Operand) :
    ReadsOperand s (.exbr r op) (placeOperand r op s.cfg.roles.exbr.word)
  | exbrDesc (r : Reg) (op : Operand) (w : Word) :
    val s (placeOperand r op s.cfg.roles.exbr.word) = .ok w →
    ReadsOperand s (.exbr r op) (placeOperand r op s.cfg.roles.exbr.desc)
  | dpbrWord (r : Reg) (op : Operand) :
    ReadsOperand s (.dpbr r op) (placeOperand r op s.cfg.roles.dpbr.word)
  | dpbrDesc (r : Reg) (op : Operand) (w : Word) :
    val s (placeOperand r op s.cfg.roles.dpbr.word) = .ok w →
    ReadsOperand s (.dpbr r op) (placeOperand r op s.cfg.roles.dpbr.desc)
  | dpbrData (r : Reg) (op : Operand) (w d : Word) :
    val s (placeOperand r op s.cfg.roles.dpbr.word) = .ok w →
    val s (placeOperand r op s.cfg.roles.dpbr.desc) = .ok d →
    ReadsOperand s (.dpbr r op) (placeOperand r op s.cfg.roles.dpbr.data)
  | exbrvWord (r : Reg) (op : Operand) :
    ReadsOperand s (.exbrv r op) (placeOperand r op s.cfg.roles.exbrv.word)
  | exbrvDesc (r : Reg) (op : Operand) (a : Word) :
    val s (placeOperand r op s.cfg.roles.exbrv.word) = .ok a →
    ReadsOperand s (.exbrv r op) (placeOperand r op s.cfg.roles.exbrv.desc)
  | dpbrvWord (r : Reg) (op : Operand) :
    ReadsOperand s (.dpbrv r op) (placeOperand r op s.cfg.roles.dpbrv.word)
  | dpbrvDesc (r : Reg) (op : Operand) (a : Word) :
    val s (placeOperand r op s.cfg.roles.dpbrv.word) = .ok a →
    ReadsOperand s (.dpbrv r op) (placeOperand r op s.cfg.roles.dpbrv.desc)
  | dpbrvData (r : Reg) (op : Operand) (a d : Word) :
    val s (placeOperand r op s.cfg.roles.dpbrv.word) = .ok a →
    val s (placeOperand r op s.cfg.roles.dpbrv.desc) = .ok d →
    ReadsOperand s (.dpbrv r op) (placeOperand r op s.cfg.roles.dpbrv.data)
  | load (r : Reg) (op : Operand) : ReadsOperand s (.load r op) op
  | push (op : Operand) : ReadsOperand s (.push op) op
  | inc (op : Operand) : ReadsOperand s (.inc op) op
  | call (op : Operand) : ReadsOperand s (.call op) op
  | syscall (op : Operand) : ReadsOperand s (.syscall op) op
  | peri (r : Reg) (op : Operand) : s.flags.sys = true → ReadsOperand s (.peri r op) op

/-- The instruction comes to store its result in an operand: all it reads before is readable and its range, if
it has one, fits (R105, R143 to R145, R151, R154). -/
inductive StoresToOperand (s : State) : Instr → Operand → Prop where
  | store (r : Reg) (op : Operand) : StoresToOperand s (.store r op) op
  | inc (op : Operand) (v : Word) : val s op = .ok v → StoresToOperand s (.inc op) op
  | dpbr (r : Reg) (op : Operand) (w d v : Word) :
    val s (placeOperand r op s.cfg.roles.dpbr.word) = .ok w →
    val s (placeOperand r op s.cfg.roles.dpbr.desc) = .ok d → rangeFits d = true →
    val s (placeOperand r op s.cfg.roles.dpbr.data) = .ok v →
    StoresToOperand s (.dpbr r op) (placeOperand r op s.cfg.roles.dpbr.word)
  | exbr (r : Reg) (op : Operand) (w d : Word) :
    val s (placeOperand r op s.cfg.roles.exbr.word) = .ok w →
    val s (placeOperand r op s.cfg.roles.exbr.desc) = .ok d → rangeFits d = true →
    StoresToOperand s (.exbr r op) (placeOperand r op s.cfg.roles.exbr.data)
  | exbrv (r : Reg) (op : Operand) (a d w : Word) :
    val s (placeOperand r op s.cfg.roles.exbrv.word) = .ok a →
    val s (placeOperand r op s.cfg.roles.exbrv.desc) = .ok d → rangeFits d = true →
    memRead s (a + rangeSkip d) = .ok w →
    StoresToOperand s (.exbrv r op) (placeOperand r op s.cfg.roles.exbrv.data)

/-- The instruction comes to access memory at an address, and what the access raises is its exception: a memory
operand it reads or stores to, the vector word of EXBRV and DPBRV, the stack word of PUSH, CALL and RET (R112,
R145, R146, R153). The frame accesses of SYSCALL and IRET and those of a PERI operation raise nothing (U8, R195). -/
inductive MakesAccess (s : State) : Instr → Word → Prop where
  | read (i : Instr) (op : Operand) (a : Word) :
    ReadsOperand s i op → effAddr s op = some a → MakesAccess s i a
  | store (i : Instr) (op : Operand) (a : Word) :
    StoresToOperand s i op → effAddr s op = some a → MakesAccess s i a
  | exbrv (r : Reg) (op : Operand) (a d : Word) :
    val s (placeOperand r op s.cfg.roles.exbrv.word) = .ok a →
    val s (placeOperand r op s.cfg.roles.exbrv.desc) = .ok d →
    MakesAccess s (.exbrv r op) (a + rangeSkip d)
  | dpbrv (r : Reg) (op : Operand) (a d v : Word) :
    val s (placeOperand r op s.cfg.roles.dpbrv.word) = .ok a →
    val s (placeOperand r op s.cfg.roles.dpbrv.desc) = .ok d →
    val s (placeOperand r op s.cfg.roles.dpbrv.data) = .ok v →
    MakesAccess s (.dpbrv r op) (a + rangeSkip d)
  | push (op : Operand) (v : Word) : val s op = .ok v → MakesAccess s (.push op) (s.sp - 1)
  | call (op : Operand) (v : Word) : val s op = .ok v → MakesAccess s (.call op) (s.sp - 1)
  | ret : MakesAccess s .ret s.sp

/-! ## Interrupt entry -/

/-- The address `k` words below the system stack pointer. -/
def below (s : State) (k : Nat) : Word := s.sr.sysSP - BitVec.ofNat 32 k

/-- The physical address at which the word `k` below the system stack pointer stands, seen in system mode; 0
where there is none. -/
def slot (s : State) (k : Nat) : Word :=
  match target s.entering (below s k) with
  | .ok pa => pa
  | .raise _ _ _ => 0
  | .stop _ => 0

/-- The physical addresses that translating an address reads: with VM off none, with VM on its directory
entry and its table entry (R72). -/
def walkReads (s : State) (a : Word) : List Word :=
  if s.flags.vm then
    dirEntryAddr s a ::
      match physRead s (dirEntryAddr s a) with
      | .ok dirEntry => [tableEntryAddr dirEntry a]
      | .raise _ _ _ => []
      | .stop _ => []
  else []

/-- The `n` words below the system stack pointer can be pushed, with VM off or on: in system mode each of
their addresses leads to a word that exists, no two to the same, and none to a table entry by which one of
them is translated. -/
def SystemStackRoom (n : Nat) (s : State) : Prop :=
  ∀ k : Nat, 1 ≤ k → k ≤ n →
    target s.entering (below s k) = .ok (slot s k) ∧
    ∀ j : Nat, 1 ≤ j → j ≤ n → (j ≠ k → slot s j ≠ slot s k) ∧ slot s j ∉ walkReads s (below s k)

/-- As `SystemStackRoom`, for the words below the system stack pointer but the `m`th, which a failed push left
out. -/
def SystemStackRoomBut (m n : Nat) (s : State) : Prop :=
  ∀ k : Nat, 1 ≤ k → k ≤ n → k ≠ m →
    target s.entering (below s k) = .ok (slot s k) ∧
    ∀ j : Nat, 1 ≤ j → j ≤ n → j ≠ m →
      (j ≠ k → slot s j ≠ slot s k) ∧ slot s j ∉ walkReads s (below s k)

/-- A push to the `k`th word below the system stack pointer raises, also when the words before it but the `m`th
have been pushed, none of them being a table entry by which its address is translated. -/
def PushRaises (m k : Nat) (s : State) : Prop :=
  (∃ c addr info, target s.entering (below s k) = .raise c addr info) ∧
  ∀ j : Nat, 1 ≤ j → j < k → j ≠ m → slot s j ∉ walkReads s (below s k)

/-- Memory outside the `n` words below the system stack pointer of `s`. -/
def SameMemoryBelow (n : Nat) (s t : State) : Prop :=
  ∀ a : Nat, (∀ k : Nat, 1 ≤ k → k ≤ n → a ≠ (slot s k).toNat) → t.word a = s.word a

/-- The handler installed for a cause is `h`: interrupts are accepted, the vector entry is `h`, not zero,
and does not lie in the 21 words below the system stack pointer. -/
def HandlerAt (s : State) (c : Cause) (h : Word) : Prop :=
  s.flags.ip = false ∧ h ≠ 0 ∧ vectorEntry s c = .ok h ∧
    ∀ k : Nat, 1 ≤ k → k ≤ 21 → (s.sr.intvec + c.code).toNat ≠ (slot s k).toNat

/-- The 21-word frame of R282 below `s`'s system stack pointer, in `t`, each word at the physical address of
its place on the stack: R0 to R12, the SP slot (SYSSP after thirteen pushes, before or after its own: U6),
SYSFP, a PC, info, address, code, flags, 40. A word is always pushed for info and address; where none is
defined, nothing is said of it. -/
structure EntryFrame (s t : State) (c : Cause) (addr info : Option Word) (savedPc : Word) : Prop where
  regs : ∀ k : Fin 13, t.word (slot s (k.val + 1)).toNat = some s.gpr[k]
  spSlot : t.word (slot s 14).toNat = some (below s 13) ∨
    t.word (slot s 14).toNat = some (below s 14)
  fp : t.word (slot s 15).toNat = some s.sr.sysFP
  pc : t.word (slot s 16).toNat = some savedPc
  info : ∃ w, t.word (slot s 17).toNat = some w ∧ ∀ x, info = some x → w = x
  addr : ∃ w, t.word (slot s 18).toNat = some w ∧ ∀ x, addr = some x → w = x
  code : t.word (slot s 19).toNat = some c.code
  oldflags : t.word (slot s 20).toNat = some s.flags.toWord
  marker : t.word (slot s 21).toNat = some 40
  memory : SameMemoryBelow 21 s t

/-- What entering an interrupt leaves and writes in the registers: everything is kept but SYS and IP (on),
SYSSP, and the pc (R280). -/
structure EntryRegs (s t : State) : Prop where
  flags : t.flags = s.flags.entering
  gpr : t.gpr = s.gpr
  user : t.sr.usrSP = s.sr.usrSP ∧ t.sr.usrFP = s.sr.usrFP
  sysFP : t.sr.sysFP = s.sr.sysFP
  controls : SameControls s t
  timer : t.sr.timer = s.sr.timer
  world : t.world = s.world
  launch : t.cfg = s.cfg

/-- The handler of a cause entered whole: registers, frame, stack pointer, pc (R280, R282). -/
structure HandlerEntered (s t : State) (c : Cause) (addr info : Option Word) (savedPc h : Word) :
    Prop extends EntryRegs s t, EntryFrame s t c addr info savedPc where
  sysSP : t.sr.sysSP = below s 21
  handler : t.pc = h
  nesting : t.faultNesting = nestingOnEntry s

/-- An entry for the cause succeeds whole: its handler `h` stands ready and the system stack has its 21
words. -/
def CanEnter (s : State) (c : Cause) (h : Word) : Prop := HandlerAt s c h ∧ SystemStackRoom 21 s

/-- Interrupts are accepted, and an entry for the cause cannot be completed: its vector entry cannot be read
(`m` is 0), or its `m`th push raises (R278). -/
def EntryFailsAt (s : State) (c : Cause) (m : Nat) : Prop :=
  s.flags.ip = false ∧
  (m = 0 ∧ (∃ x addr info, vectorEntry s c = .raise x addr info) ∨
    1 ≤ m ∧ m ≤ 21 ∧ (∃ v, v ≠ 0 ∧ vectorEntry s c = .ok v) ∧ SystemStackRoom (m - 1) s ∧
      PushRaises 0 m s)

/-- An entry for INTRFAULT after an entry that failed at `m` fails too: its vector entry is zero or cannot be
read, or one of its pushes raises (R278). -/
def IntrFaultFails (s : State) (m : Nat) : Prop :=
  vectorEntry s .intrfault = .ok 0 ∨
  (∃ x addr info, vectorEntry s .intrfault = .raise x addr info) ∨
  (∃ h, vectorEntry s .intrfault = .ok h) ∧
    ∃ n : Nat, 1 ≤ n ∧ n ≤ 21 ∧ SystemStackRoomBut m (m + n - 1) s ∧ PushRaises m (m + n) s

/-- The 18-word frame of SYSCALL (R170) and what the call changes: R0 to R12, the SP slot, SYSFP, the address
of the next instruction, the old flags, 40; SYS and IP on; the pc at the gate. -/
structure CallEntered (s t : State) (gate : Word) : Prop where
  controls : SameControls s t
  world : t.world = s.world
  launch : t.cfg = s.cfg
  timer : t.sr.timer = afterTick s.sr.timer
  nesting : t.faultNesting = nestingOnCall s
  regs : ∀ k : Fin 13, t.word (slot s (k.val + 1)).toNat = some s.gpr[k]
  spSlot : t.word (slot s 14).toNat = some (below s 13) ∨
    t.word (slot s 14).toNat = some (below s 14)
  fp : t.word (slot s 15).toNat = some s.sr.sysFP
  returnPc : t.word (slot s 16).toNat = some (s.pc + 1)
  oldflags : t.word (slot s 17).toNat = some s.flags.toWord
  marker : t.word (slot s 18).toNat = some 40
  memory : SameMemoryBelow 18 s t
  gpr : t.gpr = s.gpr
  flags : t.flags = s.flags.entering
  sysSP : t.sr.sysSP = below s 18
  sysFP : t.sr.sysFP = s.sr.sysFP
  user : t.sr.usrSP = s.sr.usrSP ∧ t.sr.usrFP = s.sr.usrFP
  target : t.pc = gate

/-! ## Privilege -/

/-- The seven instructions of the privileged list (R176). -/
def privilegedInstr : Instr → Bool
  | .setsr _ _ => true
  | .flagsj _ _ => true
  | .iret => true
  | .phload _ _ => true
  | .phstore _ _ => true
  | .clrpp => true
  | .peri _ _ => true
  | .getsr _ _ => false
  | .getfl _ _ => false
  | .setfl _ _ => false
  | .comp _ _ => false
  | .compz _ => false
  | .jcond _ _ => false
  | .sbit _ _ => false
  | .cbit _ _ => false
  | .exbr _ _ => false
  | .dpbr _ _ => false
  | .exbrv _ _ => false
  | .dpbrv _ _ => false
  | .load _ _ => false
  | .store _ _ => false
  | .push _ => false
  | .inc _ => false
  | .call _ => false
  | .ret => false
  | .syscall _ => false
  | .halt => false

/-! ## Peripheral operations -/

/-- A PERI that ended with `result` and left the world outside the CPU `w`: the result in the main register,
ERR its sign, every other flag and register as before (R190, R192). Memory is left to the operation. -/
structure PeriEnded (r : Reg) (result : Word) (w : World) (s t : State) : Prop where
  main : t.getReg r = result
  err : t.flags.err = decide (result.toInt < 0)
  flags : t.flags.r = s.flags.r ∧ t.flags.z = s.flags.z ∧ t.flags.n = s.flags.n ∧
    t.flags.sys = s.flags.sys ∧ t.flags.ip = s.flags.ip ∧ t.flags.vm = s.flags.vm
  others : ∀ q : Reg, q ≠ r → t.getReg q = s.getReg q
  otherBank : SameOtherBank s t
  controls : SameControls s t
  timer : t.sr.timer = afterTick s.sr.timer
  world : t.world = w
  launch : t.cfg = s.cfg
  nesting : t.faultNesting = s.faultNesting
  next : t.pc = s.pc + 1

/-- A PERI in system mode, ready to run operation `o` with its control structure at `cs` (R190, R191). -/
def PeriReady (s : State) (op : Operand) (cs : Word) (o : PeriOp) : Prop :=
  Ready s ∧ s.flags.sys = true ∧ val s op = .ok cs ∧
    ∃ code, memRead s cs = .ok code ∧ periOpOf s code = some o

/-- A PERI that ended with an error code and did nothing else. -/
def PeriFails (s : State) (r : Reg) (op : Operand) (code : Int) : Prop :=
  ∃ t, exec (.peri r op) s = .next t ∧ SameMemory s t ∧
    PeriEnded r (BitVec.ofInt 32 code) s.world s t

/-- How many words of its control structure an operation reads after the first (R199 to R252): the `cs[k]` that
are its inputs. -/
def inputWords : PeriOp → Nat
  | .discCheck => 1
  | .discRead => 4
  | .discWrite => 4
  | .tapeCheck => 1
  | .tapeRewind => 1
  | .tapeLoad => 3
  | .tapeLength => 1
  | .tapeUnload => 1
  | .tapeRead => 2
  | .tapeWrite => 3
  | .termInC => 2
  | .termOutC => 2
  | .termInW => 2
  | .termOutW => 2
  | .netSS => 3
  | .netSend => 4
  | .netRecv => 3
  | .seconds => 0
  | .useconds => 0
  | .dateTime => 1

/-- A result is the count `n`: zero or positive, and the number itself where a word holds it as a positive one
(log entry 36). -/
def CountIs (n : Nat) (result : Word) : Prop :=
  0 ≤ result.toInt ∧ (n < 2 ^ 31 → result = BitVec.ofNat 32 n)

/-- The `n` words from an address can be read. -/
def Reads (s : State) (a : Word) (n : Nat) : Prop :=
  ∀ k : Nat, k < n → ∃ w, memRead s (a + BitVec.ofNat 32 k) = .ok w

/-- Words that can be read stand from an address on. -/
def WordsAt (s : State) (a : Word) (ws : List Word) : Prop :=
  ∀ k : Nat, k < ws.length → memRead s (a + BitVec.ofNat 32 k) = .ok (ws.getD k 0)

/-- One of the `n` words from an address cannot be read, the words before it can. -/
def ReadFails (s : State) (a : Word) (n : Nat) : Prop :=
  ∃ k : Nat, k < n ∧ Reads s a k ∧
    ∃ c addr info, memRead s (a + BitVec.ofNat 32 k) = .raise c addr info

/-- The `n` words from an address can be stored to. -/
def Reaches (s : State) (a : Word) (n : Nat) : Prop :=
  ∀ k : Nat, k < n → ∃ pa, target s (a + BitVec.ofNat 32 k) = .ok pa

/-- One of the `n` words from an address cannot be stored to, the words before it can. -/
def ReachFails (s : State) (a : Word) (n : Nat) : Prop :=
  ∃ k : Nat, k < n ∧ Reaches s a k ∧
    ∃ c addr info, target s (a + BitVec.ofNat 32 k) = .raise c addr info

/-- The `n` words from an address exist, with VM off. -/
def Room (s : State) (a : Word) (n : Nat) : Prop :=
  s.flags.vm = false ∧ ∀ k : Nat, k < n → physValid s (a + BitVec.ofNat 32 k) = true

/-- Memory outside the `n` words from an address. -/
def SameMemoryOutside (a : Word) (n : Nat) (s t : State) : Prop :=
  ∀ b : Nat, (∀ k : Nat, k < n → b ≠ (a + BitVec.ofNat 32 k).toNat) → t.word b = s.word b

/-- Byte `k` of packed data at `a` is `c`: bits `8(k mod 4)+7 .. 8(k mod 4)` of word `a + k/4` (R62). -/
def ByteAt (s : State) (a : Word) (k : Nat) (c : Byte) : Prop :=
  ∃ w, s.word (a + BitVec.ofNat 32 (k / 4)).toNat = some w ∧ w.extractLsb' (8 * (k % 4)) 8 = c

/-- Packed bytes stand at `a`, in words that exist, with VM off (R62, R213). -/
def PackedAt (s : State) (a : Word) (bytes : List Byte) : Prop :=
  Room s a ((bytes.length + 3) / 4) ∧ ∀ k : Nat, k < bytes.length → ByteAt s a k (bytes.getD k 0)

/-- A zero-terminated packed string stands at `a`, in words that exist, with VM off (R62). -/
def StringAt (s : State) (a : Word) (chars : List Byte) : Prop :=
  PackedAt s a (chars ++ [0]) ∧ 0 ∉ chars ∧ chars.length < 2 ^ 32

/-- A disc's words outside positions `lo` to `hi` are as before. -/
def SameDiscOutside (lo hi : Nat) (d : Disc) (words : Memory) : Prop :=
  ∀ p : Nat, p < lo ∨ hi ≤ p → Memory.read words p = Memory.read d.words p

/-- The host's files after `new` has been written in a tape's file at the unit's position: files of another name
are as before, and so are the file's other bytes. Where the file has become shorter than the position, the bytes
between are some bytes (log entry 26); writing no bytes changes nothing. -/
def WroteFile (s : State) (tape : Tape) (new : List Byte) (files : List HostFile) : Prop :=
  new = [] ∧ files = s.world.files ∨
  new ≠ [] ∧ ∃ bytes gap : List Byte, tapeContent s tape = some bytes ∧
    gap.length = tape.pos - bytes.length ∧
    files = s.world.files.map fun g =>
      if g.name = tape.file then
        { g with content := some ((bytes ++ gap).take tape.pos ++ new ++
            (bytes ++ gap).drop (tape.pos + new.length)) }
      else g

/-- The host's files and a position after a write of `n` bytes to a tape that failed: some bytes, at most `n`,
stand in its file, and the position has moved by at most `n` (U10, log entry 23). -/
def FailedWrite (s : State) (tape : Tape) (n : Nat) (files : List HostFile) (pos : Nat) : Prop :=
  (∃ new : List Byte, new.length ≤ n ∧ WroteFile s tape new files) ∧
    tape.pos ≤ pos ∧ pos ≤ tape.pos + n

/-- The pair of words at `p` holds a network address in the layout of the launch parameter (U17). -/
def AddressAt (s : State) (p : Word) (a : BitVec 48) : Prop :=
  ∃ w0 w1, s.word p.toNat = some w0 ∧ s.word (p + 1).toNat = some w1 ∧
    w1 ++ w0 = layOut s.cfg.netLayout a

end Sys2Proof.Machine
end

