-- ==== Sys2Proof/Certificates/Slice0/Obligations.lean ====
section
/-! DEFINITION. The statements for the provers. Each docstring names the rules of spec/ it formalises and the
log entries (notes/assumptions) on which it rests. -/

open Sys2Proof Sys2Proof.Machine

/-! ## The encoding (the default encoding is the model's own: log entry 1) -/

/-- The law R101 asks of the pair, `decode (encode i) = some i`: of the machine's decoder and encoder, for
every value of the launch parameter `code`; and of the default encoding, for every instruction whose numbers
fit it, which is the machine's where the parameter is empty (log entry 1). -/
def Obligations.DecodeReadsEncodedInstruction : Prop :=
  (∀ (code : List (Word × Spelling)) (i : Instr) (w : Word),
    encodeWith code i = some w → decode code w = .ok i) ∧
  (∀ i : Instr, i.wellFormed = true →
    ∃ w, encode i = some w ∧ decodeWord w = .ok i ∧ encodeWith [] i = some w ∧ decode [] w = .ok i)

/-- A word of the default encoding (log entry 1) that spells an instruction is that instruction's own word;
and an instruction that some word spells under a launch parameter has an encoding under it. -/
def Obligations.EveryDecodedWordIsItsEncoding : Prop :=
  (∀ (w : Word) (i : Instr), decodeWord w = .ok i → encode i = some w) ∧
  (∀ (code : List (Word × Spelling)) (w : Word) (i : Instr), decode code w = .ok i →
    ∃ v, encodeWith code i = some v)

/-- Words written out by hand from the default layout (log entry 1). -/
def Obligations.WordsDecodeToTheirInstructions : Prop :=
  decodeWord 0x78800064#32 = .ok (.load (.gp 1) (.const 100)) ∧
  decodeWord 0x10800006#32 = .ok (.setsr (.gp 1) (.const 6)) ∧
  decodeWord 0x80B20001#32 = .ok (.store (.gp 1) (.baseDisp (.gp 2) 1)) ∧
  decodeWord 0x7F1D0000#32 = .ok (.load .fp (.reg .sp)) ∧
  decodeWord 0x881E0000#32 = .ok (.push (.reg .fp)) ∧
  decodeWord 0x40000500#32 = .ok (.jcond .err (.const 0x500)) ∧
  decodeWord 0xB0000000#32 = .ok .iret ∧
  decodeWord 0xD9802000#32 = .ok (.peri (.gp 3) (.const 0x2000)) ∧
  decodeWord 0x789F0000#32 = .error .pcOperand ∧
  decodeWord 0x00000000#32 = .error .unassignedOperation

/-! ## A step -/

/-- R288: a running CPU at which neither KEYBD nor DEBUG is taken fetches at the pc, after the host's moves,
and runs the instruction the word spells. The last two clauses say when the two are not taken. That a host whose
script of moves has run out makes no move is the model's own convention (log entry 16). -/
def Obligations.StepRunsTheDecodedInstruction : Prop :=
  (∀ (s : State) (w : Word) (i : Instr), s.flags.r = true →
    keyboardSignal (hostMoves s) = .ignored → debugSignal (hostMoves s) = .ignored →
    memRead (hostMoves s) (hostMoves s).pc = .ok w →
    decode (hostMoves s).cfg.code w = .ok i →
    step s = exec i (hostMoves s)) ∧
  (∀ s : State, s.world.host.events = [] → hostMoves s = s) ∧
  (∀ s : State, s.world.keyboard = [] ∨ s.flags.ip = true → keyboardSignal s = .ignored) ∧
  (∀ s : State, s.pc ≠ s.sr.debug ∨ s.flags.ip = true → debugSignal s = .ignored)

/-- R110, R264, R288: a fetch that raises is taken, and enters the handler of its cause where that stands
ready; a word that spells no instruction enters the UNIMPOP handler with its own address; a word that names PC
as an operand, or an instruction outside the 27 (an operand form outside R103's table counts as one), is refused
(R15, R103, R109, U24, log entries 1 and 34). -/
def Obligations.FetchedWordWithoutInstruction : Prop :=
  ∀ (s : State), s.flags.r = true →
    keyboardSignal (hostMoves s) = .ignored → debugSignal (hostMoves s) = .ignored →
    (∀ (c : Cause) (addr info : Option Word),
      memRead (hostMoves s) (hostMoves s).pc = .raise c addr info →
      step s = takeException (hostMoves s) c addr info ∧
      ∀ h : Word, CanEnter (hostMoves s) c h →
        ∃ t, step s = .next t ∧
          HandlerEntered (hostMoves s) t c addr info (trapSavedPc (hostMoves s) c) h) ∧
    (∀ (w h : Word) (e : DecodeError), memRead (hostMoves s) (hostMoves s).pc = .ok w →
      decode (hostMoves s).cfg.code w = .error e → e ≠ .pcOperand →
      e ≠ .otherInstruction → CanEnter (hostMoves s) .unimpop h →
      ∃ t, step s = .next t ∧
        HandlerEntered (hostMoves s) t .unimpop (some (hostMoves s).pc) none
          (trapSavedPc (hostMoves s) .unimpop) h) ∧
    (∀ w : Word, memRead (hostMoves s) (hostMoves s).pc = .ok w →
      (decode (hostMoves s).cfg.code w = .error .pcOperand → step s = .refused .pcOperand) ∧
      (decode (hostMoves s).cfg.code w = .error .otherInstruction →
        step s = .refused .otherInstruction))

/-- R298: a halted CPU executes no instruction. -/
def Obligations.HaltedCpuTakesNoStep : Prop :=
  ∀ s : State, s.flags.r = false → step s = .fault .halted

/-- R274, R277, R286, R288: before the fetch a waiting key enters the KEYBD handler, and, with no key
waiting, a pc equal to `$DEBUG` enters the DEBUG handler with the pc as address; both save the pc. -/
def Obligations.NotificationsComeBeforeTheFetch : Prop :=
  (∀ (s : State) (h : Word), s.flags.r = true → (hostMoves s).world.keyboard ≠ [] →
    CanEnter (hostMoves s) .keybd h →
    ∃ t, step s = .next t ∧
      HandlerEntered (hostMoves s) t .keybd none none (hostMoves s).pc h) ∧
  (∀ (s : State) (h : Word), s.flags.r = true → (hostMoves s).world.keyboard = [] →
    (hostMoves s).pc = (hostMoves s).sr.debug → CanEnter (hostMoves s) .debug h →
    ∃ t, step s = .next t ∧
      HandlerEntered (hostMoves s) t .debug (some (hostMoves s).pc) none (hostMoves s).pc h)

/-! ## Reset and invariants -/

/-- R50, R320: at start-up SYS = 1, IP = 1, VM = 0 and R = 1; and the invariant holds. -/
def Obligations.ResetHasTheStatedFlags : Prop :=
  State.reset.flags.sys = true ∧ State.reset.flags.ip = true ∧ State.reset.flags.vm = false ∧
    State.reset.flags.r = true ∧ State.reset.wf

/-- R61, R52, R240, R191: every step keeps memory canonical and within the addresses that exist, every disc's
words below its size, every queued packet within 1024 bytes, and the operation numbers distinct. -/
def Obligations.StepKeepsStateWellFormed : Prop :=
  ∀ s t : State, s.wf → step s = .next t → t.wf

/-- R6, R56, R250, R197: no step changes a launch parameter or a disc's size, takes back output or a sent
packet, or turns the clock back. -/
def Obligations.StepKeepsLaunchAndRecords : Prop :=
  ∀ s t : State, step s = .next t →
    t.cfg = s.cfg ∧ s.world.output <+: t.world.output ∧ s.world.sent <+: t.world.sent ∧
    s.world.clock ≤ t.world.clock ∧
    ∀ u : Fin 8, (t.world.discs[u]).map Disc.size = (s.world.discs[u]).map Disc.size

/-- R44, R289, R291: whatever user mode executes, one step changes no control register, not VM, not R, not
the system frame pointer, and nothing of the world outside the CPU beyond the host's own moves; it is then in
system mode with IP on, or still in user mode with IP and the system stack pointer as they were. -/
def Obligations.UserStepKeepsProtectedState : Prop :=
  ∀ s t : State, s.flags.sys = false → step s = .next t →
    SameControls s t ∧ t.flags.vm = s.flags.vm ∧ t.flags.r = true ∧ t.sr.sysFP = s.sr.sysFP ∧
    t.world = (hostMoves s).world ∧
    t.world.discs = s.world.discs ∧ t.world.tapes = s.world.tapes ∧
    t.world.output = s.world.output ∧ t.world.sent = s.world.sent ∧
    (t.flags.sys = true → t.flags.ip = true) ∧
    (t.flags.sys = false → t.flags.ip = s.flags.ip ∧ t.sr.sysSP = s.sr.sysSP)

/-- R290, R23, R24, R280, R170: user mode reaches system mode only at an address installed in the interrupt
vector, with interrupts accepted, or in the call gate vector, at an index within CGLEN. -/
def Obligations.SystemModeIsEnteredThroughTheVectors : Prop :=
  ∀ s t : State, s.flags.sys = false → step s = .next t → t.flags.sys = true →
    (s.flags.ip = false ∧ ∃ c : Cause, vectorEntry t c = .ok t.pc) ∨
    (∃ i : Word, 0 ≤ i.toInt ∧ i.toInt < t.sr.cglen.toInt ∧ physRead t (t.sr.cgbr + i) = .ok t.pc)

/-! ## Memory -/

/-- R67: the three fields of a virtual address, and the address made of them. -/
def Obligations.VirtualAddressFields : Prop :=
  ∀ a : Word,
    dirOf a = (a.extractLsb' 22 10).zeroExtend 32 ∧
    pgOf a = (a.extractLsb' 11 11).zeroExtend 32 ∧
    offsOf a = (a.extractLsb' 0 11).zeroExtend 32 ∧
    a = a.extractLsb' 22 10 ++ a.extractLsb' 11 11 ++ a.extractLsb' 0 11

/-- R66, R68, R69, R70, R72: with VM off an address is physical; with VM on it goes through the directory
entry and the table entry, each address and the result being a field concatenation. -/
def Obligations.TranslationWalksTwoTables : Prop :=
  (∀ (s : State) (a : Word), s.flags.vm = false → Machine.translate s a = .ok a) ∧
  (∀ (s : State) (a dirEntry entry : Word), s.flags.vm = true →
    physRead s (s.sr.pdbr.extractLsb' 10 22 ++ a.extractLsb' 22 10) = .ok dirEntry →
    dirEntry ≠ 0 →
    physRead s (dirEntry.extractLsb' 11 21 ++ a.extractLsb' 11 11) = .ok entry →
    entry.getLsbD 0 = true → entry.getLsbD 1 = false ∨ s.flags.sys = true →
    Machine.translate s a = .ok (entry.extractLsb' 11 21 ++ a.extractLsb' 0 11))

/-- R74, R75, R76: the faults of translation, in the order the algorithm meets them, with the address each
reports; and the MEMORY of an access whose address translates to one that does not exist, with the physical
address. -/
def Obligations.TranslationFaultsInOrder : Prop :=
  (∀ (s : State) (a pa v : Word), Machine.translate s a = .ok pa → physValid s pa = false →
    memRead s a = .raise .memory (some pa) none ∧ memWrite s a v = .raise .memory (some pa) none) ∧
  ∀ (s : State) (a : Word), s.flags.vm = true →
    let pos := s.sr.pdbr.extractLsb' 10 22 ++ a.extractLsb' 22 10
    (physValid s pos = false → Machine.translate s a = .raise .memory (some pos) none) ∧
    (physRead s pos = .ok 0 → Machine.translate s a = .raise .pagefault (some a) none) ∧
    (∀ dirEntry : Word, physRead s pos = .ok dirEntry → dirEntry ≠ 0 →
      let slot := dirEntry.extractLsb' 11 21 ++ a.extractLsb' 11 11
      (physValid s slot = false → Machine.translate s a = .raise .memory (some slot) none) ∧
      ∀ entry : Word, physRead s slot = .ok entry →
        (entry.getLsbD 0 = false → Machine.translate s a = .raise .pagefault (some a) none) ∧
        (entry.getLsbD 0 = true → entry.getLsbD 1 = true → s.flags.sys = false →
          Machine.translate s a = .raise .pagepriv (some a) none))

/-- R64, R80: a store changes the one word at its translated address, which then holds the value, and a load
of the same address with VM off gives it back. -/
def Obligations.StoreThenLoadGivesTheWord : Prop :=
  ∀ (s t : State) (a v : Word), memWrite s a v = .ok t →
    (∃ pa, Machine.translate s a = .ok pa ∧ physRead t pa = .ok v ∧ SameMemoryBut pa s t) ∧
    (s.flags.vm = false → memRead t a = .ok v)

/-- R13: SP names SYSSP in system mode and USRSP in user mode, for reads and writes alike; the other keeps
its value, no register name reads it, and its number reads and writes it. -/
def Obligations.StackPointerIsBanked : Prop :=
  ∀ (s : State) (v : Word),
    (s.flags.sys = true →
      s.getReg .sp = s.sr.sysSP ∧ s.setReg .sp v = s.setSpecial .sysSP v ∧
      (s.setReg .sp v).sr.sysSP = v ∧ (s.setReg .sp v).sr.usrSP = s.sr.usrSP ∧
      (s.setSpecial .usrSP v).sr.usrSP = v ∧
      ∀ r : Reg, (s.setSpecial .usrSP v).getReg r = s.getReg r ∧
        (s.setReg r v).sr.usrSP = s.sr.usrSP) ∧
    (s.flags.sys = false →
      s.getReg .sp = s.sr.usrSP ∧ s.setReg .sp v = s.setSpecial .usrSP v ∧
      (s.setReg .sp v).sr.usrSP = v ∧ (s.setReg .sp v).sr.sysSP = s.sr.sysSP ∧
      (s.setSpecial .sysSP v).sr.sysSP = v ∧
      ∀ r : Reg, (s.setSpecial .sysSP v).getReg r = s.getReg r ∧
        (s.setReg r v).sr.sysSP = s.sr.sysSP) ∧
    s.getSpecial .sysSP = s.sr.sysSP ∧ s.getSpecial .usrSP = s.sr.usrSP

/-! ## Operands and general instructions -/

/-- R103, R104, R105, R112: the value of each operand form, the address of a memory form, and where a store to
each form goes. -/
def Obligations.OperandValuesAddressesAndStores : Prop :=
  ∀ (s : State) (r : Reg) (n v : Word),
    (val s (.const n) = .ok n ∧ storeOperand s (.const n) v = .raise .unwrop (some s.pc) none) ∧
    (val s (.reg r) = .ok (s.getReg r) ∧ storeOperand s (.reg r) v = .ok (s.setReg r v)) ∧
    (effAddr s (.base r) = some (s.getReg r) ∧ effAddr s (.baseDisp r n) = some (s.getReg r + n) ∧
      effAddr s (.abs n) = some n ∧ effAddr s (.const n) = none ∧ effAddr s (.reg r) = none) ∧
    ∀ (op : Operand) (a : Word), effAddr s op = some a →
      val s op = memRead s a ∧ storeOperand s op v = memWrite s a v

/-- R150: LOAD, with its frame. -/
def Obligations.LoadWritesItsRegister : Prop :=
  ∀ (s : State) (r : Reg) (op : Operand) (v : Word), Ready s → val s op = .ok v →
    ∃ t, exec (.load r op) s = .next t ∧ t.getReg r = v ∧ t.pc = s.pc + 1 ∧ OnlyReg r s t

/-- R151, R105: STORE to a register or to memory, with its frame. -/
def Obligations.StoreWritesItsOperand : Prop :=
  ∀ (s : State) (r : Reg) (op : Operand), Ready s → CanStore s op →
    ∃ t, exec (.store r op) s = .next t ∧ t.pc = s.pc + 1 ∧ t.flags = s.flags ∧
      WroteTo op (s.getReg r) s t

/-- R105, R267, R154, R151, R144, R145, R153, R64, R262, R74, R75, R76, R276, R280: an instruction that comes to
store its result in a constant enters the UNWROP handler with the instruction's address (EXBR and EXBRV where the
operand is the place of the result, log entry 4). An instruction that comes to access memory (an operand it reads
or stores to, the vector word of EXBRV and DPBRV, the stack word of PUSH, CALL and RET) at an address whose
translation raises (PAGEFAULT, PAGEPRIV, or MEMORY in the walk) enters the handler of that cause with the address
it reports; where the address leads, translated or not, to a physical address that does not exist, it enters the
MEMORY handler with that. Nothing else is changed: a failed push or pop leaves SP as it was (D38). The PC saved is
the instruction's address or the next, by the launch parameter (log entry 12). -/
def Obligations.OperandFaultsEnterTheirHandlers : Prop :=
  (∀ (s : State) (h n : Word) (i : Instr), StoresToOperand s i (.const n) → CanEnter s .unwrop h →
    ∃ t, exec i s = .next t ∧
      HandlerEntered s t .unwrop (some s.pc) none (trapSavedPc s .unwrop) h) ∧
  (∀ (s : State) (h a : Word) (i : Instr), MakesAccess s i a →
    (∀ (c : Cause) (addr info : Option Word), Machine.translate s a = .raise c addr info →
      CanEnter s c h →
      ∃ t, exec i s = .next t ∧ HandlerEntered s t c addr info (trapSavedPc s c) h) ∧
    (∀ pa : Word, Machine.translate s a = .ok pa → physValid s pa = false → CanEnter s .memory h →
      ∃ t, exec i s = .next t ∧
        HandlerEntered s t .memory (some pa) none (trapSavedPc s .memory) h)) ∧
  (∀ (s : State) (c : Cause), trapSavedPc s c =
    if s.cfg.trapSavesNext.getLsbD c.code.toNat then s.pc + 1 else s.pc)

/-- R152, R153: PUSH lowers SP by one and stores the operand's value there; for `PUSH SP` the word is SP from
before or after the decrement (93_implementation_defined.md U6, log entry 17). -/
def Obligations.PushStoresAtTheLoweredStackPointer : Prop :=
  ∀ (s : State) (op : Operand) (pa : Word), Ready s → target s (s.sp - 1) = .ok pa →
    (∀ v, op ≠ .reg .sp → val s op = .ok v →
      ∃ t, exec (.push op) s = .next t ∧ t.pc = s.pc + 1 ∧ PushedWord pa v s t) ∧
    (op = .reg .sp →
      ∃ t v, exec (.push op) s = .next t ∧ t.pc = s.pc + 1 ∧ (v = s.sp ∨ v = s.sp - 1) ∧
        PushedWord pa v s t)

/-- R154: INC adds one, modulo 2^32, to a register or a word of memory; Z and N are left open (U7, log
entry 31), every other flag is kept. -/
def Obligations.IncAddsOneToItsOperand : Prop :=
  ∀ (s : State) (op : Operand) (v : Word), Ready s → val s op = .ok v → CanStore s op →
    ∃ t, exec (.inc op) s = .next t ∧ t.pc = s.pc + 1 ∧ SameButZN s.flags t.flags ∧
      WroteTo op (v + 1) s t

/-- R155: CALL pushes the address of the next instruction and jumps. -/
def Obligations.CallPushesTheReturnAddressAndJumps : Prop :=
  ∀ (s : State) (op : Operand) (a pa : Word), Ready s → val s op = .ok a →
    target s (s.sp - 1) = .ok pa →
    ∃ t, exec (.call op) s = .next t ∧ t.pc = a ∧ PushedWord pa (s.pc + 1) s t

/-- R156: RET pops the program counter. -/
def Obligations.RetPopsTheProgramCounter : Prop :=
  ∀ (s : State) (a : Word), Ready s → memRead s s.sp = .ok a →
    ∃ t, exec .ret s = .next t ∧ t.pc = a ∧ t.sp = s.sp + 1 ∧ OnlyReg .sp s t

/-! ## Special registers, flags, comparisons, bits -/

/-- R120, R32, R20: the eleven numbers, the register each names, and GETSR of each, in either mode. -/
def Obligations.GetsrReadsASpecialRegister : Prop :=
  (sregOf 0 = some .flags ∧ sregOf 1 = some .pdbr ∧ sregOf 2 = some .intvec ∧
    sregOf 3 = some .cgbr ∧ sregOf 4 = some .cglen ∧ sregOf 5 = some .debug ∧
    sregOf 6 = some .timer ∧ sregOf 7 = some .sysSP ∧ sregOf 8 = some .sysFP ∧
    sregOf 9 = some .usrSP ∧ sregOf 10 = some .usrFP) ∧
  (∀ s : State, s.getSpecial .flags = s.flags.toWord ∧ s.getSpecial .pdbr = s.sr.pdbr ∧
    s.getSpecial .intvec = s.sr.intvec ∧ s.getSpecial .cgbr = s.sr.cgbr ∧
    s.getSpecial .cglen = s.sr.cglen ∧ s.getSpecial .debug = s.sr.debug ∧
    s.getSpecial .timer = s.sr.timer ∧ s.getSpecial .sysSP = s.sr.sysSP ∧
    s.getSpecial .sysFP = s.sr.sysFP ∧ s.getSpecial .usrSP = s.sr.usrSP ∧
    s.getSpecial .usrFP = s.sr.usrFP) ∧
  ∀ (s : State) (r : Reg) (op : Operand) (n : Word) (k : SReg), Ready s → val s op = .ok n →
    sregOf n = some k →
    ∃ t, exec (.getsr r op) s = .next t ∧ t.getReg r = s.getSpecial k ∧ t.pc = s.pc + 1 ∧
      OnlyReg r s t

/-- R121, R294: SETSR, in system mode, of a special register other than FLAGS: that register takes the value
(TIMER then counts this instruction too), and nothing else changes. -/
def Obligations.SetsrWritesASpecialRegister : Prop :=
  ∀ (s : State) (r : Reg) (op : Operand) (n : Word) (k : SReg), s.flags.r = true →
    s.flags.sys = true → val s op = .ok n → sregOf n = some k → k ≠ .flags →
    (if k = .timer then s.getReg r else s.sr.timer) ≠ 1 →
    ∃ t, exec (.setsr r op) s = .next t ∧ t.pc = s.pc + 1 ∧
      t.getSpecial k = (if k = .timer then afterTick (s.getReg r) else s.getReg r) ∧
      (∀ q : SReg, q ≠ k → q ≠ .timer → t.getSpecial q = s.getSpecial q) ∧
      (k ≠ .timer → t.sr.timer = afterTick s.sr.timer) ∧
      t.flags = s.flags ∧ t.gpr = s.gpr ∧ SameMemory s t ∧ t.world = s.world ∧ t.cfg = s.cfg ∧
      t.faultNesting = s.faultNesting

/-- R121, R36, R298: SETSR of FLAGS sets all seven flags from bits 6..0; with bit 0 clear the CPU halts, and
TIMER does not count that instruction (log entry 18). -/
def Obligations.SetsrOfFlagsSetsAllSeven : Prop :=
  ∀ (s : State) (r : Reg) (op : Operand), Ready s → s.flags.sys = true → val s op = .ok 0 →
    ∃ t, exec (.setsr r op) s = .next t ∧ t.pc = s.pc + 1 ∧ FlagsAre (s.getReg r) t.flags ∧
      ((s.getReg r).getLsbD 0 = true → OnlyFlags s t) ∧
      ((s.getReg r).getLsbD 0 = false → OnlyHalted s t)

/-- R36, R45: the FLAGS word, R the least significant bit and VM bit 6, bits 31..7 zero (the spec's own choice,
log entry 35); reading the special register gives it, writing it sets all seven flags at once. -/
def Obligations.FlagsWordLayout : Prop :=
  ∀ (s : State) (w : Word),
    FlagsAre (s.getSpecial .flags) s.flags ∧
    (s.getSpecial .flags).toNat =
      s.flags.r.toNat + 2 * s.flags.z.toNat + 4 * s.flags.n.toNat + 8 * s.flags.err.toNat +
        16 * s.flags.sys.toNat + 32 * s.flags.ip.toNat + 64 * s.flags.vm.toNat ∧
    FlagsAre w (s.setSpecial .flags w).flags

/-- R122, R35: the seven numbers, and GETFL of each: 0 or 1, in either mode. -/
def Obligations.GetflReadsOneFlag : Prop :=
  (flagOf 0 = some .r ∧ flagOf 1 = some .z ∧ flagOf 2 = some .n ∧ flagOf 3 = some .err ∧
    flagOf 4 = some .sys ∧ flagOf 5 = some .ip ∧ flagOf 6 = some .vm) ∧
  ∀ (s : State) (r : Reg) (op : Operand) (n : Word) (k : Flag), Ready s → val s op = .ok n →
    flagOf n = some k →
    ∃ t, exec (.getfl r op) s = .next t ∧ t.getReg r = (if s.flags.get k then 1 else 0) ∧
      t.pc = s.pc + 1 ∧ OnlyReg r s t

/-- R123, R44, R298: SETFL sets the one flag named, in system mode any, in user mode Z, N or ERR; R set to 0
halts the CPU, and TIMER does not count that instruction (log entry 18). -/
def Obligations.SetflWritesOneFlag : Prop :=
  ∀ (s : State) (r : Reg) (op : Operand) (n : Word) (k : Flag), Ready s → val s op = .ok n →
    flagOf n = some k → s.flags.sys = true ∨ k = .z ∨ k = .n ∨ k = .err →
    ∃ t, exec (.setfl r op) s = .next t ∧ t.pc = s.pc + 1 ∧
      t.flags.get k = decide (s.getReg r ≠ 0) ∧ (∀ q, q ≠ k → t.flags.get q = s.flags.get q) ∧
      (k ≠ .r ∨ s.getReg r ≠ 0 → OnlyFlags s t) ∧
      (k = .r → s.getReg r = 0 → OnlyHalted s t)

/-- R124, R298: FLAGSJ sets all seven flags and the pc, the target evaluated under the old flags; where it
clears R, TIMER does not count it (log entry 18). -/
def Obligations.FlagsjSetsFlagsAndJumps : Prop :=
  ∀ (s : State) (r : Reg) (op : Operand) (a : Word), Ready s → s.flags.sys = true →
    val s op = .ok a →
    ∃ t, exec (.flagsj r op) s = .next t ∧ t.pc = a ∧ FlagsAre (s.getReg r) t.flags ∧
      ((s.getReg r).getLsbD 0 = true → OnlyFlags s t) ∧
      ((s.getReg r).getLsbD 0 = false → OnlyHalted s t)

/-- R125, R126: COMP sets Z when the values are equal and N when the register's is less, as signed numbers,
wherever the difference fits a word (U3, log entry 31); COMPZ compares its operand with zero, a constant too, which
is the model's choice (log entry 3). -/
def Obligations.ComparisonsSetZeroAndNegative : Prop :=
  (∀ (s : State) (r : Reg) (op : Operand) (b : Word), Ready s → val s op = .ok b →
    ∃ t, exec (.comp r op) s = .next t ∧ t.pc = s.pc + 1 ∧ OnlyFlags s t ∧
      SameButZN s.flags t.flags ∧ t.flags.z = decide (s.getReg r = b) ∧
      (-2 ^ 31 ≤ (s.getReg r).toInt - b.toInt → (s.getReg r).toInt - b.toInt < 2 ^ 31 →
        t.flags.n = decide ((s.getReg r).toInt < b.toInt))) ∧
  (∀ (s : State) (op : Operand) (a : Word), Ready s → val s op = .ok a →
    ∃ t, exec (.compz op) s = .next t ∧ t.pc = s.pc + 1 ∧ OnlyFlags s t ∧
      SameButZN s.flags t.flags ∧ t.flags.z = decide (a = 0) ∧
      t.flags.n = decide (a.toInt < 0))

/-- R127: JCOND jumps when its condition holds and falls through, its target not evaluated, when it does not;
a condition the launch parameters do not define is refused (U24, log entry 13). -/
def Obligations.JcondJumpsWhenItsConditionHolds : Prop :=
  ∀ (s : State) (op : Operand), Ready s →
    (∀ a, s.flags.err = true → val s op = .ok a →
      ∃ t, exec (.jcond .err op) s = .next t ∧ t.pc = a ∧ OnlyPc s t) ∧
    (s.flags.err = false →
      ∃ t, exec (.jcond .err op) s = .next t ∧ t.pc = s.pc + 1 ∧ OnlyPc s t) ∧
    (∀ (k : Fin 15) (set : BitVec 128), s.cfg.conds.lookup k = some set →
      (∀ a, set.getLsbD s.flags.toWord.toNat = true → val s op = .ok a →
        ∃ t, exec (.jcond (.other k) op) s = .next t ∧ t.pc = a ∧ OnlyPc s t) ∧
      (set.getLsbD s.flags.toWord.toNat = false →
        ∃ t, exec (.jcond (.other k) op) s = .next t ∧ t.pc = s.pc + 1 ∧ OnlyPc s t)) ∧
    (∀ k : Fin 15, s.cfg.conds.lookup k = none →
      exec (.jcond (.other k) op) s = .refused (.jcondCondition k))

/-- R128, R129: SBIT and CBIT set and clear one bit of the main register. -/
def Obligations.SbitAndCbitChangeOneBit : Prop :=
  ∀ (s : State) (r : Reg) (op : Operand) (n : Word), Ready s → val s op = .ok n → n.toNat < 32 →
    (∃ t, exec (.sbit r op) s = .next t ∧ t.pc = s.pc + 1 ∧ OnlyReg r s t ∧
      ∀ i : Nat, i < 32 →
        (t.getReg r).getLsbD i = if i = n.toNat then true else (s.getReg r).getLsbD i) ∧
    (∃ t, exec (.cbit r op) s = .next t ∧ t.pc = s.pc + 1 ∧ OnlyReg r s t ∧
      ∀ i : Nat, i < 32 →
        (t.getReg r).getLsbD i = if i = n.toNat then false else (s.getReg r).getLsbD i)

/-! ## Bit ranges -/

/-- R143, R145: EXBR and EXBRV store the extracted range in the place the launch parameter gives the result
(D44, log entry 4); EXBRV takes the word `skip` words after the address. -/
def Obligations.ExtractInstructionsStoreTheRange : Prop :=
  (∀ (s : State) (r : Reg) (op : Operand) (w d : Word), Ready s →
    val s (placeOperand r op s.cfg.roles.exbr.word) = .ok w →
    val s (placeOperand r op s.cfg.roles.exbr.desc) = .ok d → rangeFits d = true →
    CanStore s (placeOperand r op s.cfg.roles.exbr.data) →
    ∃ t, exec (.exbr r op) s = .next t ∧ t.pc = s.pc + 1 ∧ t.flags = s.flags ∧
      WroteTo (placeOperand r op s.cfg.roles.exbr.data) (extractRange w d) s t) ∧
  (∀ (s : State) (r : Reg) (op : Operand) (a w d : Word), Ready s →
    val s (placeOperand r op s.cfg.roles.exbrv.word) = .ok a →
    val s (placeOperand r op s.cfg.roles.exbrv.desc) = .ok d → rangeFits d = true →
    memRead s (a + (d.extractLsb' 10 22).zeroExtend 32) = .ok w →
    CanStore s (placeOperand r op s.cfg.roles.exbrv.data) →
    ∃ t, exec (.exbrv r op) s = .next t ∧ t.pc = s.pc + 1 ∧ t.flags = s.flags ∧
      WroteTo (placeOperand r op s.cfg.roles.exbrv.data) (extractRange w d) s t)

/-- R144, R146: DPBR replaces a range of the word it works on, DPBRV a range of the word `skip` words after
the address, in the places the launch parameter gives them (D44, log entry 4). -/
def Obligations.DepositInstructionsReplaceTheRange : Prop :=
  (∀ (s : State) (r : Reg) (op : Operand) (w d v : Word), Ready s →
    val s (placeOperand r op s.cfg.roles.dpbr.word) = .ok w →
    val s (placeOperand r op s.cfg.roles.dpbr.desc) = .ok d → rangeFits d = true →
    val s (placeOperand r op s.cfg.roles.dpbr.data) = .ok v →
    CanStore s (placeOperand r op s.cfg.roles.dpbr.word) →
    ∃ t, exec (.dpbr r op) s = .next t ∧ t.pc = s.pc + 1 ∧ t.flags = s.flags ∧
      WroteTo (placeOperand r op s.cfg.roles.dpbr.word) (depositRange w d v) s t) ∧
  (∀ (s : State) (r : Reg) (op : Operand) (a w d v pa : Word), Ready s →
    val s (placeOperand r op s.cfg.roles.dpbrv.word) = .ok a →
    val s (placeOperand r op s.cfg.roles.dpbrv.desc) = .ok d → rangeFits d = true →
    val s (placeOperand r op s.cfg.roles.dpbrv.data) = .ok v →
    memRead s (a + (d.extractLsb' 10 22).zeroExtend 32) = .ok w →
    Machine.translate s (a + (d.extractLsb' 10 22).zeroExtend 32) = .ok pa →
    ∃ t, exec (.dpbrv r op) s = .next t ∧ t.pc = s.pc + 1 ∧ OnlyWord pa s t ∧
      t.word pa.toNat = some (depositRange w d v))

/-- R140, R141, R142: a descriptor's length and shift, extraction and deposit bit by bit, and the two laws
that join them. -/
def Obligations.BitRangeLaws : Prop :=
  ∀ w d v : Word,
    (rangeShift d = (d.extractLsb' 5 5).toNat ∧
      rangeLen d = if d.extractLsb' 0 5 = 0 then 32 else (d.extractLsb' 0 5).toNat) ∧
    (rangeFits d = true ↔ rangeShift d + rangeLen d ≤ 32) ∧
    (rangeFits d = true →
      (∀ i : Nat, (extractRange w d).getLsbD i =
        (decide (i < rangeLen d) && w.getLsbD (rangeShift d + i))) ∧
      (∀ i : Nat, i < 32 → (depositRange w d v).getLsbD i =
        if rangeShift d ≤ i ∧ i < rangeShift d + rangeLen d then v.getLsbD (i - rangeShift d)
        else w.getLsbD i) ∧
      extractRange (depositRange w d v) d = v &&& rangeMask d ∧
      depositRange w d (extractRange w d) = w)

/-! ## System instructions -/

/-- R170: SYSCALL with a good index, with VM off or on, builds the 18-word frame and goes to the gate. -/
def Obligations.SyscallEntersTheCallGate : Prop :=
  ∀ (s : State) (op : Operand) (i gate : Word), s.flags.r = true → val s op = .ok i →
    0 ≤ i.toInt → i.toInt < s.sr.cglen.toInt → SystemStackRoom 18 s →
    physRead s (s.sr.cgbr + i) = .ok gate →
    (∀ k : Nat, 1 ≤ k → k ≤ 18 → (s.sr.cgbr + i).toNat ≠ (slot s k).toNat) →
    ∃ t, exec (.syscall op) s = .next t ∧ CallEntered s t gate

/-- R170, R275, R281: a bad index enters the BADCALL handler with the instruction's address and the index. -/
def Obligations.BadSyscallIndexEntersItsHandler : Prop :=
  ∀ (s : State) (op : Operand) (i h : Word), val s op = .ok i →
    i.toInt < 0 ∨ s.sr.cglen.toInt ≤ i.toInt → CanEnter s .badcall h →
    ∃ t, exec (.syscall op) s = .next t ∧
      HandlerEntered s t .badcall (some s.pc) (some i) (trapSavedPc s .badcall) h

/-- R171, R284, R298: IRET, in system mode on a frame whose marker is 40, restores R0 to R12, FP, the pc and all
seven flags from the 21 words at SP and takes them off the stack, whatever code, address and info they hold.
IRET from an INTRFAULT handler is left out: R278 refuses it (log entry 21). Where R is restored as 0, TIMER
does not count the instruction (log entry 18). -/
def Obligations.IretRestoresTheFrame : Prop :=
  ∀ (s : State) (ws : List Word), Ready s → s.flags.sys = true →
    readWords s s.sp 21 = .ok (40 :: ws) → s.faultNesting ≠ some 0 →
    ∃ t, exec .iret s = .next t ∧ t.pc = ws.getD 4 0 ∧ FlagsAre (ws.getD 0 0) t.flags ∧
      (∀ k : Fin 13, t.gpr[k] = ws.getD (19 - k.val) 0) ∧
      t.sr.sysSP = s.sr.sysSP + 21 ∧ t.sr.sysFP = ws.getD 5 0 ∧
      t.sr.usrSP = s.sr.usrSP ∧ t.sr.usrFP = s.sr.usrFP ∧
      SameControls s t ∧ SameMemory s t ∧ t.world = s.world ∧ t.cfg = s.cfg ∧
      t.faultNesting = s.faultNesting.map (· - 1) ∧
      t.sr.timer =
        (if (ws.getD 0 0).getLsbD 0 then afterTick s.sr.timer else s.sr.timer)

/-- R280, R282, R171, R284: an interrupt entered and returned from with IRET resumes the interrupted
program, with VM off or on: its registers, flags, stack pointers and the saved pc, with memory changed only
below its system stack pointer; and so in an INTRFAULT handler, for an interrupt nested in it (log entry 21). -/
def Obligations.InterruptThenIretResumes : Prop :=
  ∀ (s : State) (c : Cause) (addr info : Option Word) (savedPc h : Word), Ready s →
    CanEnter s c h →
    ∃ t u, signal s c addr info savedPc = .entered t ∧ exec .iret t = .next u ∧
      u.pc = savedPc ∧ u.gpr = s.gpr ∧ u.flags = s.flags ∧ SameStacks s u ∧
      SameControls s u ∧ u.sr.timer = afterTick s.sr.timer ∧ u.world = s.world ∧
      u.cfg = s.cfg ∧ SameMemoryBelow 21 s u ∧
      (s.flags.sys = true → u.faultNesting = s.faultNesting)

/-- R172, R265, R298: HALT clears R in system mode, and TIMER does not count it (log entry 18); in user mode it
enters the HALT handler and R stays. -/
def Obligations.HaltStopsOnlySystemMode : Prop :=
  (∀ s : State, s.flags.sys = true →
    ∃ t, exec .halt s = .next t ∧ t.pc = s.pc + 1 ∧ OnlyHalted s t ∧
      ∀ q, q ≠ .r → t.flags.get q = s.flags.get q) ∧
  (∀ (s : State) (h : Word), s.flags.sys = false → CanEnter s .halt h →
    ∃ t, exec .halt s = .next t ∧ t.flags.r = s.flags.r ∧
      HandlerEntered s t .halt (some s.pc) none (trapSavedPc s .halt) h)

/-- R176, R269, R291, R44: in user mode the seven privileged instructions, and SETFL naming R, SYS, IP or VM,
enter the PRIVOP handler with the instruction's address and do nothing else. -/
def Obligations.PrivilegedInstructionsTrapInUserMode : Prop :=
  ∀ (s : State) (h : Word), s.flags.sys = false → CanEnter s .privop h →
    (∀ i : Instr, privilegedInstr i = true →
      ∃ t, exec i s = .next t ∧
        HandlerEntered s t .privop (some s.pc) none (trapSavedPc s .privop) h) ∧
    (∀ (r : Reg) (op : Operand) (n : Word) (k : Flag), val s op = .ok n → flagOf n = some k →
      k = .r ∨ k = .sys ∨ k = .ip ∨ k = .vm →
      ∃ t, exec (.setfl r op) s = .next t ∧
        HandlerEntered s t .privop (some s.pc) none (trapSavedPc s .privop) h)

/-- R173, R174, R175: PHLOAD, PHSTORE and CLRPP are refused in system mode, where no source gives them a
meaning, and raise PRIVOP in user mode. -/
def Obligations.UndescribedInstructionsAreRefused : Prop :=
  ∀ (s : State) (r : Reg) (op : Operand),
    (s.flags.sys = true →
      exec (.phload r op) s = .refused .phloadInSystemMode ∧
      exec (.phstore r op) s = .refused .phstoreInSystemMode ∧
      exec .clrpp s = .refused .clrppInSystemMode) ∧
    (s.flags.sys = false →
      exec (.phload r op) s = takeException s .privop (some s.pc) none ∧
      exec (.phstore r op) s = takeException s .privop (some s.pc) none ∧
      exec .clrpp s = takeException s .privop (some s.pc) none)

/-- 93_implementation_defined.md U1, U2, U4, U5, U9 and R278: the numbers and frames the spec refuses stop by
name; so does IRET from an INTRFAULT handler (log entry 21). EXBRV and DPBRV read their word before the range
is looked at (R145, R146). That a range past bit 31 stops DPBR, EXBR and EXBRV also where the destination is a
constant, and so before UNWROP, is the model's choice (log entry 4). The refusals of the PERI operations (U13, U15,
U16, U22) stand in the statements of those operations, `DiscWriteStoresTheBlocks` to
`NetworkAndClockOperations`. -/
def Obligations.NumbersOutOfRangeAreRefused : Prop :=
  (∀ (s : State) (r : Reg) (op : Operand) (n : Word), val s op = .ok n →
    (10 < n.toNat → exec (.getsr r op) s = .refused (.specialRegisterNumber n) ∧
      (s.flags.sys = true → exec (.setsr r op) s = .refused (.specialRegisterNumber n))) ∧
    (6 < n.toNat → exec (.getfl r op) s = .refused (.flagNumber n) ∧
      exec (.setfl r op) s = .refused (.flagNumber n)) ∧
    (32 ≤ n.toNat → exec (.sbit r op) s = .refused (.bitNumber n) ∧
      exec (.cbit r op) s = .refused (.bitNumber n))) ∧
  (∀ (s : State) (r : Reg) (op : Operand) (w d v m : Word), rangeFits d = false →
    (val s (placeOperand r op s.cfg.roles.exbr.word) = .ok w →
      val s (placeOperand r op s.cfg.roles.exbr.desc) = .ok d →
      exec (.exbr r op) s = .refused (.bitRange d)) ∧
    (val s (placeOperand r op s.cfg.roles.exbrv.word) = .ok w →
      val s (placeOperand r op s.cfg.roles.exbrv.desc) = .ok d →
      memRead s (w + rangeSkip d) = .ok m →
      exec (.exbrv r op) s = .refused (.bitRange d)) ∧
    (val s (placeOperand r op s.cfg.roles.dpbr.word) = .ok w →
      val s (placeOperand r op s.cfg.roles.dpbr.desc) = .ok d →
      val s (placeOperand r op s.cfg.roles.dpbr.data) = .ok v →
      exec (.dpbr r op) s = .refused (.bitRange d)) ∧
    (val s (placeOperand r op s.cfg.roles.dpbrv.word) = .ok w →
      val s (placeOperand r op s.cfg.roles.dpbrv.desc) = .ok d →
      val s (placeOperand r op s.cfg.roles.dpbrv.data) = .ok v →
      memRead s (w + rangeSkip d) = .ok m →
      exec (.dpbrv r op) s = .refused (.bitRange d))) ∧
  (∀ s : State, s.flags.sys = true →
    (s.faultNesting = some 0 → exec .iret s = .refused .iretFromIntrFault) ∧
    ∀ m : Word, s.faultNesting ≠ some 0 → memRead s s.sp = .ok m → m ≠ 40 →
      exec .iret s = .refused (.iretMarker m))

/-! ## Interrupts -/

/-- R272, R273: with IP = 1 a fatal interrupt stops the program, R cleared and all else as it was. So it is
at start-up, and in a handler that has just been entered. -/
def Obligations.FatalInterruptWithIpStops : Prop :=
  (∀ (s : State) (c : Cause) (addr info : Option Word), s.flags.ip = true → c.fatal = true →
    takeException s c addr info =
      .fault (.fatalStop c addr info { s with flags := { s.flags with r := false } })) ∧
  State.reset.flags.ip = true ∧
  (∀ (s t : State) (c : Cause) (addr info : Option Word) (savedPc : Word),
    signal s c addr info savedPc = .entered t → t.flags.ip = true)

/-- R261, R270, R271, R279: TIMER, KEYBD and DEBUG are the notifications. With IP = 1, or with a zero vector
entry, a notification is ignored, the state unchanged, and a fatal cause stops the machine. -/
def Obligations.MaskedAndUnhandledCauses : Prop :=
  (∀ c : Cause, c.fatal = false ↔ c = .timer ∨ c = .keybd ∨ c = .debug) ∧
  ∀ (s : State) (c : Cause) (addr info : Option Word) (savedPc : Word),
    s.flags.ip = true ∨ vectorEntry s c = .ok 0 →
    (c.fatal = false → signal s c addr info savedPc = .ignored) ∧
    (c.fatal = true → signal s c addr info savedPc =
      .stopped (.fault (.fatalStop c addr info { s with flags := { s.flags with r := false } })))

/-- R278: an entry that cannot be completed, since its vector entry cannot be read (`m` is 0) or its `m`th push
raises, signals INTRFAULT, with VM off or on. Its handler is entered with code 13, the original address, and the
original code as third parameter, from the stack pointer the failed entry left, which the failed push has moved
(log entry 19), and IRET from it is refused (log entry 21). Where that entry fails too, the machine stops with
FatalStop of INTRFAULT, the original address and the original code, in the state the failed entry left (log
entries 10, 19). -/
def Obligations.FailedEntrySignalsIntrFault : Prop :=
  ∀ (s : State) (c : Cause) (addr info : Option Word) (savedPc : Word) (m : Nat),
    EntryFailsAt s c m →
    (∀ h : Word, vectorEntry s .intrfault = .ok h → h ≠ 0 → SystemStackRoomBut m (m + 21) s →
      (∀ k : Nat, 1 ≤ k → k ≤ m + 21 → k ≠ m →
        (s.sr.intvec + Cause.intrfault.code).toNat ≠ (slot s k).toNat) →
      ∃ t, signal s c addr info savedPc = .entered t ∧ t.pc = h ∧ EntryRegs s t ∧
        t.sr.sysSP = below s (m + 21) ∧ t.word (slot s (m + 21)).toNat = some 40 ∧
        t.word (slot s (m + 19)).toNat = some 13 ∧
        (∃ w, t.word (slot s (m + 18)).toNat = some w ∧ ∀ x, addr = some x → w = x) ∧
        t.word (slot s (m + 17)).toNat = some c.code ∧
        (∀ b : Nat, (∀ k : Nat, 1 ≤ k → k ≤ m + 21 → k ≠ m → b ≠ (slot s k).toNat) →
          t.word b = s.word b) ∧
        exec .iret t = .refused .iretFromIntrFault) ∧
    (IntrFaultFails s m →
      (∀ k : Nat, 1 ≤ k → k < m →
        (s.sr.intvec + Cause.intrfault.code).toNat ≠ (slot s k).toNat) →
      ∃ u, signal s c addr info savedPc =
          .stopped (.fault (.fatalStop .intrfault addr (some c.code) u)) ∧
        u.flags.r = false ∧ u.gpr = s.gpr ∧ u.pc = s.pc ∧ u.sr.sysSP = below s m ∧
        u.world = s.world ∧ SameMemoryBelow (m - 1) s u)

/-- R294, R268, R271: the tick after an instruction that completed in a running CPU: zero stays zero, any
other count goes down by one, and on reaching zero TIMER enters its handler, saving the address of the next
instruction, or is lost when IP = 1. So it is after a LOAD that finds TIMER at one, and after the SETSR that
sets it to one. -/
def Obligations.TimerTicksAfterEachInstruction : Prop :=
  (∀ (s : State) (r : Reg) (op : Operand) (v h : Word), s.flags.r = true → val s op = .ok v →
    (s.sr.timer = 1 → CanEnter (s.setReg r v).advance.countDown .timer h →
      ∃ t, exec (.load r op) s = .next t ∧ t.sr.timer = 0 ∧
        HandlerEntered (s.setReg r v).advance.countDown t .timer none none (s.pc + 1) h) ∧
    (s.flags.sys = true → v = 6 → s.getReg r = 1 →
      CanEnter (s.setSpecial .timer 1).advance.countDown .timer h →
      ∃ t, exec (.setsr r op) s = .next t ∧ t.sr.timer = 0 ∧
        HandlerEntered (s.setSpecial .timer 1).advance.countDown t .timer none none (s.pc + 1) h)) ∧
  ∀ u : State, u.flags.r = true →
    (u.sr.timer = 0 → complete u = .next u) ∧
    (u.sr.timer ≠ 0 → u.sr.timer ≠ 1 ∨ u.flags.ip = true →
      complete u = .next { u with sr := { u.sr with timer := u.sr.timer - 1 } }) ∧
    (∀ h, u.sr.timer = 1 → CanEnter u.countDown .timer h →
      ∃ t, complete u = .next t ∧ t.sr.timer = 0 ∧
        HandlerEntered u.countDown t .timer none none u.pc h)

/-! ## Peripherals -/

/-- R190, R192, R195, R191: a PERI whose operation ends with a result puts it in the main register, sets ERR by
its sign, and changes no other register or flag, whatever the operation; a first word of the control structure
that cannot be read is -2, and so is a later one that the operation takes as an input; and in a well-formed state
each operation's own number selects it. -/
def Obligations.PeriPutsItsResultInRegisterAndErr : Prop :=
  (∀ (s u : State) (r : Reg) (op : Operand) (cs result : Word), Ready s → s.flags.sys = true →
    val s op = .ok cs → periOperation cs s = .ok (result, u) →
    ∃ t, exec (.peri r op) s = .next t ∧ PeriEnded r result u.world s t ∧ SameMemory u t) ∧
  (∀ (s : State) (r : Reg) (op : Operand) (cs : Word) (c : Cause) (addr info : Option Word),
    Ready s → s.flags.sys = true → val s op = .ok cs → memRead s cs = .raise c addr info →
    PeriFails s r op (-2)) ∧
  (∀ (s : State) (r : Reg) (op : Operand) (cs : Word) (o : PeriOp), PeriReady s op cs o →
    ReadFails s (cs + 1) (inputWords o) → PeriFails s r op (-2)) ∧
  (∀ (s : State) (o : PeriOp), s.wf → periOpOf s (periCodeOf s o) = some o)

/-- R193: an operation code that is not recognised puts -1 in the register and sets ERR; nothing else
happens. -/
def Obligations.UnknownPeriOperationIsBadCode : Prop :=
  ∀ (s : State) (r : Reg) (op : Operand) (cs code : Word), Ready s → s.flags.sys = true →
    val s op = .ok cs → memRead s cs = .ok code → (∀ o : PeriOp, periCodeOf s o ≠ code) →
    ∃ t, exec (.peri r op) s = .next t ∧ t.getReg r = BitVec.ofInt 32 (-1) ∧
      t.flags.err = true ∧ PeriEnded r (BitVec.ofInt 32 (-1)) s.world s t ∧ SameMemory s t

/-- R199: $DISCCHECK: the size in blocks, 0 for a drive that does not exist, -3 for a drive number below 1 or
above 8, -2 when the drive number cannot be read; memory and discs unchanged. Nothing is said of the result of
a drive of 2^31 blocks or more, which no word holds as a positive number. -/
def Obligations.DiscCheckReportsTheSize : Prop :=
  ∀ (s : State) (r : Reg) (op : Operand) (cs : Word), PeriReady s op cs .discCheck →
    (∀ (c : Cause) (addr info : Option Word), memRead s (cs + 1) = .raise c addr info →
      ∃ t, exec (.peri r op) s = .next t ∧ PeriEnded r (BitVec.ofInt 32 (-2)) s.world s t ∧
        SameMemory s t) ∧
    (∀ drive : Word, memRead s (cs + 1) = .ok drive → drive.toInt < 1 ∨ 8 < drive.toInt →
      ∃ t, exec (.peri r op) s = .next t ∧ PeriEnded r (BitVec.ofInt 32 (-3)) s.world s t ∧
        SameMemory s t) ∧
    (∀ u : Fin 8, memRead s (cs + 1) = .ok (BitVec.ofNat 32 (u.val + 1)) →
      ∃ t result, exec (.peri r op) s = .next t ∧ SameMemory s t ∧
        PeriEnded r result s.world s t ∧
        (s.world.discs[u] = none → result = 0) ∧
        ∀ d : Disc, s.world.discs[u] = some d → d.size < 2 ^ 31 →
          result = BitVec.ofNat 32 d.size)

/-- R201, R198: $DISCWRITE from memory. A run of blocks the drive has, from words that can be read, when the
host reports no failure (log entry 16): the words become the blocks', and nothing else of any drive, of memory
or of the world changes. Otherwise -3 for a drive that is not there, -4 for a run with a bad block, -5 for a
word that cannot be read, -6 for a failure of the host, tried in that order (log entry 24); the drive's words in
the run, before its first bad block, may then have changed (U10, log entry 23). A count that is not positive is
refused (U13), after -3 and before the rest (log entry 24). -/
def Obligations.DiscWriteStoresTheBlocks : Prop :=
  ∀ (s : State) (r : Reg) (op : Operand) (cs drive first count addr : Word),
    PeriReady s op cs .discWrite → memRead s (cs + 1) = .ok drive →
    memRead s (cs + 2) = .ok first → memRead s (cs + 3) = .ok count →
    memRead s (cs + 4) = .ok addr →
    (drive.toInt < 1 ∨ 8 < drive.toInt → PeriFails s r op (-3)) ∧
    ∀ u : Fin 8, drive = BitVec.ofNat 32 (u.val + 1) →
      (s.world.discs[u] = none → PeriFails s r op (-3)) ∧
      ∀ d : Disc, s.world.discs[u] = some d →
        (count.toInt ≤ 0 → exec (.peri r op) s = .refused (.periCount count)) ∧
        (0 < count.toInt →
          (first.toInt < 0 ∨ (d.size : Int) < first.toInt + count.toInt →
            ∃ t words, exec (.peri r op) s = .next t ∧ SameMemory s t ∧
              SameDiscOutside (128 * first.toNat) (128 * d.size) d words ∧
              PeriEnded r (BitVec.ofInt 32 (-4))
                { s.world with discs := s.world.discs.set u (some { d with words := words }) } s t) ∧
          (0 ≤ first.toInt → first.toInt + count.toInt ≤ d.size →
            (ReadFails s addr (128 * count.toNat) →
              ∃ t words, exec (.peri r op) s = .next t ∧ SameMemory s t ∧
                SameDiscOutside (128 * first.toNat) (128 * (first.toNat + count.toNat)) d words ∧
                PeriEnded r (BitVec.ofInt 32 (-5))
                  { s.world with discs := s.world.discs.set u (some { d with words := words }) } s t) ∧
            (Reads s addr (128 * count.toNat) → (hostFails s).1 = true →
              ∃ t words, exec (.peri r op) s = .next t ∧ SameMemory s t ∧
                SameDiscOutside (128 * first.toNat) (128 * (first.toNat + count.toNat)) d words ∧
                PeriEnded r (BitVec.ofInt 32 (-6))
                  { (hostFails s).2.world with
                    discs := s.world.discs.set u (some { d with words := words }) } s t) ∧
            (Reads s addr (128 * count.toNat) → (hostFails s).1 = false →
              ∃ t words, exec (.peri r op) s = .next t ∧
                PeriEnded r count
                  { (hostFails s).2.world with
                    discs := s.world.discs.set u (some { d with words := words }) } s t ∧
                SameMemory s t ∧
                (∀ j : Nat, j < 128 * count.toNat →
                  ∃ w, memRead s (addr + BitVec.ofNat 32 j) = .ok w ∧
                    Memory.read words (128 * first.toNat + j) = some w) ∧
                SameDiscOutside (128 * first.toNat) (128 * (first.toNat + count.toNat)) d words)))

/-- R200, R198: $DISCREAD with VM off. A run of blocks the drive has into memory that exists: the blocks' words
land in the buffer, a word never written as some word (U12, log entry 27), and nothing else changes. Otherwise
-3 for a drive that is not there, -4 for a run with a bad block, -5 for a buffer word that does not exist,
tried in that order (log entry 24); the buffer may then have changed, with a bad block as far as the blocks before
it reach (U10, log entry 23). A count that is not positive is refused (U13), after -3 and before the rest (log
entry 24). -/
def Obligations.DiscReadDeliversTheBlocks : Prop :=
  ∀ (s : State) (r : Reg) (op : Operand) (cs drive first count addr : Word),
    PeriReady s op cs .discRead → memRead s (cs + 1) = .ok drive →
    memRead s (cs + 2) = .ok first → memRead s (cs + 3) = .ok count →
    memRead s (cs + 4) = .ok addr →
    (drive.toInt < 1 ∨ 8 < drive.toInt → PeriFails s r op (-3)) ∧
    ∀ u : Fin 8, drive = BitVec.ofNat 32 (u.val + 1) →
      (s.world.discs[u] = none → PeriFails s r op (-3)) ∧
      ∀ d : Disc, s.world.discs[u] = some d →
        (count.toInt ≤ 0 → exec (.peri r op) s = .refused (.periCount count)) ∧
        (0 < count.toInt → s.flags.vm = false →
          first.toInt < 0 ∨ (d.size : Int) < first.toInt + count.toInt →
          ∃ t, exec (.peri r op) s = .next t ∧
            PeriEnded r (BitVec.ofInt 32 (-4)) s.world s t ∧
            SameMemoryOutside addr (128 * (d.size - first.toNat)) s t) ∧
        (0 < count.toInt → s.flags.vm = false → 0 ≤ first.toInt →
          first.toInt + count.toInt ≤ d.size →
          (∀ j : Nat, j < 128 * count.toNat → physValid s (addr + BitVec.ofNat 32 j) = false →
            ∃ t, exec (.peri r op) s = .next t ∧
              PeriEnded r (BitVec.ofInt 32 (-5)) s.world s t ∧
              SameMemoryOutside addr (128 * count.toNat) s t) ∧
          (128 * count.toNat ≤ 2 ^ 32 → Room s addr (128 * count.toNat) →
            ∃ t, exec (.peri r op) s = .next t ∧ PeriEnded r count s.world s t ∧
              SameMemoryOutside addr (128 * count.toNat) s t ∧
              ∀ j : Nat, j < 128 * count.toNat →
                ∃ w, t.word (addr + BitVec.ofNat 32 j).toNat = some w ∧
                  ∀ x, Memory.read d.words (128 * first.toNat + j) = some x → w = x))

/-- R231, R233, R62: $TERMINC and $TERMINW with a positive maximum, with VM off and room for the characters:
the first `n` keys leave the buffer. $TERMINC leaves them packed at the address, zero-terminated, zero to the
end of the last word; $TERMINW leaves them one a word, with nothing after them. A word of theirs that does not
exist is -5; some of the keys may then be gone and the words changed (U10, log entry 23). A maximum that is not
positive is refused (U13), before the memory is looked at (log entry 24). -/
def Obligations.TermincTakesKeysAsAString : Prop :=
  ∀ (s : State) (r : Reg) (op : Operand) (cs count addr : Word) (o : PeriOp),
    PeriReady s op cs o → memRead s (cs + 1) = .ok count →
    memRead s (cs + 2) = .ok addr →
    (o = .termInC ∨ o = .termInW → count.toInt ≤ 0 →
      exec (.peri r op) s = .refused (.periCount count)) ∧
    (0 < count.toInt →
      let n := min count.toNat s.world.keyboard.length
      (o = .termInC → Room s addr (n / 4 + 1) →
        ∃ t, exec (.peri r op) s = .next t ∧
          PeriEnded r (BitVec.ofNat 32 n)
            { s.world with keyboard := s.world.keyboard.drop n } s t ∧
          SameMemoryOutside addr (n / 4 + 1) s t ∧
          ∀ k : Nat, k < 4 * (n / 4 + 1) → ByteAt t addr k ((s.world.keyboard.take n).getD k 0)) ∧
      (o = .termInW → s.flags.vm = false → Room s addr n →
        ∃ t, exec (.peri r op) s = .next t ∧
          PeriEnded r (BitVec.ofNat 32 n)
            { s.world with keyboard := s.world.keyboard.drop n } s t ∧
          SameMemoryOutside addr n s t ∧
          ∀ k : Nat, k < n → t.word (addr + BitVec.ofNat 32 k).toNat =
            some ((s.world.keyboard.getD k 0).zeroExtend 32)) ∧
      (∀ j words : Nat, o = .termInC ∧ words = n / 4 + 1 ∨ o = .termInW ∧ words = n → j < words →
        s.flags.vm = false → physValid s (addr + BitVec.ofNat 32 j) = false →
        ∃ t gone, exec (.peri r op) s = .next t ∧ gone ≤ n ∧
          PeriEnded r (BitVec.ofInt 32 (-5))
            { s.world with keyboard := s.world.keyboard.drop gone } s t ∧
          SameMemoryOutside addr words s t))

/-- R232, R234, R62: $TERMOUTC prints `count` packed characters, or with a count of zero those before the first
zero byte; $TERMOUTW prints the characters of `count` words, or with a count of zero those before the first
zero word. Their number is the result (one of 2^31 or more, which a zero-terminated string can have, is some
result that is zero or positive: log entry 36); memory is unchanged. A word of them that cannot be read is -5; some
beginning of the characters of the words before it may then be printed (U10, log entry 23). A negative count is
refused (U13), before the memory is looked at (log entry 24); so is a word of $TERMOUTW with a bit above bit 7 set
(U16, log entry 28). -/
def Obligations.TermoutcPrintsPackedCharacters : Prop :=
  ∀ (s : State) (r : Reg) (op : Operand) (cs count addr : Word) (o : PeriOp),
    PeriReady s op cs o → memRead s (cs + 1) = .ok count →
    memRead s (cs + 2) = .ok addr →
    (o = .termOutC ∨ o = .termOutW → count.toInt < 0 →
      exec (.peri r op) s = .refused (.periCount count)) ∧
    (∀ chars : List Byte, o = .termOutC →
      (0 < count.toInt ∧ chars.length = count.toNat ∧ PackedAt s addr chars ∨
        count = 0 ∧ StringAt s addr chars) →
      ∃ t result, exec (.peri r op) s = .next t ∧ SameMemory s t ∧
        CountIs chars.length result ∧
        PeriEnded r result { s.world with output := s.world.output ++ chars } s t) ∧
    (∀ (ws : List Word) (c : Cause) (a info : Option Word), o = .termOutC → WordsAt s addr ws →
      (0 < count.toInt ∧ ws.length < (count.toNat + 3) / 4 ∨
        count = 0 ∧ ws.length < 2 ^ 32 ∧ ∀ w ∈ ws, 0 ∉ unpackWord w) →
      memRead s (addr + BitVec.ofNat 32 ws.length) = .raise c a info →
      ∃ t n, exec (.peri r op) s = .next t ∧ SameMemory s t ∧
        PeriEnded r (BitVec.ofInt 32 (-5))
          { s.world with output := s.world.output ++ (ws.flatMap unpackWord).take n } s t) ∧
    (∀ chars : List Byte, o = .termOutW →
      WordsAt s addr (chars.map fun c => c.zeroExtend 32) →
      (0 < count.toInt ∧ chars.length = count.toNat ∨
        count = 0 ∧ chars.length < 2 ^ 32 ∧ 0 ∉ chars ∧
          memRead s (addr + BitVec.ofNat 32 chars.length) = .ok 0) →
      ∃ t result, exec (.peri r op) s = .next t ∧ SameMemory s t ∧
        CountIs chars.length result ∧
        PeriEnded r result { s.world with output := s.world.output ++ chars } s t) ∧
    (∀ (chars : List Byte) (c : Cause) (a info : Option Word), o = .termOutW →
      WordsAt s addr (chars.map fun c => c.zeroExtend 32) →
      (0 < count.toInt ∧ chars.length < count.toNat ∨
        count = 0 ∧ chars.length < 2 ^ 32 ∧ 0 ∉ chars) →
      memRead s (addr + BitVec.ofNat 32 chars.length) = .raise c a info →
      ∃ t n, exec (.peri r op) s = .next t ∧ SameMemory s t ∧
        PeriEnded r (BitVec.ofInt 32 (-5))
          { s.world with output := s.world.output ++ chars.take n } s t) ∧
    (∀ ws : List Word, o = .termOutW → WordsAt s addr ws →
      (0 < count.toInt ∧ ws.length = count.toNat ∨
        count = 0 ∧ ws.length < 2 ^ 32 ∧ 0 ∉ ws ∧
          memRead s (addr + BitVec.ofNat 32 ws.length) = .ok 0) →
      (∃ w ∈ ws, 256 ≤ w.toNat) → exec (.peri r op) s = .refused .wideCharacter)

/-- R206, R207, R208, R209, R210: a tape unit's mode, rewinding, loading, length and unloading, for a loaded
unit and an unloaded one; -3 for a unit number below 1 or above 8; -5 for a name that cannot be read; memory is
unchanged. Loading a loaded unit, and mode 'W' on a file that exists, are refused (U15). Which comes first, the
unit number's -3 before a name that cannot be read, that -5 before the refusal of a loaded unit, that refusal
before the file and the mode, -7 before the mode's -8, is R195's and log entry 24's; the codes of an unloaded unit,
and what a host file is to be so that a tape can be loaded with it, are in log entry 26; a length of 2^31 or more
is some result that is zero or positive (log entry 36). -/
def Obligations.TapeUnitOperations : Prop :=
  ∀ (s : State) (r : Reg) (op : Operand) (cs : Word) (o : PeriOp), PeriReady s op cs o →
    (∀ unit : Word, memRead s (cs + 1) = .ok unit → unit.toInt < 1 ∨ 8 < unit.toInt →
      (o = .tapeCheck ∨ o = .tapeRewind ∨ o = .tapeLength ∨ o = .tapeUnload →
        PeriFails s r op (-3)) ∧
      (∀ a b : Word, o = .tapeLoad → memRead s (cs + 2) = .ok a → memRead s (cs + 3) = .ok b →
        PeriFails s r op (-3))) ∧
    ∀ u : Fin 8, memRead s (cs + 1) = .ok (BitVec.ofNat 32 (u.val + 1)) →
      (s.world.tapes[u] = none →
        (∀ code : Int, (o = .tapeCheck ∧ code = 0) ∨ (o = .tapeRewind ∧ code = -3) ∨
            (o = .tapeLength ∧ code = -7) ∨ (o = .tapeUnload ∧ code = -7) →
          ∃ t, exec (.peri r op) s = .next t ∧ SameMemory s t ∧
            PeriEnded r (BitVec.ofInt 32 code) s.world s t) ∧
        (∀ (nameAddr mode : Word) (name : List Byte), o = .tapeLoad →
          memRead s (cs + 2) = .ok nameAddr → memRead s (cs + 3) = .ok mode →
          StringAt s nameAddr name →
          (hostFile s name = none → PeriFails s r op (-7)) ∧
          ∀ f : HostFile, hostFile s name = some f →
            (f.accessible = false → PeriFails s r op (-7)) ∧
            (f.accessible = true → mode ≠ 82 → mode ≠ 87 → PeriFails s r op (-8)) ∧
            (mode = 82 →
              (f.readable = false ∨ f.content = none → PeriFails s r op (-7)) ∧
              (f.readable = true → f.content ≠ none →
                ∃ t, exec (.peri r op) s = .next t ∧ SameMemory s t ∧
                  PeriEnded r 1
                    { s.world with tapes := s.world.tapes.set u (some ⟨name, .read, 0⟩) } s t)) ∧
            (mode = 87 →
              (f.writable = false → PeriFails s r op (-7)) ∧
              (f.writable = true → f.content ≠ none →
                exec (.peri r op) s = .refused .tapeMisuse) ∧
              (f.writable = true → f.content = none →
                ∃ t, exec (.peri r op) s = .next t ∧ SameMemory s t ∧
                  PeriEnded r 1
                    { s.world with
                      files := s.world.files.map fun g =>
                        if g.name = name then { g with content := some [] } else g
                      tapes := s.world.tapes.set u (some ⟨name, .write, 0⟩) } s t)))) ∧
      (∀ (nameAddr mode : Word), o = .tapeLoad → memRead s (cs + 2) = .ok nameAddr →
        memRead s (cs + 3) = .ok mode →
        (∀ (ws : List Word) (c : Cause) (a info : Option Word), WordsAt s nameAddr ws →
          ws.length < 2 ^ 32 → (∀ w ∈ ws, 0 ∉ unpackWord w) →
          memRead s (nameAddr + BitVec.ofNat 32 ws.length) = .raise c a info →
          PeriFails s r op (-5)) ∧
        (∀ name : List Byte, StringAt s nameAddr name → s.world.tapes[u] ≠ none →
          exec (.peri r op) s = .refused .tapeMisuse)) ∧
      (∀ tape : Tape, s.world.tapes[u] = some tape →
        (o = .tapeCheck → ∃ t, exec (.peri r op) s = .next t ∧ SameMemory s t ∧
          PeriEnded r (match tape.mode with | .read => 82 | .write => 87) s.world s t) ∧
        (o = .tapeRewind → ∃ t, exec (.peri r op) s = .next t ∧ SameMemory s t ∧
          PeriEnded r 1
            { s.world with tapes := s.world.tapes.set u (some { tape with pos := 0 }) } s t) ∧
        (o = .tapeUnload → ∃ t, exec (.peri r op) s = .next t ∧ SameMemory s t ∧
          PeriEnded r 1 { s.world with tapes := s.world.tapes.set u none } s t) ∧
        (o = .tapeLength →
          (hostFile s tape.file = none → PeriFails s r op (-7)) ∧
          ∀ f : HostFile, hostFile s tape.file = some f →
            (f.accessible = false → PeriFails s r op (-7)) ∧
            ∀ bytes : List Byte, f.accessible = true → f.content = some bytes →
              ∃ t result, exec (.peri r op) s = .next t ∧ SameMemory s t ∧
                CountIs bytes.length result ∧ PeriEnded r result s.world s t))

/-- R211, R212, R213: $TAPEREAD on a unit loaded 'R', with VM off and room for a block: the next bytes of the
file, at most 512, stand packed at the address; their number is the result and the position moves by it; memory
outside the 128 words is unchanged. A data word that does not exist is -5. $TAPEWRITE on a unit loaded 'W', of at
most 512 bytes, with VM off: the bytes stand in the file at the position, which moves by their number; memory is
unchanged. Either gives -3 for a unit number below 1 or above 8 and for an unloaded unit, $TAPEREAD also for a file
that has gone away (log entry 26); $TAPEWRITE gives -5 for source words that cannot be read, and -6 for a failure of
the host (log entry 16) or a file that has gone away, tried in that order (log entries 24, 26). After a failure the
words may have changed, at most as many bytes as were asked for may have been written in the unit's file, and in no
other file, and the position may have moved by at most their number (U10, log entry 23). $TAPEREAD of a unit
loaded 'W', $TAPEWRITE of a unit loaded 'R' and of more than 512 bytes are refused (U15), before the file and the
memory are looked at (log entry 24). -/
def Obligations.TapeReadDeliversTheNextBlock : Prop :=
  ∀ (s : State) (r : Reg) (op : Operand) (cs unit addr : Word) (o : PeriOp),
    PeriReady s op cs o → memRead s (cs + 1) = .ok unit → memRead s (cs + 2) = .ok addr →
    (unit.toInt < 1 ∨ 8 < unit.toInt →
      (o = .tapeRead → PeriFails s r op (-3)) ∧
      (∀ count : Word, o = .tapeWrite → memRead s (cs + 3) = .ok count →
        PeriFails s r op (-3))) ∧
    ∀ u : Fin 8, unit = BitVec.ofNat 32 (u.val + 1) →
      (o = .tapeRead → s.world.tapes[u] = none → PeriFails s r op (-3)) ∧
      (∀ tape : Tape, o = .tapeRead → s.world.tapes[u] = some tape →
        (tape.mode = .write → exec (.peri r op) s = .refused .tapeMisuse) ∧
        (tape.mode = .read → tapeContent s tape = none → PeriFails s r op (-3)) ∧
        ∀ bytes : List Byte, tape.mode = .read → tapeContent s tape = some bytes →
          let n := min 512 (bytes.length - tape.pos)
          (∀ j : Nat, s.flags.vm = false → j < (n + 3) / 4 →
            physValid s (addr + BitVec.ofNat 32 j) = false →
            ∃ t pos, exec (.peri r op) s = .next t ∧ tape.pos ≤ pos ∧ pos ≤ tape.pos + n ∧
              PeriEnded r (BitVec.ofInt 32 (-5))
                { s.world with
                  tapes := s.world.tapes.set u (some { tape with pos := pos }) } s t ∧
              SameMemoryOutside addr 128 s t) ∧
          (Room s addr 128 →
            ∃ t, exec (.peri r op) s = .next t ∧
              PeriEnded r (BitVec.ofNat 32 n)
                { s.world with
                  tapes := s.world.tapes.set u (some { tape with pos := tape.pos + n }) } s t ∧
              SameMemoryOutside addr 128 s t ∧
              ∀ k : Nat, k < n → ByteAt t addr k (bytes.getD (tape.pos + k) 0))) ∧
      (∀ count : Word, o = .tapeWrite → memRead s (cs + 3) = .ok count →
        (s.world.tapes[u] = none → PeriFails s r op (-3)) ∧
        ∀ tape : Tape, s.world.tapes[u] = some tape →
          (tape.mode = .read ∨ 512 < count.toNat →
            exec (.peri r op) s = .refused .tapeMisuse) ∧
          (tape.mode = .write → count.toNat ≤ 512 →
            (ReadFails s addr ((count.toNat + 3) / 4) →
              ∃ t files pos, exec (.peri r op) s = .next t ∧ SameMemory s t ∧
                FailedWrite s tape count.toNat files pos ∧
                PeriEnded r (BitVec.ofInt 32 (-5))
                  { s.world with
                    files := files
                    tapes := s.world.tapes.set u (some { tape with pos := pos }) } s t) ∧
            (Reads s addr ((count.toNat + 3) / 4) →
              (tapeContent s tape = none → PeriFails s r op (-6)) ∧
              (tapeContent s tape ≠ none → (hostFails s).1 = true →
                ∃ t files pos, exec (.peri r op) s = .next t ∧ SameMemory s t ∧
                  FailedWrite s tape count.toNat files pos ∧
                  PeriEnded r (BitVec.ofInt 32 (-6))
                    { (hostFails s).2.world with
                      files := files
                      tapes := s.world.tapes.set u (some { tape with pos := pos }) } s t) ∧
              (∀ new : List Byte, tapeContent s tape ≠ none → (hostFails s).1 = false →
                new.length = count.toNat → PackedAt s addr new →
                ∃ t files, exec (.peri r op) s = .next t ∧ SameMemory s t ∧
                  WroteFile s tape new files ∧
                  PeriEnded r count
                    { (hostFails s).2.world with
                      files := files
                      tapes := s.world.tapes.set u
                        (some { tape with pos := tape.pos + new.length }) } s t))))

/-- R240 to R243, R250 to R252. $NETSS turns a unit on, with the address the host grants, and off, and leaves
the unit's address in the pair; it answers -9 for a unit that is on already, -3 for one that is off already, and
one of the listed codes where the host turns down a requested port; with no port requested the host has none to
turn down (U22). $NETSEND hands a packet to the host; more than 1024 bytes are -8. $NETRECV takes the oldest
packet off the queue, its source to the pair and its bytes to the buffer; nothing queued is -11. All three give
-5 for words they cannot reach and -3 for a unit number other than 1 and 2; $NETSEND and $NETRECV give -3 for a
unit that is off and -6 for a failure of the host, after which the packet is sent or not, taken or not, and the
words it could have written hold anything (U10). An address pair copied from one operation to another names the
same address (U17). $SECONDS gives the clock's seconds; $USECONDS stores seconds and microseconds; $DATETIME
stores the seven parts of a time, as in R252's examples; outputs that do not exist are -2. Successful results
but $SECONDS' are some word that is zero or positive (U18). Choices of the model in it: log entries 14 (the
calendar and the zone), 15 (the two bytes of a pair that no address uses are zero), 16 (the host's answers), 23
(what a failed operation leaves), 24 (the order of the checks and refusals, and -8 without reading the data), 29
(network conventions, and that a start turned down leaves the pair and the unit as they were), 30 and 36 (counts
beyond a word), 32 (outputs are not read). A $NETSS command other than 0 and 1 is refused (U22), and a negative
time of $DATETIME (U13). VM is off where words are stored. -/
def Obligations.NetworkAndClockOperations : Prop :=
  (∀ (s : State) (r : Reg) (op : Operand) (cs : Word) (o : PeriOp), PeriReady s op cs o →
    -- $NETSS
    (∀ n command p : Word, o = .netSS → memRead s (cs + 1) = .ok n →
      memRead s (cs + 2) = .ok command → memRead s (cs + 3) = .ok p →
      (ReachFails s p 2 → PeriFails s r op (-5)) ∧
      (Reaches s p 2 → n.toInt < 1 ∨ 2 < n.toInt → PeriFails s r op (-3)) ∧
      (∀ u : Fin 2, Reaches s p 2 → n = BitVec.ofNat 32 (u.val + 1) → command ≠ 0 → command ≠ 1 →
        exec (.peri r op) s = .refused (.netCommand command)) ∧
      ∀ (u : Fin 2) (port : Word), n = BitVec.ofNat 32 (u.val + 1) → Room s p 2 →
        (command = 0 →
          (s.world.nets[u] = none → PeriFails s r op (-3)) ∧
          ∀ net : NetUnit, s.world.nets[u] = some net →
            ∃ t result, exec (.peri r op) s = .next t ∧ 0 ≤ result.toInt ∧
              PeriEnded r result { s.world with nets := s.world.nets.set u none } s t ∧
              SameMemoryOutside p 2 s t ∧ AddressAt t p net.addr) ∧
        (command = 1 → memRead s (p + 1) = .ok port →
          (s.world.nets[u] ≠ none → PeriFails s r op (-9)) ∧
          (s.world.nets[u] = none →
            (∀ d : NetDenial, port ≠ 0 → (hostNetStart s).1.denial = some d →
              ∃ t code, exec (.peri r op) s = .next t ∧ SameMemory s t ∧
                PeriEnded r (BitVec.ofInt 32 code) (hostNetStart s).2.world s t ∧
                (code = -2 ∨ code = -5 ∨ code = -3 ∨ code = -9)) ∧
            (port = 0 ∨ (hostNetStart s).1.denial = none →
              let a : BitVec 48 :=
                (if port = 0 then (hostNetStart s).1.port else port.extractLsb' 0 16) ++
                  (hostNetStart s).1.ip
              ∃ t result, exec (.peri r op) s = .next t ∧ 0 ≤ result.toInt ∧
                PeriEnded r result
                  { (hostNetStart s).2.world with
                    nets := s.world.nets.set u (some ⟨a, []⟩) } s t ∧
                SameMemoryOutside p 2 s t ∧ AddressAt t p a)))) ∧
    -- $NETSEND
    (∀ n p count a : Word, o = .netSend → memRead s (cs + 1) = .ok n →
      memRead s (cs + 2) = .ok p → memRead s (cs + 3) = .ok count → memRead s (cs + 4) = .ok a →
      (ReadFails s p 2 → PeriFails s r op (-5)) ∧
      (Reads s p 2 → count.toNat ≤ 1024 → ReadFails s a ((count.toNat + 3) / 4) →
        PeriFails s r op (-5)) ∧
      (Reads s p 2 → (count.toNat ≤ 1024 → Reads s a ((count.toNat + 3) / 4)) →
        (n.toInt < 1 ∨ 2 < n.toInt → PeriFails s r op (-3)) ∧
        ∀ u : Fin 2, n = BitVec.ofNat 32 (u.val + 1) →
          (s.world.nets[u] = none → PeriFails s r op (-3)) ∧
          (s.world.nets[u] ≠ none → 1024 < count.toNat → PeriFails s r op (-8))) ∧
      ∀ (u : Fin 2) (w0 w1 : Word) (bytes : List Byte), n = BitVec.ofNat 32 (u.val + 1) →
        s.world.nets[u] ≠ none → memRead s p = .ok w0 → memRead s (p + 1) = .ok w1 →
        count.toNat ≤ 1024 → bytes.length = count.toNat → PackedAt s a bytes →
        let sent := s.world.sent ++ [(u, ⟨gather s.cfg.netLayout (w1 ++ w0), bytes⟩)]
        ((hostFails s).1 = false →
          ∃ t result, exec (.peri r op) s = .next t ∧ 0 ≤ result.toInt ∧ SameMemory s t ∧
            PeriEnded r result { (hostFails s).2.world with sent := sent } s t) ∧
        ((hostFails s).1 = true →
          ∃ t left, exec (.peri r op) s = .next t ∧ SameMemory s t ∧
            PeriEnded r (BitVec.ofInt 32 (-6)) { (hostFails s).2.world with sent := left } s t ∧
            (left = s.world.sent ∨ left = sent))) ∧
    -- $NETRECV
    (∀ n p a : Word, o = .netRecv → memRead s (cs + 1) = .ok n → memRead s (cs + 2) = .ok p →
      memRead s (cs + 3) = .ok a →
      (ReachFails s p 2 → PeriFails s r op (-5)) ∧
      (Reaches s p 2 → ReachFails s a 256 → PeriFails s r op (-5)) ∧
      (Reaches s p 2 → Reaches s a 256 →
        (n.toInt < 1 ∨ 2 < n.toInt → PeriFails s r op (-3)) ∧
        ∀ u : Fin 2, n = BitVec.ofNat 32 (u.val + 1) →
          (s.world.nets[u] = none → PeriFails s r op (-3)) ∧
          ∀ net : NetUnit, s.world.nets[u] = some net → net.queue = [] →
            ∃ t, exec (.peri r op) s = .next t ∧ SameMemory s t ∧
              PeriEnded r (BitVec.ofInt 32 (if (hostFails s).1 then -6 else -11))
                (hostFails s).2.world s t) ∧
      ∀ (u : Fin 2) (net : NetUnit) (packet : Packet) (rest : List Packet),
        n = BitVec.ofNat 32 (u.val + 1) → s.world.nets[u] = some net →
        net.queue = packet :: rest → packet.bytes.length ≤ 1024 → Room s p 2 → Room s a 256 →
        let taken := s.world.nets.set u (some { net with queue := rest })
        ((hostFails s).1 = true →
          ∃ t nets, exec (.peri r op) s = .next t ∧
            PeriEnded r (BitVec.ofInt 32 (-6)) { (hostFails s).2.world with nets := nets } s t ∧
            (nets = s.world.nets ∨ nets = taken) ∧
            ∀ b : Nat, (∀ k : Nat, k < 2 → b ≠ (p + BitVec.ofNat 32 k).toNat) →
              (∀ k : Nat, k < (packet.bytes.length + 3) / 4 →
                b ≠ (a + BitVec.ofNat 32 k).toNat) → t.word b = s.word b) ∧
        ((hostFails s).1 = false →
          (∀ j k : Nat, j < 2 → k < 256 → p + BitVec.ofNat 32 j ≠ a + BitVec.ofNat 32 k) →
          ∃ t result, exec (.peri r op) s = .next t ∧ 0 ≤ result.toInt ∧
            PeriEnded r result { (hostFails s).2.world with nets := taken } s t ∧
            AddressAt t p packet.addr ∧
            (∀ k : Nat, k < packet.bytes.length → ByteAt t a k (packet.bytes.getD k 0)) ∧
            ∀ b : Nat, (∀ k : Nat, k < 2 → b ≠ (p + BitVec.ofNat 32 k).toNat) →
              (∀ k : Nat, k < (packet.bytes.length + 3) / 4 →
                b ≠ (a + BitVec.ofNat 32 k).toNat) → t.word b = s.word b)) ∧
    -- $SECONDS, $USECONDS, $DATETIME
    (o = .seconds → ∃ t result, exec (.peri r op) s = .next t ∧ SameMemory s t ∧
      CountIs (s.world.clock / 1000000) result ∧ PeriEnded r result s.world s t) ∧
    (o = .useconds → Room s (cs + 1) 2 →
      ∃ t result, exec (.peri r op) s = .next t ∧ 0 ≤ result.toInt ∧
        PeriEnded r result s.world s t ∧ SameMemoryOutside (cs + 1) 2 s t ∧
        t.word (cs + 1).toNat = some (BitVec.ofNat 32 (s.world.clock / 1000000)) ∧
        t.word (cs + 2).toNat = some (BitVec.ofNat 32 (s.world.clock % 1000000))) ∧
    (∀ j : Nat, o = .useconds → s.flags.vm = false → j < 2 →
      physValid s (cs + 1 + BitVec.ofNat 32 j) = false →
      ∃ t, exec (.peri r op) s = .next t ∧ SameMemoryOutside (cs + 1) 2 s t ∧
        PeriEnded r (BitVec.ofInt 32 (-2)) s.world s t) ∧
    (∀ time : Word, o = .dateTime → memRead s (cs + 1) = .ok time → time.toInt < 0 →
      exec (.peri r op) s = .refused (.negativeTime time)) ∧
    (∀ time : Word, o = .dateTime → memRead s (cs + 1) = .ok time → 0 ≤ time.toInt →
      (Room s (cs + 2) 7 →
        ∃ t result, exec (.peri r op) s = .next t ∧ 0 ≤ result.toInt ∧
          PeriEnded r result s.world s t ∧ SameMemoryOutside (cs + 2) 7 s t ∧
          ∀ k : Nat, k < 7 → t.word (cs + 2 + BitVec.ofNat 32 k).toNat =
            some (BitVec.ofNat 32 ((dateParts s.cfg.zone time.toNat).getD k 0))) ∧
      (∀ j : Nat, s.flags.vm = false → j < 7 →
        physValid s (cs + 2 + BitVec.ofNat 32 j) = false →
        ∃ t, exec (.peri r op) s = .next t ∧ SameMemoryOutside (cs + 2) 7 s t ∧
          PeriEnded r (BitVec.ofInt 32 (-2)) s.world s t))) ∧
  (∀ (layout : Vector (Fin 8) 6) (a : BitVec 48), layout.toList.Nodup →
    gather layout (layOut layout a) = a) ∧
  dateParts [] 0 = [2000, 1, 1, 6, 0, 0, 0] ∧
  dateParts [] 86400 = [2000, 1, 2, 0, 0, 0, 0] ∧
  dateParts [] (5097600 + 3661) = [2000, 2, 29, 2, 1, 1, 1]
end

