-- ==== Sys2Proof/Laws/Memory.lean ====
section
/-! SUPPORT. The laws of the memory store: read after write, and the canonical form kept. -/

namespace Sys2Proof.Machine

/-- A word just written is read back. -/
@[simp] theorem read_write_same (m : Memory) (a : Nat) (v : Word) :
    Memory.read (Memory.write m a v) a = some v := by
  induction m with
  | nil => simp [Memory.write, Memory.read]
  | cons c m ih =>
    obtain ⟨b, w⟩ := c
    unfold Memory.write
    split
    · simp [Memory.read]
    · split
      · simp [Memory.read]
      · simp_all [Memory.read]

/-- Writing one address leaves every other. -/
theorem read_write_ne (m : Memory) {a b : Nat} (v : Word) (h : b ≠ a) :
    Memory.read (Memory.write m a v) b = Memory.read m b := by
  induction m with
  | nil => simp [Memory.write, Memory.read, h]
  | cons c m ih =>
    obtain ⟨x, w⟩ := c
    unfold Memory.write
    split
    · simp [Memory.read, h]
    · split
      · simp_all [Memory.read]
      · simp_all [Memory.read]

/-- The entries after a write are the written one and entries that were there. -/
theorem mem_write {m : Memory} {a : Nat} {v : Word} {c : Nat × Word}
    (h : c ∈ Memory.write m a v) : c = (a, v) ∨ c ∈ m := by
  induction m with
  | nil => simp_all [Memory.write]
  | cons d m ih =>
    obtain ⟨x, w⟩ := d
    unfold Memory.write at h
    split at h
    · simpa using h
    · split at h
      · simp at h; rcases h with h | h <;> simp [h]
      · simp at h
        rcases h with h | h
        · simp [h]
        · rcases ih h with h | h <;> simp [h]

/-- A write keeps addresses strictly rising. -/
theorem write_wf {m : Memory} (a : Nat) (v : Word) (h : Memory.wf m) :
    Memory.wf (Memory.write m a v) := by
  induction m with
  | nil => simp [Memory.wf, Memory.write]
  | cons d m ih =>
    obtain ⟨x, w⟩ := d
    simp only [Memory.wf, List.map_cons, List.pairwise_cons] at h
    obtain ⟨hx, hm⟩ := h
    unfold Memory.write
    split
    · rename_i hlt
      simp only [Memory.wf, List.map_cons, List.pairwise_cons, List.mem_cons]
      refine ⟨?_, hx, hm⟩
      rintro y (rfl | hy)
      · exact hlt
      · exact lt_trans hlt (hx y hy)
    · split
      · rename_i heq
        subst heq
        simpa only [Memory.wf, List.map_cons, List.pairwise_cons] using ⟨hx, hm⟩
      · simp only [Memory.wf, List.map_cons, List.pairwise_cons]
        refine ⟨?_, ih hm⟩
        intro y hy
        obtain ⟨c, hc, rfl⟩ := List.mem_map.1 hy
        rcases mem_write hc with rfl | hc
        · show x < a
          omega
        · exact hx _ (List.mem_map_of_mem hc)

end Sys2Proof.Machine
end

