-- ==== Sys2Proof/Laws/Result.lean ====
section
/-! SUPPORT. Parts of an instruction chained, and what the end of one can come to. -/

namespace Sys2Proof.Machine

variable {α β : Type}

@[simp] theorem bind_ok (a : α) (k : α → Res β) : (Res.ok a).bind k = k a := rfl
@[simp] theorem bind_raise (c : Cause) (addr info : Option Word) (k : α → Res β) :
    (Res.raise c addr info).bind k = .raise c addr info := rfl
@[simp] theorem bind_stop (x : Stop) (k : α → Res β) : (Res.stop x).bind k = .stop x := rfl

/-- A chain that gives a value gave one at its first part. -/
theorem bind_eq_ok {x : Res α} {k : α → Res β} {b : β} (h : x.bind k = .ok b) :
    ∃ a, x = .ok a ∧ k a = .ok b := by
  cases x with
  | ok a => exact ⟨a, rfl, h⟩
  | raise c addr info => simp [Res.bind] at h
  | stop y => simp [Res.bind] at h

/-- A chain that raises raised at its first part or after it. -/
theorem bind_eq_raise {x : Res α} {k : α → Res β} {c : Cause} {addr info : Option Word}
    (h : x.bind k = .raise c addr info) :
    x = .raise c addr info ∨ ∃ a, x = .ok a ∧ k a = .raise c addr info := by
  cases x with
  | ok a => exact .inr ⟨a, rfl, h⟩
  | raise c' addr' info' => simpa [Res.bind] using h
  | stop y => simp [Res.bind] at h

@[simp] theorem stop_outcome_ne_next (x : Stop) (t : State) : x.outcome ≠ .next t := by
  cases x <;> simp [Stop.outcome]

/-- An exception taken that gives a next state entered a handler, or ignored a cause. -/
theorem takeException_next {s t : State} {c : Cause} {addr info : Option Word}
    (h : takeException s c addr info = .next t) :
    signal s c addr info (trapSavedPc s c) = .entered t ∨
      (signal s c addr info (trapSavedPc s c) = .ignored ∧ t = s) := by
  unfold takeException at h
  split at h
  · left; simp_all
  · right; simp_all
  · simp at h

/-- An instruction completed: nothing more, the timer one lower, or the TIMER interrupt entered. -/
theorem complete_next {s t : State} (h : complete s = .next t) :
    t = s ∨ t = s.countDown ∨ signal s.countDown .timer none none s.pc = .entered t := by
  unfold complete at h
  split at h
  · split at h
    · split at h
      · right; right; simp_all
      · right; left; simp_all
      · simp at h
    · right; left; simp_all
  · left; simp_all

/-- An instruction that gives a next state completed or took an exception (R288). -/
theorem finish_next {s t : State} {x : Res State} (h : finish s x = .next t) :
    (∃ u, x = .ok u ∧ complete u = .next t) ∨
      ∃ c addr info, x = .raise c addr info ∧ takeException s c addr info = .next t := by
  cases x with
  | ok u => exact .inl ⟨u, rfl, h⟩
  | raise c addr info => exact .inr ⟨c, addr, info, rfl, h⟩
  | stop y => simp [finish] at h

@[simp] theorem finish_ok (s t : State) : finish s (.ok t) = complete t := rfl
@[simp] theorem finish_raise (s : State) (c : Cause) (addr info : Option Word) :
    finish s (.raise c addr info) = takeException s c addr info := rfl
@[simp] theorem finish_stop (s : State) (x : Stop) : finish s (.stop x) = x.outcome := rfl

/-- In system mode a privileged instruction runs. -/
theorem privileged_system {s : State} (x : Res State) (h : s.flags.sys = true) :
    privileged s x = x := by simp [privileged, h]

/-- In user mode it raises PRIVOP with its own address (R176). -/
theorem privileged_user {s : State} (x : Res State) (h : s.flags.sys = false) :
    privileged s x = .raise .privop (some s.pc) none := by simp [privileged, h]

/-- A running CPU whose timer does not stand at one ends the instruction with the timer counted down,
zero staying zero (R294). -/
theorem complete_quiet {s : State} (hr : s.flags.r = true) (ht : s.sr.timer ≠ 1) :
    complete s = .next (if s.sr.timer = 0 then s else s.countDown) := by
  unfold complete
  by_cases h0 : s.sr.timer = 0
  · simp [h0]
  · have h1 : s.countDown.sr.timer ≠ 0 := by
      simp only [State.countDown, State.setSpecials]
      intro h
      apply ht
      bv_omega
    have hb : (s.sr.timer != 0) = true := by simpa using h0
    rw [hr, hb, if_neg h0, if_neg h1]
    rfl

/-- A CPU that the instruction halted neither counts nor signals (R298). -/
theorem complete_halted {s : State} (hr : s.flags.r = false) : complete s = .next s := by
  simp [complete, hr]

end Sys2Proof.Machine
end

