-- ==== Sys2Proof/Laws/State.lean ====
section
/-! SUPPORT. The small lemmas of the state's updates: one per field per update, true by `rfl`, so that no
later proof unfolds a record update; then the register accessors. -/

namespace Sys2Proof.Machine

variable (s : State)

/-! ### setGpr -/

@[simp] theorem setGpr_gpr (g : Vector Word 13) : (s.setGpr g).gpr = g := rfl
@[simp] theorem setGpr_pc (g : Vector Word 13) : (s.setGpr g).pc = s.pc := rfl
@[simp] theorem setGpr_flags (g : Vector Word 13) : (s.setGpr g).flags = s.flags := rfl
@[simp] theorem setGpr_sr (g : Vector Word 13) : (s.setGpr g).sr = s.sr := rfl
@[simp] theorem setGpr_mem (g : Vector Word 13) : (s.setGpr g).mem = s.mem := rfl
@[simp] theorem setGpr_world (g : Vector Word 13) : (s.setGpr g).world = s.world := rfl
@[simp] theorem setGpr_draws (g : Vector Word 13) : (s.setGpr g).draws = s.draws := rfl
@[simp] theorem setGpr_cfg (g : Vector Word 13) : (s.setGpr g).cfg = s.cfg := rfl
@[simp] theorem setGpr_faultNesting (g : Vector Word 13) :
    (s.setGpr g).faultNesting = s.faultNesting := rfl

/-! ### setPc -/

@[simp] theorem setPc_gpr (v : Word) : (s.setPc v).gpr = s.gpr := rfl
@[simp] theorem setPc_pc (v : Word) : (s.setPc v).pc = v := rfl
@[simp] theorem setPc_flags (v : Word) : (s.setPc v).flags = s.flags := rfl
@[simp] theorem setPc_sr (v : Word) : (s.setPc v).sr = s.sr := rfl
@[simp] theorem setPc_mem (v : Word) : (s.setPc v).mem = s.mem := rfl
@[simp] theorem setPc_world (v : Word) : (s.setPc v).world = s.world := rfl
@[simp] theorem setPc_draws (v : Word) : (s.setPc v).draws = s.draws := rfl
@[simp] theorem setPc_cfg (v : Word) : (s.setPc v).cfg = s.cfg := rfl
@[simp] theorem setPc_faultNesting (v : Word) : (s.setPc v).faultNesting = s.faultNesting := rfl

/-! ### setFlags -/

@[simp] theorem setFlags_gpr (f : Flags) : (s.setFlags f).gpr = s.gpr := rfl
@[simp] theorem setFlags_pc (f : Flags) : (s.setFlags f).pc = s.pc := rfl
@[simp] theorem setFlags_flags (f : Flags) : (s.setFlags f).flags = f := rfl
@[simp] theorem setFlags_sr (f : Flags) : (s.setFlags f).sr = s.sr := rfl
@[simp] theorem setFlags_mem (f : Flags) : (s.setFlags f).mem = s.mem := rfl
@[simp] theorem setFlags_world (f : Flags) : (s.setFlags f).world = s.world := rfl
@[simp] theorem setFlags_draws (f : Flags) : (s.setFlags f).draws = s.draws := rfl
@[simp] theorem setFlags_cfg (f : Flags) : (s.setFlags f).cfg = s.cfg := rfl
@[simp] theorem setFlags_faultNesting (f : Flags) :
    (s.setFlags f).faultNesting = s.faultNesting := rfl

/-! ### setSpecials -/

@[simp] theorem setSpecials_gpr (x : SpecialRegs) : (s.setSpecials x).gpr = s.gpr := rfl
@[simp] theorem setSpecials_pc (x : SpecialRegs) : (s.setSpecials x).pc = s.pc := rfl
@[simp] theorem setSpecials_flags (x : SpecialRegs) : (s.setSpecials x).flags = s.flags := rfl
@[simp] theorem setSpecials_sr (x : SpecialRegs) : (s.setSpecials x).sr = x := rfl
@[simp] theorem setSpecials_mem (x : SpecialRegs) : (s.setSpecials x).mem = s.mem := rfl
@[simp] theorem setSpecials_world (x : SpecialRegs) : (s.setSpecials x).world = s.world := rfl
@[simp] theorem setSpecials_draws (x : SpecialRegs) : (s.setSpecials x).draws = s.draws := rfl
@[simp] theorem setSpecials_cfg (x : SpecialRegs) : (s.setSpecials x).cfg = s.cfg := rfl
@[simp] theorem setSpecials_faultNesting (x : SpecialRegs) :
    (s.setSpecials x).faultNesting = s.faultNesting := rfl

/-! ### setMem -/

@[simp] theorem setMem_gpr (m : Memory) : (s.setMem m).gpr = s.gpr := rfl
@[simp] theorem setMem_pc (m : Memory) : (s.setMem m).pc = s.pc := rfl
@[simp] theorem setMem_flags (m : Memory) : (s.setMem m).flags = s.flags := rfl
@[simp] theorem setMem_sr (m : Memory) : (s.setMem m).sr = s.sr := rfl
@[simp] theorem setMem_mem (m : Memory) : (s.setMem m).mem = m := rfl
@[simp] theorem setMem_world (m : Memory) : (s.setMem m).world = s.world := rfl
@[simp] theorem setMem_draws (m : Memory) : (s.setMem m).draws = s.draws := rfl
@[simp] theorem setMem_cfg (m : Memory) : (s.setMem m).cfg = s.cfg := rfl
@[simp] theorem setMem_faultNesting (m : Memory) : (s.setMem m).faultNesting = s.faultNesting := rfl

/-! ### setWorld -/

@[simp] theorem setWorld_gpr (w : World) : (s.setWorld w).gpr = s.gpr := rfl
@[simp] theorem setWorld_pc (w : World) : (s.setWorld w).pc = s.pc := rfl
@[simp] theorem setWorld_flags (w : World) : (s.setWorld w).flags = s.flags := rfl
@[simp] theorem setWorld_sr (w : World) : (s.setWorld w).sr = s.sr := rfl
@[simp] theorem setWorld_mem (w : World) : (s.setWorld w).mem = s.mem := rfl
@[simp] theorem setWorld_world (w : World) : (s.setWorld w).world = w := rfl
@[simp] theorem setWorld_draws (w : World) : (s.setWorld w).draws = s.draws := rfl
@[simp] theorem setWorld_cfg (w : World) : (s.setWorld w).cfg = s.cfg := rfl
@[simp] theorem setWorld_faultNesting (w : World) :
    (s.setWorld w).faultNesting = s.faultNesting := rfl

/-! ### setDraws -/

@[simp] theorem setDraws_gpr (n : Nat) : (s.setDraws n).gpr = s.gpr := rfl
@[simp] theorem setDraws_pc (n : Nat) : (s.setDraws n).pc = s.pc := rfl
@[simp] theorem setDraws_flags (n : Nat) : (s.setDraws n).flags = s.flags := rfl
@[simp] theorem setDraws_sr (n : Nat) : (s.setDraws n).sr = s.sr := rfl
@[simp] theorem setDraws_mem (n : Nat) : (s.setDraws n).mem = s.mem := rfl
@[simp] theorem setDraws_world (n : Nat) : (s.setDraws n).world = s.world := rfl
@[simp] theorem setDraws_draws (n : Nat) : (s.setDraws n).draws = n := rfl
@[simp] theorem setDraws_cfg (n : Nat) : (s.setDraws n).cfg = s.cfg := rfl
@[simp] theorem setDraws_faultNesting (n : Nat) :
    (s.setDraws n).faultNesting = s.faultNesting := rfl

/-! ### setFaultNesting -/

@[simp] theorem setFaultNesting_gpr (n : Option Nat) : (s.setFaultNesting n).gpr = s.gpr := rfl
@[simp] theorem setFaultNesting_pc (n : Option Nat) : (s.setFaultNesting n).pc = s.pc := rfl
@[simp] theorem setFaultNesting_flags (n : Option Nat) :
    (s.setFaultNesting n).flags = s.flags := rfl
@[simp] theorem setFaultNesting_sr (n : Option Nat) : (s.setFaultNesting n).sr = s.sr := rfl
@[simp] theorem setFaultNesting_mem (n : Option Nat) : (s.setFaultNesting n).mem = s.mem := rfl
@[simp] theorem setFaultNesting_world (n : Option Nat) :
    (s.setFaultNesting n).world = s.world := rfl
@[simp] theorem setFaultNesting_draws (n : Option Nat) :
    (s.setFaultNesting n).draws = s.draws := rfl
@[simp] theorem setFaultNesting_cfg (n : Option Nat) : (s.setFaultNesting n).cfg = s.cfg := rfl
@[simp] theorem setFaultNesting_faultNesting (n : Option Nat) :
    (s.setFaultNesting n).faultNesting = n := rfl

/-! ### Updates of one field built from these -/

@[simp] theorem advance_gpr : s.advance.gpr = s.gpr := rfl
@[simp] theorem advance_pc : s.advance.pc = s.pc + 1 := rfl
@[simp] theorem advance_flags : s.advance.flags = s.flags := rfl
@[simp] theorem advance_sr : s.advance.sr = s.sr := rfl
@[simp] theorem advance_mem : s.advance.mem = s.mem := rfl
@[simp] theorem advance_world : s.advance.world = s.world := rfl
@[simp] theorem advance_draws : s.advance.draws = s.draws := rfl
@[simp] theorem advance_cfg : s.advance.cfg = s.cfg := rfl
@[simp] theorem advance_faultNesting : s.advance.faultNesting = s.faultNesting := rfl

@[simp] theorem entering_gpr : s.entering.gpr = s.gpr := rfl
@[simp] theorem entering_pc : s.entering.pc = s.pc := rfl
@[simp] theorem entering_flags : s.entering.flags = s.flags.entering := rfl
@[simp] theorem entering_sr : s.entering.sr = s.sr := rfl
@[simp] theorem entering_mem : s.entering.mem = s.mem := rfl
@[simp] theorem entering_world : s.entering.world = s.world := rfl
@[simp] theorem entering_draws : s.entering.draws = s.draws := rfl
@[simp] theorem entering_cfg : s.entering.cfg = s.cfg := rfl
@[simp] theorem entering_faultNesting : s.entering.faultNesting = s.faultNesting := rfl

@[simp] theorem poke_gpr (pa v : Word) : (s.poke pa v).gpr = s.gpr := rfl
@[simp] theorem poke_pc (pa v : Word) : (s.poke pa v).pc = s.pc := rfl
@[simp] theorem poke_flags (pa v : Word) : (s.poke pa v).flags = s.flags := rfl
@[simp] theorem poke_sr (pa v : Word) : (s.poke pa v).sr = s.sr := rfl
@[simp] theorem poke_mem (pa v : Word) : (s.poke pa v).mem = Memory.write s.mem pa.toNat v := rfl
@[simp] theorem poke_world (pa v : Word) : (s.poke pa v).world = s.world := rfl
@[simp] theorem poke_draws (pa v : Word) : (s.poke pa v).draws = s.draws := rfl
@[simp] theorem poke_cfg (pa v : Word) : (s.poke pa v).cfg = s.cfg := rfl
@[simp] theorem poke_faultNesting (pa v : Word) : (s.poke pa v).faultNesting = s.faultNesting := rfl

@[simp] theorem countDown_gpr : s.countDown.gpr = s.gpr := rfl
@[simp] theorem countDown_pc : s.countDown.pc = s.pc := rfl
@[simp] theorem countDown_flags : s.countDown.flags = s.flags := rfl
@[simp] theorem countDown_sr : s.countDown.sr = { s.sr with timer := s.sr.timer - 1 } := rfl
@[simp] theorem countDown_mem : s.countDown.mem = s.mem := rfl
@[simp] theorem countDown_world : s.countDown.world = s.world := rfl
@[simp] theorem countDown_draws : s.countDown.draws = s.draws := rfl
@[simp] theorem countDown_cfg : s.countDown.cfg = s.cfg := rfl
@[simp] theorem countDown_faultNesting : s.countDown.faultNesting = s.faultNesting := rfl

/-! ### The banked registers and the numbered special registers -/

@[simp] theorem setSP_gpr (v : Word) : (s.setSP v).gpr = s.gpr := by
  unfold State.setSP; split <;> rfl
@[simp] theorem setSP_pc (v : Word) : (s.setSP v).pc = s.pc := by
  unfold State.setSP; split <;> rfl
@[simp] theorem setSP_flags (v : Word) : (s.setSP v).flags = s.flags := by
  unfold State.setSP; split <;> rfl
@[simp] theorem setSP_mem (v : Word) : (s.setSP v).mem = s.mem := by
  unfold State.setSP; split <;> rfl
@[simp] theorem setSP_world (v : Word) : (s.setSP v).world = s.world := by
  unfold State.setSP; split <;> rfl
@[simp] theorem setSP_draws (v : Word) : (s.setSP v).draws = s.draws := by
  unfold State.setSP; split <;> rfl
@[simp] theorem setSP_cfg (v : Word) : (s.setSP v).cfg = s.cfg := by
  unfold State.setSP; split <;> rfl
@[simp] theorem setSP_faultNesting (v : Word) : (s.setSP v).faultNesting = s.faultNesting := by
  unfold State.setSP; split <;> rfl
@[simp] theorem setSP_pdbr (v : Word) : (s.setSP v).sr.pdbr = s.sr.pdbr := by
  unfold State.setSP; split <;> rfl
@[simp] theorem setSP_intvec (v : Word) : (s.setSP v).sr.intvec = s.sr.intvec := by
  unfold State.setSP; split <;> rfl
@[simp] theorem setSP_cgbr (v : Word) : (s.setSP v).sr.cgbr = s.sr.cgbr := by
  unfold State.setSP; split <;> rfl
@[simp] theorem setSP_cglen (v : Word) : (s.setSP v).sr.cglen = s.sr.cglen := by
  unfold State.setSP; split <;> rfl
@[simp] theorem setSP_debug (v : Word) : (s.setSP v).sr.debug = s.sr.debug := by
  unfold State.setSP; split <;> rfl
@[simp] theorem setSP_timer (v : Word) : (s.setSP v).sr.timer = s.sr.timer := by
  unfold State.setSP; split <;> rfl
@[simp] theorem setFP_gpr (v : Word) : (s.setFP v).gpr = s.gpr := by
  unfold State.setFP; split <;> rfl
@[simp] theorem setFP_pc (v : Word) : (s.setFP v).pc = s.pc := by
  unfold State.setFP; split <;> rfl
@[simp] theorem setFP_flags (v : Word) : (s.setFP v).flags = s.flags := by
  unfold State.setFP; split <;> rfl
@[simp] theorem setFP_mem (v : Word) : (s.setFP v).mem = s.mem := by
  unfold State.setFP; split <;> rfl
@[simp] theorem setFP_world (v : Word) : (s.setFP v).world = s.world := by
  unfold State.setFP; split <;> rfl
@[simp] theorem setFP_draws (v : Word) : (s.setFP v).draws = s.draws := by
  unfold State.setFP; split <;> rfl
@[simp] theorem setFP_cfg (v : Word) : (s.setFP v).cfg = s.cfg := by
  unfold State.setFP; split <;> rfl
@[simp] theorem setFP_faultNesting (v : Word) : (s.setFP v).faultNesting = s.faultNesting := by
  unfold State.setFP; split <;> rfl
@[simp] theorem setFP_pdbr (v : Word) : (s.setFP v).sr.pdbr = s.sr.pdbr := by
  unfold State.setFP; split <;> rfl
@[simp] theorem setFP_intvec (v : Word) : (s.setFP v).sr.intvec = s.sr.intvec := by
  unfold State.setFP; split <;> rfl
@[simp] theorem setFP_cgbr (v : Word) : (s.setFP v).sr.cgbr = s.sr.cgbr := by
  unfold State.setFP; split <;> rfl
@[simp] theorem setFP_cglen (v : Word) : (s.setFP v).sr.cglen = s.sr.cglen := by
  unfold State.setFP; split <;> rfl
@[simp] theorem setFP_debug (v : Word) : (s.setFP v).sr.debug = s.sr.debug := by
  unfold State.setFP; split <;> rfl
@[simp] theorem setFP_timer (v : Word) : (s.setFP v).sr.timer = s.sr.timer := by
  unfold State.setFP; split <;> rfl
@[simp] theorem setReg_pc (r : Reg) (v : Word) : (s.setReg r v).pc = s.pc := by
  cases r <;> simp [State.setReg]
@[simp] theorem setReg_flags (r : Reg) (v : Word) : (s.setReg r v).flags = s.flags := by
  cases r <;> simp [State.setReg]
@[simp] theorem setReg_mem (r : Reg) (v : Word) : (s.setReg r v).mem = s.mem := by
  cases r <;> simp [State.setReg]
@[simp] theorem setReg_world (r : Reg) (v : Word) : (s.setReg r v).world = s.world := by
  cases r <;> simp [State.setReg]
@[simp] theorem setReg_draws (r : Reg) (v : Word) : (s.setReg r v).draws = s.draws := by
  cases r <;> simp [State.setReg]
@[simp] theorem setReg_cfg (r : Reg) (v : Word) : (s.setReg r v).cfg = s.cfg := by
  cases r <;> simp [State.setReg]
@[simp] theorem setReg_faultNesting (r : Reg) (v : Word) :
    (s.setReg r v).faultNesting = s.faultNesting := by
  cases r <;> simp [State.setReg]
@[simp] theorem setReg_pdbr (r : Reg) (v : Word) : (s.setReg r v).sr.pdbr = s.sr.pdbr := by
  cases r <;> simp [State.setReg]
@[simp] theorem setReg_intvec (r : Reg) (v : Word) : (s.setReg r v).sr.intvec = s.sr.intvec := by
  cases r <;> simp [State.setReg]
@[simp] theorem setReg_cgbr (r : Reg) (v : Word) : (s.setReg r v).sr.cgbr = s.sr.cgbr := by
  cases r <;> simp [State.setReg]
@[simp] theorem setReg_cglen (r : Reg) (v : Word) : (s.setReg r v).sr.cglen = s.sr.cglen := by
  cases r <;> simp [State.setReg]
@[simp] theorem setReg_debug (r : Reg) (v : Word) : (s.setReg r v).sr.debug = s.sr.debug := by
  cases r <;> simp [State.setReg]
@[simp] theorem setReg_timer (r : Reg) (v : Word) : (s.setReg r v).sr.timer = s.sr.timer := by
  cases r <;> simp [State.setReg]
@[simp] theorem setSpecial_gpr (k : SReg) (v : Word) : (s.setSpecial k v).gpr = s.gpr := by
  cases k <;> rfl
@[simp] theorem setSpecial_pc (k : SReg) (v : Word) : (s.setSpecial k v).pc = s.pc := by
  cases k <;> rfl
@[simp] theorem setSpecial_mem (k : SReg) (v : Word) : (s.setSpecial k v).mem = s.mem := by
  cases k <;> rfl
@[simp] theorem setSpecial_world (k : SReg) (v : Word) : (s.setSpecial k v).world = s.world := by
  cases k <;> rfl
@[simp] theorem setSpecial_draws (k : SReg) (v : Word) : (s.setSpecial k v).draws = s.draws := by
  cases k <;> rfl
@[simp] theorem setSpecial_cfg (k : SReg) (v : Word) : (s.setSpecial k v).cfg = s.cfg := by
  cases k <;> rfl
@[simp] theorem setSpecial_faultNesting (k : SReg) (v : Word) :
    (s.setSpecial k v).faultNesting = s.faultNesting := by
  cases k <;> rfl

/-! ### Reading a register after writing one (R12, R13, R14) -/

@[simp] theorem sp_setSP (v : Word) : (s.setSP v).sp = v := by
  unfold State.setSP State.sp; split <;> simp_all

@[simp] theorem fp_setFP (v : Word) : (s.setFP v).fp = v := by
  unfold State.setFP State.fp; split <;> simp_all

@[simp] theorem fp_setSP (v : Word) : (s.setSP v).fp = s.fp := by
  unfold State.setSP State.fp; split <;> simp_all

@[simp] theorem sp_setFP (v : Word) : (s.setFP v).sp = s.sp := by
  unfold State.setFP State.sp; split <;> simp_all

/-- A register reads the value just written to it. -/
@[simp] theorem getReg_setReg (r : Reg) (v : Word) : (s.setReg r v).getReg r = v := by
  cases r <;> simp [State.setReg, State.getReg]

/-- Writing one register leaves every other register of the current mode. -/
theorem getReg_setReg_ne {r q : Reg} (v : Word) (h : q ≠ r) :
    (s.setReg r v).getReg q = s.getReg q := by
  cases r with
  | gp n =>
    cases q with
    | gp m =>
      have hne : (n : Nat) ≠ m := fun e => h (by rw [Fin.ext e])
      simp only [State.setReg, State.getReg, setGpr_gpr]
      exact Vector.getElem_set_ne _ _ hne
    | sp => rfl
    | fp => rfl
  | sp => cases q <;> simp_all [State.setReg, State.getReg]
  | fp => cases q <;> simp_all [State.setReg, State.getReg]

/-- Writing a register of system mode leaves the user bank (R13, R14). -/
theorem setReg_user_bank (r : Reg) (v : Word) (h : s.flags.sys = true) :
    (s.setReg r v).sr.usrSP = s.sr.usrSP ∧ (s.setReg r v).sr.usrFP = s.sr.usrFP := by
  cases r <;> simp [State.setReg, State.setSP, State.setFP, h]

/-- Writing a register of user mode leaves the system bank (R13, R14). -/
theorem setReg_system_bank (r : Reg) (v : Word) (h : s.flags.sys = false) :
    (s.setReg r v).sr.sysSP = s.sr.sysSP ∧ (s.setReg r v).sr.sysFP = s.sr.sysFP := by
  cases r <;> simp [State.setReg, State.setSP, State.setFP, h]

/-- The registers an operand names depend on the general registers, the mode and the special registers
alone. -/
theorem getReg_congr {s t : State} (hg : t.gpr = s.gpr) (hf : t.flags.sys = s.flags.sys)
    (hs : t.sr.sysSP = s.sr.sysSP ∧ t.sr.sysFP = s.sr.sysFP ∧ t.sr.usrSP = s.sr.usrSP ∧
      t.sr.usrFP = s.sr.usrFP) (r : Reg) : t.getReg r = s.getReg r := by
  obtain ⟨h1, h2, h3, h4⟩ := hs
  cases r <;> simp [State.getReg, State.sp, State.fp, hg, hf, h1, h2, h3, h4]

end Sys2Proof.Machine
end

