-- ==== Sys2Proof/Laws/Access.lean ====
section
/-! SUPPORT. What an access to memory can do: each operation said once. -/

namespace Sys2Proof.Machine

/-- A physical read that gives a word found it listed at an address that exists (R64). -/
theorem physRead_eq_ok {s : State} {pa w : Word} (h : physRead s pa = .ok w) :
    physValid s pa = true ∧ s.word pa.toNat = some w := by
  unfold physRead at h
  split at h
  · rename_i hv
    split at h
    · simp_all [State.word]
    · simp at h
  · simp at h

theorem physRead_of {s : State} {pa w : Word} (hv : physValid s pa = true)
    (hw : s.word pa.toNat = some w) : physRead s pa = .ok w := by
  unfold State.word at hw
  simp [physRead, hv, hw]

/-- A physical read of an address that does not exist raises MEMORY with it (R64). -/
theorem physRead_invalid {s : State} {pa : Word} (hv : physValid s pa = false) :
    physRead s pa = .raise .memory (some pa) none := by
  simp [physRead, hv]

/-- With VM off every address is physical (R66). -/
theorem translate_physical {s : State} (a : Word) (h : s.flags.vm = false) :
    translate s a = .ok a := by simp [translate, h]

theorem memRead_physical {s : State} (a : Word) (h : s.flags.vm = false) :
    memRead s a = physRead s a := by simp [memRead, translate_physical a h]

theorem target_physical {s : State} (a : Word) (h : s.flags.vm = false) :
    target s a = if physValid s a then .ok a else .raise .memory (some a) none := by
  simp [target, translate_physical a h]

theorem physValid_congr {s t : State} (pa : Word) (hc : t.cfg = s.cfg) :
    physValid t pa = physValid s pa := by
  unfold physValid
  rw [hc]

theorem physRead_congr {s t : State} (pa : Word) (hm : t.mem = s.mem) (hc : t.cfg = s.cfg) :
    physRead t pa = physRead s pa := by
  unfold physRead
  rw [hm, physValid_congr pa hc]

/-- Translation reads VM, SYS, PDBR and physical memory, nothing else (R72). -/
theorem translate_congr {s t : State} (a : Word) (hv : t.flags.vm = s.flags.vm)
    (hs : t.flags.sys = s.flags.sys) (hp : t.sr.pdbr = s.sr.pdbr) (hm : t.mem = s.mem)
    (hc : t.cfg = s.cfg) : translate t a = translate s a := by
  unfold translate dirEntryAddr
  rw [hv, hs, hp, physRead_congr _ hm hc]
  congr 2
  funext dirEntry
  rw [physRead_congr _ hm hc]

theorem memRead_congr {s t : State} (a : Word) (hv : t.flags.vm = s.flags.vm)
    (hs : t.flags.sys = s.flags.sys) (hp : t.sr.pdbr = s.sr.pdbr) (hm : t.mem = s.mem)
    (hc : t.cfg = s.cfg) : memRead t a = memRead s a := by
  unfold memRead
  rw [translate_congr a hv hs hp hm hc]
  congr 1
  funext pa
  exact physRead_congr pa hm hc

theorem target_congr {s t : State} (a : Word) (hv : t.flags.vm = s.flags.vm)
    (hs : t.flags.sys = s.flags.sys) (hp : t.sr.pdbr = s.sr.pdbr) (hm : t.mem = s.mem)
    (hc : t.cfg = s.cfg) : target t a = target s a := by
  unfold target
  rw [translate_congr a hv hs hp hm hc]
  congr 1
  funext pa
  rw [physValid_congr pa hc]

/-- A physical read depends on the word it reads. -/
theorem physRead_agree {s t : State} {pa : Word} (hc : t.cfg = s.cfg)
    (hw : t.word pa.toNat = s.word pa.toNat) : physRead t pa = physRead s pa := by
  unfold State.word at hw
  unfold physRead
  rw [physValid_congr pa hc, hw]

/-- Translation depends on VM, SYS, PDBR and the words that it reads (R72). -/
theorem translate_agree {s t : State} {a : Word} (hv : t.flags.vm = s.flags.vm)
    (hs : t.flags.sys = s.flags.sys) (hp : t.sr.pdbr = s.sr.pdbr) (hc : t.cfg = s.cfg)
    (hw : ∀ q ∈ walkReads s a, t.word q.toNat = s.word q.toNat) : translate t a = translate s a := by
  have hd : dirEntryAddr t a = dirEntryAddr s a := by unfold dirEntryAddr; rw [hp]
  unfold translate
  rw [hv, hs]
  cases hvm : s.flags.vm with
  | false => rfl
  | true =>
    simp only [walkReads, hvm, if_true, List.mem_cons, forall_eq_or_imp] at hw
    rw [if_pos rfl, if_pos rfl, hd, physRead_agree hc hw.1]
    cases h1 : physRead s (dirEntryAddr s a) with
    | raise c addr info => rfl
    | stop x => rfl
    | ok dirEntry =>
      rw [h1] at hw
      simp only [Res.bind]
      rw [physRead_agree hc (hw.2 _ (by simp))]

/-- The address a store reaches depends on the same. -/
theorem target_agree {s t : State} {a : Word} (hv : t.flags.vm = s.flags.vm)
    (hs : t.flags.sys = s.flags.sys) (hp : t.sr.pdbr = s.sr.pdbr) (hc : t.cfg = s.cfg)
    (hw : ∀ q ∈ walkReads s a, t.word q.toNat = s.word q.toNat) : target t a = target s a := by
  unfold target
  rw [translate_agree hv hs hp hc hw]
  congr 1
  funext pa
  rw [physValid_congr pa hc]

/-- What translation reads depends on VM, PDBR and the words that it reads. -/
theorem walkReads_agree {s t : State} {a : Word} (hv : t.flags.vm = s.flags.vm)
    (hp : t.sr.pdbr = s.sr.pdbr) (hc : t.cfg = s.cfg)
    (hw : ∀ q ∈ walkReads s a, t.word q.toNat = s.word q.toNat) : walkReads t a = walkReads s a := by
  have hd : dirEntryAddr t a = dirEntryAddr s a := by unfold dirEntryAddr; rw [hp]
  unfold walkReads at hw ⊢
  rw [hv]
  split
  · rename_i hvm
    rw [hvm] at hw
    rw [hd, physRead_agree hc (hw _ (by simp))]
  · rfl

theorem walkReads_physical {s : State} (a : Word) (h : s.flags.vm = false) :
    walkReads s a = [] := by simp [walkReads, h]

/-- A store's target gives a load of the same address its word (R64, R72). -/
theorem memRead_of_target {s : State} {a pa w : Word} (h : target s a = .ok pa)
    (hw : s.word pa.toNat = some w) : memRead s a = .ok w := by
  obtain ⟨pb, h1, h2⟩ := bind_eq_ok h
  split at h2
  · rename_i hv
    cases h2
    rw [memRead, h1, bind_ok, physRead_of hv hw]
  · simp at h2

/-- A store's address, where there is one, exists. -/
theorem target_valid {s : State} {a pa : Word} (h : target s a = .ok pa) :
    physValid s pa = true := by
  obtain ⟨pb, -, h2⟩ := bind_eq_ok h
  split at h2
  · rename_i hv
    cases h2
    exact hv
  · simp at h2

/-- A store that succeeds changed the word at its target alone. -/
theorem memWrite_eq_ok {s t : State} {a v : Word} (h : memWrite s a v = .ok t) :
    ∃ pa, target s a = .ok pa ∧ t = s.poke pa v := by
  obtain ⟨pa, h1, h2⟩ := bind_eq_ok h
  exact ⟨pa, h1, by simpa using h2.symm⟩

theorem memWrite_of {s : State} {a pa : Word} (v : Word) (h : target s a = .ok pa) :
    memWrite s a v = .ok (s.poke pa v) := by simp [memWrite, h]

@[simp] theorem word_poke_same (s : State) (pa v : Word) :
    (s.poke pa v).word pa.toNat = some v := by simp [State.word]

theorem word_poke_ne (s : State) (pa v : Word) {a : Nat} (h : a ≠ pa.toNat) :
    (s.poke pa v).word a = s.word a := read_write_ne _ _ h

/-- A word poked at an address that exists keeps memory well formed. -/
theorem poke_memWf {s : State} {pa : Word} (v : Word) (hv : physValid s pa = true)
    (h : s.memWf) : (s.poke pa v).memWf := by
  refine ⟨write_wf _ _ h.1, fun c hc => ?_⟩
  rcases mem_write hc with rfl | hc
  · simpa [physValid] using hv
  · exact h.2 c hc

theorem memWrite_memWf {s t : State} {a v : Word} (h : memWrite s a v = .ok t)
    (hw : s.memWf) : t.memWf := by
  obtain ⟨pa, h1, rfl⟩ := memWrite_eq_ok h
  exact poke_memWf v (target_valid h1) hw

/-- Memory well-formedness is about the memory and the launch parameters. -/
theorem memWf_congr {s t : State} (hm : t.mem = s.mem) (hc : t.cfg = s.cfg) (h : s.memWf) :
    t.memWf := by
  unfold State.memWf at *
  rw [hm, hc]
  exact h

end Sys2Proof.Machine
end

