-- ==== Sys2Proof/Laws/Entry.lean ====
section
/-! SUPPORT. Pushing, entering and signalling: each said once (R153, R270 to R282). -/

namespace Sys2Proof.Machine

/-- What pushes in system mode keep: everything but SYSSP and memory, which stays well formed. -/
structure Pushes (s t : State) : Prop where
  gpr : t.gpr = s.gpr
  pc : t.pc = s.pc
  flags : t.flags = s.flags
  user : t.sr.usrSP = s.sr.usrSP ∧ t.sr.usrFP = s.sr.usrFP
  sysFP : t.sr.sysFP = s.sr.sysFP
  controls : SameControls s t
  timer : t.sr.timer = s.sr.timer
  world : t.world = s.world
  launch : t.cfg = s.cfg
  memWf : s.memWf → t.memWf

theorem Pushes.refl (s : State) : Pushes s s :=
  ⟨rfl, rfl, rfl, ⟨rfl, rfl⟩, rfl, ⟨rfl, rfl, rfl, rfl, rfl⟩, rfl, rfl, rfl, id⟩

theorem Pushes.trans {s t u : State} (h : Pushes s t) (k : Pushes t u) : Pushes s u where
  gpr := k.gpr.trans h.gpr
  pc := k.pc.trans h.pc
  flags := k.flags.trans h.flags
  user := ⟨k.user.1.trans h.user.1, k.user.2.trans h.user.2⟩
  sysFP := k.sysFP.trans h.sysFP
  controls := by
    obtain ⟨a, b, c, d, e⟩ := h.controls
    obtain ⟨a', b', c', d', e'⟩ := k.controls
    exact ⟨a'.trans a, b'.trans b, c'.trans c, d'.trans d, e'.trans e⟩
  timer := k.timer.trans h.timer
  world := k.world.trans h.world
  launch := k.launch.trans h.launch
  memWf := k.memWf ∘ h.memWf

/-- SYSSP moved, in system mode. -/
theorem pushes_setSP {s : State} (v : Word) (h : s.flags.sys = true) : Pushes s (s.setSP v) := by
  refine ⟨by simp, by simp, by simp, ?_, ?_, ?_, by simp, by simp, by simp,
    memWf_congr (by simp) (by simp)⟩
  · simp [State.setSP, h]
  · simp [State.setSP, h]
  · simp [SameControls]

/-- A push that succeeds lowers SP by one and stores at the new SP (R153). -/
theorem push_eq_ok {s t : State} {v : Word} (h : push s v = .ok t) :
    ∃ pa, target s (s.sp - 1) = .ok pa ∧ t = (s.setSP (s.sp - 1)).poke pa v := by
  obtain ⟨pa, h1, h2⟩ := memWrite_eq_ok h
  refine ⟨pa, ?_, h2⟩
  rw [← h1]
  exact (target_congr _ (by simp) (by simp) (by simp) (by simp) (by simp)).symm

theorem push_of {s : State} {pa : Word} (v : Word) (h : target s (s.sp - 1) = .ok pa) :
    push s v = .ok ((s.setSP (s.sp - 1)).poke pa v) := by
  apply memWrite_of
  rw [← h]
  exact target_congr _ (by simp) (by simp) (by simp) (by simp) (by simp)

theorem push_pushes {s t : State} {v : Word} (hs : s.flags.sys = true) (h : push s v = .ok t) :
    Pushes s t := by
  obtain ⟨pa, h1, rfl⟩ := push_eq_ok h
  have hp := pushes_setSP (s.sp - 1) hs
  refine ⟨by simp, by simp, by simp, ?_, ?_, ?_, by simp, by simp, by simp, fun hw => ?_⟩
  · simpa using hp.user
  · simpa using hp.sysFP
  · simp [SameControls]
  · apply poke_memWf _ _ (hp.memWf hw)
    simpa [physValid] using target_valid h1

/-- Pushes in system mode, all done. -/
theorem pushAll_done {vs : List Word} {s t : State} (hs : s.flags.sys = true)
    (h : pushAll vs s = .done t) : Pushes s t := by
  induction vs generalizing s with
  | nil => simp [pushAll] at h; subst h; exact .refl s
  | cons v vs ih =>
    unfold pushAll at h
    split at h
    · rename_i u hu
      have hp := push_pushes hs hu
      exact hp.trans (ih (by rw [hp.flags]; exact hs) h)
    · simp at h
    · simp at h

/-- Pushes in system mode, one of which raised. -/
theorem pushAll_failed {vs : List Word} {s t : State} {c : Cause} {addr : Option Word}
    (hs : s.flags.sys = true) (h : pushAll vs s = .failed t c addr) : Pushes s t := by
  induction vs generalizing s with
  | nil => simp [pushAll] at h
  | cons v vs ih =>
    unfold pushAll at h
    split at h
    · rename_i u hu
      have hp := push_pushes hs hu
      exact hp.trans (ih (by rw [hp.flags]; exact hs) h)
    · simp at h
      obtain ⟨rfl, -, -⟩ := h
      exact pushes_setSP _ hs
    · simp at h

/-- A draw changes the count of draws alone. -/
theorem pushes_setDraws (s : State) (n : Nat) : Pushes s (s.setDraws n) :=
  ⟨rfl, rfl, rfl, ⟨rfl, rfl⟩, rfl, ⟨rfl, rfl, rfl, rfl, rfl⟩, rfl, rfl, rfl, id⟩

theorem drawWord_pushes (s : State) : Pushes s (drawWord s).2 := pushes_setDraws s _

theorem drawBit_pushes (s : State) : Pushes s (drawBit s).2 := pushes_setDraws s _

theorem drawWords_pushes (k : Nat) (s : State) : Pushes s (drawWords k s).2 := by
  induction k generalizing s with
  | zero => exact .refl s
  | succ k ih => exact (drawWord_pushes s).trans (ih _)

theorem drawUpTo_pushes (n : Nat) (s : State) : Pushes s (drawUpTo n s).2 := pushes_setDraws s _

theorem orFree_pushes (x : Option Word) (s : State) : Pushes s (orFree x s).2 := by
  cases x
  · exact drawWord_pushes s
  · exact .refl s

theorem drawSpSlot_pushes (s : State) : Pushes s (drawSpSlot s).2 := drawBit_pushes s

/-- What an entry gives in the registers, and memory well formed (R280). -/
structure EntersFrom (s t : State) : Prop extends EntryRegs s t where
  memWf : s.memWf → t.memWf

/-- Turning SYS and IP on, pushing, counting the handler, and setting the pc is what an entry does. -/
theorem entersFrom_of {s u t : State} (h : Pushes s u) {v : State} (hv : Pushes u.entering v)
    (n : Option Nat) (pc : Word) (ht : t = (v.setFaultNesting n).setPc pc) : EntersFrom s t := by
  subst ht
  refine ⟨⟨?_, ?_, ?_, ?_, ?_, ?_, ?_, ?_⟩, fun hw => ?_⟩
  · simp [hv.flags, h.flags]
  · simp [hv.gpr, h.gpr]
  · simp [hv.user.1, hv.user.2, h.user.1, h.user.2]
  · simp [hv.sysFP, h.sysFP]
  · obtain ⟨a, b, c, d, e⟩ := h.controls
    obtain ⟨a', b', c', d', e'⟩ := hv.controls
    exact ⟨a'.trans a, b'.trans b, c'.trans c, d'.trans d, e'.trans e⟩
  · simp [hv.timer, h.timer]
  · simp [hv.world, h.world]
  · simp [hv.launch, h.launch]
  · exact memWf_congr rfl rfl (hv.memWf (memWf_congr rfl rfl (h.memWf hw)))

theorem entering_idem (f : Flags) : f.entering.entering = f.entering := rfl

/-- INTRFAULT entered, from any state (R278). -/
theorem intrFault_entered {s t : State} {orig : Cause} {addr : Option Word} {w : Word}
    (h : intrFault s orig addr w = .entered t) : EntersFrom s t := by
  unfold intrFault at h
  simp only at h
  split at h
  · simp at h
  · simp at h
  · split at h
    · simp at h
    · split at h
      · simp at h
      · simp at h
      · rename_i u hu
        split at h
        · rename_i pc hpc
          simp only [Signalled.entered.injEq] at h
          have hd : Pushes s.entering (drawWord (drawWords 16 s.entering).2).2 :=
            (drawWords_pushes 16 _).trans (drawWord_pushes _)
          have hsys : (drawWord (drawWords 16 s.entering).2).2.flags.sys = true := by
            rw [hd.flags]; rfl
          exact entersFrom_of (.refl s) (hd.trans (pushAll_done hsys hu)) _ pc h.symm
        · simp at h
        · simp at h

/-- An interrupt entered, whole or as INTRFAULT (R280, R278). -/
theorem enter_entered {s t : State} {c : Cause} {addr info : Option Word} {p : Word}
    (h : enter s c addr info p = .entered t) : EntersFrom s t := by
  have hd : Pushes s (drawSpSlot (orFree info (orFree addr s).2).2).2 :=
    (orFree_pushes addr s).trans ((orFree_pushes info _).trans (drawSpSlot_pushes _))
  have fault : ∀ {v t : State} {w : Word}, Pushes
      (drawSpSlot (orFree info (orFree addr s).2).2).2.entering v →
      intrFault v c addr w = .entered t → EntersFrom s t := by
    intro v t w hv hi
    have hx := intrFault_entered hi
    have hp := entersFrom_of hd hv v.faultNesting v.pc (t := v) rfl
    refine ⟨⟨?_, hx.gpr.trans hp.gpr, ⟨hx.user.1.trans hp.user.1, hx.user.2.trans hp.user.2⟩,
      hx.sysFP.trans hp.sysFP, ?_, hx.timer.trans hp.timer, hx.world.trans hp.world,
      hx.launch.trans hp.launch⟩, hx.memWf ∘ hp.memWf⟩
    · rw [hx.flags, hp.flags, entering_idem]
    · obtain ⟨a, b, c, d, e⟩ := hp.controls
      obtain ⟨a', b', c', d', e'⟩ := hx.controls
      exact ⟨a'.trans a, b'.trans b, c'.trans c, d'.trans d, e'.trans e⟩
  unfold enter at h
  simp only at h
  split at h
  · rename_i u _ _ hu
    exact fault (pushAll_failed rfl hu) h
  · simp at h
  · rename_i u hu
    have hv := pushAll_done rfl hu
    split at h
    · rename_i pc hpc
      simp only [Signalled.entered.injEq] at h
      exact entersFrom_of hd hv _ pc h.symm
    · exact fault hv h
    · simp at h

/-- A signalled cause that enters a handler: interrupts were accepted, and the entry keeps all that R280
does not write. -/
theorem signal_entered {s t : State} {c : Cause} {addr info : Option Word} {p : Word}
    (h : signal s c addr info p = .entered t) : s.flags.ip = false ∧ EntersFrom s t := by
  unfold signal at h
  split at h
  · split at h <;> simp at h
  · rename_i hip
    refine ⟨by simpa using hip, ?_⟩
    split at h
    · simp only at h
      have hx := intrFault_entered h
      have ho := orFree_pushes addr s
      refine ⟨⟨?_, hx.gpr.trans ho.gpr, ⟨hx.user.1.trans ho.user.1, hx.user.2.trans ho.user.2⟩,
        hx.sysFP.trans ho.sysFP, ?_, hx.timer.trans ho.timer, hx.world.trans ho.world,
        hx.launch.trans ho.launch⟩, hx.memWf ∘ ho.memWf⟩
      · rw [hx.flags, ho.flags]
      · obtain ⟨a, b, c, d, e⟩ := ho.controls
        obtain ⟨a', b', c', d', e'⟩ := hx.controls
        exact ⟨a'.trans a, b'.trans b, c'.trans c, d'.trans d, e'.trans e⟩
    · simp at h
    · split at h
      · split at h <;> simp at h
      · exact enter_entered h

/-- With IP on, nothing is entered (R271, R272). -/
theorem signal_masked {s : State} {c : Cause} {addr info : Option Word} {p : Word}
    (h : s.flags.ip = true) :
    signal s c addr info p =
      if c.fatal then .stopped (fatalStop s c addr info) else .ignored := by
  simp [signal, h]

end Sys2Proof.Machine
end

