-- ==== Sys2Proof/Laws/Peri.lean ====
section
/-! SUPPORT. What a peripheral operation can do, said once for each: no register, flag or launch parameter
changes; memory, discs and packet queues stay well formed; output and sent packets only grow; the clock and
the sizes of discs stay. -/

namespace Sys2Proof.Machine

/-- What no peripheral operation breaks. -/
structure PeriStep (s u : State) : Prop where
  gpr : u.gpr = s.gpr
  pc : u.pc = s.pc
  flags : u.flags = s.flags
  sr : u.sr = s.sr
  cfg : u.cfg = s.cfg
  nesting : u.faultNesting = s.faultNesting
  memWf : s.memWf → u.memWf
  discsWf : s.world.discsWf → u.world.discsWf
  netsWf : s.world.netsWf → u.world.netsWf
  output : s.world.output <+: u.world.output
  sent : s.world.sent <+: u.world.sent
  clock : u.world.clock = s.world.clock
  sizes : ∀ k : Fin 8, (u.world.discs[k]).map Disc.size = (s.world.discs[k]).map Disc.size

theorem PeriStep.refl (s : State) : PeriStep s s :=
  ⟨rfl, rfl, rfl, rfl, rfl, rfl, id, id, id, List.prefix_rfl, List.prefix_rfl, rfl, fun _ => rfl⟩

theorem PeriStep.trans {s t u : State} (h : PeriStep s t) (k : PeriStep t u) : PeriStep s u where
  gpr := k.gpr.trans h.gpr
  pc := k.pc.trans h.pc
  flags := k.flags.trans h.flags
  sr := k.sr.trans h.sr
  cfg := k.cfg.trans h.cfg
  nesting := k.nesting.trans h.nesting
  memWf := k.memWf ∘ h.memWf
  discsWf := k.discsWf ∘ h.discsWf
  netsWf := k.netsWf ∘ h.netsWf
  output := h.output.trans k.output
  sent := h.sent.trans k.sent
  clock := k.clock.trans h.clock
  sizes j := (k.sizes j).trans (h.sizes j)

/-! ### Small steps -/

theorem periStep_setDraws (s : State) (n : Nat) : PeriStep s (s.setDraws n) :=
  ⟨rfl, rfl, rfl, rfl, rfl, rfl, id, id, id, List.prefix_rfl, List.prefix_rfl, rfl, fun _ => rfl⟩

theorem periStep_drawWords (k : Nat) (s : State) : PeriStep s (drawWords k s).2 := by
  induction k generalizing s with
  | zero => exact .refl s
  | succ k ih => exact (periStep_setDraws s _).trans (ih (drawWord s).2)

theorem periStep_poke {s : State} {pa : Word} (v : Word) (h : physValid s pa = true) :
    PeriStep s (s.poke pa v) :=
  ⟨rfl, rfl, rfl, rfl, rfl, rfl, poke_memWf v h, id, id, List.prefix_rfl, List.prefix_rfl, rfl,
    fun _ => rfl⟩

theorem periStep_memWrite {s t : State} {a v : Word} (h : memWrite s a v = .ok t) :
    PeriStep s t := by
  obtain ⟨pa, h1, rfl⟩ := memWrite_eq_ok h
  exact periStep_poke v (target_valid h1)

theorem periStep_itemDraw (i : Item) (s : State) : PeriStep s (i.draw s).2 := by
  unfold Item.draw
  split
  · exact .refl s
  · exact periStep_setDraws s _

theorem periStep_storeItems {is : List Item} {a : Word} {s t : State}
    (h : storeItems is a s = .ok t) : PeriStep s t := by
  induction is generalizing a s with
  | nil => cases h; exact PeriStep.refl _
  | cons i is ih =>
    obtain ⟨u, h1, h2⟩ := bind_eq_ok h
    exact (periStep_itemDraw i s).trans ((periStep_memWrite h1).trans (ih h2))

theorem periStep_scribbleAt {s : State} {pa : Word} (h : physValid s pa = true) :
    PeriStep s (scribbleAt s pa) :=
  (periStep_setDraws s _).trans (periStep_poke _ h)

theorem periStep_scribbleAts {pas : List Word} {s : State}
    (h : ∀ pa ∈ pas, physValid s pa = true) : PeriStep s (pas.foldl scribbleAt s) := by
  induction pas generalizing s with
  | nil => exact .refl s
  | cons pa pas ih =>
    have h1 := periStep_scribbleAt (h pa (by simp))
    refine h1.trans (ih fun pb hb => ?_)
    rw [physValid_congr pb h1.cfg]
    exact h pb (by simp [hb])

/-- The places that stores lead to exist, and the stores keep what a PERI keeps. -/
theorem scribblePlaces_step (as : List Word) (s : State) :
    PeriStep s (scribblePlaces as s).2 ∧
      ∀ pa ∈ (scribblePlaces as s).1, physValid s pa = true := by
  induction as generalizing s with
  | nil => exact ⟨.refl s, by simp [scribblePlaces]⟩
  | cons a as ih =>
    unfold scribblePlaces
    split
    · rename_i pa hpa
      have hv := target_valid hpa
      have h := periStep_scribbleAt hv
      obtain ⟨h1, h2⟩ := ih (scribbleAt s pa)
      refine ⟨h.trans h1, fun q hq => ?_⟩
      rcases List.mem_cons.1 hq with rfl | hq
      · exact hv
      · rw [← physValid_congr q h.cfg]
        exact h2 q hq
    · exact ih s
    · exact ih s

/-- The places that items are stored to exist, and the stores keep what a PERI keeps. -/
theorem storedPlaces_step (is : List Item) (a : Word) (s : State) :
    PeriStep s (storedPlaces is a s).2 ∧
      ∀ pa ∈ (storedPlaces is a s).1, physValid s pa = true := by
  induction is generalizing a s with
  | nil => exact ⟨.refl s, by simp [storedPlaces]⟩
  | cons i is ih =>
    have hd := periStep_itemDraw i s
    unfold storedPlaces
    dsimp only
    split
    · rename_i pa hpa
      have hv := target_valid hpa
      have h := hd.trans (periStep_poke (i.draw s).1 hv)
      obtain ⟨h1, h2⟩ := ih (a + 1) ((i.draw s).2.poke pa (i.draw s).1)
      refine ⟨h.trans h1, fun q hq => ?_⟩
      rcases List.mem_cons.1 hq with rfl | hq
      · rw [← physValid_congr q hd.cfg]
        exact hv
      · rw [← physValid_congr q h.cfg]
        exact h2 q hq
    · exact ⟨hd, by simp⟩
    · exact ⟨hd, by simp⟩

/-- Free values land only where a store has or could have. -/
theorem periStep_scribbleOver {done : List Word} {s : State} (as : List Word)
    (h : ∀ pa ∈ done, physValid s pa = true) : PeriStep s (scribbleOver done as s) := by
  obtain ⟨h1, h2⟩ := scribblePlaces_step as s
  exact h1.trans (periStep_scribbleAts fun pa hpa =>
    (physValid_congr pa h1.cfg).trans ((List.mem_append.1 hpa).elim (h pa) (h2 pa)))

theorem periStep_scribbleAll (s : State) (as : List Word) : PeriStep s (scribbleAll s as) :=
  periStep_scribbleOver as (by simp)

theorem periStep_failedStores (s : State) (is : List Item) (a : Word) (n : Nat) :
    PeriStep s (failedStores s is a n) :=
  (periStep_setDraws s _).trans (periStep_scribbleOver _ (storedPlaces_step is a s).2)

theorem periStep_scribble (s : State) (a : Word) (n : Nat) : PeriStep s (scribble s a n) :=
  periStep_scribbleAll s _

/-- A change of the world outside the CPU that keeps discs, networks, records and the clock. -/
theorem periStep_setWorld {s : State} {w : World} (hd : w.discs = s.world.discs)
    (hn : w.nets = s.world.nets) (ho : s.world.output <+: w.output)
    (hs : s.world.sent <+: w.sent) (hc : w.clock = s.world.clock) :
    PeriStep s (s.setWorld w) := by
  refine ⟨rfl, rfl, rfl, rfl, rfl, rfl, id, fun h u d => ?_, fun h u d => ?_, ho, hs, hc, fun u => ?_⟩
  · rw [setWorld_world, hd]
    exact h u d
  · rw [setWorld_world, hn]
    exact h u d
  · rw [setWorld_world, hd]

theorem periStep_dropKeys (s : State) (n : Nat) : PeriStep s (dropKeys s n) :=
  periStep_setWorld rfl rfl List.prefix_rfl List.prefix_rfl rfl

theorem periStep_printChars (s : State) (cs : List Byte) : PeriStep s (printChars s cs) :=
  periStep_setWorld rfl rfl (List.prefix_append _ _) List.prefix_rfl rfl

theorem periStep_setTape (s : State) (u : Fin 8) (t : Option Tape) : PeriStep s (setTape s u t) :=
  periStep_setWorld rfl rfl List.prefix_rfl List.prefix_rfl rfl

theorem periStep_setFileBytes (s : State) (name bytes : List Byte) :
    PeriStep s (setFileBytes s name bytes) :=
  periStep_setWorld rfl rfl List.prefix_rfl List.prefix_rfl rfl

theorem periStep_sendPacket (s : State) (u : Fin 2) (p : Packet) :
    PeriStep s (sendPacket s u p) :=
  periStep_setWorld rfl rfl List.prefix_rfl (List.prefix_append _ _) rfl

theorem periStep_hostFails (s : State) : PeriStep s (hostFails s).2 := by
  unfold hostFails
  split
  · exact .refl s
  · exact periStep_setWorld rfl rfl List.prefix_rfl List.prefix_rfl rfl

theorem periStep_hostNetStart (s : State) : PeriStep s (hostNetStart s).2 := by
  unfold hostNetStart
  split
  · exact periStep_setDraws s _
  · exact periStep_setWorld rfl rfl List.prefix_rfl List.prefix_rfl rfl

/-- A network unit replaced by one whose queue is short enough, or turned off. -/
theorem periStep_setNet (s : State) (u : Fin 2) (n : Option NetUnit)
    (h : s.world.netsWf → ∀ m, n = some m → ∀ p ∈ m.queue, p.bytes.length ≤ 1024) :
    PeriStep s (setNet s u n) := by
  refine ⟨rfl, rfl, rfl, rfl, rfl, rfl, id, id, fun hw v m hm => ?_, List.prefix_rfl, List.prefix_rfl,
    rfl, fun _ => rfl⟩
  simp only [setNet, setWorld_world, Fin.getElem_fin] at hm
  by_cases e : u = v
  · subst e
    rw [Vector.getElem_set_self] at hm
    exact h hw m hm
  · rw [Vector.getElem_set_ne _ _ (fun e' => e (Fin.ext e'))] at hm
    exact hw v m hm

/-- A disc's words replaced by well-formed ones. -/
theorem periStep_setDiscWords {s : State} {u : Fin 8} {d : Disc} {words : Memory}
    (hd : s.world.discs[u] = some d) (h : d.wf → ({ d with words := words } : Disc).wf) :
    PeriStep s (setDiscWords s u d words) := by
  refine ⟨rfl, rfl, rfl, rfl, rfl, rfl, id, fun hw v m hm => ?_, id, List.prefix_rfl, List.prefix_rfl,
    rfl, fun v => ?_⟩
  · simp only [setDiscWords, setWorld_world, Fin.getElem_fin] at hm
    by_cases e : u = v
    · subst e
      rw [Vector.getElem_set_self] at hm
      cases hm
      exact h (hw u d hd)
    · rw [Vector.getElem_set_ne _ _ (fun e' => e (Fin.ext e'))] at hm
      exact hw v m hm
  · simp only [setDiscWords, setWorld_world, Fin.getElem_fin]
    by_cases e : u = v
    · subst e
      rw [Vector.getElem_set_self]
      simp only [Fin.getElem_fin] at hd
      rw [hd]
      rfl
    · rw [Vector.getElem_set_ne _ _ (fun e' => e (Fin.ext e'))]

/-- Words written within a disc keep it well formed. -/
theorem writeDiscWords_wf {ws : List Word} {k n : Nat} {m : Memory} (hk : k + ws.length ≤ n)
    (h : Memory.wf m ∧ ∀ c ∈ m, c.1 < n) :
    Memory.wf (writeDiscWords ws k m) ∧ ∀ c ∈ writeDiscWords ws k m, c.1 < n := by
  induction ws generalizing k m with
  | nil => exact h
  | cons w ws ih =>
    simp only [List.length_cons] at hk
    refine ih (by omega) ⟨write_wf _ _ h.1, fun c hc => ?_⟩
    rcases mem_write hc with rfl | hc
    · show k < n
      omega
    · exact h.2 c hc

/-! ### Results -/

/-- Whatever the operation gives is a step as above. -/
def Keeps (s : State) (x : PeriRes) : Prop := ∀ r u, x = .ok (r, u) → PeriStep s u

theorem keeps_answer {s t : State} (c : Word) (h : PeriStep s t) : Keeps s (answer c t) := by
  intro r u e
  cases e
  exact h

theorem keeps_unstated {s t : State} (h : PeriStep s t) : Keeps s (answerUnstated t) := by
  intro r u e
  cases e
  exact h.trans (periStep_setDraws t _)

theorem keeps_count {s t : State} (n : Nat) (h : PeriStep s t) : Keeps s (answerCount n t) := by
  unfold answerCount
  split
  · exact keeps_answer _ h
  · exact keeps_unstated h

theorem keeps_stop (s : State) (x : Stop) : Keeps s (.stop x) := by
  intro r u e
  cases e

theorem keeps_access {α : Type} {s : State} {x : Res α} {failed : PeriRes} {k : α → PeriRes}
    (hf : Keeps s failed) (hk : ∀ a, x = .ok a → Keeps s (k a)) : Keeps s (access x failed k) := by
  unfold access
  split
  · exact hk _ rfl
  · exact hf
  · exact keeps_stop s _

theorem keeps_withParam1 {s : State} {cs : Word} {k : Word → PeriRes} (h : ∀ a, Keeps s (k a)) :
    Keeps s (withParam1 s cs k) :=
  keeps_access (keeps_answer _ (.refl s)) fun a _ => h a

theorem keeps_withParams2 {s : State} {cs : Word} {k : Word → Word → PeriRes}
    (h : ∀ a b, Keeps s (k a b)) : Keeps s (withParams2 s cs k) :=
  keeps_withParam1 fun a => keeps_access (keeps_answer _ (.refl s)) fun b _ => h a b

theorem keeps_withParams3 {s : State} {cs : Word} {k : Word → Word → Word → PeriRes}
    (h : ∀ a b c, Keeps s (k a b c)) : Keeps s (withParams3 s cs k) :=
  keeps_withParams2 fun a b => keeps_access (keeps_answer _ (.refl s)) fun c _ => h a b c

theorem keeps_withParams4 {s : State} {cs : Word} {k : Word → Word → Word → Word → PeriRes}
    (h : ∀ a b c d, Keeps s (k a b c d)) : Keeps s (withParams4 s cs k) :=
  keeps_withParams3 fun a b c => keeps_access (keeps_answer _ (.refl s)) fun d _ => h a b c d

/-! ### Discs -/

theorem keeps_discCheck (s : State) (cs : Word) : Keeps s (discCheck s cs) := by
  refine keeps_withParam1 fun n => ?_
  split
  · exact keeps_answer _ (.refl s)
  · split
    · exact keeps_answer _ (.refl s)
    · exact keeps_count _ (.refl s)

theorem keeps_discRead (s : State) (cs : Word) : Keeps s (discRead s cs) := by
  refine keeps_withParams4 fun n first count addr => ?_
  split
  · exact keeps_answer _ (.refl s)
  · split
    · exact keeps_stop s _
    · split
      · exact keeps_answer _ (periStep_scribble s _ _)
      · exact keeps_access (keeps_answer _ (periStep_failedStores s _ _ _)) fun t ht =>
          keeps_answer _ (periStep_storeItems ht)

theorem driveOf_eq {s : State} {n : Word} {u : Fin 8} {d : Disc} (h : driveOf s n = some (u, d)) :
    s.world.discs[u] = some d := by
  unfold driveOf at h
  obtain ⟨v, -, h2⟩ := Option.bind_eq_some_iff.1 h
  obtain ⟨e, he, h3⟩ := Option.map_eq_some_iff.1 h2
  cases h3
  exact he

theorem drawWords_length (k : Nat) (s : State) : (drawWords k s).1.length = k := by
  induction k generalizing s with
  | zero => rfl
  | succ k ih =>
    show ((drawWord s).1 :: (drawWords k (drawWord s).2).1).length = _
    rw [List.length_cons, ih]

theorem drawWords_world (k : Nat) (s : State) : (drawWords k s).2.world = s.world := by
  induction k generalizing s with
  | zero => rfl
  | succ k ih => exact ih (drawWord s).2

theorem periStep_scribbleDisc {s : State} {u : Fin 8} {d : Disc} {first : Word} {n : Nat}
    (hd : s.world.discs[u] = some d) (h : n = 0 ∨ 128 * first.toNat + n ≤ 128 * d.size) :
    PeriStep s (scribbleDisc s u d first n) := by
  refine (periStep_drawWords n s).trans (periStep_setDiscWords ?_ fun hw => ?_)
  · rw [drawWords_world]
    exact hd
  · rcases h with rfl | h
    · exact hw
    · exact writeDiscWords_wf (by rw [drawWords_length]; exact h) hw

theorem readWords_length {n : Nat} {s : State} {a : Word} {ws : List Word}
    (h : readWords s a n = .ok ws) : ws.length = n := by
  induction n generalizing a ws with
  | zero => cases h; rfl
  | succ n ih =>
    obtain ⟨w, -, h1⟩ := bind_eq_ok h
    obtain ⟨vs, h2, h3⟩ := bind_eq_ok h1
    cases h3
    simp [ih h2]

/-- A run of blocks that is not bad lies within the disc (R200). -/
theorem goodRun {d : Disc} {first count : Word} (hc : ¬ count.toInt ≤ 0)
    (h : ¬ badRun d first count = true) :
    128 * first.toNat + 128 * count.toNat ≤ 128 * d.size := by
  simp only [badRun, Bool.or_eq_true, decide_eq_true_eq, not_or, not_lt] at h
  obtain ⟨h1, h2⟩ := h
  have e1 := BitVec.toInt_eq_toNat_cond first
  have e2 := BitVec.toInt_eq_toNat_cond count
  have := first.isLt
  have := count.isLt
  split at e1 <;> split at e2 <;> omega

theorem keeps_discWrite (s : State) (cs : Word) : Keeps s (discWrite s cs) := by
  refine keeps_withParams4 fun n first count addr => ?_
  split
  · exact keeps_answer _ (.refl s)
  · rename_i u d hd
    have hd' := driveOf_eq hd
    split
    · exact keeps_stop s _
    · rename_i hc
      split
      · refine keeps_answer _ (periStep_scribbleDisc hd' ?_)
        unfold wordsBeforeBad
        split
        · exact .inl rfl
        · by_cases hlt : first.toNat ≤ d.size
          · right; omega
          · left; omega
      · rename_i hb
        have hr := goodRun hc hb
        refine keeps_access (keeps_answer _ (periStep_scribbleDisc hd' (.inr hr))) fun ws hws => ?_
        have hf := periStep_hostFails s
        have hfd : (hostFails s).2.world.discs[u] = some d := by
          rw [← hd']
          unfold hostFails
          split <;> rfl
        generalize hostFails s = x at hf hfd ⊢
        obtain ⟨fails, t⟩ := x
        dsimp only at hf hfd ⊢
        split
        · exact keeps_answer _ (hf.trans (periStep_scribbleDisc hfd (.inr hr)))
        · refine keeps_answer _ (hf.trans (periStep_setDiscWords hfd fun hw => ?_))
          exact writeDiscWords_wf (by rw [readWords_length hws]; exact hr) hw

/-! ### Tapes -/

theorem keeps_tapeCheck (s : State) (cs : Word) : Keeps s (tapeCheck s cs) := by
  refine keeps_withParam1 fun n => ?_
  split
  · exact keeps_answer _ (.refl s)
  · split <;> exact keeps_answer _ (.refl s)

theorem keeps_tapeRewind (s : State) (cs : Word) : Keeps s (tapeRewind s cs) := by
  refine keeps_withParam1 fun n => ?_
  split
  · exact keeps_answer _ (.refl s)
  · split
    · exact keeps_answer _ (.refl s)
    · exact keeps_answer _ (periStep_setTape s _ _)

theorem keeps_tapeLoad (s : State) (cs : Word) : Keeps s (tapeLoad s cs) := by
  refine keeps_withParams3 fun n a mode => ?_
  split
  · exact keeps_answer _ (.refl s)
  · refine keeps_access (keeps_answer _ (.refl s)) fun name _ => ?_
    split
    · exact keeps_stop s _
    · unfold loadTape
      split
      · exact keeps_answer _ (.refl s)
      · split
        · exact keeps_answer _ (.refl s)
        · split
          · exact keeps_answer _ (.refl s)
          · split
            · exact keeps_answer _ (periStep_setTape s _ _)
            · exact keeps_answer _ (.refl s)
          · split
            · exact keeps_answer _ (.refl s)
            · split
              · exact keeps_stop s _
              · exact keeps_answer _ ((periStep_setFileBytes s _ _).trans (periStep_setTape _ _ _))

theorem keeps_tapeLength (s : State) (cs : Word) : Keeps s (tapeLength s cs) := by
  refine keeps_withParam1 fun n => ?_
  split
  · exact keeps_answer _ (.refl s)
  · split
    · exact keeps_answer _ (.refl s)
    · split
      · exact keeps_answer _ (.refl s)
      · exact keeps_count _ (.refl s)

theorem keeps_tapeUnload (s : State) (cs : Word) : Keeps s (tapeUnload s cs) := by
  refine keeps_withParam1 fun n => ?_
  split
  · exact keeps_answer _ (.refl s)
  · split
    · exact keeps_answer _ (.refl s)
    · exact keeps_answer _ (periStep_setTape s _ _)

theorem keeps_tapeRead (s : State) (cs : Word) : Keeps s (tapeRead s cs) := by
  refine keeps_withParams2 fun n addr => ?_
  split
  · exact keeps_answer _ (.refl s)
  · split
    · exact keeps_answer _ (.refl s)
    · split
      · exact keeps_stop s _
      · split
        · exact keeps_answer _ (.refl s)
        · refine keeps_access ?_ fun t ht => ?_
          · exact keeps_answer _ ((periStep_failedStores s _ _ _).trans ((periStep_setDraws _ _).trans
              (periStep_setTape _ _ _)))
          · refine keeps_answer _ ((periStep_storeItems ht).trans (PeriStep.trans ?_
              (periStep_setTape _ _ _)))
            split
            · exact .refl t
            · exact periStep_scribble t _ _

theorem periStep_writeFile (s : State) (t : Tape) (bytes new : List Byte) :
    PeriStep s (writeFile s t bytes new) := by
  unfold writeFile
  split
  · exact .refl s
  · exact (periStep_drawWords _ s).trans (periStep_setFileBytes _ _ _)

theorem periStep_scribbleFile (s : State) (t : Tape) (n : Nat) :
    PeriStep s (scribbleFile s t n) := by
  unfold scribbleFile
  split
  · exact .refl s
  · exact (periStep_setDraws s _).trans ((periStep_drawWords _ _).trans (periStep_writeFile _ _ _ _))

theorem periStep_scribbleTape (s : State) (u : Fin 8) (t : Tape) (n : Nat) :
    PeriStep s (scribbleTape s u t n) :=
  (periStep_setDraws s _).trans ((periStep_scribbleFile _ t n).trans (periStep_setTape _ _ _))

theorem keeps_tapeWrite (s : State) (cs : Word) : Keeps s (tapeWrite s cs) := by
  refine keeps_withParams3 fun n addr count => ?_
  split
  · exact keeps_answer _ (.refl s)
  · split
    · exact keeps_answer _ (.refl s)
    · split
      · exact keeps_stop s _
      · split
        · exact keeps_stop s _
        · refine keeps_access (keeps_answer _ (periStep_scribbleTape _ _ _ _)) fun ws _ => ?_
          split
          · exact keeps_answer _ (.refl s)
          · have hf := periStep_hostFails s
            generalize hostFails s = x at hf ⊢
            obtain ⟨fails, v⟩ := x
            dsimp only at hf ⊢
            split
            · exact keeps_answer _ (hf.trans (periStep_scribbleTape _ _ _ _))
            · exact keeps_answer _ (hf.trans ((periStep_writeFile _ _ _ _).trans
                (periStep_setTape _ _ _)))

/-! ### Terminal -/

theorem keeps_readKeys (s : State) (n : Nat) (items : List Item) (addr : Word) :
    Keeps s (readKeys s n items addr) := by
  refine keeps_access ?_ fun t ht => ?_
  · exact keeps_answer _ ((periStep_failedStores s _ _ _).trans ((periStep_setDraws _ _).trans
      (periStep_dropKeys _ _)))
  · exact keeps_answer _ ((periStep_storeItems ht).trans (periStep_dropKeys t n))

theorem keeps_termInC (s : State) (cs : Word) : Keeps s (termInC s cs) := by
  refine keeps_withParams2 fun count addr => ?_
  split
  · exact keeps_stop s _
  · exact keeps_readKeys s _ _ _

theorem keeps_termInW (s : State) (cs : Word) : Keeps s (termInW s cs) := by
  refine keeps_withParams2 fun count addr => ?_
  split
  · exact keeps_stop s _
  · exact keeps_readKeys s _ _ _

theorem keeps_printFailed (s : State) (chars : List Byte) : Keeps s (printFailed s chars) :=
  keeps_answer _ ((periStep_setDraws s _).trans (periStep_printChars _ _))

theorem keeps_printed (s : State) (chars : List Byte) : Keeps s (printed s chars) :=
  keeps_count _ (periStep_printChars s _)

theorem keeps_wordChars {s : State} (ws : List Word) {k : List Byte → PeriRes}
    (h : ∀ cs, Keeps s (k cs)) : Keeps s (wordChars ws k) := by
  unfold wordChars
  split
  · exact h _
  · exact keeps_stop s _

theorem keeps_termOutC (s : State) (cs : Word) : Keeps s (termOutC s cs) := by
  refine keeps_withParams2 fun count addr => ?_
  split
  · exact keeps_stop s _
  · split
    · exact keeps_access (keeps_printFailed s _) fun _ _ => keeps_printed s _
    · exact keeps_access (keeps_printFailed s _) fun _ _ => keeps_printed s _

theorem keeps_termOutW (s : State) (cs : Word) : Keeps s (termOutW s cs) := by
  refine keeps_withParams2 fun count addr => ?_
  split
  · exact keeps_stop s _
  · split
    · exact keeps_access (keeps_wordChars _ (keeps_printFailed s)) fun _ _ =>
        keeps_wordChars _ (keeps_printed s)
    · exact keeps_access (keeps_wordChars _ (keeps_printFailed s)) fun _ _ =>
        keeps_wordChars _ (keeps_printed s)

/-! ### Network -/

theorem periStep_storeAddr {s t : State} {p : Word} {a : BitVec 48} (h : storeAddr s p a = .ok t) :
    PeriStep s t := periStep_storeItems h

/-- A step whose world is another step's. -/
theorem periStep_withWorld {s t u : State} (ht : PeriStep s t) (hu : PeriStep s u) :
    PeriStep s (t.setWorld u.world) :=
  ⟨ht.gpr, ht.pc, ht.flags, ht.sr, ht.cfg, ht.nesting, ht.memWf, hu.discsWf, hu.netsWf, hu.output,
    hu.sent, hu.clock, hu.sizes⟩

theorem keeps_netFailed {s before after : State} (p : Word) (a : BitVec 48) (hb : PeriStep s before)
    (ha : PeriStep s after) : Keeps s (netFailed before after p a) := by
  have h := ha.trans (periStep_failedStores after (addrItems after a) p 2)
  refine keeps_answer _ ?_
  split
  · exact h.trans (periStep_setDraws _ _)
  · exact periStep_withWorld (h.trans (periStep_setDraws _ _)) hb

theorem keeps_recvFailed {s before after : State} (p addr : Word) (pair items : List Item)
    (hb : PeriStep s before) (ha : PeriStep s after) :
    Keeps s (recvFailed before after p addr pair items) := by
  obtain ⟨h1, h2⟩ := storedPlaces_step pair p after
  have h3 := (storedPlaces_step items addr (storedPlaces pair p after).2).2
  have h := ha.trans ((periStep_setDraws after
    (storedPlaces items addr (storedPlaces pair p after).2).2.draws).trans (periStep_scribbleOver
      (addressRange p 2 ++ addressRange addr items.length) fun pa hpa =>
        (List.mem_append.1 hpa).elim (h2 pa) fun hq =>
          (physValid_congr pa h1.cfg).symm.trans (h3 pa hq)))
  refine keeps_answer _ ?_
  split
  · exact h.trans (periStep_setDraws _ _)
  · exact periStep_withWorld (h.trans (periStep_setDraws _ _)) hb

theorem keeps_startNet (s : State) (u : Fin 2) (p port : Word) : Keeps s (startNet s u p port) := by
  unfold startNet
  split
  · exact keeps_answer _ (.refl s)
  · have hh := periStep_hostNetStart s
    generalize hostNetStart s = x at hh ⊢
    obtain ⟨start, t⟩ := x
    dsimp only at hh ⊢
    split
    · exact keeps_answer _ hh
    · have hon := hh.trans (periStep_setNet t u (some ⟨start.address port, []⟩) (by
        rintro - m ⟨⟩ q hq
        cases hq))
      exact keeps_access (keeps_netFailed p _ hh hon) fun v hv =>
        keeps_unstated (hon.trans (periStep_storeAddr hv))

theorem keeps_stopNet (s : State) (u : Fin 2) (p : Word) : Keeps s (stopNet s u p) := by
  unfold stopNet
  split
  · exact keeps_answer _ (.refl s)
  · have hoff := periStep_setNet s u none (by rintro - m ⟨⟩)
    exact keeps_access (keeps_netFailed p _ (.refl s) hoff) fun t ht =>
      keeps_unstated (hoff.trans (periStep_storeAddr ht))

theorem keeps_netSS (s : State) (cs : Word) : Keeps s (netSS s cs) := by
  refine keeps_withParams3 fun n command p => ?_
  refine keeps_access (keeps_answer _ (.refl s)) fun _ _ => ?_
  split
  · exact keeps_answer _ (.refl s)
  · split
    · exact keeps_stopNet s _ _
    · split
      · exact keeps_access (keeps_answer _ (.refl s)) fun _ _ => keeps_startNet s _ _ _
      · exact keeps_stop s _

theorem keeps_netSend (s : State) (cs : Word) : Keeps s (netSend s cs) := by
  refine keeps_withParams4 fun n p count addr => ?_
  refine keeps_access (keeps_answer _ (.refl s)) fun pair _ => ?_
  refine keeps_access (keeps_answer _ (.refl s)) fun ws _ => ?_
  split
  · exact keeps_answer _ (.refl s)
  · split
    · exact keeps_answer _ (.refl s)
    · split
      · exact keeps_answer _ (.refl s)
      · have hf := periStep_hostFails s
        generalize hostFails s = x at hf ⊢
        obtain ⟨fails, t⟩ := x
        have hb := hf.trans (periStep_setDraws t (t.draws + 1))
        dsimp only [drawBit] at hf hb ⊢
        split
        · refine keeps_answer _ ?_
          split
          · exact hb.trans (periStep_sendPacket _ _ _)
          · exact hb
        · exact keeps_unstated (hf.trans (periStep_sendPacket _ _ _))

theorem keeps_netRecv (s : State) (cs : Word) : Keeps s (netRecv s cs) := by
  refine keeps_withParams3 fun n p addr => ?_
  refine keeps_access (keeps_answer _ (.refl s)) fun _ _ => ?_
  refine keeps_access (keeps_answer _ (.refl s)) fun _ _ => ?_
  split
  · exact keeps_answer _ (.refl s)
  · rename_i u hu
    split
    · exact keeps_answer _ (.refl s)
    · rename_i net hnet
      have hf := periStep_hostFails s
      have hn : (hostFails s).2.world.nets[u] = some net := by
        rw [← hnet]
        unfold hostFails
        split <;> rfl
      generalize hostFails s = x at hf hn ⊢
      obtain ⟨fails, t⟩ := x
      have hb := hf.trans (periStep_setDraws t (t.draws + 1))
      dsimp only [drawBit] at hf hb hn ⊢
      split
      · split
        · exact keeps_answer _ hf
        · exact keeps_answer _ hf
      · rename_i packet rest hq
        have ht := hf.trans (periStep_setNet t u (some { net with queue := rest }) (by
          rintro hw m ⟨⟩ q hq'
          exact hw u net hn q (by rw [hq]; simp [hq'])))
        have hleft : PeriStep s (if Config.freeBit t.draws = true then
            (setNet t u (some { net with queue := rest })).setDraws (t.draws + 1)
            else t.setDraws (t.draws + 1)) := by
          split
          · exact ht.trans (periStep_setDraws _ _)
          · exact hb
        split
        · exact keeps_answer _ (hleft.trans (periStep_scribbleAll _ _))
        · refine keeps_access (keeps_recvFailed _ _ _ _ hf ht) fun v hs => ?_
          obtain ⟨w, h1, h2⟩ := bind_eq_ok hs
          exact keeps_unstated (ht.trans ((periStep_storeAddr h1).trans (periStep_storeItems h2)))

/-! ### Time -/

theorem keeps_storeOutputs (s : State) (cs : Word) (k : Nat) (ws : List Word) :
    Keeps s (storeOutputs s cs k ws) :=
  keeps_access (keeps_answer _ (periStep_failedStores s _ _ _)) fun _ ht =>
    keeps_unstated (periStep_storeItems ht)

theorem keeps_dateTimeOp (s : State) (cs : Word) : Keeps s (dateTimeOp s cs) := by
  refine keeps_withParam1 fun t => ?_
  split
  · exact keeps_stop s _
  · exact keeps_storeOutputs s _ _ _

/-! ### The instruction -/

theorem keeps_runPeriOp (o : PeriOp) (cs : Word) (s : State) : Keeps s (runPeriOp o cs s) := by
  cases o
  · exact keeps_discCheck s cs
  · exact keeps_discRead s cs
  · exact keeps_discWrite s cs
  · exact keeps_tapeCheck s cs
  · exact keeps_tapeRewind s cs
  · exact keeps_tapeLoad s cs
  · exact keeps_tapeLength s cs
  · exact keeps_tapeUnload s cs
  · exact keeps_tapeRead s cs
  · exact keeps_tapeWrite s cs
  · exact keeps_termInC s cs
  · exact keeps_termOutC s cs
  · exact keeps_termInW s cs
  · exact keeps_termOutW s cs
  · exact keeps_netSS s cs
  · exact keeps_netSend s cs
  · exact keeps_netRecv s cs
  · exact keeps_count _ (.refl s)
  · exact keeps_storeOutputs s _ _ _
  · exact keeps_dateTimeOp s cs

/-- Whatever operation a PERI runs, no register, flag or launch parameter changes in it (R192, U10). -/
theorem keeps_periOperation (cs : Word) (s : State) : Keeps s (periOperation cs s) := by
  refine keeps_access (keeps_answer _ (.refl s)) fun code _ => ?_
  split
  · exact keeps_answer _ (.refl s)
  · exact keeps_runPeriOp _ cs s

end Sys2Proof.Machine
end

