-- ==== Sys2Proof/Laws/Effect.lean ====
section
/-! SUPPORT. What the body of an instruction that completes can do, said once for each instruction: `Quiet`
for the parts no mode restricts, `Effect` for any instruction, `UserEffect` for one in user mode. -/

namespace Sys2Proof.Machine

/-- A change of registers, of Z, N and ERR, and of memory within what exists; in user mode the system bank
stays. -/
structure Quiet (s u : State) : Prop where
  cfg : u.cfg = s.cfg
  world : u.world = s.world
  memWf : s.memWf → u.memWf
  controls : SameControls s u
  r : u.flags.r = s.flags.r
  sys : u.flags.sys = s.flags.sys
  ip : u.flags.ip = s.flags.ip
  vm : u.flags.vm = s.flags.vm
  bank : s.flags.sys = false → u.sr.sysSP = s.sr.sysSP ∧ u.sr.sysFP = s.sr.sysFP

theorem SameControls.trans {s t u : State} (h : SameControls s t) (k : SameControls t u) :
    SameControls s u :=
  ⟨k.1.trans h.1, k.2.1.trans h.2.1, k.2.2.1.trans h.2.2.1, k.2.2.2.1.trans h.2.2.2.1,
    k.2.2.2.2.trans h.2.2.2.2⟩

theorem Quiet.refl (s : State) : Quiet s s :=
  ⟨rfl, rfl, id, ⟨rfl, rfl, rfl, rfl, rfl⟩, rfl, rfl, rfl, rfl, fun _ => ⟨rfl, rfl⟩⟩

theorem Quiet.trans {s t u : State} (h : Quiet s t) (k : Quiet t u) : Quiet s u where
  cfg := k.cfg.trans h.cfg
  world := k.world.trans h.world
  memWf := k.memWf ∘ h.memWf
  controls := h.controls.trans k.controls
  r := k.r.trans h.r
  sys := k.sys.trans h.sys
  ip := k.ip.trans h.ip
  vm := k.vm.trans h.vm
  bank hu := ⟨((k.bank (h.sys.trans hu)).1).trans (h.bank hu).1,
    ((k.bank (h.sys.trans hu)).2).trans (h.bank hu).2⟩

theorem quiet_setPc (s : State) (v : Word) : Quiet s (s.setPc v) :=
  ⟨rfl, rfl, id, ⟨rfl, rfl, rfl, rfl, rfl⟩, rfl, rfl, rfl, rfl, fun _ => ⟨rfl, rfl⟩⟩

theorem quiet_advance (s : State) : Quiet s s.advance := quiet_setPc s _

theorem quiet_setDraws (s : State) (n : Nat) : Quiet s (s.setDraws n) :=
  ⟨rfl, rfl, id, ⟨rfl, rfl, rfl, rfl, rfl⟩, rfl, rfl, rfl, rfl, fun _ => ⟨rfl, rfl⟩⟩

theorem quiet_setReg (s : State) (r : Reg) (v : Word) : Quiet s (s.setReg r v) :=
  ⟨by simp, by simp, memWf_congr (by simp) (by simp), by simp [SameControls], by simp, by simp,
    by simp, by simp, setReg_system_bank s r v⟩

theorem quiet_setSP (s : State) (v : Word) : Quiet s (s.setSP v) := quiet_setReg s .sp v

/-- Flags written that leave R, SYS, IP and VM. -/
theorem quiet_setFlags (s : State) {f : Flags} (hr : f.r = s.flags.r) (hs : f.sys = s.flags.sys)
    (hi : f.ip = s.flags.ip) (hv : f.vm = s.flags.vm) : Quiet s (s.setFlags f) :=
  ⟨rfl, rfl, id, ⟨rfl, rfl, rfl, rfl, rfl⟩, hr, hs, hi, hv, fun _ => ⟨rfl, rfl⟩⟩

theorem quiet_poke {s : State} {pa : Word} (v : Word) (h : physValid s pa = true) :
    Quiet s (s.poke pa v) :=
  ⟨rfl, rfl, poke_memWf v h, ⟨rfl, rfl, rfl, rfl, rfl⟩, rfl, rfl, rfl, rfl, fun _ => ⟨rfl, rfl⟩⟩

theorem quiet_memWrite {s t : State} {a v : Word} (h : memWrite s a v = .ok t) : Quiet s t := by
  obtain ⟨pa, h1, rfl⟩ := memWrite_eq_ok h
  exact quiet_poke v (target_valid h1)

theorem quiet_storeOperand {s t : State} {op : Operand} {v : Word}
    (h : storeOperand s op v = .ok t) : Quiet s t := by
  cases op with
  | const n => cases h
  | reg r => cases h; exact quiet_setReg s r v
  | base r => exact quiet_memWrite h
  | baseDisp r n => exact quiet_memWrite h
  | abs n => exact quiet_memWrite h

theorem quiet_push {s t : State} {v : Word} (h : push s v = .ok t) : Quiet s t :=
  (quiet_setSP s _).trans (quiet_memWrite h)

/-- What any instruction that completes keeps: the launch parameters, well-formedness, the records. -/
structure Effect (s u : State) : Prop where
  cfg : u.cfg = s.cfg
  memWf : s.memWf → u.memWf
  discsWf : s.world.discsWf → u.world.discsWf
  netsWf : s.world.netsWf → u.world.netsWf
  output : s.world.output <+: u.world.output
  sent : s.world.sent <+: u.world.sent
  clock : s.world.clock ≤ u.world.clock
  sizes : ∀ k : Fin 8, (u.world.discs[k]).map Disc.size = (s.world.discs[k]).map Disc.size

/-- An effect that leaves the world outside the CPU. -/
theorem effect_of_world {s u : State} (hc : u.cfg = s.cfg) (hm : s.memWf → u.memWf)
    (hw : u.world = s.world) : Effect s u := by
  refine ⟨hc, hm, ?_, ?_, ?_, ?_, ?_, fun k => ?_⟩ <;> rw [hw]
  · exact id
  · exact id

theorem Effect.trans {s t u : State} (h : Effect s t) (k : Effect t u) : Effect s u where
  cfg := k.cfg.trans h.cfg
  memWf := k.memWf ∘ h.memWf
  discsWf := k.discsWf ∘ h.discsWf
  netsWf := k.netsWf ∘ h.netsWf
  output := h.output.trans k.output
  sent := h.sent.trans k.sent
  clock := h.clock.trans k.clock
  sizes j := (k.sizes j).trans (h.sizes j)

theorem Effect.refl (s : State) : Effect s s := effect_of_world rfl id rfl

theorem Quiet.effect {s u : State} (h : Quiet s u) : Effect s u :=
  effect_of_world h.cfg h.memWf h.world

theorem PeriStep.effect {s u : State} (h : PeriStep s u) : Effect s u :=
  ⟨h.cfg, h.memWf, h.discsWf, h.netsWf, h.output, h.sent, h.clock.ge, h.sizes⟩

/-- An index within the call gate vector whose entry is the pc (R24, R170). -/
def AtGate (u : State) : Prop :=
  ∃ i : Word, 0 ≤ i.toInt ∧ i.toInt < u.sr.cglen.toInt ∧ physRead u (u.sr.cgbr + i) = .ok u.pc

/-- What an instruction that completes in user mode keeps (R289, R291): it is then still in user mode, or
SYSCALL has entered system mode at a gate. -/
structure UserEffect (s u : State) : Prop where
  controls : SameControls s u
  vm : u.flags.vm = s.flags.vm
  r : u.flags.r = s.flags.r
  sysFP : u.sr.sysFP = s.sr.sysFP
  world : u.world = s.world
  mode : (u.flags.sys = false ∧ u.flags.ip = s.flags.ip ∧ u.sr.sysSP = s.sr.sysSP) ∨
    (u.flags.sys = true ∧ u.flags.ip = true ∧ AtGate u)

/-- What the body of an instruction gives is an effect, and in user mode one that user mode may have. -/
def Does (s : State) (x : Res State) : Prop :=
  ∀ u, x = .ok u → Effect s u ∧ (s.flags.sys = false → UserEffect s u)

theorem does_quiet {s u : State} (h : Quiet s u) : Does s (.ok u) := by
  intro v e
  cases e
  exact ⟨h.effect, fun hu => ⟨h.controls, h.vm, h.r, (h.bank hu).2, h.world,
    .inl ⟨h.sys.trans hu, h.ip, (h.bank hu).1⟩⟩⟩

theorem does_raise (s : State) (c : Cause) (addr info : Option Word) :
    Does s (.raise c addr info) := by
  intro u e
  cases e

theorem does_stop (s : State) (x : Stop) : Does s (.stop x) := by
  intro u e
  cases e

theorem does_bind {α : Type} {s : State} {x : Res α} {k : α → Res State}
    (h : ∀ a, x = .ok a → Does s (k a)) : Does s (x.bind k) := by
  intro u e
  obtain ⟨a, h1, h2⟩ := bind_eq_ok e
  exact h a h1 u h2

/-- A privileged instruction has its effect in system mode alone. -/
theorem does_privileged {s : State} {x : Res State} (h : ∀ u, x = .ok u → Effect s u) :
    Does s (privileged s x) := by
  intro u e
  cases hs : s.flags.sys
  · rw [privileged_user x hs] at e
    cases e
  · rw [privileged_system x hs] at e
    exact ⟨h u e, by simp⟩

/-! ### The instructions -/

theorem does_getsr (r : Reg) (op : Operand) (s : State) :
    Does s ((val s op).bind fun n =>
      (specialOf n).bind fun k => .ok (s.setReg r (s.getSpecial k)).advance) :=
  does_bind fun _ _ => does_bind fun _ _ => does_quiet ((quiet_setReg s _ _).trans (quiet_advance _))

theorem setSpecial_effect (s : State) (k : SReg) (v : Word) : Effect s (s.setSpecial k v) :=
  effect_of_world (by cases k <;> rfl) (memWf_congr (by cases k <;> rfl) (by cases k <;> rfl))
    (by cases k <;> rfl)

theorem setFlags_effect (s : State) (f : Flags) : Effect s (s.setFlags f) :=
  effect_of_world rfl id rfl

theorem does_setsr (r : Reg) (op : Operand) (s : State) :
    Does s (privileged s ((val s op).bind fun n =>
      (specialOf n).bind fun k => .ok (s.setSpecial k (s.getReg r)).advance)) := by
  refine does_privileged fun u e => ?_
  obtain ⟨n, -, h⟩ := bind_eq_ok e
  obtain ⟨k, -, h⟩ := bind_eq_ok h
  cases h
  exact (setSpecial_effect s k _).trans (quiet_advance _).effect

theorem does_getfl (r : Reg) (op : Operand) (s : State) :
    Does s ((val s op).bind fun n =>
      (flagNumbered n).bind fun k => .ok (s.setReg r (if s.flags.get k then 1 else 0)).advance) :=
  does_bind fun _ _ => does_bind fun _ _ => does_quiet ((quiet_setReg s _ _).trans (quiet_advance _))

theorem does_setfl (r : Reg) (op : Operand) (s : State) :
    Does s ((val s op).bind fun n =>
      (flagNumbered n).bind fun k =>
        if !s.flags.sys && flagProtected k then .raise .privop (some s.pc) none
        else .ok (s.setFlags (s.flags.set k (s.getReg r != 0))).advance) := by
  refine does_bind fun n _ => does_bind fun k _ => ?_
  split
  · exact does_raise s _ _ _
  · rename_i hp
    intro u e
    cases e
    refine ⟨(setFlags_effect s _).trans (quiet_advance _).effect, fun hu => ?_⟩
    have hk : flagProtected k = false := by simpa [hu] using hp
    refine (does_quiet ((quiet_setFlags s ?_ ?_ ?_ ?_).trans (quiet_advance _)) _ rfl).2 hu <;>
      cases k <;> first | rfl | simp [flagProtected] at hk

theorem does_flagsj (r : Reg) (op : Operand) (s : State) :
    Does s (privileged s ((val s op).bind fun t =>
      .ok ((s.setFlags (Flags.ofWord (s.getReg r))).setPc t))) := by
  refine does_privileged fun u e => ?_
  obtain ⟨n, -, h⟩ := bind_eq_ok e
  cases h
  exact (setFlags_effect s _).trans (quiet_setPc _ _).effect

theorem quiet_compared (s : State) (a b : Word) : Quiet s (compared s a b) := by
  unfold compared
  split
  · exact (quiet_setDraws s _).trans (quiet_setFlags _ rfl rfl rfl rfl)
  · exact quiet_setFlags s rfl rfl rfl rfl

theorem does_comp (r : Reg) (op : Operand) (s : State) :
    Does s ((val s op).bind fun b => .ok (compared s (s.getReg r) b).advance) :=
  does_bind fun _ _ => does_quiet ((quiet_compared s _ _).trans (quiet_advance _))

theorem does_compz (op : Operand) (s : State) :
    Does s ((val s op).bind fun a =>
      .ok (s.setFlags (s.flags.setZN (compareZeroZ a) (compareZeroN a))).advance) :=
  does_bind fun a _ => does_quiet ((quiet_setFlags s
    (f := s.flags.setZN (compareZeroZ a) (compareZeroN a)) rfl rfl rfl rfl).trans (quiet_advance _))

theorem does_jcond (c : Cond) (op : Operand) (s : State) :
    Does s ((condValue s c).bind fun holds =>
      if holds then (val s op).bind fun t => .ok (s.setPc t) else .ok s.advance) := by
  refine does_bind fun holds _ => ?_
  split
  · exact does_bind fun _ _ => does_quiet (quiet_setPc s _)
  · exact does_quiet (quiet_advance s)

theorem does_sbit (r : Reg) (op : Operand) (s : State) :
    Does s ((val s op).bind fun n =>
      (bitMask n).bind fun m => .ok (s.setReg r (s.getReg r ||| m)).advance) :=
  does_bind fun _ _ => does_bind fun _ _ => does_quiet ((quiet_setReg s _ _).trans (quiet_advance _))

theorem does_cbit (r : Reg) (op : Operand) (s : State) :
    Does s ((val s op).bind fun n =>
      (bitMask n).bind fun m => .ok (s.setReg r (s.getReg r &&& ~~~m)).advance) :=
  does_bind fun _ _ => does_bind fun _ _ => does_quiet ((quiet_setReg s _ _).trans (quiet_advance _))

theorem does_extractAt (p : BitPlaces) (r : Reg) (op : Operand) (s : State) :
    Does s (extractAt p r op s) :=
  does_bind fun _ _ => does_bind fun _ _ => does_bind fun _ _ => does_bind fun _ h =>
    does_quiet ((quiet_storeOperand h).trans (quiet_advance _))

theorem does_depositAt (p : BitPlaces) (r : Reg) (op : Operand) (s : State) :
    Does s (depositAt p r op s) :=
  does_bind fun _ _ => does_bind fun _ _ => does_bind fun _ _ => does_bind fun _ _ =>
    does_bind fun _ h => does_quiet ((quiet_storeOperand h).trans (quiet_advance _))

theorem does_extractVectorAt (p : BitPlaces) (r : Reg) (op : Operand) (s : State) :
    Does s (extractVectorAt p r op s) :=
  does_bind fun _ _ => does_bind fun _ _ => does_bind fun _ _ => does_bind fun _ _ =>
    does_bind fun _ h => does_quiet ((quiet_storeOperand h).trans (quiet_advance _))

theorem does_depositVectorAt (p : BitPlaces) (r : Reg) (op : Operand) (s : State) :
    Does s (depositVectorAt p r op s) :=
  does_bind fun _ _ => does_bind fun _ _ => does_bind fun _ _ => does_bind fun _ _ =>
    does_bind fun _ _ => does_bind fun _ h =>
      does_quiet ((quiet_memWrite h).trans (quiet_advance _))

theorem does_load (r : Reg) (op : Operand) (s : State) :
    Does s ((val s op).bind fun v => .ok (s.setReg r v).advance) :=
  does_bind fun _ _ => does_quiet ((quiet_setReg s _ _).trans (quiet_advance _))

theorem does_store (r : Reg) (op : Operand) (s : State) :
    Does s ((storeOperand s op (s.getReg r)).bind fun t => .ok t.advance) :=
  does_bind fun _ h => does_quiet ((quiet_storeOperand h).trans (quiet_advance _))

theorem does_push (op : Operand) (s : State) :
    Does s ((pushValue s op).bind fun vt => (push vt.2 vt.1).bind fun u => .ok u.advance) := by
  refine does_bind fun vt h => does_bind fun u hu =>
    does_quiet (Quiet.trans ?_ ((quiet_push hu).trans (quiet_advance _)))
  unfold pushValue at h
  split at h
  · cases h
    exact quiet_setDraws s _
  · obtain ⟨v, -, h⟩ := bind_eq_ok h
    cases h
    exact .refl s

theorem quiet_freeZN (s : State) : Quiet s (freeZN s) :=
  (quiet_setDraws s _).trans ((quiet_setDraws _ _).trans (quiet_setFlags _ rfl rfl rfl rfl))

theorem does_inc (op : Operand) (s : State) :
    Does s ((val s op).bind fun v =>
      (storeOperand s op (v + 1)).bind fun t => .ok (freeZN t).advance) :=
  does_bind fun _ _ => does_bind fun _ h =>
    does_quiet ((quiet_storeOperand h).trans ((quiet_freeZN _).trans (quiet_advance _)))

theorem does_call (op : Operand) (s : State) :
    Does s ((val s op).bind fun t => (push s (s.pc + 1)).bind fun u => .ok (u.setPc t)) :=
  does_bind fun _ _ => does_bind fun _ h => does_quiet ((quiet_push h).trans (quiet_setPc _ _))

theorem does_ret (s : State) : Does s ((pop s).bind fun vt => .ok (vt.2.setPc vt.1)) := by
  refine does_bind fun vt h => ?_
  obtain ⟨v, -, h⟩ := bind_eq_ok h
  cases h
  exact does_quiet ((quiet_setSP s _).trans (quiet_setPc _ _))

/-- SYSCALL with a good index, when it completes, has entered system mode at a gate (R170). -/
theorem enterCall_ok {s u : State} {i : Word} (hb : badCall s i = false)
    (h : enterCall s i = .ok u) :
    EntersFrom s u ∧ AtGate u := by
  unfold enterCall at h
  simp only at h
  split at h
  · cases h
  · cases h
  · rename_i v hv
    obtain ⟨gate, hg, h⟩ := bind_eq_ok h
    cases h
    have hp := pushAll_done rfl hv
    have he := entersFrom_of (drawSpSlot_pushes s) hp (nestingOnCall s) gate rfl
    refine ⟨he, i, ?_, ?_, ?_⟩
    · simp only [badCall, Bool.or_eq_false_iff, decide_eq_false_iff_not, not_lt] at hb
      exact hb.1
    · simp only [badCall, Bool.or_eq_false_iff, decide_eq_false_iff_not, not_le] at hb
      rw [he.controls.2.2.2.1]
      exact hb.2
    · unfold orFatal at hg
      split at hg
      · cases hg
        rename_i hr
        rw [setPc_sr, setPc_pc]
        exact (physRead_congr _ rfl rfl).trans hr
      · cases hg
      · cases hg

theorem EntersFrom.effect {s u : State} (h : EntersFrom s u) : Effect s u :=
  effect_of_world h.launch h.memWf h.world

theorem does_syscall (op : Operand) (s : State) :
    Does s ((val s op).bind fun i =>
      if badCall s i then .raise .badcall (some s.pc) (some i) else enterCall s i) := by
  refine does_bind fun i _ => ?_
  split
  · exact does_raise s _ _ _
  · rename_i hb
    intro u e
    obtain ⟨he, hg⟩ := enterCall_ok (by simpa using hb) e
    exact ⟨he.effect, fun _ => ⟨he.controls, by rw [he.flags]; rfl, by rw [he.flags]; rfl,
      he.sysFP, he.world, .inr ⟨by rw [he.flags]; rfl, by rw [he.flags]; rfl, hg⟩⟩⟩

theorem restoreFrame_effect (s : State) (ws : List Word) : Effect s (restoreFrame s ws) :=
  effect_of_world (by simp [restoreFrame]) (memWf_congr (by simp [restoreFrame])
    (by simp [restoreFrame])) (by simp [restoreFrame])

theorem does_iret (s : State) : Does s (privileged s (returnFromInterrupt s)) := by
  refine does_privileged fun u e => ?_
  unfold returnFromInterrupt at e
  split at e
  · cases e
  · obtain ⟨m, -, h⟩ := bind_eq_ok e
    split at h
    · cases h
    · obtain ⟨ws, -, h⟩ := bind_eq_ok h
      cases h
      exact restoreFrame_effect s ws

theorem does_halt (s : State) :
    Does s (if s.flags.sys then .ok (s.setFlags s.flags.halted).advance
      else .raise .halt (some s.pc) none) := by
  split
  · rename_i hs
    intro u e
    cases e
    exact ⟨(setFlags_effect s _).trans (quiet_advance _).effect, by simp [hs]⟩
  · exact does_raise s _ _ _

theorem does_peri (r : Reg) (op : Operand) (s : State) :
    Does s (privileged s ((val s op).bind fun cs =>
      (periOperation cs s).bind fun result => .ok (periDone r result.1 result.2))) := by
  refine does_privileged fun u e => ?_
  obtain ⟨cs, -, h⟩ := bind_eq_ok e
  obtain ⟨⟨result, t⟩, h1, h⟩ := bind_eq_ok h
  cases h
  exact (keeps_periOperation cs s result t h1).effect.trans ((quiet_setReg t r result).effect.trans
    ((setFlags_effect _ _).trans (quiet_advance _).effect))

/-- Every instruction is a body that does no more than `Does` says, and the end of the step. -/
theorem exec_body (i : Instr) (s : State) : ∃ x, exec i s = finish s x ∧ Does s x := by
  cases i with
  | getsr r op => exact ⟨_, rfl, does_getsr r op s⟩
  | setsr r op => exact ⟨_, rfl, does_setsr r op s⟩
  | getfl r op => exact ⟨_, rfl, does_getfl r op s⟩
  | setfl r op => exact ⟨_, rfl, does_setfl r op s⟩
  | flagsj r op => exact ⟨_, rfl, does_flagsj r op s⟩
  | comp r op => exact ⟨_, rfl, does_comp r op s⟩
  | compz op => exact ⟨_, rfl, does_compz op s⟩
  | jcond c op => exact ⟨_, rfl, does_jcond c op s⟩
  | sbit r op => exact ⟨_, rfl, does_sbit r op s⟩
  | cbit r op => exact ⟨_, rfl, does_cbit r op s⟩
  | exbr r op => exact ⟨_, rfl, does_extractAt _ r op s⟩
  | dpbr r op => exact ⟨_, rfl, does_depositAt _ r op s⟩
  | exbrv r op => exact ⟨_, rfl, does_extractVectorAt _ r op s⟩
  | dpbrv r op => exact ⟨_, rfl, does_depositVectorAt _ r op s⟩
  | load r op => exact ⟨_, rfl, does_load r op s⟩
  | store r op => exact ⟨_, rfl, does_store r op s⟩
  | push op => exact ⟨_, rfl, does_push op s⟩
  | inc op => exact ⟨_, rfl, does_inc op s⟩
  | call op => exact ⟨_, rfl, does_call op s⟩
  | ret => exact ⟨_, rfl, does_ret s⟩
  | syscall op => exact ⟨_, rfl, does_syscall op s⟩
  | iret => exact ⟨_, rfl, does_iret s⟩
  | halt => exact ⟨_, rfl, does_halt s⟩
  | phload r op => exact ⟨_, rfl, does_privileged fun _ e => by cases e⟩
  | phstore r op => exact ⟨_, rfl, does_privileged fun _ e => by cases e⟩
  | clrpp => exact ⟨_, rfl, does_privileged fun _ e => by cases e⟩
  | peri r op => exact ⟨_, rfl, does_peri r op s⟩

end Sys2Proof.Machine
end

