-- ==== Sys2Proof/Laws/EntryFrame.lean ====
section
/-! SUPPORT. An entry that succeeds whole, said once: the words pushed, the stack pointer, the handler's
address, and the memory left alone (R153, R170, R280, R282), with VM off or on. -/

namespace Sys2Proof.Machine

theorem below_ne {s : State} {j k : Nat} (hj : j < 2 ^ 32) (hk : k < 2 ^ 32) (h : j ≠ k) :
    (below s j).toNat ≠ (below s k).toNat := by
  intro e
  have e' := BitVec.eq_of_toNat_eq e
  unfold below at e'
  have : BitVec.ofNat 32 j = BitVec.ofNat 32 k := by
    rw [BitVec.sub_eq_iff_eq_add, BitVec.sub_add_comm] at e'
    bv_omega
  have h2 := congrArg BitVec.toNat this
  simp only [BitVec.toNat_ofNat, Nat.mod_eq_of_lt hj, Nat.mod_eq_of_lt hk] at h2
  exact h h2

theorem below_push (s : State) (pa v : Word) (k : Nat) (hs : s.flags.sys = true) :
    below ((s.setSP (s.sp - 1)).poke pa v) k = below s (k + 1) := by
  simp only [below, poke_sr, State.setSP, State.sp, hs, if_true, setSpecials_sr]
  rw [BitVec.ofNat_add]
  bv_omega

theorem toNat_ne {a b : Word} (h : a ≠ b) : a.toNat ≠ b.toNat :=
  fun e => h (BitVec.eq_of_toNat_eq e)

/-- Pushes in system mode to addresses that lead to distinct words, none of them a table entry by which one
of them is translated: all done, the first word at the highest address, nothing else changed. -/
theorem pushAll_slots (vs : List Word) {s : State} {p : Nat → Word} (hs : s.flags.sys = true)
    (room : ∀ k : Nat, 1 ≤ k → k ≤ vs.length → target s (below s k) = .ok (p k) ∧
      ∀ j : Nat, 1 ≤ j → j ≤ vs.length →
        (j ≠ k → p j ≠ p k) ∧ p j ∉ walkReads s (below s k)) :
    ∃ t, pushAll vs s = .done t ∧ Pushes s t ∧ t.sr.sysSP = below s vs.length ∧
      (∀ i (h : i < vs.length), t.word (p (i + 1)).toNat = some vs[i]) ∧
      ∀ a : Nat, (∀ k : Nat, 1 ≤ k → k ≤ vs.length → a ≠ (p k).toNat) → t.word a = s.word a := by
  induction vs generalizing s p with
  | nil =>
    exact ⟨s, rfl, .refl s, by simp [below], fun i h => absurd h (by simp), fun _ _ => rfl⟩
  | cons v vs ih =>
    simp only [List.length_cons] at room
    have hsp : s.sp - 1 = below s 1 := by simp [State.sp, hs, below]
    have hp : push s v = .ok ((s.setSP (s.sp - 1)).poke (p 1) v) :=
      push_of v (by rw [hsp]; exact (room 1 (by omega) (by omega)).1)
    have hP := push_pushes hs hp
    have hw : ∀ a : Nat, a ≠ (p 1).toNat →
        ((s.setSP (s.sp - 1)).poke (p 1) v).word a = s.word a := fun a ha => by
      rw [word_poke_ne _ _ _ ha]
      simp [State.word]
    have hreads : ∀ k : Nat, 1 ≤ k → k ≤ vs.length + 1 → ∀ q ∈ walkReads s (below s k),
        ((s.setSP (s.sp - 1)).poke (p 1) v).word q.toNat = s.word q.toNat :=
      fun k h1 h2 q hq => hw _ (toNat_ne fun e =>
        ((room k h1 h2).2 1 (by omega) (by omega)).2 (e ▸ hq))
    obtain ⟨t, h2, h3, h4, h5, h6⟩ := ih (s := (s.setSP (s.sp - 1)).poke (p 1) v)
      (p := fun k => p (k + 1)) (by rw [hP.flags]; exact hs) fun k hk hk' => by
        have hr := room (k + 1) (by omega) (by omega)
        rw [below_push _ _ _ _ hs]
        refine ⟨?_, fun j hj hj' => ⟨fun e => (hr.2 (j + 1) (by omega) (by omega)).1 (by omega), ?_⟩⟩
        · exact (target_agree (by rw [hP.flags]) (by rw [hP.flags]) hP.controls.1 hP.launch
            (hreads _ (by omega) (by omega))).trans hr.1
        · rw [walkReads_agree (by rw [hP.flags]) hP.controls.1 hP.launch
            (hreads _ (by omega) (by omega))]
          exact (hr.2 (j + 1) (by omega) (by omega)).2
    refine ⟨t, ?_, hP.trans h3, ?_, ?_, ?_⟩
    · rw [pushAll, hp]
      exact h2
    · rw [h4, below_push _ _ _ _ hs]
      rfl
    · intro i hi
      cases i with
      | zero =>
        rw [h6 _ fun k hk hk' => toNat_ne
          (((room (k + 1) (by omega) (by omega)).2 1 (by omega) (by omega)).1 (by omega))]
        exact word_poke_same _ _ _
      | succ i => simpa using h5 i (by simpa using hi)
    · intro a ha
      rw [h6 a fun k hk hk' => ha (k + 1) (by omega) (by simp; omega)]
      exact hw a (ha 1 (by omega) (by simp))

/-- With VM off an address below the system stack pointer that exists is its own place. -/
theorem target_below {s : State} {k : Nat} (hvm : s.flags.vm = false)
    (h : physValid s (below s k) = true) : target s (below s k) = .ok (below s k) := by
  rw [target_physical _ hvm, if_pos h]

/-- Pushes in system mode with VM off, where the words below the stack pointer exist. -/
theorem pushAll_physical (vs : List Word) {s : State} (hs : s.flags.sys = true)
    (hlen : vs.length < 2 ^ 32) (hvm : s.flags.vm = false)
    (room : ∀ k : Nat, 1 ≤ k → k ≤ vs.length → physValid s (below s k) = true) :
    ∃ t, pushAll vs s = .done t ∧ Pushes s t ∧ t.sr.sysSP = below s vs.length ∧
      (∀ i (h : i < vs.length), t.word (below s (i + 1)).toNat = some vs[i]) ∧
      ∀ a : Nat, (∀ k : Nat, 1 ≤ k → k ≤ vs.length → a ≠ (below s k).toNat) →
        t.word a = s.word a :=
  pushAll_slots vs (p := below s) hs fun k hk hk' => ⟨target_below hvm (room k hk hk'),
    fun j _ hj' => ⟨fun e h => below_ne (by omega) (by omega) e (congrArg BitVec.toNat h), by
      simp [walkReads_physical _ hvm]⟩⟩

/-- In a state that differs from `s` in what pushing changes, outside `s`'s slots, the words below `s`'s stack
pointer stand in the same slots. -/
theorem target_slot {s t : State} {n k : Nat} (hr : SystemStackRoom n s) (h1 : 1 ≤ k) (hn : k ≤ n)
    (hf : t.flags.vm = s.flags.vm) (hs : t.flags.sys = true) (hp : t.sr.pdbr = s.sr.pdbr)
    (hc : t.cfg = s.cfg) (hm : SameMemoryBelow n s t) :
    target t (below s k) = .ok (slot s k) := by
  rw [← (hr k h1 hn).1]
  refine target_agree (s := s.entering) (t := t) hf hs hp hc fun q hq => ?_
  exact hm _ fun j hj hj' => toNat_ne fun e => ((hr k h1 hn).2 j hj hj').2 (e ▸ hq)

/-- With VM off a place on the system stack is its own physical address, where that exists. -/
theorem slot_physical {s : State} {k : Nat} (hvm : s.flags.vm = false)
    (h : physValid s (below s k) = true) : slot s k = below s k := by
  have e : target s.entering (below s k) = .ok (below s k) := target_below (s := s.entering) hvm h
  simp [slot, e]

/-- With VM off the stack has room where the words below its pointer exist. -/
theorem systemStackRoom_physical {s : State} {n : Nat} (hvm : s.flags.vm = false) (hn : n < 2 ^ 32)
    (h : ∀ k : Nat, 1 ≤ k → k ≤ n → physValid s (below s k) = true) : SystemStackRoom n s := by
  intro k h1 h2
  rw [slot_physical hvm (h k h1 h2)]
  refine ⟨target_below (s := s.entering) hvm (h k h1 h2), fun j j1 j2 => ?_⟩
  rw [slot_physical hvm (h j j1 j2), walkReads_physical _ hvm]
  exact ⟨fun hne e => below_ne (s := s) (by omega) (by omega) hne (congrArg BitVec.toNat e),
    List.not_mem_nil⟩

theorem gprList_length (s : State) : s.gprList.length = 13 := by simp [State.gprList]

theorem savedRegs_length (s : State) (x p : Word) : (savedRegs s x p).length = 16 := by
  simp [savedRegs, gprList_length]

/-- The words of an entry frame by position. -/
theorem savedRegs_get (s : State) (x p : Word) (rest : List Word) :
    (∀ k : Fin 13, (savedRegs s x p ++ rest)[k.val]? = some s.gpr[k]) ∧
      (savedRegs s x p ++ rest)[13]? = some x ∧
      (savedRegs s x p ++ rest)[14]? = some s.sr.sysFP ∧
      (savedRegs s x p ++ rest)[15]? = some p ∧
      ∀ j, (savedRegs s x p ++ rest)[16 + j]? = rest[j]? := by
  have hl := gprList_length s
  refine ⟨fun k => ?_, ?_, ?_, ?_, fun j => ?_⟩
  · rw [savedRegs, List.append_assoc, List.getElem?_append_left (by omega)]
    simp [State.gprList, Vector.getElem_toList]
  · rw [savedRegs, List.append_assoc, List.getElem?_append_right (by omega), hl]
    rfl
  · rw [savedRegs, List.append_assoc, List.getElem?_append_right (by omega), hl]
    rfl
  · rw [savedRegs, List.append_assoc, List.getElem?_append_right (by omega), hl]
    rfl
  · rw [List.getElem?_append_right (by rw [savedRegs_length]; omega), savedRegs_length]
    congr 1
    omega

theorem drawSpSlot_value (s : State) :
    (drawSpSlot s).1 = below s 13 ∨ (drawSpSlot s).1 = below s 14 := by
  show (if Config.freeBit s.draws then s.sr.sysSP - 13 else s.sr.sysSP - 14) = _ ∨
    (if Config.freeBit s.draws then s.sr.sysSP - 13 else s.sr.sysSP - 14) = _
  by_cases h : Config.freeBit s.draws = true
  · exact .inl (if_pos h)
  · exact .inr (if_neg h)

/-- Vector entries live in memory: a state with the same memory there has the same handler. -/
theorem vectorEntry_of {s t : State} {c : Cause} {h : Word} (hv : vectorEntry s c = .ok h)
    (hi : t.sr.intvec = s.sr.intvec) (hl : t.cfg = s.cfg)
    (hm : t.word (s.sr.intvec + c.code).toNat = s.word (s.sr.intvec + c.code).toNat) :
    vectorEntry t c = .ok h := by
  obtain ⟨a, b⟩ := physRead_eq_ok hv
  unfold vectorEntry
  rw [hi]
  exact physRead_of ((physValid_congr _ hl).trans a) (hm.trans b)

/-- The entry sequence, whole (R280, R282). -/
theorem enter_whole {s : State} {c : Cause} {h : Word} (addr info : Option Word) (p : Word)
    (hc : CanEnter s c h) :
    ∃ t, enter s c addr info p = .entered t ∧ HandlerEntered s t c addr info p h := by
  obtain ⟨⟨hip, hne, hvec, hout⟩, room⟩ := hc
  let s1 := (orFree addr s).2
  let s2 := (orFree info s1).2
  let s3 := (drawSpSlot s2).2
  have hd1 : s1.sr = s.sr ∧ s1.mem = s.mem := by
    simp only [s1]; cases addr <;> exact ⟨rfl, rfl⟩
  have hd2 : s2.sr = s1.sr ∧ s2.mem = s1.mem := by
    simp only [s2]; cases info <;> exact ⟨rfl, rfl⟩
  have hd3 : s3.sr = s2.sr ∧ s3.mem = s2.mem := ⟨rfl, rfl⟩
  have hsr : s3.sr = s.sr := hd3.1.trans (hd2.1.trans hd1.1)
  have hmem : s3.mem = s.mem := hd3.2.trans (hd2.2.trans hd1.2)
  have hP : Pushes s s3 :=
    (orFree_pushes addr s).trans ((orFree_pushes info s1).trans (drawSpSlot_pushes s2))
  have hb : ∀ k, below s3.entering k = below s k := fun k => by simp [below, hsr]
  have hb2 : ∀ k, below s2 k = below s k := fun k => by simp [below, hd2.1, hd1.1]
  let vs := savedRegs s (drawSpSlot s2).1 p ++
    [(orFree info s1).1, (orFree addr s).1, c.code, s.flags.toWord, 40]
  have hlen : vs.length = 21 := by simp [vs, savedRegs_length]
  have hreads : ∀ a, walkReads s3.entering a = walkReads s a := fun a =>
    walkReads_agree (by simp [Flags.entering, hP.flags]) hP.controls.1 hP.launch fun q _ => by
      simp [State.word, hmem]
  obtain ⟨t, h1, h2, h3, h4, h5⟩ := pushAll_slots vs (s := s3.entering) (p := slot s) rfl
    (fun k hk hk' => by
      have hr := room k hk (by omega)
      rw [hb, hreads]
      exact ⟨(target_congr (s := s.entering) (t := s3.entering) _
          (by simp [hP.flags]) rfl hP.controls.1 hmem
          hP.launch).trans hr.1,
        fun j hj hj' => hr.2 j hj (by omega)⟩)
  rw [hlen] at h3 h5
  have hword : ∀ i w, vs[i]? = some w → t.word (slot s (i + 1)).toNat = some w := by
    intro i w hw
    obtain ⟨hi, hw'⟩ := List.getElem?_eq_some_iff.1 hw
    rw [h4 i hi, hw']
  have hsame : SameMemoryBelow 21 s t := by
    intro a ha
    rw [h5 a ha]
    simp [State.word, hmem]
  obtain ⟨g1, g2, g3, g4, g5⟩ := savedRegs_get s (drawSpSlot s2).1 p
    [(orFree info s1).1, (orFree addr s).1, c.code, s.flags.toWord, 40]
  let u := (t.setFaultNesting (nestingOnEntry s)).setPc h
  have hE : EntersFrom s u := entersFrom_of hP h2 _ h rfl
  have hv : vectorEntry t c = .ok h := vectorEntry_of hvec hE.controls.2.1 hE.launch (hsame _ hout)
  refine ⟨u, ?_, hE.toEntryRegs, ⟨fun k => hword _ _ (g1 k), ?_, hword _ _ g3,
    hword _ _ g4, ?_, ?_, hword 18 _ (g5 2), hword 19 _ (g5 3), hword 20 _ (g5 4), hsame⟩, ?_, rfl, rfl⟩
  · show (match pushAll vs s3.entering with
      | .failed t _ _ => intrFault t c addr (orFree addr s).1
      | .stop x => .stopped x
      | .done t =>
        match vectorEntry t c with
        | .ok h => .entered ((t.setFaultNesting (nestingOnEntry s)).setPc h)
        | .raise _ _ _ => intrFault t c addr (orFree addr s).1
        | .stop x => .stopped x) = _
    rw [h1]
    simp only [hv, u]
  · rcases drawSpSlot_value s2 with e | e
    · left
      have := hword 13 _ g2
      rw [e, hb2] at this
      exact this
    · right
      have := hword 13 _ g2
      rw [e, hb2] at this
      exact this
  · refine ⟨_, hword 16 _ (g5 0), ?_⟩
    rintro w rfl
    rfl
  · refine ⟨_, hword 17 _ (g5 1), ?_⟩
    rintro w rfl
    rfl
  · show t.sr.sysSP = _
    rw [h3, hb]

/-- A cause whose handler stands ready enters it whole (R270, R280, R282). -/
theorem signal_whole {s : State} {c : Cause} {h : Word} (addr info : Option Word) (p : Word)
    (hc : CanEnter s c h) :
    ∃ t, signal s c addr info p = .entered t ∧ HandlerEntered s t c addr info p h := by
  obtain ⟨t, h1, h2⟩ := enter_whole addr info p hc
  refine ⟨t, ?_, h2⟩
  unfold signal
  rw [if_neg (by simp [hc.1.1]), hc.1.2.2.1]
  simp only [if_neg hc.1.2.1]
  exact h1

/-- A raise whose handler stands ready enters it whole (R287, R288). -/
theorem takeException_whole {s : State} {c : Cause} {h : Word} (addr info : Option Word)
    (hc : CanEnter s c h) :
    ∃ t, takeException s c addr info = .next t ∧
      HandlerEntered s t c addr info (trapSavedPc s c) h := by
  obtain ⟨t, h1, h2⟩ := signal_whole addr info (trapSavedPc s c) hc
  exact ⟨t, by simp [takeException, h1], h2⟩

end Sys2Proof.Machine
end

