-- ==== Sys2Proof/Laws/EntryFails.lean ====
section
/-! SUPPORT. An entry that cannot be completed, and the entry for INTRFAULT that follows it, said once: pushes of
which one raises, the state the failed entry leaves, INTRFAULT entered whole, and FatalStop where that fails too
(R278), with VM off or on. -/

namespace Sys2Proof.Machine

/-- A push whose address raises, raises (R153). -/
theorem push_raise {s : State} {c : Cause} {addr info : Option Word} (v : Word)
    (h : target s (s.sp - 1) = .raise c addr info) : push s v = .raise c addr info := by
  have ht : target (s.setSP (s.sp - 1)) (s.sp - 1) = .raise c addr info := by
    rw [← h]
    exact target_congr _ (by simp) (by simp) (by simp) (by simp) (by simp)
  rw [push, memWrite, ht, bind_raise]

/-- Pushes all done, then the rest. -/
theorem pushAll_append {vs ws : List Word} {s t : State} (h : pushAll vs s = .done t) :
    pushAll (vs ++ ws) s = pushAll ws t := by
  induction vs generalizing s with
  | nil => simp [pushAll] at h; rw [h]; rfl
  | cons v vs ih =>
    simp only [List.cons_append, pushAll] at h ⊢
    cases hp : push s v with
    | ok u => rw [hp] at h; exact ih h
    | raise c addr info => simp [hp] at h
    | stop x => simp [hp] at h

/-- Pushes in system mode of which the `m`th raises: those before it are done, SYSSP is at the `m`th word, and
nothing else has changed. -/
theorem pushAll_fails (vs : List Word) {s : State} {p : Nat → Word} {m : Nat}
    (hs : s.flags.sys = true) (h1 : 1 ≤ m) (hm : m ≤ vs.length)
    (room : ∀ k : Nat, 1 ≤ k → k ≤ m - 1 → target s (below s k) = .ok (p k) ∧
      ∀ j : Nat, 1 ≤ j → j ≤ m - 1 → (j ≠ k → p j ≠ p k) ∧ p j ∉ walkReads s (below s k))
    (bad : ∃ c addr info, target s (below s m) = .raise c addr info)
    (clear : ∀ j : Nat, 1 ≤ j → j < m → p j ∉ walkReads s (below s m)) :
    ∃ t c addr, pushAll vs s = .failed t c addr ∧ Pushes s t ∧ t.sr.sysSP = below s m ∧
      ∀ a : Nat, (∀ k : Nat, 1 ≤ k → k ≤ m - 1 → a ≠ (p k).toNat) → t.word a = s.word a := by
  have hlen : (vs.take (m - 1)).length = m - 1 := by
    rw [List.length_take]
    omega
  obtain ⟨u, k1, k2, k3, -, k5⟩ := pushAll_slots (vs.take (m - 1)) (s := s) (p := p) hs (by
    rw [hlen]
    exact room)
  rw [hlen] at k3 k5
  obtain ⟨c, addr, info, hbad⟩ := bad
  have hus : u.flags.sys = true := by rw [k2.flags]; exact hs
  have hsp : u.sp - 1 = below s m := by
    have e : BitVec.ofNat 32 m = BitVec.ofNat 32 (m - 1) + 1 := by
      rw [show (1 : Word) = BitVec.ofNat 32 1 from rfl, ← BitVec.ofNat_add]
      congr 1
      omega
    simp only [State.sp, hus, if_true, k3, below, e]
    bv_omega
  have ht : target u (below s m) = .raise c addr info := by
    rw [← hbad]
    exact target_agree (by rw [k2.flags]) (by rw [k2.flags]) k2.controls.1 k2.launch
      fun q hq => k5 _ fun j hj hj' => toNat_ne fun e => clear j hj (by omega) (e ▸ hq)
  refine ⟨u.setSP (below s m), c, addr, ?_, k2.trans (pushes_setSP _ hus), ?_, fun a ha => ?_⟩
  · conv_lhs => rw [← List.take_append_drop (m - 1) vs]
    rw [pushAll_append k1, List.drop_eq_getElem_cons (by omega), pushAll,
      push_raise _ (by rw [hsp]; exact ht), hsp]
  · simp [State.setSP, hus]
  · rw [State.word, setSP_mem]
    exact k5 a ha

/-- Drawing free words changes neither registers nor memory, and gives as many as asked. -/
theorem drawWords_keeps (k : Nat) (s : State) :
    (drawWords k s).2.sr = s.sr ∧ (drawWords k s).2.mem = s.mem ∧ (drawWords k s).1.length = k := by
  induction k generalizing s with
  | zero => exact ⟨rfl, rfl, rfl⟩
  | succ k ih =>
    obtain ⟨a, b, c⟩ := ih (drawWord s).2
    refine ⟨a, b, ?_⟩
    show ((drawWord s).1 :: (drawWords k (drawWord s).2).1).length = _
    rw [List.length_cons, c]

/-- The entry for INTRFAULT draws seventeen free words and pushes its frame; this is all that decides it. -/
theorem intrFault_pushes {s : State} {h : Word} (orig : Cause) (addr : Option Word) (w : Word)
    (hv : vectorEntry s .intrfault = .ok h) (h0 : h ≠ 0) :
    ∃ (vs : List Word) (t : State), vs.length = 21 ∧ Pushes s.entering t ∧ t.sr = s.sr ∧
      t.mem = s.mem ∧ (∀ j, vs[16 + j]? = [orig.code, w, 13, vs.getD 19 0, 40][j]?) ∧
      intrFault s orig addr w =
        match pushAll vs t with
        | .failed _ _ _ => .stopped (fatalStop s .intrfault addr (some orig.code))
        | .stop x => .stopped x
        | .done t =>
          match vectorEntry t .intrfault with
          | .ok h' => .entered ((t.setFaultNesting (some 0)).setPc h')
          | .raise _ _ _ => .stopped (fatalStop s .intrfault addr (some orig.code))
          | .stop x => .stopped x := by
  have hd := drawWords_keeps 16 s.entering
  have hP := drawWords_pushes 16 s.entering
  have hi : intrFault s orig addr w =
      match pushAll ((drawWords 16 s.entering).1 ++ [orig.code, w, Cause.intrfault.code,
          (drawWord (drawWords 16 s.entering).2).1, 40]) (drawWord (drawWords 16 s.entering).2).2 with
      | .failed _ _ _ => .stopped (fatalStop s .intrfault addr (some orig.code))
      | .stop x => .stopped x
      | .done t =>
        match vectorEntry t .intrfault with
        | .ok h' => .entered ((t.setFaultNesting (some 0)).setPc h')
        | .raise _ _ _ => .stopped (fatalStop s .intrfault addr (some orig.code))
        | .stop x => .stopped x := by
    simp only [intrFault, hv, if_neg h0] <;> rfl
  generalize drawWords 16 s.entering = d at *
  obtain ⟨ws, u⟩ := d
  obtain ⟨d1, d2, d3⟩ := hd
  have get : ∀ j, (ws ++ [orig.code, w, Cause.intrfault.code, (drawWord u).1, 40])[16 + j]? =
      [orig.code, w, Cause.intrfault.code, (drawWord u).1, 40][j]? := fun j => by
    rw [List.getElem?_append_right (by rw [d3]; omega), d3]
    congr 1
    omega
  refine ⟨ws ++ [orig.code, w, Cause.intrfault.code, (drawWord u).1, 40], (drawWord u).2,
    by rw [List.length_append, d3]; rfl, hP.trans (drawWord_pushes u), d1, d2, fun j => ?_, hi⟩
  rw [get j, List.getD_eq_getElem?_getD, get 3]
  rfl

/-- INTRFAULT entered whole (R278): its frame holds the original code, the original address, 13 and 40 at known
places, and nothing else of memory changes. -/
theorem intrFault_whole {s : State} {h : Word} {p : Nat → Word} (orig : Cause) (addr : Option Word)
    (w : Word) (hv : vectorEntry s .intrfault = .ok h) (h0 : h ≠ 0)
    (room : ∀ k : Nat, 1 ≤ k → k ≤ 21 → target s.entering (below s k) = .ok (p k) ∧
      ∀ j : Nat, 1 ≤ j → j ≤ 21 → (j ≠ k → p j ≠ p k) ∧ p j ∉ walkReads s (below s k))
    (out : ∀ k : Nat, 1 ≤ k → k ≤ 21 →
      (s.sr.intvec + Cause.intrfault.code).toNat ≠ (p k).toNat) :
    ∃ t, intrFault s orig addr w = .entered t ∧ EntersFrom s t ∧ t.pc = h ∧
      t.sr.sysSP = below s 21 ∧ t.faultNesting = some 0 ∧
      t.word (p 21).toNat = some 40 ∧ t.word (p 19).toNat = some 13 ∧
      t.word (p 18).toNat = some w ∧ t.word (p 17).toNat = some orig.code ∧
      ∀ a : Nat, (∀ k : Nat, 1 ≤ k → k ≤ 21 → a ≠ (p k).toNat) → t.word a = s.word a := by
  obtain ⟨vs, x, hl, hP, hsr, hmem, hvs, hi⟩ := intrFault_pushes orig addr w hv h0
  have hb : ∀ k, below x k = below s k := fun k => by rw [below, hsr]; rfl
  have hreads : ∀ a, walkReads x a = walkReads s a := fun a =>
    walkReads_agree (by rw [hP.flags]; rfl) hP.controls.1 hP.launch fun q _ => by
      rw [State.word, hmem]; rfl
  obtain ⟨u, k1, k2, k3, k4, k5⟩ := pushAll_slots vs (s := x) (p := p) (by rw [hP.flags]; rfl)
    fun k hk hk' => by
      rw [hb, hreads]
      refine ⟨(target_congr (s := s.entering) (t := x) _ (by rw [hP.flags]) (by rw [hP.flags])
        hP.controls.1 hmem hP.launch).trans (room k hk (by omega)).1,
        fun j hj hj' => (room k hk (by omega)).2 j hj (by omega)⟩
  rw [hl] at k3 k5
  have same : ∀ a : Nat, (∀ k : Nat, 1 ≤ k → k ≤ 21 → a ≠ (p k).toNat) → u.word a = s.word a :=
    fun a ha => by
      rw [k5 a ha, State.word, hmem]
      rfl
  have hE := entersFrom_of (.refl s) (hP.trans k2) (some 0) h rfl
  have word : ∀ j v, [orig.code, w, 13, vs.getD 19 0, 40][j]? = some v →
      u.word (p (16 + j + 1)).toNat = some v := fun j v hj => by
    rw [← hvs] at hj
    obtain ⟨hk, hw⟩ := List.getElem?_eq_some_iff.1 hj
    rw [k4 _ hk, hw]
  refine ⟨(u.setFaultNesting (some 0)).setPc h, ?_, hE, rfl, k3.trans (hb _), rfl, word 4 _ rfl,
    word 2 _ rfl, word 1 _ rfl, word 0 _ rfl, same⟩
  rw [hi, k1]
  simp only [vectorEntry_of (t := u) hv hE.controls.2.1 hE.launch (same _ out)]

/-- Where the entry for INTRFAULT fails too, the machine stops with the original parameters (R278). -/
theorem intrFault_dead {s : State} {p : Nat → Word} (orig : Cause) (addr : Option Word) (w : Word)
    (h : vectorEntry s .intrfault = .ok 0 ∨
      (∃ c a i, vectorEntry s .intrfault = .raise c a i) ∨
      (∃ h, vectorEntry s .intrfault = .ok h) ∧ ∃ n : Nat, 1 ≤ n ∧ n ≤ 21 ∧
        (∀ k : Nat, 1 ≤ k → k ≤ n - 1 → target s.entering (below s k) = .ok (p k) ∧
          ∀ j : Nat, 1 ≤ j → j ≤ n - 1 → (j ≠ k → p j ≠ p k) ∧ p j ∉ walkReads s (below s k)) ∧
        (∃ c a i, target s.entering (below s n) = .raise c a i) ∧
        ∀ j : Nat, 1 ≤ j → j < n → p j ∉ walkReads s (below s n)) :
    intrFault s orig addr w = .stopped (fatalStop s .intrfault addr (some orig.code)) := by
  rcases h with h | ⟨c, a, i, h⟩ | ⟨⟨h, hv⟩, n, hn, hn', room, bad, clear⟩
  · simp [intrFault, h]
  · simp [intrFault, h]
  · by_cases h0 : h = 0
    · simp [intrFault, hv, h0]
    obtain ⟨vs, x, hl, hP, hsr, hmem, -, hi⟩ := intrFault_pushes orig addr w hv h0
    have hb : ∀ k, below x k = below s k := fun k => by rw [below, hsr]; rfl
    have hreads : ∀ a, walkReads x a = walkReads s a := fun a =>
      walkReads_agree (by rw [hP.flags]; rfl) hP.controls.1 hP.launch fun q _ => by
        rw [State.word, hmem]; rfl
    have ht : ∀ a, target x a = target s.entering a := fun a =>
      target_congr _ (by rw [hP.flags]) (by rw [hP.flags]) hP.controls.1 hmem hP.launch
    obtain ⟨t, c, a, k1, -⟩ := pushAll_fails vs (s := x) (p := p) (by rw [hP.flags]; rfl) hn
      (by omega) (by simpa only [hb, hreads, ht] using room) (by simpa only [hb, ht] using bad)
      (by simpa only [hb, hreads] using clear)
    rw [hi, k1]

/-- An entry that cannot be completed goes on to INTRFAULT, from the state the failed entry left: SYSSP at the
push that raised, the words before it stored, nothing else of memory changed (R278, log entry 19). -/
theorem signal_fails {s : State} {c : Cause} {m : Nat} (addr info : Option Word) (p : Word)
    (h : EntryFailsAt s c m) :
    ∃ t w, signal s c addr info p = intrFault t c addr w ∧ (∀ x, addr = some x → w = x) ∧
      Pushes s.entering t.entering ∧ t.sr.sysSP = below s m ∧ SameMemoryBelow (m - 1) s t := by
  have hw : ∀ x, addr = some x → (orFree addr s).1 = x := by
    rintro x rfl
    rfl
  obtain ⟨hip, ⟨rfl, c', a', i', hv⟩ | ⟨h1, h21, ⟨v, v0, hv⟩, room, bad, clear⟩⟩ := h
  · have hd : (orFree addr s).2.sr = s.sr ∧ (orFree addr s).2.mem = s.mem := by
      cases addr <;> exact ⟨rfl, rfl⟩
    refine ⟨(orFree addr s).2, (orFree addr s).1, ?_, hw, ?_, ?_, fun a _ => ?_⟩
    · simp only [signal, hip, Bool.false_eq_true, if_false, hv]
    · cases addr with
      | none => exact pushes_setDraws s.entering _
      | some x => exact .refl _
    · rw [hd.1]
      simp [below]
    · rw [State.word, hd.2]
      rfl
  · have hP : Pushes s.entering (drawSpSlot (orFree info (orFree addr s).2).2).2.entering := by
      cases addr <;> cases info <;> exact pushes_setDraws s.entering _
    have hd : (drawSpSlot (orFree info (orFree addr s).2).2).2.entering.sr = s.sr ∧
        (drawSpSlot (orFree info (orFree addr s).2).2).2.entering.mem = s.mem := by
      cases addr <;> cases info <;> exact ⟨rfl, rfl⟩
    have hs : signal s c addr info p =
        match pushAll (savedRegs s (drawSpSlot (orFree info (orFree addr s).2).2).1 p ++
            [(orFree info (orFree addr s).2).1, (orFree addr s).1, c.code, s.flags.toWord, 40])
          (drawSpSlot (orFree info (orFree addr s).2).2).2.entering with
        | .failed t _ _ => intrFault t c addr (orFree addr s).1
        | .stop x => .stopped x
        | .done t =>
          match vectorEntry t c with
          | .ok h => .entered ((t.setFaultNesting (nestingOnEntry s)).setPc h)
          | .raise _ _ _ => intrFault t c addr (orFree addr s).1
          | .stop x => .stopped x := by
      simp only [signal, hip, Bool.false_eq_true, if_false, hv, v0, enter] <;> rfl
    generalize (drawSpSlot (orFree info (orFree addr s).2).2).2.entering = x at *
    have hb : ∀ k, below x k = below s k := fun k => by rw [below, hd.1]; rfl
    have hreads : ∀ a, walkReads x a = walkReads s a := fun a =>
      walkReads_agree (by rw [hP.flags]; rfl) hP.controls.1 hP.launch fun q _ => by
        rw [State.word, hd.2]; rfl
    have ht : ∀ a, target x a = target s.entering a := fun a =>
      target_congr _ (by rw [hP.flags]) (by rw [hP.flags]) hP.controls.1 hd.2 hP.launch
    obtain ⟨t, c', a', k1, k2, k3, k4⟩ := pushAll_fails
      (savedRegs s (drawSpSlot (orFree info (orFree addr s).2).2).1 p ++
        [(orFree info (orFree addr s).2).1, (orFree addr s).1, c.code, s.flags.toWord, 40])
      (s := x) (p := slot s) (by rw [hP.flags]; rfl) h1 (by simp [savedRegs_length]; omega)
      (by simpa only [hb, hreads, ht, SystemStackRoom] using room)
      (by simpa only [hb, ht] using bad)
      (fun j hj hj' => by rw [hb, hreads]; exact clear j hj hj' (by omega))
    refine ⟨t, (orFree addr s).1, by rw [hs, k1], hw, ?_, by rw [k3, hb], fun a ha => ?_⟩
    · have e : t.flags = s.flags.entering := k2.flags.trans hP.flags
      have := hP.trans k2
      exact ⟨this.gpr, this.pc, by simp [e, Flags.entering], this.user, this.sysFP, this.controls, this.timer,
        this.world, this.launch, fun hw => memWf_congr rfl rfl (this.memWf hw)⟩
    · rw [k4 a ha, State.word, hd.2]
      rfl

end Sys2Proof.Machine
end

