-- ==== Sys2Proof/Laws/Fields.lean ====
section
/-! SUPPORT. The fields of a word built by the encoder, and of its operand. -/

namespace Sys2Proof

/-- The low part of a concatenation. -/
theorem extract_append_low {m n : Nat} (x : BitVec m) (y : BitVec n) {i l : Nat} (h : i + l ≤ n) :
    (x ++ y).extractLsb' i l = y.extractLsb' i l := by
  apply BitVec.eq_of_getLsbD_eq
  intro j hj
  simp only [BitVec.getLsbD_extractLsb', BitVec.getLsbD_append]
  rw [if_pos (by omega)]

/-- The high part of a concatenation. -/
theorem extract_append_high {m n : Nat} (x : BitVec m) (y : BitVec n) {i l : Nat} (h : n ≤ i) :
    (x ++ y).extractLsb' i l = x.extractLsb' (i - n) l := by
  apply BitVec.eq_of_getLsbD_eq
  intro j hj
  simp only [BitVec.getLsbD_extractLsb', BitVec.getLsbD_append]
  rw [if_neg (by omega)]
  congr 2
  omega

/-- A whole value extracted. -/
theorem extract_self {n : Nat} (x : BitVec n) : x.extractLsb' 0 n = x := by
  apply BitVec.eq_of_getLsbD_eq
  intro j hj
  simp [hj]

/-- An extraction of an extraction. -/
theorem extract_extract {n : Nat} (x : BitVec n) {i j k l : Nat} (h : k + l ≤ j) :
    (x.extractLsb' i j).extractLsb' k l = x.extractLsb' (i + k) l := by
  apply BitVec.eq_of_getLsbD_eq
  intro b hb
  simp only [BitVec.getLsbD_extractLsb', hb, decide_true, Bool.true_and]
  rw [show decide (k + b < j) = true by simp; omega, Bool.true_and]
  congr 1
  omega

variable (o : BitVec 5) (m : BitVec 4) (p : BitVec 23) (f : BitVec 27)

theorem operationField_append : operationField (o ++ f) = o := by
  rw [operationField, extract_append_high _ _ (by omega)]
  exact extract_self o

theorem mainField_append : mainField (o ++ (m ++ p)) = m := by
  rw [mainField, extract_append_low _ _ (by omega), extract_append_high _ _ (by omega)]
  exact extract_self m

theorem modeField_append : modeField (o ++ (m ++ p)) = p.extractLsb' 20 3 := by
  rw [modeField, extract_append_low _ _ (by omega), extract_append_low _ _ (by omega)]

theorem indexField_append : indexField (o ++ (m ++ p)) = p.extractLsb' 16 4 := by
  rw [indexField, extract_append_low _ _ (by omega), extract_append_low _ _ (by omega)]

theorem dispField_append : dispField (o ++ (m ++ p)) = p.extractLsb' 0 16 := by
  rw [dispField, extract_append_low _ _ (by omega), extract_append_low _ _ (by omega)]

theorem constField_append : constField (o ++ (m ++ p)) = p.extractLsb' 0 20 := by
  rw [constField, extract_append_low _ _ (by omega), extract_append_low _ _ (by omega)]

theorem decodeReg_encodeReg (r : Reg) : decodeReg (encodeReg r) = .ok r := by
  cases r with
  | gp n => revert n; decide
  | sp => decide
  | fp => decide

theorem decodeCond_encodeCond (c : Cond) : decodeCond (encodeCond c) = c := by
  cases c with
  | err => decide
  | other k => revert k; decide

theorem encodeReg_decodeReg (n : BitVec 4) (r : Reg) (h : decodeReg n = .ok r) :
    encodeReg r = n := by
  revert n
  cases r with
  | gp k => revert k; decide
  | sp => decide
  | fp => decide

theorem encodeCond_decodeCond (n : BitVec 4) : encodeCond (decodeCond n) = n := by
  revert n
  decide

/-- A number that fits a field comes back whole. -/
theorem zeroExtend_extract {n : Word} {k : Nat} (h : n.toNat < 2 ^ k) (hk : k ≤ 32) :
    (n.extractLsb' 0 k).zeroExtend 32 = n := by
  apply BitVec.eq_of_toNat_eq
  have h2 : (2 : Nat) ^ k ≤ 2 ^ 32 := Nat.pow_le_pow_right (by omega) hk
  simp only [BitVec.truncate_eq_setWidth, BitVec.toNat_setWidth, BitVec.extractLsb'_toNat,
    Nat.shiftRight_zero]
  rw [Nat.mod_eq_of_lt h, Nat.mod_eq_of_lt n.isLt]

end Sys2Proof
end

