-- ==== Sys2Proof/Laws/Tick.lean ====
section
/-! SUPPORT. The end of an instruction that completed, said once: the timer tick and nothing else. -/

namespace Sys2Proof.Machine

/-- `t` is `u` with the timer counted down once, zero staying zero; how many free values have been drawn
does not matter. -/
structure Ticked (u t : State) : Prop where
  gpr : t.gpr = u.gpr
  pc : t.pc = u.pc
  flags : t.flags = u.flags
  mem : t.mem = u.mem
  world : t.world = u.world
  cfg : t.cfg = u.cfg
  nesting : t.faultNesting = u.faultNesting
  sr : t.sr = { u.sr with timer := afterTick u.sr.timer }

/-- A running CPU whose TIMER does not expire goes on to the next instruction (R294). -/
theorem complete_ticked {u : State} (hr : u.flags.r = true) (ht : u.sr.timer ≠ 1) :
    ∃ t, complete u = .next t ∧ Ticked u t := by
  refine ⟨_, complete_quiet hr ht, ?_⟩
  split
  · rename_i h
    refine ⟨rfl, rfl, rfl, rfl, rfl, rfl, rfl, ?_⟩
    rw [afterTick, if_pos h]
    cases hs : u.sr
    simp_all
  · rename_i h
    refine ⟨rfl, rfl, rfl, rfl, rfl, rfl, rfl, ?_⟩
    rw [afterTick, if_neg h]
    rfl

theorem Ticked.timer {u t : State} (h : Ticked u t) : t.sr.timer = afterTick u.sr.timer := by
  rw [h.sr]

theorem Ticked.pointers {u t : State} (h : Ticked u t) : SameStacks u t := by
  rw [SameStacks, h.sr]; simp

theorem Ticked.controls {u t : State} (h : Ticked u t) : SameControls u t := by
  rw [SameControls, h.sr]; simp

theorem Ticked.getReg {u t : State} (h : Ticked u t) (q : Reg) : t.getReg q = u.getReg q :=
  getReg_congr h.gpr (by rw [h.flags]) h.pointers q

theorem Ticked.word {u t : State} (h : Ticked u t) (a : Nat) : t.word a = u.word a := by
  rw [State.word, h.mem]; rfl

end Sys2Proof.Machine
end

