-- ==== Sys2Proof/Laws/Frames.lean ====
section
/-! SUPPORT. What the updates of an instruction, followed by the timer tick, leave unchanged: one lemma per
kind of update. -/

namespace Sys2Proof.Machine

theorem afterTick_zero : afterTick 0 = 0 := rfl

theorem afterTick_ne {w : Word} (h : w ≠ 0) : afterTick w = w - 1 := if_neg h

/-- An update that keeps the controls, the world, the launch parameters, the timer and the INTRFAULT nesting,
then a tick. -/
theorem Ticked.frame {s u t : State} (h : Ticked u t) (hc : SameControls s u)
    (hw : u.world = s.world) (hl : u.cfg = s.cfg) (ht : u.sr.timer = s.sr.timer)
    (hn : u.faultNesting = s.faultNesting) : Frame s t := by
  refine ⟨?_, h.world.trans hw, h.cfg.trans hl, by rw [h.timer, ht], h.nesting.trans hn⟩
  obtain ⟨a, b, c, d, e⟩ := h.controls
  obtain ⟨a', b', c', d', e'⟩ := hc
  exact ⟨a.trans a', b.trans b', c.trans c', d.trans d', e.trans e'⟩

theorem sameControls_setReg (s : State) (r : Reg) (v : Word) : SameControls s (s.setReg r v) := by
  simp [SameControls]

/-- A register written and the pc set, then a tick. -/
theorem Ticked.onlyReg {s t : State} {r : Reg} {v p : Word}
    (h : Ticked ((s.setReg r v).setPc p) t) :
    t.getReg r = v ∧ t.pc = p ∧ OnlyReg r s t := by
  have hreg (q : Reg) : t.getReg q = (s.setReg r v).getReg q :=
    (h.getReg q).trans (getReg_congr rfl rfl ⟨rfl, rfl, rfl, rfl⟩ q)
  refine ⟨by rw [hreg]; simp, h.pc, ⟨h.frame ?_ ?_ ?_ ?_ ?_, fun q hq => ?_, ?_, ?_, fun a => ?_⟩⟩
  · exact sameControls_setReg s r v
  · simp
  · simp
  · simp
  · simp
  · rw [hreg, getReg_setReg_ne s v hq]
  · obtain ⟨a, b, c, d⟩ := h.pointers
    unfold SameOtherBank
    split
    · rename_i hs
      obtain ⟨e, f⟩ := setReg_user_bank s r v hs
      exact ⟨c.trans e, d.trans f⟩
    · rename_i hs
      obtain ⟨e, f⟩ := setReg_system_bank s r v (by simpa using hs)
      exact ⟨a.trans e, b.trans f⟩
  · rw [h.flags]; simp
  · rw [h.word]; simp [State.word]

/-- Flags written and the pc set, then a tick. -/
theorem Ticked.onlyFlags {s t : State} {f : Flags} {p : Word}
    (h : Ticked ((s.setFlags f).setPc p) t) : t.flags = f ∧ t.pc = p ∧ OnlyFlags s t :=
  ⟨h.flags, h.pc, h.frame ⟨rfl, rfl, rfl, rfl, rfl⟩ rfl rfl rfl rfl, h.gpr, h.pointers, h.word⟩

/-- The pc set, then a tick. -/
theorem Ticked.onlyPc {s t : State} {p : Word} (h : Ticked (s.setPc p) t) :
    t.pc = p ∧ OnlyPc s t :=
  ⟨h.pc, h.frame ⟨rfl, rfl, rfl, rfl, rfl⟩ rfl rfl rfl rfl, h.gpr, h.pointers, h.flags, h.word⟩

/-- A word stored at a physical address and the pc set, then a tick. -/
theorem Ticked.onlyWord {s t : State} {pa v p : Word} (h : Ticked ((s.poke pa v).setPc p) t) :
    t.pc = p ∧ OnlyWord pa s t ∧ t.word pa.toNat = some v :=
  ⟨h.pc, ⟨h.frame ⟨rfl, rfl, rfl, rfl, rfl⟩ rfl rfl rfl rfl, h.gpr, h.pointers, h.flags, fun a ha =>
      (h.word a).trans (word_poke_ne s pa v ha)⟩,
    (h.word _).trans (word_poke_same s pa v)⟩

/-- Flags written so that R is off, and the pc set: the CPU has halted. -/
theorem onlyHalted_of (s : State) (f : Flags) (p : Word) (h : f.r = false) :
    OnlyHalted s ((s.setFlags f).setPc p) :=
  ⟨h, ⟨rfl, rfl, rfl, rfl, rfl⟩, rfl, rfl, rfl, rfl, rfl, ⟨rfl, rfl, rfl, rfl⟩, fun _ => rfl⟩

/-- A store to an operand succeeds exactly when the operand is a register or its address translates to one
that exists, and is then that one update (R105). -/
theorem storeOperand_of {s : State} {op : Operand} (v : Word) (h : CanStore s op) :
    (∃ q, op = .reg q ∧ storeOperand s op v = .ok (s.setReg q v)) ∨
      ∃ pa, StoresAt s op pa ∧ storeOperand s op v = .ok (s.poke pa v) := by
  rcases h with ⟨q, rfl⟩ | ⟨pa, ea, h1, h2⟩
  · exact .inl ⟨q, rfl, rfl⟩
  · refine .inr ⟨pa, ⟨ea, h1, h2⟩, ?_⟩
    cases op <;> simp [effAddr] at h1 <;> subst h1 <;> exact memWrite_of v h2

/-- The address a store reaches is one. -/
theorem StoresAt.unique {s : State} {op : Operand} {pa pb : Word} (h : StoresAt s op pa)
    (k : StoresAt s op pb) : pa = pb := by
  obtain ⟨ea, h1, h2⟩ := h
  obtain ⟨eb, k1, k2⟩ := k
  rw [h1] at k1
  cases k1
  rw [h2] at k2
  cases k2
  rfl

theorem StoresAt.ne_reg {s : State} {op : Operand} {pa : Word} (h : StoresAt s op pa) (q : Reg) :
    op ≠ .reg q := by
  rintro rfl
  obtain ⟨ea, h1, -⟩ := h
  simp [effAddr] at h1

/-- A register destination and nothing else written. -/
theorem OnlyReg.wroteTo {s t : State} {r : Reg} {v : Word} (h : OnlyReg r s t)
    (hv : t.getReg r = v) : WroteTo (.reg r) v s t where
  toFrame := h.toFrame
  register q hq := by cases hq; exact hv
  word pa hp := absurd rfl (hp.ne_reg r)
  others q hq := h.others q (fun e => hq (by rw [e]))
  otherBank := h.otherBank
  memory a _ := h.memory a

/-- A memory destination and nothing else written. -/
theorem OnlyWord.wroteTo {s t : State} {op : Operand} {pa v : Word} (h : OnlyWord pa s t)
    (hs : StoresAt s op pa) (hv : t.word pa.toNat = some v) : WroteTo op v s t where
  toFrame := h.toFrame
  register q hq := absurd hq (hs.ne_reg q)
  word pb hp := by rw [← hs.unique hp]; exact hv
  others q _ := getReg_congr h.gpr (by rw [h.flags]) h.pointers q
  otherBank := by
    obtain ⟨a, b, c, d⟩ := h.pointers
    unfold SameOtherBank
    split
    · exact ⟨c, d⟩
    · exact ⟨a, b⟩
  memory a ha := h.memory a (ha pa hs)

/-- A store to an operand, the pc set, then a tick (R105). -/
theorem stored_ticked {s : State} {op : Operand} (v p : Word) (h : CanStore s op) :
    ∃ u, storeOperand s op v = .ok u ∧ u.flags = s.flags ∧ u.sr.timer = s.sr.timer ∧
      u.pc = s.pc ∧ ∀ t, Ticked (u.setPc p) t → t.pc = p ∧ t.flags = s.flags ∧
        WroteTo op v s t := by
  rcases storeOperand_of v h with ⟨q, rfl, hu⟩ | ⟨pa, hpa, hu⟩
  · refine ⟨_, hu, by simp, by simp, by simp, fun t ht => ?_⟩
    obtain ⟨a, b, c⟩ := ht.onlyReg
    exact ⟨b, c.flags, c.wroteTo a⟩
  · refine ⟨_, hu, rfl, rfl, rfl, fun t ht => ?_⟩
    obtain ⟨a, b, c⟩ := ht.onlyWord
    exact ⟨a, b.flags, b.wroteTo hpa c⟩

/-- A push, the pc set, then a tick (R153). -/
theorem pushed_ticked {s : State} {pa : Word} (v p : Word) (h : target s (s.sp - 1) = .ok pa) :
    ∃ u, push s v = .ok u ∧ u.flags = s.flags ∧ u.sr.timer = s.sr.timer ∧ u.pc = s.pc ∧
      ∀ t, Ticked (u.setPc p) t → t.pc = p ∧ PushedWord pa v s t := by
  refine ⟨_, push_of v h, by simp, by simp, by simp, fun t ht => ?_⟩
  have hreg (q : Reg) : t.getReg q = (s.setReg .sp (s.sp - 1)).getReg q :=
    (ht.getReg q).trans (getReg_congr rfl rfl ⟨rfl, rfl, rfl, rfl⟩ q)
  refine ⟨ht.pc, ⟨ht.frame ?_ ?_ ?_ ?_ ?_, ?_, ?_, fun q hq => ?_, ?_, ?_, fun a ha => ?_⟩⟩
  · simp [SameControls]
  · simp
  · simp
  · simp
  · simp
  · have := hreg .sp
    simpa [State.getReg, State.setReg] using this
  · rw [ht.word]
    exact word_poke_same _ pa v
  · rw [hreg, getReg_setReg_ne s _ hq]
  · obtain ⟨a, b, c, d⟩ := ht.pointers
    unfold SameOtherBank
    split
    · rename_i hs
      obtain ⟨e, f⟩ := setReg_user_bank s .sp (s.sp - 1) hs
      exact ⟨c.trans e, d.trans f⟩
    · rename_i hs
      obtain ⟨e, f⟩ := setReg_system_bank s .sp (s.sp - 1) (by simpa using hs)
      exact ⟨a.trans e, b.trans f⟩
  · rw [ht.flags]; simp
  · rw [ht.word]
    exact (word_poke_ne _ pa v ha).trans (by simp [State.word])

/-- A free bit or word changes the count of draws alone. -/
theorem Ticked.of_setDraws {u t : State} {n : Nat} (h : Ticked (u.setDraws n) t) : Ticked u t :=
  ⟨h.gpr, h.pc, h.flags, h.mem, h.world, h.cfg, h.nesting, h.sr⟩

end Sys2Proof.Machine
end

