-- ==== Sys2Proof/Laws/PerInstr.lean ====
section
/-! SUPPORT. Statements about every instruction as syntax, one lemma per constructor: the operation number an
instruction's word carries is its row in spec/opcode_table.json (the default encoding, log entry 1). -/

namespace Sys2Proof.Laws.OpcodeField

/-- Bits 31..27 of an instruction's word are its operation number, whatever its operands. -/
def Statement (i : Instr) : Prop := operationField (encodeWord i) = operationNumber i

theorem getsr (r : Reg) (op : Operand) : Statement (.getsr r op) := operationField_append _ _

theorem setsr (r : Reg) (op : Operand) : Statement (.setsr r op) := operationField_append _ _

theorem getfl (r : Reg) (op : Operand) : Statement (.getfl r op) := operationField_append _ _

theorem setfl (r : Reg) (op : Operand) : Statement (.setfl r op) := operationField_append _ _

theorem flagsj (r : Reg) (op : Operand) : Statement (.flagsj r op) := operationField_append _ _

theorem comp (r : Reg) (op : Operand) : Statement (.comp r op) := operationField_append _ _

theorem compz (op : Operand) : Statement (.compz op) := operationField_append _ _

theorem jcond (c : Cond) (op : Operand) : Statement (.jcond c op) := operationField_append _ _

theorem sbit (r : Reg) (op : Operand) : Statement (.sbit r op) := operationField_append _ _

theorem cbit (r : Reg) (op : Operand) : Statement (.cbit r op) := operationField_append _ _

theorem exbr (r : Reg) (op : Operand) : Statement (.exbr r op) := operationField_append _ _

theorem dpbr (r : Reg) (op : Operand) : Statement (.dpbr r op) := operationField_append _ _

theorem exbrv (r : Reg) (op : Operand) : Statement (.exbrv r op) := operationField_append _ _

theorem dpbrv (r : Reg) (op : Operand) : Statement (.dpbrv r op) := operationField_append _ _

theorem load (r : Reg) (op : Operand) : Statement (.load r op) := operationField_append _ _

theorem store (r : Reg) (op : Operand) : Statement (.store r op) := operationField_append _ _

theorem push (op : Operand) : Statement (.push op) := operationField_append _ _

theorem inc (op : Operand) : Statement (.inc op) := operationField_append _ _

theorem call (op : Operand) : Statement (.call op) := operationField_append _ _

theorem ret : Statement .ret := operationField_append _ _

theorem syscall (op : Operand) : Statement (.syscall op) := operationField_append _ _

theorem iret : Statement .iret := operationField_append _ _

theorem halt : Statement .halt := operationField_append _ _

theorem phload (r : Reg) (op : Operand) : Statement (.phload r op) := operationField_append _ _

theorem phstore (r : Reg) (op : Operand) : Statement (.phstore r op) := operationField_append _ _

theorem clrpp : Statement .clrpp := operationField_append _ _

theorem peri (r : Reg) (op : Operand) : Statement (.peri r op) := operationField_append _ _

end Sys2Proof.Laws.OpcodeField
end

