-- ==== Sys2Proof/Laws/PeriEnd.lean ====
section
/-! SUPPORT. How a PERI ends (R190, R192), and what moving words and packed bytes to memory does with VM
off. -/

namespace Sys2Proof.Machine

/-- A PERI whose operation ends with a result ends with it in the main register and its sign in ERR. -/
theorem exec_peri_ended {s u : State} {r : Reg} {op : Operand} {cs result : Word} (hs : Ready s)
    (hsys : s.flags.sys = true) (hv : val s op = .ok cs)
    (hp : periOperation cs s = .ok (result, u)) :
    ∃ t, exec (.peri r op) s = .next t ∧ PeriEnded r result u.world s t ∧ t.mem = u.mem := by
  have hk := keeps_periOperation cs s result u hp
  have hex : exec (.peri r op) s = complete (periDone r result u) := by
    simp [exec, execPeri, privileged_system _ hsys, hv, hp]
  have hfl : (periDone r result u).flags = s.flags.set .err (errOf result) := by
    simp [periDone, hk.flags]
  obtain ⟨t, h1, h2⟩ := complete_ticked (u := periDone r result u)
    (by rw [hfl]; exact hs.1) (by simpa [periDone, hk.sr] using hs.2)
  have hreg (q : Reg) : t.getReg q = (u.setReg r result).getReg q :=
    (h2.getReg q).trans (getReg_congr (by simp [periDone]) (by simp [periDone, Flags.set])
      (by simp [periDone]) q)
  have hu (q : Reg) : u.getReg q = s.getReg q :=
    getReg_congr hk.gpr (by rw [hk.flags]) (by simp [hk.sr]) q
  refine ⟨t, hex.trans h1, ⟨?_, ?_, ?_, ?_, ?_, ?_, ?_, ?_, ?_, ?_, ?_⟩, ?_⟩
  · rw [hreg]; simp
  · rw [h2.flags, hfl]; rfl
  · rw [h2.flags, hfl]; exact ⟨rfl, rfl, rfl, rfl, rfl, rfl⟩
  · intro q hq; rw [hreg, getReg_setReg_ne u result hq, hu]
  · obtain ⟨a, b, c, d⟩ := h2.pointers
    obtain ⟨e, f⟩ := setReg_user_bank u r result (by rw [hk.flags]; exact hsys)
    unfold SameOtherBank
    rw [if_pos hsys, c, d]
    simp only [periDone, advance_sr, setFlags_sr]
    rw [e, f, hk.sr]
    exact ⟨rfl, rfl⟩
  · obtain ⟨a, b, c, d, e⟩ := h2.controls
    refine ⟨a.trans ?_, b.trans ?_, c.trans ?_, d.trans ?_, e.trans ?_⟩ <;>
      simp [periDone, hk.sr]
  · rw [h2.timer]; simp [periDone, hk.sr]
  · rw [h2.world]; simp [periDone]
  · rw [h2.cfg]; simp [periDone, hk.cfg]
  · rw [h2.nesting]; simp [periDone, hk.nesting]
  · rw [h2.pc]; simp [periDone, hk.pc]
  · rw [h2.mem]; simp [periDone]

/-- A control structure whose first word is an operation's number runs that operation (R191). -/
theorem periOperation_of {s : State} {cs code : Word} {o : PeriOp} (hm : memRead s cs = .ok code)
    (ho : periOpOf s code = some o) : periOperation cs s = runPeriOp o cs s := by
  simp [periOperation, param, hm, access, ho]

/-- A PERI that is ready and whose operation ends with a result. -/
theorem exec_peri_ready {s u : State} {r : Reg} {op : Operand} {cs result : Word} {o : PeriOp}
    (h : PeriReady s op cs o) (hp : runPeriOp o cs s = .ok (result, u)) :
    ∃ t, exec (.peri r op) s = .next t ∧ PeriEnded r result u.world s t ∧ t.mem = u.mem := by
  obtain ⟨hs, hsys, hv, code, hm, ho⟩ := h
  exact exec_peri_ended hs hsys hv ((periOperation_of hm ho).trans hp)

/-- A PERI that is ready and whose operation is refused is refused. -/
theorem exec_peri_refused {s : State} {r : Reg} {op : Operand} {cs : Word} {o : PeriOp} {x : Refusal}
    (h : PeriReady s op cs o) (hp : runPeriOp o cs s = .stop (.refusal x)) :
    exec (.peri r op) s = .refused x := by
  obtain ⟨-, hsys, hv, code, hm, ho⟩ := h
  have hop : periOperation cs s = .stop (.refusal x) := (periOperation_of hm ho).trans hp
  simp [exec, execPeri, privileged_system _ hsys, hv, hop, finish, Stop.outcome]

/-! ### The words of the control structure (R191, R195) -/

theorem withParam1_ok {s : State} {cs a : Word} {k : Word → PeriRes}
    (h1 : memRead s (cs + 1) = .ok a) : withParam1 s cs k = k a := by
  have h1' : param s cs 1 = .ok a := h1
  simp [withParam1, access, h1']

theorem withParam1_raise {s : State} {cs : Word} {k : Word → PeriRes} {c : Cause}
    {addr info : Option Word} (h1 : memRead s (cs + 1) = .raise c addr info) :
    withParam1 s cs k = answer errReadParams s := by
  have h1' : param s cs 1 = .raise c addr info := h1
  simp [withParam1, access, h1']

theorem withParams2_ok {s : State} {cs a b : Word} {k : Word → Word → PeriRes}
    (h1 : memRead s (cs + 1) = .ok a) (h2 : memRead s (cs + 2) = .ok b) :
    withParams2 s cs k = k a b := by
  have h2' : param s cs 2 = .ok b := h2
  simp [withParams2, withParam1_ok h1, access, h2']

theorem withParams3_ok {s : State} {cs a b c : Word} {k : Word → Word → Word → PeriRes}
    (h1 : memRead s (cs + 1) = .ok a) (h2 : memRead s (cs + 2) = .ok b)
    (h3 : memRead s (cs + 3) = .ok c) : withParams3 s cs k = k a b c := by
  have h3' : param s cs 3 = .ok c := h3
  simp [withParams3, withParams2_ok h1 h2, access, h3']

theorem withParams4_ok {s : State} {cs a b c d : Word} {k : Word → Word → Word → Word → PeriRes}
    (h1 : memRead s (cs + 1) = .ok a) (h2 : memRead s (cs + 2) = .ok b)
    (h3 : memRead s (cs + 3) = .ok c) (h4 : memRead s (cs + 4) = .ok d) :
    withParams4 s cs k = k a b c d := by
  have h4' : param s cs 4 = .ok d := h4
  simp [withParams4, withParams3_ok h1 h2 h3, access, h4']

/-- The number of a drive or tape unit names it. -/
theorem unitOfEight_succ (u : Fin 8) : unitOfEight (BitVec.ofNat 32 (u.val + 1)) = some u := by
  revert u
  decide

/-- The number of a network unit names it. -/
theorem unitOfTwo_succ (u : Fin 2) : unitOfTwo (BitVec.ofNat 32 (u.val + 1)) = some u := by
  revert u
  decide

/-! ### Words stored one after another -/

/-- An item stores its value wherever its mask defines it. -/
theorem item_draw (i : Item) (s : State) : (i.draw s).1 &&& i.mask = i.value &&& i.mask := by
  unfold Item.draw
  split
  · rfl
  · simp only [drawWord]
    apply BitVec.eq_of_getLsbD_eq
    intro k hk
    simp only [BitVec.getLsbD_and, BitVec.getLsbD_or, BitVec.getLsbD_not]
    cases i.mask.getLsbD k <;> simp

theorem offset_succ (a : Word) (k : Nat) :
    a + BitVec.ofNat 32 (k + 1) = a + 1 + BitVec.ofNat 32 k := by
  rw [BitVec.ofNat_add]
  bv_omega

theorem offset_ne {a : Word} {j k : Nat} (hj : j < 2 ^ 32) (hk : k < 2 ^ 32) (h : j ≠ k) :
    (a + BitVec.ofNat 32 j).toNat ≠ (a + BitVec.ofNat 32 k).toNat := by
  simp only [BitVec.toNat_add, BitVec.toNat_ofNat]
  have := a.isLt
  omega

/-- Items stored with VM off where all their addresses exist: each word holds what its item defines, and
nothing else changes. -/
theorem storeItems_physical {is : List Item} {a : Word} {s : State}
    (hroom : Room s a is.length) (hlen : is.length ≤ 2 ^ 32) :
    ∃ t, storeItems is a s = .ok t ∧ t.world = s.world ∧ SameMemoryOutside a is.length s t ∧
      ∀ k (h : k < is.length), ∃ w, t.word (a + BitVec.ofNat 32 k).toNat = some w ∧
        w &&& is[k].mask = is[k].value &&& is[k].mask := by
  induction is generalizing a s with
  | nil => exact ⟨s, rfl, rfl, fun _ _ => rfl, fun k h => absurd h (by simp)⟩
  | cons i is ih =>
    obtain ⟨hvm, hv⟩ := hroom
    simp only [List.length_cons] at hv hlen
    have hp := periStep_itemDraw i s
    have hdm : (i.draw s).2.mem = s.mem ∧ (i.draw s).2.world = s.world := by
      unfold Item.draw; split <;> exact ⟨rfl, rfl⟩
    have hd := item_draw i s
    have ha : physValid s a = true := by simpa using hv 0 (by omega)
    have hw : memWrite (i.draw s).2 a (i.draw s).1 = .ok ((i.draw s).2.poke a (i.draw s).1) := by
      apply memWrite_of
      rw [target_physical _ (by rw [hp.flags]; exact hvm), physValid_congr a hp.cfg, ha]
      rfl
    obtain ⟨t, h1, h2, h3, h4⟩ := ih (a := a + 1) (s := (i.draw s).2.poke a (i.draw s).1)
      ⟨by rw [poke_flags, hp.flags]; exact hvm, fun k hk => by
        rw [← offset_succ, physValid_congr (s := s) _ (by rw [poke_cfg, hp.cfg])]
        exact hv (k + 1) (by omega)⟩ (by omega)
    refine ⟨t, ?_, by rw [h2, poke_world, hdm.2], fun b hb => ?_, fun k hk => ?_⟩
    · show ((memWrite (i.draw s).2 a (i.draw s).1).bind fun u => storeItems is (a + 1) u) = _
      rw [hw]
      exact h1
    · have h0 : b ≠ a.toNat := by simpa using hb 0 (by simp)
      rw [h3 b fun k hk => by rw [← offset_succ]; exact hb (k + 1) (by simpa using hk),
        word_poke_ne _ _ _ h0, State.word, hdm.1]
      rfl
    · cases k with
      | zero =>
        refine ⟨(i.draw s).1, ?_, hd⟩
        rw [h3 _ fun k hk => ?_]
        · simp
        · rw [← offset_succ]
          exact offset_ne (j := 0) (by omega) (by omega) (by omega)
      | succ k =>
        obtain ⟨w, h5, h6⟩ := h4 k (by simpa using hk)
        exact ⟨w, by rw [offset_succ]; exact h5, by simpa using h6⟩

/-- Free values stored at physical addresses change no other word and nothing of the world. -/
theorem scribbleAts_frame (pas : List Word) (s : State) :
    (pas.foldl scribbleAt s).world = s.world ∧
      ∀ b, (∀ pa ∈ pas, b ≠ pa.toNat) → (pas.foldl scribbleAt s).word b = s.word b := by
  induction pas generalizing s with
  | nil => exact ⟨rfl, fun _ _ => rfl⟩
  | cons pa pas ih =>
    obtain ⟨h1, h2⟩ := ih (scribbleAt s pa)
    refine ⟨h1, fun b hb => ?_⟩
    rw [List.foldl_cons, h2 b fun q hq => hb q (by simp [hq])]
    exact word_poke_ne _ _ _ (hb pa (by simp))

/-- With VM off the places of stores are their own addresses, and the stores change nothing else. -/
theorem scribblePlaces_frame {s : State} (as : List Word) (hvm : s.flags.vm = false) :
    (scribblePlaces as s).2.world = s.world ∧ (∀ pa ∈ (scribblePlaces as s).1, pa ∈ as) ∧
      ∀ b, (∀ a ∈ as, b ≠ a.toNat) → (scribblePlaces as s).2.word b = s.word b := by
  induction as generalizing s with
  | nil => exact ⟨rfl, by simp [scribblePlaces], fun _ _ => rfl⟩
  | cons a as ih =>
    unfold scribblePlaces
    split
    · rename_i pa hpa
      have hp : pa = a := by
        rw [target_physical _ hvm] at hpa
        split at hpa
        · exact (Res.ok.inj hpa).symm
        · cases hpa
      subst hp
      obtain ⟨h1, h2, h3⟩ := ih (s := scribbleAt s pa) hvm
      refine ⟨h1, fun q hq => ?_, fun b hb => ?_⟩
      · rcases List.mem_cons.1 hq with rfl | hq
        · exact List.mem_cons_self
        · exact List.mem_cons_of_mem _ (h2 q hq)
      · exact (h3 b fun q hq => hb q (List.mem_cons_of_mem _ hq)).trans
          (word_poke_ne _ _ _ (hb pa List.mem_cons_self))
    · obtain ⟨h1, h2, h3⟩ := ih (s := s) hvm
      exact ⟨h1, fun q hq => List.mem_cons_of_mem _ (h2 q hq),
        fun b hb => h3 b fun q hq => hb q (List.mem_cons_of_mem _ hq)⟩
    · obtain ⟨h1, h2, h3⟩ := ih (s := s) hvm
      exact ⟨h1, fun q hq => List.mem_cons_of_mem _ (h2 q hq),
        fun b hb => h3 b fun q hq => hb q (List.mem_cons_of_mem _ hq)⟩

/-- With VM off the places that items are stored to are their own addresses. -/
theorem storedPlaces_mem {is : List Item} {a : Word} {s : State} (hvm : s.flags.vm = false) :
    ∀ pa ∈ (storedPlaces is a s).1, ∃ k, k < is.length ∧ pa = a + BitVec.ofNat 32 k := by
  induction is generalizing a s with
  | nil => simp [storedPlaces]
  | cons i is ih =>
    have hd : (i.draw s).2.flags.vm = false := by rw [(periStep_itemDraw i s).flags, hvm]
    unfold storedPlaces
    dsimp only
    split
    · rename_i pa hpa
      have hp : pa = a := by
        rw [target_physical _ hd] at hpa
        split at hpa
        · exact (Res.ok.inj hpa).symm
        · cases hpa
      subst hp
      intro q hq
      rcases List.mem_cons.1 hq with rfl | hq
      · exact ⟨0, by simp, by simp⟩
      · obtain ⟨k, hk, rfl⟩ := ih (a := pa + 1) (s := (i.draw s).2.poke pa (i.draw s).1) hd q hq
        exact ⟨k + 1, by simpa using hk, (offset_succ _ _).symm⟩
    · simp
    · simp

/-- What a failed operation may leave lies, with VM off, within the words it stored to and could have (U10). -/
theorem scribbleOver_frame {done : List Word} {s : State} (as : List Word) (hvm : s.flags.vm = false) :
    (scribbleOver done as s).world = s.world ∧
      ∀ b, (∀ a ∈ done ++ as, b ≠ a.toNat) → (scribbleOver done as s).word b = s.word b := by
  obtain ⟨h1, h2, h3⟩ := scribblePlaces_frame as hvm
  obtain ⟨h4, h5⟩ := scribbleAts_frame (done ++ (scribblePlaces as s).1) (scribblePlaces as s).2
  refine ⟨h4.trans h1, fun b hb => (h5 b fun pa hpa => hb pa ?_).trans
    (h3 b fun a ha => hb a (by simp [ha]))⟩
  rcases List.mem_append.1 hpa with h | h
  · simp [h]
  · simp [h2 pa h]

theorem scribbleAll_frame {s : State} (as : List Word) (hvm : s.flags.vm = false) :
    (scribbleAll s as).world = s.world ∧
      ∀ b, (∀ a ∈ as, b ≠ a.toNat) → (scribbleAll s as).word b = s.word b :=
  scribbleOver_frame as hvm

/-- The addresses of a range. -/
theorem mem_addressRange {a b : Word} {n : Nat} (h : b ∈ addressRange a n) :
    ∃ k, k < n ∧ b = a + BitVec.ofNat 32 k := by
  obtain ⟨k, hk, rfl⟩ := List.mem_map.1 h
  exact ⟨k, List.mem_range.1 hk, rfl⟩

theorem scribble_frame {s : State} (a : Word) (n : Nat) (hvm : s.flags.vm = false) :
    (scribble s a n).world = s.world ∧ SameMemoryOutside a n s (scribble s a n) := by
  obtain ⟨h1, h2⟩ := scribbleAll_frame (addressRange a n) hvm
  refine ⟨h1, fun b hb => h2 b fun c hc => ?_⟩
  obtain ⟨k, hk, rfl⟩ := mem_addressRange hc
  exact hb k hk

/-- What a failed transfer leaves lies, with VM off, within the words of its range (U10). -/
theorem failedStores_frame {s : State} {is : List Item} (a : Word) {n : Nat} (hn : is.length ≤ n)
    (hvm : s.flags.vm = false) :
    (failedStores s is a n).world = s.world ∧ SameMemoryOutside a n s (failedStores s is a n) := by
  obtain ⟨h1, h2⟩ := scribbleOver_frame (done := (storedPlaces is a s).1)
    (s := s.setDraws (storedPlaces is a s).2.draws) (addressRange a n) hvm
  refine ⟨h1, fun b hb => h2 b fun c hc => ?_⟩
  rcases List.mem_append.1 hc with hc | hc
  · obtain ⟨k, hk, rfl⟩ := storedPlaces_mem hvm c hc
    exact hb k (by omega)
  · obtain ⟨k, hk, rfl⟩ := mem_addressRange hc
    exact hb k hk

/-! ### Packed bytes -/

/-- Byte `j` of a packed group is byte `j` of the group, and zero beyond it (R62). -/
theorem packWord_byte (bs : List Byte) (j : Nat) (hj : j < 4) (h4 : bs.length ≤ 4) :
    (packWord bs).extractLsb' (8 * j) 8 = bs.getD j 0 := by
  induction bs generalizing j with
  | nil => simp [packWord]
  | cons b bs ih =>
    simp only [List.length_cons] at h4
    apply BitVec.eq_of_getLsbD_eq
    intro i hi
    simp only [packWord, BitVec.getLsbD_extractLsb', BitVec.getLsbD_or, BitVec.getLsbD_shiftLeft,
      BitVec.truncate_eq_setWidth, BitVec.getLsbD_setWidth, hi, decide_true, Bool.true_and]
    cases j with
    | zero =>
      simp [hi]
      omega
    | succ j =>
      have e := congrArg (fun x => x.getLsbD i) (ih j (by omega) (by omega))
      simp only [BitVec.getLsbD_extractLsb', hi, decide_true, Bool.true_and] at e
      have h1 : ¬ 8 * (j + 1) + i < 8 := by omega
      have h2 : 8 * (j + 1) + i < 32 := by omega
      have h3 : b.getLsbD (8 * (j + 1) + i) = false := BitVec.getLsbD_of_ge _ _ (by omega)
      have h4' : 8 * (j + 1) + i - 8 = 8 * j + i := by omega
      simp only [h1, h2, h3, h4', decide_false, decide_true, Bool.not_false, Bool.true_and,
        Bool.and_false, Bool.false_or, e]
      rfl

/-- How many groups of four there are, and that no group is longer. -/
theorem chunks_length (bs : List Byte) :
    (chunks bs).length = (bs.length + 3) / 4 ∧ ∀ c ∈ chunks bs, c.length ≤ 4 := by
  induction bs using chunks.induct with
  | case1 a b c d rest ih =>
    simp only [chunks, List.length_cons, List.mem_cons, forall_eq_or_imp, List.length_nil]
    exact ⟨by omega, by omega, ih.2⟩
  | case2 => simp [chunks]
  | case3 short h1 h2 =>
    rcases short with _ | ⟨a, _ | ⟨b, _ | ⟨c, _ | ⟨d, rest⟩⟩⟩⟩
    · exact absurd rfl h2
    · simp [chunks]
    · simp [chunks]
    · simp [chunks]
    · exact absurd rfl (h1 a b c d rest)

/-- Byte `k` of a list is byte `k mod 4` of its group `k / 4`. -/
theorem chunks_get (bs : List Byte) (k : Nat) (h : k / 4 < (chunks bs).length) :
    ((chunks bs)[k / 4]).getD (k % 4) 0 = bs.getD k 0 := by
  induction bs using chunks.induct generalizing k with
  | case1 a b c d rest ih =>
    by_cases h4 : k < 4
    · interval_cases k <;> rfl
    · have e1 : k / 4 = (k - 4) / 4 + 1 := by omega
      have e2 : k % 4 = (k - 4) % 4 := by omega
      have e3 : k = (k - 4) + 1 + 1 + 1 + 1 := by omega
      have hl : (k - 4) / 4 < (chunks rest).length := by
        simp only [chunks, List.length_cons] at h
        omega
      have := ih (k - 4) hl
      simp only [chunks, e1, List.getElem_cons_succ, e2, this]
      rw [e3]
      rfl
  | case2 => simp [chunks] at h
  | case3 short h1 h2 =>
    rcases short with _ | ⟨a, _ | ⟨b, _ | ⟨c, _ | ⟨d, rest⟩⟩⟩⟩
    · exact absurd rfl h2
    · have : k < 4 := by simp [chunks] at h; omega
      interval_cases k <;> rfl
    · have : k < 4 := by simp [chunks] at h; omega
      interval_cases k <;> rfl
    · have : k < 4 := by simp [chunks] at h; omega
      interval_cases k <;> rfl
    · exact absurd rfl (h1 a b c d rest)

/-- A group reaches as far as the list does. -/
theorem chunks_reach (bs : List Byte) (k : Nat) (hk : k < bs.length)
    (h : k / 4 < (chunks bs).length) : k % 4 < ((chunks bs)[k / 4]).length := by
  induction bs using chunks.induct generalizing k with
  | case1 a b c d rest ih =>
    by_cases h4 : k < 4
    · interval_cases k <;> simp [chunks]
    · have e1 : k / 4 = (k - 4) / 4 + 1 := by omega
      have e2 : k % 4 = (k - 4) % 4 := by omega
      simp only [List.length_cons] at hk
      simp only [chunks, List.length_cons] at h
      have := ih (k - 4) (by omega) (by omega)
      simp only [chunks, e1, List.getElem_cons_succ, e2, this]
  | case2 => simp at hk
  | case3 short h1 h2 =>
    rcases short with _ | ⟨a, _ | ⟨b, _ | ⟨c, _ | ⟨d, rest⟩⟩⟩⟩
    · exact absurd rfl h2
    · simp only [List.length_cons, List.length_nil] at hk
      interval_cases k; simp [chunks]
    · simp only [List.length_cons, List.length_nil] at hk
      interval_cases k <;> simp [chunks]
    · simp only [List.length_cons, List.length_nil] at hk
      interval_cases k <;> simp [chunks]
    · exact absurd rfl (h1 a b c d rest)

/-- A byte that a mask defines whole is the value's byte. -/
theorem byte_of_masked {w v m : Word} {j : Nat} (h : w &&& m = v &&& m)
    (hm : m.extractLsb' (8 * j) 8 = 0xFF) :
    w.extractLsb' (8 * j) 8 = v.extractLsb' (8 * j) 8 := by
  have e := congrArg (fun x => x.extractLsb' (8 * j) 8) h
  have hff : (0xFF : Byte) = BitVec.allOnes 8 := by decide
  simp only [BitVec.extractLsb'_and, hm, hff, BitVec.and_allOnes] at e
  exact e

/-- The bytes of a word (R62). -/
theorem unpackWord_get (w : Word) (j : Nat) (h : j < 4) :
    (unpackWord w).getD j 0 = w.extractLsb' (8 * j) 8 := by
  interval_cases j <;> rfl

/-- Byte `k` of unpacked words is byte `k mod 4` of word `k / 4`. -/
theorem unpackWords_get (ws : List Word) (k : Nat) (h : k / 4 < ws.length) :
    (ws.flatMap unpackWord).getD k 0 = (ws[k / 4]).extractLsb' (8 * (k % 4)) 8 := by
  induction ws generalizing k with
  | nil => simp at h
  | cons w ws ih =>
    by_cases h4 : k < 4
    · interval_cases k <;> rfl
    · have e1 : k / 4 = (k - 4) / 4 + 1 := by omega
      have e2 : k % 4 = (k - 4) % 4 := by omega
      have e3 : k = (k - 4) + 1 + 1 + 1 + 1 := by omega
      have hl : (k - 4) / 4 < ws.length := by
        simp only [List.length_cons] at h
        omega
      have := ih (k - 4) hl
      simp only [e1, List.getElem_cons_succ, e2, ← this]
      rw [e3]
      rfl

theorem unpackWords_length (ws : List Word) : (ws.flatMap unpackWord).length = 4 * ws.length := by
  induction ws with
  | nil => rfl
  | cons w ws ih =>
    rw [List.flatMap_cons, List.length_append, ih, List.length_cons]
    show 4 + 4 * ws.length = _
    omega

end Sys2Proof.Machine
end

