-- ==== Sys2Proof/Laws/PeriMove.lean ====
section
/-! SUPPORT. What a peripheral operation moves, said once: its result, words and strings read, words stored,
the host's answers, network addresses. -/

namespace Sys2Proof.Machine

theorem sameMemory_of_mem {s t : State} (h : t.mem = s.mem) : SameMemory s t := fun a => by
  rw [State.word, h]
  rfl

/-! ### Results -/

/-- An operation that leaves the state as it was ends a PERI that changes nothing but its result. -/
theorem exec_peri_same {s : State} {r : Reg} {op : Operand} {cs result : Word} {o : PeriOp}
    (h : PeriReady s op cs o) (hp : runPeriOp o cs s = .ok (result, s)) :
    ∃ t, exec (.peri r op) s = .next t ∧ SameMemory s t ∧ PeriEnded r result s.world s t := by
  obtain ⟨t, h1, h2, h3⟩ := exec_peri_ready (r := r) h hp
  exact ⟨t, h1, sameMemory_of_mem h3, h2⟩

theorem masked_nonneg (w : Word) : 0 ≤ (w &&& 0x7FFFFFFF).toInt := by
  have : (w &&& 0x7FFFFFFF).toNat ≤ 0x7FFFFFFF := by
    rw [BitVec.toNat_and]
    exact Nat.and_le_right
  rw [BitVec.toInt_eq_toNat_cond, if_pos (by omega)]
  exact Int.natCast_nonneg _

/-- An unstated success is zero or positive, and changes neither memory nor the world (U18). -/
theorem answerUnstated_ok (s : State) :
    ∃ w u, answerUnstated s = .ok (w, u) ∧ 0 ≤ w.toInt ∧ u.mem = s.mem ∧ u.world = s.world :=
  ⟨_, _, rfl, masked_nonneg _, rfl, rfl⟩

/-- Drawing free words moves the counter of draws alone (log entry 5). -/
theorem drawWords_state (k : Nat) (s : State) :
    (drawWords k s).2 = s.setDraws (drawWords k s).2.draws := by
  induction k generalizing s with
  | zero => rfl
  | succ k ih =>
    show (drawWords k (drawWord s).2).2 = _
    rw [ih]
    rfl

/-- A count is the result wherever a word holds it as a positive number (log entry 36). -/
theorem answerCount_ok (n : Nat) (s : State) :
    ∃ w u, answerCount n s = .ok (w, u) ∧ CountIs n w ∧ u.mem = s.mem ∧ u.world = s.world := by
  unfold answerCount
  split
  · rename_i h
    refine ⟨_, _, rfl, ⟨?_, fun _ => rfl⟩, rfl, rfl⟩
    rw [BitVec.toInt_eq_toNat_cond, BitVec.toNat_ofNat, Nat.mod_eq_of_lt (by omega),
      if_pos (by omega)]
    exact Int.natCast_nonneg _
  · rename_i h
    obtain ⟨w, u, h1, h2, h3, h4⟩ := answerUnstated_ok s
    exact ⟨w, u, h1, ⟨h2, fun h' => absurd h' h⟩, h3, h4⟩

/-- Where the twenty numbers are distinct, each selects its own operation (R191). -/
theorem periOpOf_periCodeOf {s : State} (h : s.cfg.periCode.toList.Nodup) (o : PeriOp) :
    periOpOf s (periCodeOf s o) = some o := by
  have index : ∀ p q : PeriOp, periIndex p = periIndex q → p = q := by
    intro p q
    cases p <;> cases q <;> first | (intro _; rfl) | (intro e; exact absurd e (by decide))
  have inj : ∀ p : PeriOp, periCodeOf s p = periCodeOf s o → p = o := by
    intro p e
    have hl : s.cfg.periCode.toList.length = 20 := by simp
    exact index p o (Fin.ext ((List.Nodup.getElem_inj_iff h (hi := by rw [hl]; exact (periIndex p).isLt)
      (hj := by rw [hl]; exact (periIndex o).isLt)).1 (by simpa [periCodeOf] using e)))
  unfold periOpOf
  have hmem : o ∈ periOps := by cases o <;> decide
  cases hf : periOps.find? fun p => periCodeOf s p == periCodeOf s o with
  | none => exact absurd (List.find?_eq_none.1 hf o hmem) (by simp)
  | some p => rw [inj p (by simpa using List.find?_some hf)]

/-- A number below 1 or above 8 names no drive and no tape unit. -/
theorem unitOfEight_none {n : Word} (h : n.toInt < 1 ∨ 8 < n.toInt) : unitOfEight n = none := by
  unfold unitOfEight
  have e := BitVec.toInt_eq_toNat_cond n
  have := n.isLt
  rw [dif_neg]
  split at e <;> omega

/-- A number below 1 or above 2 names no network unit. -/
theorem unitOfTwo_none {n : Word} (h : n.toInt < 1 ∨ 2 < n.toInt) : unitOfTwo n = none := by
  unfold unitOfTwo
  have e := BitVec.toInt_eq_toNat_cond n
  have := n.isLt
  rw [dif_neg]
  split at e <;> omega

/-! ### Words read -/

/-- Words that can all be read are read, each from its own address. -/
theorem readWords_ok {s : State} {a : Word} {n : Nat} (h : Reads s a n) :
    ∃ ws, readWords s a n = .ok ws ∧ ws.length = n ∧
      ∀ j (hj : j < ws.length), memRead s (a + BitVec.ofNat 32 j) = .ok ws[j] := by
  induction n generalizing a with
  | zero => exact ⟨[], rfl, rfl, fun j hj => absurd hj (by simp)⟩
  | succ n ih =>
    obtain ⟨w, hw⟩ := h 0 (by omega)
    obtain ⟨ws, h1, h2, h3⟩ := ih (a := a + 1) fun j hj => by
      rw [← offset_succ]
      exact h (j + 1) (by omega)
    have hw' : memRead s a = .ok w := by simpa using hw
    refine ⟨w :: ws, by simp only [readWords, hw', bind_ok, h1], by simp [h2], fun j hj => ?_⟩
    cases j with
    | zero => simpa using hw
    | succ j =>
      rw [offset_succ]
      exact h3 j (by simpa using hj)

/-- One word that cannot be read fails the whole. -/
theorem readWords_fails {s : State} {a : Word} {n : Nat} (h : ReadFails s a n) :
    ∃ c addr info, readWords s a n = .raise c addr info := by
  obtain ⟨k, hk, hr, c, addr, info, hf⟩ := h
  refine ⟨c, addr, info, ?_⟩
  induction n generalizing a k with
  | zero => omega
  | succ n ih =>
    cases k with
    | zero =>
      have hf' : memRead s a = .raise c addr info := by simpa using hf
      simp only [readWords, hf', bind_raise]
    | succ k =>
      obtain ⟨w, hw⟩ := hr 0 (by omega)
      have hw' : memRead s a = .ok w := by simpa using hw
      simp only [readWords, hw', bind_ok, ih (a := a + 1) k (by omega)
        (fun j hj => by rw [← offset_succ]; exact hr (j + 1) (by omega))
        (by rw [← offset_succ]; exact hf), bind_raise]

/-- The words before the first that cannot be read are what a failed read saw. -/
theorem readablePrefix_of {s : State} {a : Word} {ws : List Word} {n : Nat} {c : Cause}
    {addr info : Option Word} (hn : ws.length < n) (h : readWords s a ws.length = .ok ws)
    (hf : memRead s (a + BitVec.ofNat 32 ws.length) = .raise c addr info) :
    readablePrefix s a n = ws := by
  induction ws generalizing a n with
  | nil =>
    cases n with
    | zero => simp at hn
    | succ n =>
      have : memRead s a = .raise c addr info := by simpa using hf
      simp [readablePrefix, this]
  | cons w ws ih =>
    cases n with
    | zero => simp at hn
    | succ n =>
      rw [List.length_cons, readWords] at h
      obtain ⟨v, h1, h2⟩ := bind_eq_ok h
      obtain ⟨vs, h3, h4⟩ := bind_eq_ok h2
      simp only [Res.ok.injEq, List.cons.injEq] at h4
      obtain ⟨rfl, rfl⟩ := h4
      rw [List.length_cons, offset_succ] at hf
      rw [readablePrefix, h1]
      simp only
      rw [ih (by simpa using hn) h3 hf]

/-- An input of the control structure that cannot be read is -2, whatever the operation (R195). -/
theorem runPeriOp_readParams {s : State} {cs : Word} (o : PeriOp)
    (h : ReadFails s (cs + 1) (inputWords o)) : runPeriOp o cs s = answer errReadParams s := by
  obtain ⟨k, hk, hr, c, addr, info, hf⟩ := h
  have input : ∀ j, param s cs (j + 1) = memRead s (cs + 1 + BitVec.ofNat 32 j) := fun j => by
    rw [param, offset_succ]
  have ok : ∀ j, j < k → ∃ w, param s cs (j + 1) = .ok w := fun j hj => by
    rw [input]
    exact hr j hj
  have bad : param s cs (k + 1) = .raise c addr info := (input k).trans hf
  have params : (∀ f, 0 = k → withParam1 s cs f = answer errReadParams s) ∧
      (∀ f, k < 2 → withParams2 s cs f = answer errReadParams s) ∧
      (∀ f, k < 3 → withParams3 s cs f = answer errReadParams s) ∧
      (∀ f, k < 4 → withParams4 s cs f = answer errReadParams s) := by
    have p1 : ∀ f, 0 = k → withParam1 s cs f = answer errReadParams s := by
      rintro f rfl
      simp [withParam1, access, bad]
    have p2 : ∀ f, k < 2 → withParams2 s cs f = answer errReadParams s := fun f h2 => by
      by_cases h1 : k = 1
      · subst h1
        obtain ⟨w, hw⟩ := ok 0 (by omega)
        simp [withParams2, withParam1, access, hw, bad]
      · exact p1 _ (by omega)
    have p3 : ∀ f, k < 3 → withParams3 s cs f = answer errReadParams s := fun f h3 => by
      by_cases h2 : k = 2
      · subst h2
        obtain ⟨w, hw⟩ := ok 0 (by omega)
        obtain ⟨v, hv⟩ := ok 1 (by omega)
        simp [withParams3, withParams2, withParam1, access, hw, hv, bad]
      · exact p2 _ (by omega)
    refine ⟨p1, p2, p3, fun f h4 => ?_⟩
    by_cases h3 : k = 3
    · subst h3
      obtain ⟨w, hw⟩ := ok 0 (by omega)
      obtain ⟨v, hv⟩ := ok 1 (by omega)
      obtain ⟨u, hu⟩ := ok 2 (by omega)
      simp [withParams4, withParams3, withParams2, withParam1, access, hw, hv, hu, bad]
    · exact p3 _ (by omega)
  obtain ⟨p1, p2, p3, p4⟩ := params
  cases o <;> simp only [inputWords] at hk <;>
    first
    | omega
    | exact p1 _ (by omega)
    | exact p2 _ hk
    | exact p3 _ hk
    | exact p4 _ hk

/-- A word that holds some byte of packed data, with VM off. -/
theorem memRead_of_byteAt {s : State} {a : Word} {k : Nat} {c : Byte} (hvm : s.flags.vm = false)
    (hv : physValid s (a + BitVec.ofNat 32 (k / 4)) = true) (hb : ByteAt s a k c) :
    ∃ w, memRead s (a + BitVec.ofNat 32 (k / 4)) = .ok w ∧
      w.extractLsb' (8 * (k % 4)) 8 = c := by
  obtain ⟨w, h1, h2⟩ := hb
  exact ⟨w, by rw [memRead_physical _ hvm]; exact physRead_of hv h1, h2⟩

/-- Packed bytes read back are those bytes (R62). -/
theorem readWords_packed {s : State} {a : Word} {bytes : List Byte} (h : PackedAt s a bytes) :
    ∃ ws, readWords s a ((bytes.length + 3) / 4) = .ok ws ∧
      (ws.flatMap unpackWord).take bytes.length = bytes := by
  obtain ⟨⟨hvm, hv⟩, hb⟩ := h
  obtain ⟨ws, h1, h2, h3⟩ := readWords_ok (s := s) (a := a) (n := (bytes.length + 3) / 4) (by
    intro j hj
    have hk := hb (4 * j) (by omega)
    obtain ⟨w, hw, -⟩ := memRead_of_byteAt hvm (hv _ (by omega)) hk
    rw [show 4 * j / 4 = j by omega] at hw
    exact ⟨w, hw⟩)
  refine ⟨ws, h1, List.ext_getElem ?_ fun k hk hk' => ?_⟩
  · rw [List.length_take, unpackWords_length, h2]
    omega
  · have hk4 : k / 4 < ws.length := by omega
    obtain ⟨w, hw, hwb⟩ := memRead_of_byteAt hvm (hv (k / 4) (by omega)) (hb k hk')
    rw [h3 _ hk4] at hw
    cases hw
    have e := unpackWords_get ws k hk4
    rw [List.getD_eq_getElem _ _ (by rw [unpackWords_length]; omega)] at e
    rw [List.getElem_take, e, hwb, List.getD_eq_getElem _ _ hk']

/-- Bytes before the first zero of four are what `takeWhile` keeps. -/
theorem takeWhile_nonzero {l chars : List Byte} (hlt : chars.length < l.length) (h0 : 0 ∉ chars)
    (hz : l.getD chars.length 0 = 0)
    (hb : ∀ k : Nat, k < chars.length → l.getD k 0 = chars.getD k 0) :
    l.takeWhile (· != 0) = chars := by
  induction chars generalizing l with
  | nil =>
    cases l with
    | nil => rfl
    | cons x l =>
      have : x = 0 := by simpa using hz
      simp [this]
  | cons c chars ih =>
    cases l with
    | nil => simp at hlt
    | cons x l =>
      have hx : x = c := by simpa using hb 0 (by simp)
      simp only [List.mem_cons, not_or] at h0
      have hne : (x != 0) = true := by
        rw [hx]
        exact bne_iff_ne.2 (Ne.symm h0.1)
      rw [List.takeWhile_cons, if_pos hne, hx,
        ih (by simpa using hlt) h0.2 (by simpa using hz)
          fun k hk => by simpa using hb (k + 1) (by simpa using hk)]

/-- A zero-terminated packed string is read to its zero byte (R62). -/
theorem readString_of {s : State} {chars : List Byte} {a : Word} {n : Nat}
    (h : PackedAt s a (chars ++ [0])) (h0 : 0 ∉ chars) (hn : chars.length / 4 < n) :
    readString s a n = .ok chars := by
  induction n generalizing a chars with
  | zero => omega
  | succ n ih =>
    obtain ⟨⟨hvm, hv⟩, hb⟩ := h
    simp only [List.length_append, List.length_cons, List.length_nil] at hv hb
    obtain ⟨w, hw, -⟩ := memRead_of_byteAt (k := 0) hvm (hv _ (by omega)) (hb 0 (by omega))
    have hw' : memRead s a = .ok w := by simpa using hw
    have hbyte : ∀ k : Nat, k < 4 → k < chars.length + 1 →
        (unpackWord w).getD k 0 = (chars ++ [0]).getD k 0 := by
      intro k hk hk'
      obtain ⟨w', h1, h2⟩ := memRead_of_byteAt hvm (hv (k / 4) (by omega)) (hb k hk')
      rw [show k / 4 = 0 by omega] at h1
      rw [hw] at h1
      cases h1
      rw [unpackWord_get _ _ hk, ← h2, show k % 4 = k by omega]
    have hlen : (unpackWord w).length = 4 := rfl
    simp only [readString, hw', bind_ok]
    by_cases h4 : 4 ≤ chars.length
    · have hsplit : unpackWord w = chars.take 4 := by
        refine List.ext_getElem (by simp [hlen]; omega) fun k hk hk' => ?_
        have := hbyte k (by omega) (by omega)
        rw [List.getD_eq_getElem _ _ hk, List.getD_append _ _ _ _ (by omega),
          List.getD_eq_getElem _ _ (by omega)] at this
        rw [this, List.getElem_take]
      have hcont : (unpackWord w).contains 0 = false := by
        rw [hsplit]
        simp only [List.contains_eq_mem, decide_eq_false_iff_not]
        exact fun hm => h0 (List.mem_of_mem_take hm)
      have hrest : PackedAt s (a + 1) (chars.drop 4 ++ [0]) := by
        refine ⟨⟨hvm, fun k hk => ?_⟩, fun k hk => ?_⟩
        · rw [← offset_succ]
          refine hv (k + 1) ?_
          simp only [List.length_append, List.length_drop, List.length_cons, List.length_nil] at hk
          omega
        · simp only [List.length_append, List.length_drop, List.length_cons, List.length_nil] at hk
          obtain ⟨v, h1, h2⟩ := hb (k + 4) (by omega)
          refine ⟨v, ?_, ?_⟩
          · rw [← offset_succ, show k / 4 + 1 = (k + 4) / 4 by omega]
            exact h1
          · rw [show k % 4 = (k + 4) % 4 by omega, h2, ← List.drop_append_of_le_length h4]
            simp [List.getD_eq_getElem?_getD, List.getElem?_drop, Nat.add_comm]
      rw [hcont]
      simp only [Bool.false_eq_true, if_false]
      rw [ih hrest (fun hm => h0 (List.mem_of_mem_drop hm)) (by
        rw [List.length_drop]
        omega), bind_ok, hsplit, List.take_append_drop]
    · have hzero : (unpackWord w).getD chars.length 0 = 0 := by
        rw [hbyte _ (by omega) (by omega)]
        simp [List.getD_eq_getElem?_getD]
      have hcont : (unpackWord w).contains 0 = true := by
        rw [List.getD_eq_getElem _ _ (by omega)] at hzero
        simp only [List.contains_eq_mem, decide_eq_true_eq]
        rw [← hzero]
        exact List.getElem_mem _
      rw [if_pos hcont, takeWhile_nonzero (by omega) h0 hzero fun k hk => by
        rw [hbyte k (by omega) (by omega), List.getD_append _ _ _ _ hk]]

/-- Words that each hold one character give those characters (R234, U16). -/
theorem wordChars_of (chars : List Byte) (k : List Byte → PeriRes) :
    wordChars (chars.map fun c => c.zeroExtend 32) k = k chars := by
  unfold wordChars
  rw [if_pos]
  · congr 1
    rw [List.map_map]
    conv_rhs => rw [← List.map_id chars]
    congr 1
    funext c
    apply BitVec.eq_of_getLsbD_eq
    intro i hi
    simp [hi]
    omega
  · simp only [List.all_map, List.all_eq_true, Function.comp_apply, decide_eq_true_eq]
    intro c _
    have := c.isLt
    simp
    omega

/-- A word that holds more than a character is refused (R234, U16). -/
theorem wordChars_wide {ws : List Word} (h : ∃ w ∈ ws, 256 ≤ w.toNat) (k : List Byte → PeriRes) :
    wordChars ws k = .stop (.refusal .wideCharacter) := by
  obtain ⟨w, hw, h⟩ := h
  unfold wordChars
  rw [if_neg]
  intro hall
  have := List.all_eq_true.1 hall w hw
  simp only [decide_eq_true_eq] at this
  omega

/-- The first word and the rest of words that stand from an address on. -/
theorem wordsAt_cons {s : State} {a w : Word} {ws : List Word} (h : WordsAt s a (w :: ws)) :
    memRead s a = .ok w ∧ WordsAt s (a + 1) ws := by
  refine ⟨by simpa using h 0 (by simp), fun k hk => ?_⟩
  rw [← offset_succ]
  simpa using h (k + 1) (by simpa using hk)

/-- Words that stand from an address on are what reading them gives. -/
theorem readWords_at {s : State} {a : Word} {ws : List Word} (h : WordsAt s a ws) :
    readWords s a ws.length = .ok ws := by
  induction ws generalizing a with
  | nil => rfl
  | cons w ws ih =>
    obtain ⟨h1, h2⟩ := wordsAt_cons h
    simp only [List.length_cons, readWords, h1, bind_ok, ih h2]

/-- A word that cannot be read, before any word with a zero byte, fails the reading of a string (R62). -/
theorem readString_fails {s : State} {a : Word} {ws : List Word} {n : Nat} {c : Cause}
    {addr info : Option Word} (h : WordsAt s a ws) (h0 : ∀ w ∈ ws, 0 ∉ unpackWord w)
    (hf : memRead s (a + BitVec.ofNat 32 ws.length) = .raise c addr info) (hn : ws.length < n) :
    readString s a n = .raise c addr info := by
  induction ws generalizing a n with
  | nil =>
    cases n with
    | zero => simp at hn
    | succ n =>
      have : memRead s a = .raise c addr info := by simpa using hf
      simp [readString, this]
  | cons w ws ih =>
    cases n with
    | zero => simp at hn
    | succ n =>
      obtain ⟨h1, h2⟩ := wordsAt_cons h
      have hw : (unpackWord w).contains 0 = false := by
        simpa [List.contains_eq_mem] using h0 w (by simp)
      rw [List.length_cons, offset_succ] at hf
      simp only [readString, h1, bind_ok, hw, Bool.false_eq_true, if_false,
        ih h2 (fun v hv => h0 v (by simp [hv])) hf (by simpa using hn), bind_raise]

/-- A word that cannot be read, before any zero word, fails the reading of words to a zero word (R234). -/
theorem readUntilZero_fails {s : State} {a : Word} {ws : List Word} {n : Nat} {c : Cause}
    {addr info : Option Word} (h : WordsAt s a ws) (h0 : 0 ∉ ws)
    (hf : memRead s (a + BitVec.ofNat 32 ws.length) = .raise c addr info) (hn : ws.length < n) :
    readUntilZero s a n = .raise c addr info := by
  induction ws generalizing a n with
  | nil =>
    cases n with
    | zero => simp at hn
    | succ n =>
      have : memRead s a = .raise c addr info := by simpa using hf
      simp [readUntilZero, this]
  | cons w ws ih =>
    cases n with
    | zero => simp at hn
    | succ n =>
      obtain ⟨h1, h2⟩ := wordsAt_cons h
      simp only [List.mem_cons, not_or] at h0
      rw [List.length_cons, offset_succ] at hf
      simp only [readUntilZero, h1, bind_ok, if_neg (Ne.symm h0.1),
        ih h2 h0.2 hf (by simpa using hn), bind_raise]

/-- Words up to the first zero word are read to it (R234). -/
theorem readUntilZero_words {s : State} {a : Word} {ws : List Word} {n : Nat} (h : WordsAt s a ws)
    (h0 : 0 ∉ ws) (hz : memRead s (a + BitVec.ofNat 32 ws.length) = .ok 0) (hn : ws.length < n) :
    readUntilZero s a n = .ok ws := by
  induction ws generalizing a n with
  | nil =>
    cases n with
    | zero => simp at hn
    | succ n =>
      have : memRead s a = .ok 0 := by simpa using hz
      simp [readUntilZero, this]
  | cons w ws ih =>
    cases n with
    | zero => simp at hn
    | succ n =>
      obtain ⟨h1, h2⟩ := wordsAt_cons h
      simp only [List.mem_cons, not_or] at h0
      rw [List.length_cons, offset_succ] at hz
      simp only [readUntilZero, h1, bind_ok, if_neg (Ne.symm h0.1),
        ih h2 h0.2 hz (by simpa using hn)]

/-! ### Words stored -/

/-- One address that cannot be stored to fails the whole. -/
theorem reachable_fails {s : State} {a : Word} {n : Nat} (h : ReachFails s a n) :
    ∃ c addr info, reachable s a n = .raise c addr info := by
  obtain ⟨k, hk, hr, c, addr, info, hf⟩ := h
  refine ⟨c, addr, info, ?_⟩
  induction n generalizing a k with
  | zero => omega
  | succ n ih =>
    cases k with
    | zero =>
      have hf' : target s a = .raise c addr info := by simpa using hf
      simp only [reachable, hf', bind_raise]
    | succ k =>
      obtain ⟨pa, hpa⟩ := hr 0 (by omega)
      have hpa' : target s a = .ok pa := by simpa using hpa
      simp only [reachable, hpa', bind_ok]
      exact ih (a := a + 1) k (by omega)
        (fun j hj => by rw [← offset_succ]; exact hr (j + 1) (by omega))
        (by rw [← offset_succ]; exact hf)

/-- With VM off, items that reach an address that does not exist are not all stored. -/
theorem storeItems_fails {is : List Item} {a : Word} {s : State} {k : Nat}
    (hvm : s.flags.vm = false) (hk : k < is.length)
    (hbad : physValid s (a + BitVec.ofNat 32 k) = false) :
    ∃ c addr info, storeItems is a s = .raise c addr info := by
  induction is generalizing a s k with
  | nil => simp at hk
  | cons i is ih =>
    have hp := periStep_itemDraw i s
    have ht : target (i.draw s).2 a =
        if physValid s a then .ok a else .raise .memory (some a) none := by
      rw [target_physical _ (by rw [hp.flags]; exact hvm), physValid_congr a hp.cfg]
    by_cases ha : physValid s a = true
    · have hw : memWrite (i.draw s).2 a (i.draw s).1 = .ok ((i.draw s).2.poke a (i.draw s).1) :=
        memWrite_of _ (by rw [ht, if_pos ha])
      cases k with
      | zero =>
        rw [show a + BitVec.ofNat 32 0 = a by simp, ha] at hbad
        cases hbad
      | succ k =>
        obtain ⟨c, addr, info, h⟩ := ih (a := a + 1) (s := (i.draw s).2.poke a (i.draw s).1) (k := k)
          (by rw [poke_flags, hp.flags]; exact hvm) (by simpa using hk)
          (by rw [← offset_succ, physValid_congr (s := s) _ (by rw [poke_cfg, hp.cfg])]; exact hbad)
        refine ⟨c, addr, info, ?_⟩
        show ((memWrite (i.draw s).2 a (i.draw s).1).bind fun u => storeItems is (a + 1) u) = _
        rw [hw]
        exact h
    · refine ⟨.memory, some a, none, ?_⟩
      show ((memWrite (i.draw s).2 a (i.draw s).1).bind fun u => storeItems is (a + 1) u) = _
      simp [memWrite, ht, ha]

/-- Whole words stored with VM off where all their addresses exist (R80). -/
theorem storeWords_physical {ws : List Word} {a : Word} {s : State} (hroom : Room s a ws.length)
    (hlen : ws.length ≤ 2 ^ 32) :
    ∃ t, storeItems (ws.map Item.exact) a s = .ok t ∧ t.world = s.world ∧
      SameMemoryOutside a ws.length s t ∧
      ∀ k (h : k < ws.length), t.word (a + BitVec.ofNat 32 k).toNat = some ws[k] := by
  obtain ⟨t, h1, h2, h3, h4⟩ := storeItems_physical (is := ws.map Item.exact) (a := a) (s := s)
    (by simpa using hroom) (by simpa using hlen)
  refine ⟨t, h1, h2, by simpa using h3, fun k hk => ?_⟩
  obtain ⟨w, h5, h6⟩ := h4 k (by simpa using hk)
  have hm : (0xFFFFFFFF : Word) = BitVec.allOnes 32 := by decide
  simp only [List.getElem_map, Item.exact, hm, BitVec.and_allOnes] at h6
  rw [h5, h6]

/-- Packed bytes stored with VM off where their words exist (R62, R213). -/
theorem storeBytes_physical {bytes : List Byte} {a : Word} {s : State}
    (hroom : Room s a ((bytes.length + 3) / 4)) (hlen : (bytes.length + 3) / 4 ≤ 2 ^ 32) :
    ∃ t, storeItems ((chunks bytes).map Item.ofBytes) a s = .ok t ∧ t.world = s.world ∧
      SameMemoryOutside a ((bytes.length + 3) / 4) s t ∧
      ∀ k : Nat, k < bytes.length → ByteAt t a k (bytes.getD k 0) := by
  have hl : ((chunks bytes).map Item.ofBytes).length = (bytes.length + 3) / 4 := by
    rw [List.length_map, (chunks_length bytes).1]
  obtain ⟨t, h1, h2, h3, h4⟩ := storeItems_physical (is := (chunks bytes).map Item.ofBytes) (a := a)
    (s := s) (by rw [hl]; exact hroom) (by rw [hl]; exact hlen)
  refine ⟨t, h1, h2, by rw [hl] at h3; exact h3, fun k hk => ?_⟩
  have hck : k / 4 < (chunks bytes).length := by
    rw [(chunks_length bytes).1]
    omega
  obtain ⟨w, h5, h6⟩ := h4 (k / 4) (by simpa using hck)
  have hg : ((chunks bytes)[k / 4]).length ≤ 4 := (chunks_length _).2 _ (List.getElem_mem _)
  refine ⟨w, h5, ?_⟩
  simp only [List.getElem_map, Item.ofBytes] at h6
  rw [byte_of_masked h6, packWord_byte _ _ (by omega) hg, chunks_get]
  rw [packWord_byte _ _ (by omega) (by simpa using hg), List.getD_eq_getElem _ _ (by
    simpa using chunks_reach bytes k hk hck)]
  simp

/-- Words that can each be stored to can all be. -/
theorem reachable_of {s : State} {a : Word} {n : Nat} (h : Reaches s a n) :
    reachable s a n = .ok () := by
  induction n generalizing a with
  | zero => rfl
  | succ n ih =>
    obtain ⟨pa, hp⟩ := h 0 (by omega)
    have hp' : target s a = .ok pa := by simpa using hp
    simp only [reachable, hp', bind_ok]
    exact ih fun k hk => by
      rw [← offset_succ]
      exact h (k + 1) (by omega)

/-- Words that exist, with VM off, can be stored to. -/
theorem reaches_of_room {s : State} {a : Word} {n : Nat} (h : Room s a n) : Reaches s a n :=
  fun k hk => ⟨_, by rw [target_physical _ h.1, if_pos (h.2 k hk)]⟩

/-! ### Discs -/

/-- Words written to a disc stand at their positions, and no other position changes (R201). -/
theorem writeDiscWords_read (ws : List Word) (k : Nat) (m : Memory) :
    (∀ j (h : j < ws.length), Memory.read (writeDiscWords ws k m) (k + j) = some ws[j]) ∧
    (∀ p, p < k ∨ k + ws.length ≤ p →
      Memory.read (writeDiscWords ws k m) p = Memory.read m p) := by
  induction ws generalizing k m with
  | nil => exact ⟨fun j h => absurd h (by simp), fun p _ => rfl⟩
  | cons w ws ih =>
    obtain ⟨h1, h2⟩ := ih (k + 1) (Memory.write m k w)
    refine ⟨fun j hj => ?_, fun p hp => ?_⟩
    · cases j with
      | zero =>
        show Memory.read (writeDiscWords ws (k + 1) _) k = _
        rw [h2 k (by omega)]
        simp
      | succ j =>
        rw [show k + (j + 1) = k + 1 + j by omega]
        exact h1 j (by simpa using hj)
    · simp only [List.length_cons] at hp
      show Memory.read (writeDiscWords ws (k + 1) _) p = _
      rw [h2 p (by omega), read_write_ne _ _ (by omega)]

/-- What a failed disc write leaves: words of its run alone (U10). -/
theorem scribbleDisc_frame (s : State) (u : Fin 8) (d : Disc) (first : Word) (n : Nat) :
    (scribbleDisc s u d first n).mem = s.mem ∧
      ∃ words, SameDiscOutside (128 * first.toNat) (128 * first.toNat + n) d words ∧
        (scribbleDisc s u d first n).world =
          { s.world with discs := s.world.discs.set u (some { d with words := words }) } := by
  have e := drawWords_state n s
  refine ⟨?_, writeDiscWords (drawWords n s).1 (128 * first.toNat) d.words, fun p hp => ?_, ?_⟩
  · show (drawWords n s).2.mem = s.mem
    rw [e]
    rfl
  · exact (writeDiscWords_read _ _ _).2 p (by rw [drawWords_length]; exact hp)
  · show (setDiscWords (drawWords n s).2 u d _).world = _
    rw [e]
    rfl

theorem driveOf_succ {s : State} {u : Fin 8} {d : Disc} (h : s.world.discs[u] = some d) :
    driveOf s (BitVec.ofNat 32 (u.val + 1)) = some (u, d) := by
  simp only [Fin.getElem_fin] at h
  simp [driveOf, unitOfEight_succ, h]

theorem driveOf_absent {s : State} {u : Fin 8} (h : s.world.discs[u] = none) :
    driveOf s (BitVec.ofNat 32 (u.val + 1)) = none := by
  simp only [Fin.getElem_fin] at h
  simp [driveOf, unitOfEight_succ, h]

/-! ### Tapes -/

theorem drawUpTo_le (n : Nat) (s : State) : (drawUpTo n s).1 ≤ n :=
  Nat.le_of_lt_succ (Nat.mod_lt _ (by omega))

theorem drawBytes_length (n : Nat) (s : State) : (drawBytes n s).1.length = n := by
  rw [drawBytes, List.length_map, drawWords_length]

/-- Bytes written into a file change that file alone (R212). -/
theorem writeFile_frame (s : State) (t : Tape) {bytes : List Byte} (new : List Byte)
    (hb : tapeContent s t = some bytes) :
    (writeFile s t bytes new).mem = s.mem ∧
      ∃ files, WroteFile s t new files ∧
        (writeFile s t bytes new).world = { s.world with files := files } := by
  unfold writeFile
  split
  · rename_i h
    exact ⟨rfl, s.world.files, .inl ⟨h, rfl⟩, rfl⟩
  · rename_i h
    have e := drawWords_state (t.pos - bytes.length) s
    refine ⟨?_, _, .inr ⟨h, bytes, _, hb, drawBytes_length (t.pos - bytes.length) s, rfl⟩, ?_⟩ <;>
      simp only [drawBytes, setFileBytes, setWorld_mem, setWorld_world, writeAt] <;>
      rw [e] <;> rfl

/-- What a failed write leaves in the unit's file: some bytes, at most as many as were to be written (U10). -/
theorem scribbleFile_frame (s : State) (t : Tape) (n : Nat) :
    (scribbleFile s t n).mem = s.mem ∧
      ∃ new files, new.length ≤ n ∧ WroteFile s t new files ∧
        (scribbleFile s t n).world = { s.world with files := files } := by
  unfold scribbleFile
  split
  · exact ⟨rfl, [], s.world.files, Nat.zero_le n, .inl ⟨rfl, rfl⟩, rfl⟩
  · rename_i bytes hb
    have e := drawWords_state (drawUpTo n s).1 (drawUpTo n s).2
    obtain ⟨h1, files, h2, h3⟩ := writeFile_frame (drawBytes (drawUpTo n s).1 (drawUpTo n s).2).2 t
      (bytes := bytes) (drawBytes (drawUpTo n s).1 (drawUpTo n s).2).1 (by
        simp only [drawBytes]
        rw [e]
        exact hb)
    refine ⟨?_, _, files, (drawBytes_length _ (drawUpTo n s).2).trans_le (drawUpTo_le n s), ?_, ?_⟩
    · simp only [drawBytes] at h1 ⊢
      rw [e] at h1
      rw [e]
      exact h1
    · simp only [drawBytes] at h2
      rw [e] at h2
      exact h2
    · simp only [drawBytes] at h3 ⊢
      rw [e] at h3
      rw [e]
      exact h3

/-- What a failed write leaves: some of its bytes in the unit's file, and the position moved by at most their
number (U10). -/
theorem scribbleTape_frame (s : State) (u : Fin 8) (t : Tape) (n : Nat) :
    (scribbleTape s u t n).mem = s.mem ∧
      ∃ files pos, FailedWrite s t n files pos ∧ (scribbleTape s u t n).world =
        { s.world with
          files := files
          tapes := s.world.tapes.set u (some { t with pos := pos }) } := by
  obtain ⟨h1, new, files, h2, h3, h4⟩ := scribbleFile_frame (drawUpTo n s).2 t n
  have hle := drawUpTo_le n s
  refine ⟨h1, files, t.pos + (drawUpTo n s).1, ⟨⟨new, h2, h3⟩, by omega, by omega⟩, ?_⟩
  show (setTape (scribbleFile (drawUpTo n s).2 t n) u
    (some { t with pos := t.pos + (drawUpTo n s).1 })).world = _
  rw [setTape, setWorld_world, h4]
  rfl

/-! ### The host's answers and network addresses -/

/-- What the host answers changes only the host's own script. -/
theorem hostFails_frame (s : State) :
    (hostFails s).2 = s.setWorld (hostFails s).2.world ∧
      ∃ fs, (hostFails s).2.world =
        { s.world with host := { s.world.host with failures := fs } } := by
  unfold hostFails
  cases h : s.world.host.failures with
  | nil =>
    refine ⟨rfl, [], ?_⟩
    show s.world = _
    rw [← h]
  | cons b bs => exact ⟨rfl, bs, rfl⟩

/-- A byte placed at byte `i` of a 64-bit number reads as itself there and as zero at any other byte. -/
theorem placed_byte (x : Byte) (i j : Fin 8) :
    (x.zeroExtend 64 <<< (8 * i.val)).extractLsb' (8 * j.val) 8 = if i = j then x else 0 := by
  apply BitVec.eq_of_getLsbD_eq
  intro b hb
  simp only [BitVec.getLsbD_extractLsb', BitVec.getLsbD_shiftLeft, BitVec.getLsbD_setWidth]
  have h64 : 8 * j.val + b < 64 := by omega
  simp only [hb, h64, decide_true, Bool.true_and]
  split
  · rename_i e
    subst e
    have e1 : ¬ 8 * i.val + b < 8 * i.val := by omega
    have e2 : 8 * i.val + b - 8 * i.val = b := by omega
    have e3 : b < 64 := by omega
    simp [e1, e2, e3]
  · rename_i e
    have hne : i.val ≠ j.val := fun h => e (Fin.ext h)
    by_cases hlt : 8 * j.val + b < 8 * i.val
    · simp [hlt]
    · have : x.getLsbD (8 * j.val + b - 8 * i.val) = false := BitVec.getLsbD_of_ge _ _ (by omega)
      simp [this]

/-- The six bytes of an address put back in their places make the address. -/
theorem bytes_join (a : BitVec 48) :
    (List.finRange 6).foldl
      (fun acc k => acc ||| ((addrByte a k.val).zeroExtend 48 <<< (8 * k.val))) 0 = a := by
  apply BitVec.eq_of_getLsbD_eq
  intro i hi
  simp only [List.finRange, List.ofFn, Fin.foldr, Fin.foldr.loop, List.foldl, addrByte,
    BitVec.getLsbD_or, BitVec.getLsbD_shiftLeft, BitVec.getLsbD_setWidth, BitVec.getLsbD_extractLsb']
  interval_cases i <;> simp

/-- Bytes placed one by one: the byte at a place is what was there, and what is put there. -/
theorem placed_bytes {layout : Vector (Fin 8) 6} {a : BitVec 48} (k : Fin 6)
    (inj : ∀ j : Fin 6, layout[j] = layout[k] → j = k) (ks : List (Fin 6)) (acc : BitVec 64) :
    (ks.foldl (fun acc j =>
        acc ||| ((addrByte a j.val).zeroExtend 64 <<< (8 * (layout[j]).val))) acc).extractLsb'
        (8 * (layout[k]).val) 8 =
      acc.extractLsb' (8 * (layout[k]).val) 8 ||| if k ∈ ks then addrByte a k.val else 0 := by
  induction ks generalizing acc with
  | nil => simp
  | cons j ks ih =>
    rw [List.foldl_cons, ih, BitVec.extractLsb'_or, placed_byte, BitVec.or_assoc]
    congr 1
    by_cases e : j = k
    · subst e
      by_cases hm : j ∈ ks <;> simp [hm]
    · rw [if_neg fun h => e (inj j h)]
      simp [Ne.symm e]

/-- An address laid out in a pair and gathered from it is the address (U17). -/
theorem gather_layOut {layout : Vector (Fin 8) 6} (h : layout.toList.Nodup) (a : BitVec 48) :
    gather layout (layOut layout a) = a := by
  have inj : ∀ k j : Fin 6, layout[j] = layout[k] → j = k := by
    intro k j e
    have hl : layout.toList.length = 6 := by simp
    exact Fin.ext ((List.Nodup.getElem_inj_iff h (hi := by rw [hl]; exact j.isLt)
      (hj := by rw [hl]; exact k.isLt)).1 (by simpa using e))
  have byte : ∀ k : Fin 6,
      (layOut layout a).extractLsb' (8 * (layout[k]).val) 8 = addrByte a k.val := by
    intro k
    unfold layOut
    rw [placed_bytes k (inj k), if_pos (List.mem_finRange k)]
    simp
  unfold gather
  simp only [byte]
  exact bytes_join a

/-- An address pair stored with VM off at two words that exist (R241, R243). -/
theorem storeAddr_physical {s : State} {p : Word} (a : BitVec 48) (h : Room s p 2) :
    ∃ t, storeAddr s p a = .ok t ∧ t.world = s.world ∧ SameMemoryOutside p 2 s t ∧
      AddressAt t p a := by
  obtain ⟨t, h1, h2, h3, h4⟩ := storeWords_physical (s := s) (a := p)
    (ws := [(layOut s.cfg.netLayout a).extractLsb' 0 32, (layOut s.cfg.netLayout a).extractLsb' 32 32])
    h (by simp)
  have hc : t.cfg = s.cfg := (periStep_storeItems h1).cfg
  refine ⟨t, h1, h2, h3, _, _, by simpa using h4 0 (by simp), by simpa using h4 1 (by simp), ?_⟩
  rw [hc]
  apply BitVec.eq_of_getLsbD_eq
  intro i hi
  rw [BitVec.getLsbD_append]
  split
  · rename_i hlt
    simp [hlt]
  · rename_i hge
    have e1 : 32 + (i - 32) = i := by omega
    have e2 : i - 32 < 32 := by omega
    simp [e1, e2]

end Sys2Proof.Machine
end

