-- ==== Sys2Proof/Laws/Step.lean ====
section
/-! SUPPORT. What a step can do, said once: the host's moves, an entry through the vector, an instruction
completed (R288). -/

namespace Sys2Proof.Machine

/-- The vector entry of some cause is the pc (R23, R280). -/
def AtVector (t : State) : Prop := ∃ c : Cause, vectorEntry t c = .ok t.pc

theorem vectorEntry_setPc {t : State} {c : Cause} {h : Word} (hv : vectorEntry t c = .ok h) :
    AtVector (t.setPc h) := ⟨c, hv⟩

theorem intrFault_vector {s t : State} {orig : Cause} {addr : Option Word} {w : Word}
    (h : intrFault s orig addr w = .entered t) : AtVector t := by
  unfold intrFault at h
  simp only at h
  split at h
  · simp at h
  · simp at h
  · split at h
    · simp at h
    · split at h
      · simp at h
      · simp at h
      · split at h
        · rename_i hv
          cases h
          exact vectorEntry_setPc hv
        · simp at h
        · simp at h

theorem enter_vector {s t : State} {c : Cause} {addr info : Option Word} {p : Word}
    (h : enter s c addr info p = .entered t) : AtVector t := by
  unfold enter at h
  simp only at h
  split at h
  · exact intrFault_vector h
  · simp at h
  · split at h
    · rename_i hv
      cases h
      exact vectorEntry_setPc hv
    · exact intrFault_vector h
    · simp at h

/-- A handler is entered at the address that stands in the vector when it starts (R280, R278). -/
theorem signal_vector {s t : State} {c : Cause} {addr info : Option Word} {p : Word}
    (h : signal s c addr info p = .entered t) : AtVector t := by
  unfold signal at h
  split at h
  · split at h <;> simp at h
  · split at h
    · exact intrFault_vector h
    · simp at h
    · split at h
      · split at h <;> simp at h
      · exact enter_vector h

/-- What the host's moves before an instruction keep: everything inside the CPU, discs, tapes, output, sent
packets. -/
structure HostStep (s u : State) : Prop where
  gpr : u.gpr = s.gpr
  pc : u.pc = s.pc
  flags : u.flags = s.flags
  sr : u.sr = s.sr
  mem : u.mem = s.mem
  cfg : u.cfg = s.cfg
  discs : u.world.discs = s.world.discs
  tapes : u.world.tapes = s.world.tapes
  output : u.world.output = s.world.output
  sent : u.world.sent = s.world.sent
  clock : s.world.clock ≤ u.world.clock
  netsWf : s.world.netsWf → u.world.netsWf

theorem HostStep.refl (s : State) : HostStep s s :=
  ⟨rfl, rfl, rfl, rfl, rfl, rfl, rfl, rfl, rfl, rfl, le_rfl, id⟩

theorem HostStep.trans {s t u : State} (h : HostStep s t) (k : HostStep t u) : HostStep s u :=
  ⟨k.gpr.trans h.gpr, k.pc.trans h.pc, k.flags.trans h.flags, k.sr.trans h.sr, k.mem.trans h.mem,
    k.cfg.trans h.cfg, k.discs.trans h.discs, k.tapes.trans h.tapes, k.output.trans h.output,
    k.sent.trans h.sent, h.clock.trans k.clock, k.netsWf ∘ h.netsWf⟩

theorem hostStep_move (s : State) (e : HostEvent) : HostStep s (hostMove s e) := by
  cases e with
  | key c => exact ⟨rfl, rfl, rfl, rfl, rfl, rfl, rfl, rfl, rfl, rfl, le_rfl, id⟩
  | packet u p =>
    simp only [hostMove]
    split
    · exact .refl s
    · rename_i n hn
      split
      · rename_i hl
        refine ⟨rfl, rfl, rfl, rfl, rfl, rfl, rfl, rfl, rfl, rfl, le_rfl, fun hw v m hm => ?_⟩
        simp only [setWorld_world, Fin.getElem_fin] at hm
        by_cases e : u = v
        · subst e
          rw [Vector.getElem_set_self] at hm
          cases hm
          intro q hq
          rcases List.mem_append.1 hq with hq | hq
          · exact hw u n hn q hq
          · rw [List.mem_singleton.1 hq]
            exact hl
        · rw [Vector.getElem_set_ne _ _ (fun e' => e (Fin.ext e'))] at hm
          exact hw v m hm
      · exact .refl s
  | advance us =>
    exact ⟨rfl, rfl, rfl, rfl, rfl, rfl, rfl, rfl, rfl, rfl, Nat.le_add_right _ _, id⟩
  | file f => exact ⟨rfl, rfl, rfl, rfl, rfl, rfl, rfl, rfl, rfl, rfl, le_rfl, id⟩

theorem hostStep_moves (es : List HostEvent) (s : State) : HostStep s (es.foldl hostMove s) := by
  induction es generalizing s with
  | nil => exact .refl s
  | cons e es ih => exact (hostStep_move s e).trans (ih _)

/-- Before every instruction the host may move; nothing inside the CPU changes (R288). -/
theorem hostStep_hostMoves (s : State) : HostStep s (hostMoves s) := by
  unfold hostMoves
  split
  · exact .refl s
  · refine HostStep.trans ?_ (hostStep_moves _ _)
    exact ⟨rfl, rfl, rfl, rfl, rfl, rfl, rfl, rfl, rfl, rfl, le_rfl, id⟩

theorem HostStep.effect {s u : State} (h : HostStep s u) : Effect s u := by
  refine ⟨h.cfg, memWf_congr h.mem h.cfg, ?_, h.netsWf, ?_, ?_, h.clock, fun k => ?_⟩
  · unfold World.discsWf
    rw [h.discs]
    exact id
  · rw [h.output]
  · rw [h.sent]
  · rw [h.discs]

/-- What an instruction run at `s` can come to when it gives a next state: an exception entered, or the body
completed, and then nothing, the timer one lower, or the TIMER handler entered. -/
theorem exec_next {i : Instr} {s t : State} (h : exec i s = .next t) :
    (∃ c addr info p, signal s c addr info p = .entered t) ∨ t = s ∨
    ∃ u, Effect s u ∧ (s.flags.sys = false → UserEffect s u) ∧
      (t = u ∨ t = u.countDown ∨ signal u.countDown .timer none none u.pc = .entered t) := by
  obtain ⟨x, hx, hd⟩ := exec_body i s
  rw [hx] at h
  rcases finish_next h with ⟨u, hu, hc⟩ | ⟨c, addr, info, -, ht⟩
  · exact .inr (.inr ⟨u, (hd u hu).1, (hd u hu).2, complete_next hc⟩)
  · rcases takeException_next ht with h1 | ⟨-, rfl⟩
    · exact .inl ⟨c, addr, info, _, h1⟩
    · exact .inr (.inl rfl)

theorem fetch_ended {s t : State} {o : Host.Outcome State Fault Refusal} (h : fetch s = .ended o)
    (ho : o = .next t) : (∃ c addr info p, signal s c addr info p = .entered t) ∨ t = s := by
  have key : ∀ c addr info, takeException s c addr info = .next t →
      (∃ c addr info p, signal s c addr info p = .entered t) ∨ t = s := by
    intro c addr info ht
    rcases takeException_next ht with h1 | ⟨-, h1⟩
    · exact .inl ⟨c, addr, info, _, h1⟩
    · exact .inr h1
  subst ho
  unfold fetch at h
  split at h
  · exact key _ _ _ (by injection h)
  · injection h with h
    simp at h
  · split at h
    · cases h
    · injection h with h
      cases h
    · injection h with h
      cases h
    · exact key _ _ _ (by injection h)
    · exact key _ _ _ (by injection h)
    · exact key _ _ _ (by injection h)
    · exact key _ _ _ (by injection h)

/-- What a step that gives a next state did: after the host's moves an interrupt was entered, or nothing
happened, or an instruction ran. -/
theorem step_next {s t : State} (h : step s = .next t) :
    s.flags.r = true ∧
    ((∃ c addr info p, signal (hostMoves s) c addr info p = .entered t) ∨ t = hostMoves s ∨
      ∃ i, exec i (hostMoves s) = .next t) := by
  unfold step beginStep at h
  split at h
  · rename_i o hb
    split at hb
    · rename_i hr
      refine ⟨hr, ?_⟩
      simp only at hb
      unfold afterSignal at hb
      split at hb
      · rename_i u hk
        injection hb with hb
        subst hb
        cases h
        unfold keyboardSignal at hk
        split at hk
        · cases hk
        · exact .inl ⟨_, _, _, _, hk⟩
      · injection hb with hb
        subst hb
        simp at h
      · split at hb
        · rename_i u hk
          injection hb with hb
          subst hb
          cases h
          unfold debugSignal at hk
          split at hk
          · exact .inl ⟨_, _, _, _, hk⟩
          · cases hk
        · injection hb with hb
          subst hb
          simp at h
        · rcases fetch_ended hb h with h1 | h1
          · exact .inl h1
          · exact .inr (.inl h1)
    · injection hb with hb
      subst hb
      cases h
  · rename_i i u hb
    split at hb
    · rename_i hr
      refine ⟨hr, .inr (.inr ⟨i, ?_⟩)⟩
      have : u = hostMoves s := by
        simp only [afterSignal] at hb
        split at hb
        · cases hb
        · cases hb
        · split at hb
          · cases hb
          · cases hb
          · unfold fetch at hb
            split at hb
            · cases hb
            · cases hb
            · split at hb <;> cases hb
              rfl
      rw [← this]
      exact h
    · cases hb

end Sys2Proof.Machine
end

