-- ==== Sys2Proof/Tests/Slice0.lean ====
section
/-! SUPPORT. The model's own tests, each a named theorem: ill-formed terms refused, one word a constructor
decoded, the vectors of 95_test_vectors.md, and a witness for the hypotheses of each statement. -/

-- One theorem at a time: a hundred of them elaborated at once need more threads than the check allows.
set_option Elab.async false

namespace Sys2Proof.Tests

open Sys2Proof.Machine

/-! ## Well-formedness: each check refuses the first number past its field -/

theorem test_wf_const : (Instr.load (.gp 0) (.const 0xFFFFF)).wellFormed = true ∧
    (Instr.load (.gp 0) (.const 0x100000)).wellFormed = false := by decide +kernel

theorem test_wf_abs : (Instr.inc (.abs 0xFFFFF)).wellFormed = true ∧
    (Instr.inc (.abs 0x100000)).wellFormed = false := by decide +kernel

theorem test_wf_disp : (Instr.jcond .err (.baseDisp .fp 0xFFFF)).wellFormed = true ∧
    (Instr.jcond .err (.baseDisp .fp 0x10000)).wellFormed = false := by decide +kernel

theorem test_wf_encode : encode (.push (.const 0x100000)) = none := by decide +kernel

/-! ## Decoding: one word a constructor, written out field by field from the default layout (log entry 1):
operation, main register or condition, mode, then a 20-bit number or a register and a 16-bit number -/

theorem test_decode_getsr : decodeWord 0b00001_0001_000_00000000000000000000#32 =
    .ok (.getsr (.gp 1) (.const 0)) := by decide +kernel
theorem test_decode_setsr : decodeWord 0b00010_0001_000_00000000000000000110#32 =
    .ok (.setsr (.gp 1) (.const 6)) := by decide +kernel
theorem test_decode_getfl : decodeWord 0b00011_0011_000_00000000000000000001#32 =
    .ok (.getfl (.gp 3) (.const 1)) := by decide +kernel
theorem test_decode_setfl : decodeWord 0b00100_0011_001_0100_0000000000000000#32 =
    .ok (.setfl (.gp 3) (.reg (.gp 4))) := by decide +kernel
theorem test_decode_flagsj : decodeWord 0b00101_0001_000_00000000000100000110#32 =
    .ok (.flagsj (.gp 1) (.const 0x106)) := by decide +kernel
theorem test_decode_comp : decodeWord 0b00110_0001_010_0010_0000000000000000#32 =
    .ok (.comp (.gp 1) (.base (.gp 2))) := by decide +kernel
theorem test_decode_compz : decodeWord 0b00111_0000_001_0011_0000000000000000#32 =
    .ok (.compz (.reg (.gp 3))) := by decide +kernel
theorem test_decode_jcond : decodeWord 0b01000_0000_000_00000000010100000000#32 =
    .ok (.jcond .err (.const 0x500)) := by decide +kernel
theorem test_decode_sbit : decodeWord 0b01001_0001_000_00000000000000011111#32 =
    .ok (.sbit (.gp 1) (.const 31)) := by decide +kernel
theorem test_decode_cbit : decodeWord 0b01010_1100_000_00000000000000000000#32 =
    .ok (.cbit (.gp 12) (.const 0)) := by decide +kernel
theorem test_decode_exbr : decodeWord 0b01011_0010_011_0101_0000000000000111#32 =
    .ok (.exbr (.gp 2) (.baseDisp (.gp 5) 7)) := by decide +kernel
theorem test_decode_dpbr : decodeWord 0b01100_0010_100_00000010000000000000#32 =
    .ok (.dpbr (.gp 2) (.abs 0x2000)) := by decide +kernel
theorem test_decode_exbrv : decodeWord 0b01101_0010_001_0111_0000000000000000#32 =
    .ok (.exbrv (.gp 2) (.reg (.gp 7))) := by decide +kernel
theorem test_decode_dpbrv : decodeWord 0b01110_0010_001_0111_0000000000000000#32 =
    .ok (.dpbrv (.gp 2) (.reg (.gp 7))) := by decide +kernel
theorem test_decode_load : decodeWord 0b01111_1110_001_1101_0000000000000000#32 =
    .ok (.load .fp (.reg .sp)) := by decide +kernel
theorem test_decode_store : decodeWord 0b10000_0001_011_0010_0000000000000001#32 =
    .ok (.store (.gp 1) (.baseDisp (.gp 2) 1)) := by decide +kernel
theorem test_decode_push : decodeWord 0b10001_0000_001_1110_0000000000000000#32 =
    .ok (.push (.reg .fp)) := by decide +kernel
theorem test_decode_inc : decodeWord 0b10010_0000_010_1101_0000000000000000#32 =
    .ok (.inc (.base .sp)) := by decide +kernel
theorem test_decode_call : decodeWord 0b10011_0000_000_00000000001100000000#32 =
    .ok (.call (.const 0x300)) := by decide +kernel
theorem test_decode_ret : decodeWord 0b10100_000000000000000000000000000#32 = .ok .ret := by
  decide +kernel
theorem test_decode_syscall : decodeWord 0b10101_0000_000_00000000000000000010#32 =
    .ok (.syscall (.const 2)) := by decide +kernel
theorem test_decode_iret : decodeWord 0b10110_000000000000000000000000000#32 = .ok .iret := by
  decide +kernel
theorem test_decode_halt : decodeWord 0b10111_000000000000000000000000000#32 = .ok .halt := by
  decide +kernel
theorem test_decode_phload : decodeWord 0b11000_0001_010_0010_0000000000000000#32 =
    .ok (.phload (.gp 1) (.base (.gp 2))) := by decide +kernel
theorem test_decode_phstore : decodeWord 0b11001_0001_010_0010_0000000000000000#32 =
    .ok (.phstore (.gp 1) (.base (.gp 2))) := by decide +kernel
theorem test_decode_clrpp : decodeWord 0b11010_000000000000000000000000000#32 = .ok .clrpp := by
  decide +kernel
theorem test_decode_peri : decodeWord 0b11011_0011_000_00000010000000000000#32 =
    .ok (.peri (.gp 3) (.const 0x2000)) := by decide +kernel

theorem test_decode_refused :
    decodeWord 0b00000_000000000000000000000000000#32 = .error .unassignedOperation ∧
    decodeWord 0b11100_000000000000000000000000000#32 = .error .unassignedOperation ∧
    decodeWord 0b01111_0001_101_00000000000000000000#32 = .error .unassignedMode ∧
    decodeWord 0b01111_0001_001_0010_0000000000000001#32 = .error .spareFieldSet ∧
    decodeWord 0b10001_0001_001_1110_0000000000000000#32 = .error .spareFieldSet ∧
    decodeWord 0b01111_1111_000_00000000000000000000#32 = .error .pcOperand := by decide +kernel

/-- The launch parameter respells words: HALT spelled by 5, its own word spelling nothing, PC named by 6, an
instruction outside the 27 spelled by 7. -/
def respelled : List (Word × Spelling) :=
  [(0xB8000000, .nothing), (5, .instr .halt), (6, .pcOperand), (7, .otherInstruction)]

theorem test_decode_respelled : decode respelled 0xB8000000 = .error .respelledAway ∧
    decode respelled 5 = .ok .halt ∧ encodeWith respelled .halt = some 5 ∧
    decode respelled 6 = .error .pcOperand ∧ decode respelled 7 = .error .otherInstruction ∧
    decode respelled 0xB0000000 = .ok .iret ∧ encodeWith respelled .iret = some 0xB0000000 := by
  decide +kernel

/-- The operand that the table's numbering of bits gives, and a word placed at the reset pc. -/
theorem test_fetch_word : decodeTableWord 32 0xB8000000 = some .halt ∧
    memRead (State.reset.withFetchWord 32 0xB8000000) State.reset.pc = .ok 0xB8000000#32 := by
  decide +kernel

/-! ## A small machine -/

/-- A running machine at 0x250 with the stack pointers and vectors of the spec's examples: R0 to R12 are 10
to 22, SYSSP 0x4000, USRSP 0x7000, INTVEC 0x600, CGBR 0x500, CGLEN 4, PDBR 0x800. -/
def box (sys ip vm : Bool) (m : Memory) : State where
  gpr := #v[10, 11, 12, 13, 14, 15, 16, 17, 18, 19, 20, 21, 22]
  pc := 0x250
  flags := { r := true, z := false, n := false, err := false, sys := sys, ip := ip, vm := vm }
  sr := { pdbr := 0x800, intvec := 0x600, cgbr := 0x500, cglen := 4, debug := 0xFFFF, timer := 0,
          sysSP := 0x4000, sysFP := 0x4100, usrSP := 0x7000, usrFP := 0x7100 }
  mem := m
  world := World.reset
  draws := 0
  faultNesting := none
  cfg := Launch.atReset

/-- The next state of an outcome. -/
def after (o : Host.Outcome State Fault Refusal) : Option State :=
  match o with
  | .next t => some t
  | .fault _ => none
  | .refused _ => none

theorem after_some {o : Host.Outcome State Fault Refusal} (h : (after o).isSome = true) :
    ∃ t, o = .next t := by
  cases o with
  | next t => exact ⟨t, rfl⟩
  | fault f => simp [after] at h
  | refused r => simp [after] at h

/-- One instruction run at a state, and something read of the next state. -/
def runs {α : Type} (i : Instr) (s : State) (f : State → α) : Option α := (after (exec i s)).map f

/-- Register R1 set. -/
def withR1 (s : State) (v : Word) : State := s.setReg (.gp 1) v

/-! ## Vectors of 95_test_vectors.md, one or two an instruction -/

/-- V1. -/
theorem test_getsr_flags :
    runs (.getsr (.gp 1) (.const 0)) { box true false false [] with
      flags := ⟨true, true, false, false, true, false, false⟩ } (·.getReg (.gp 1)) = some 19 := by
  decide +kernel

/-- V2. -/
theorem test_getsr_other_stack :
    runs (.getsr (.gp 2) (.const 9)) (box true false false []) (fun t => (t.getReg (.gp 2), t.sp)) =
      some (0x7000, 0x4000) := by decide +kernel

/-- E1: the tick after the SETSR leaves 99. -/
theorem test_setsr_timer :
    runs (.setsr (.gp 1) (.const 6)) (withR1 (box true true false []) 100) (·.sr.timer) = some 99 := by
  decide +kernel

/-- V4: upper bits discarded. -/
theorem test_setsr_flags :
    runs (.setsr (.gp 1) (.const 0)) (withR1 (box true true false []) 0xFFFFFF81)
      (·.flags.toWord) = some 1 := by decide +kernel

/-- V6. -/
theorem test_getfl : runs (.getfl (.gp 1) (.const 5)) State.reset (·.getReg (.gp 1)) = some 1 ∧
    runs (.getfl (.gp 1) (.const 6)) State.reset (·.getReg (.gp 1)) = some 0 := by decide +kernel

/-- V7. -/
theorem test_setfl_user :
    runs (.setfl (.gp 1) (.const 1)) (withR1 (box false false false []) 5) (·.flags.toWord) =
      some 3 := by decide +kernel

/-- V9, with a handler at 0x9100: PRIVOP although the value would not change. -/
theorem test_setfl_protected :
    runs (.setfl (.gp 1) (.const 5)) (withR1 (box false false false [(0x608, 0x9100)]) 0) (·.pc) =
      some 0x9100 := by decide +kernel

/-- V10. -/
theorem test_flagsj :
    runs (.flagsj (.gp 1) (.const 0x400000)) (withR1 (box true true false []) 0x61)
      (fun t => (t.flags.toWord, t.pc)) = some (0x61, 0x400000) := by decide +kernel

/-- V12, second case, and V13. -/
theorem test_comp :
    runs (.comp (.gp 1) (.const 9)) (withR1 (box true true false []) 5)
      (fun t => (t.flags.z, t.flags.n)) = some (false, true) ∧
    runs (.comp (.gp 1) (.const 0)) (withR1 (box true true false []) 0xFFFFFFFF)
      (fun t => (t.flags.z, t.flags.n)) = some (false, true) := by decide +kernel

/-- V15. -/
theorem test_compz :
    runs (.compz (.const 0)) (box true true false []) (fun t => (t.flags.z, t.flags.n)) =
      some (true, false) ∧
    runs (.compz (.const 0x80000000)) (box true true false []) (fun t => (t.flags.z, t.flags.n)) =
      some (false, true) := by decide +kernel

/-- V16, both cases. -/
theorem test_jcond :
    runs (.jcond .err (.const 0x500)) { box true true false [] with
      flags := ⟨true, false, false, true, true, true, false⟩ } (·.pc) = some 0x500 ∧
    runs (.jcond .err (.const 0x500)) (box true true false []) (·.pc) = some 0x251 := by
  decide +kernel

/-- V17. -/
theorem test_sbit :
    runs (.sbit (.gp 1) (.const 31)) (withR1 (box true true false []) 0) (·.getReg (.gp 1)) =
      some 0x80000000 := by decide +kernel

/-- V18. -/
theorem test_cbit :
    runs (.cbit (.gp 1) (.const 0)) (withR1 (box true true false []) 0xFFFFFFFF)
      (·.getReg (.gp 1)) = some 0xFFFFFFFE := by decide +kernel

/-- V20, V22, V26, V27, V28. -/
theorem test_ranges : extractRange 0xABCD1234 0x88 = 0x23 ∧ extractRange 0x80000000 0x3E1 = 1 ∧
    depositRange 0xABCD1234 0x88 0xFF = 0xABCD1FF4 ∧ depositRange 0xFFFFFFFF 0x3E1 0 = 0x7FFFFFFF ∧
    depositRange 0 0x88 0x1FF = 0xFF0 := by decide +kernel

/-- V23, V24. -/
theorem test_range_refused : rangeFits 0x3E2 = false ∧ rangeFits 0x20 = false := by decide +kernel

/-- V25: the upper bits of the descriptor are ignored. -/
theorem test_exbr :
    runs (.exbr (.gp 1) (.const 0xABCD1234)) (withR1 (box true true false []) 0xFFFFFC88)
      (·.getReg (.gp 1)) = some 0x23 := by decide +kernel

/-- V26, the descriptor in R12 (log entry 4). -/
theorem test_dpbr :
    runs (.dpbr (.gp 1) (.abs 0x2000))
      ((withR1 (box true true false [(0x2000, 0xABCD1234)]) 0xFF).setReg (.gp 12) 0x88)
      (·.word 0x2000) = some (some 0xABCD1FF4) := by decide +kernel

/-- V29, with a at 0x2000. -/
theorem test_exbrv :
    runs (.exbrv (.gp 1) (.const 0x2000)) (withR1 (box true true false [(0x2002, 0x100)]) 0x901)
      (·.getReg (.gp 1)) = some 1 := by decide +kernel

/-- R145: the word is read first: MEMORY from it comes before the refusal of a range of 33 bits. -/
theorem test_exbrv_order :
    runs (.exbrv (.gp 1) (.const 0x10000))
      (withR1 (box true false false [(0x601, 0x9001)]) 0x20) (·.pc) = some 0x9001 := by
  decide +kernel

/-- V30, with a at 0x2000. -/
theorem test_dpbrv :
    runs (.dpbrv (.gp 1) (.const 0x2000))
      ((withR1 (box true true false [(0x2001, 5), (0x2002, 0)]) 1).setReg (.gp 12) 0x901)
      (·.mem) = some [(0x2001, 5), (0x2002, 0x100)] := by decide +kernel

/-- R146: the same for a deposit. -/
theorem test_dpbrv_order :
    runs (.dpbrv (.gp 1) (.const 0x10000))
      ((box true false false [(0x601, 0x9001)]).setReg (.gp 12) 0x20) (·.pc) = some 0x9001 := by
  decide +kernel

/-- V33. -/
theorem test_load : runs (.load .fp (.reg .sp)) (box true true false [])
    (fun t => (t.sr.sysFP, t.sr.usrFP)) = some (0x4000, 0x7100) := by decide +kernel

/-- V34, with R2 = 12. -/
theorem test_store : runs (.store (.gp 1) (.baseDisp (.gp 2) 1)) (box true true false [])
    (·.mem) = some [(13, 11)] := by decide +kernel

/-- V36: UNWROP; with IP = 1 the machine stops, R cleared. -/
theorem test_store_constant :
    exec (.store (.gp 1) (.const 72)) (box true true false []) =
      .fault (.fatalStop .unwrop (some 0x250) none ((box true true false []).setFlags
        ⟨false, false, false, false, true, true, false⟩)) := rfl

/-- V37, with the values of the small machine. -/
theorem test_push : runs (.push (.reg .fp)) (box false false false []) (fun t => (t.sp, t.mem)) =
    some (0x6FFF, [(0x6FFF, 0x7100)]) := by decide +kernel

/-- V39, V40. -/
theorem test_inc :
    runs (.inc (.reg (.gp 1))) (withR1 (box true true false []) 0xFFFFFFFF) (·.getReg (.gp 1)) =
      some 0 ∧
    runs (.inc (.base (.gp 1))) (withR1 (box true true false [(0x2000, 41)]) 0x2000) (·.mem) =
      some [(0x2000, 42)] := by decide +kernel

/-- V42, with the values of the small machine. -/
theorem test_call : runs (.call (.const 0x300)) (box true true false [])
    (fun t => (t.sp, t.mem, t.pc)) = some (0x3FFF, [(0x3FFF, 0x251)], 0x300) := by decide +kernel

/-- V43, with the values of the small machine. -/
theorem test_ret : runs .ret (box true true false [(0x4000, 0x121)]) (fun t => (t.sp, t.pc)) =
    some (0x4001, 0x121) := by decide +kernel

/-- V44. -/
theorem test_syscall : runs (.syscall (.const 2)) (box false false false [(0x502, 0x9000)])
    (fun t => (t.flags.toWord, t.sr.sysSP, t.word 0x3FEE, t.word 0x3FEF, t.word 0x3FF0,
      t.word 0x3FFF, t.pc)) =
    some (0x31, 0x3FEE, some 40, some 1, some 0x251, some 10, 0x9000) := by decide +kernel

/-- V46: the index is bad, read as a signed number. -/
theorem test_syscall_bad :
    runs (.syscall (.const 0xFFFFFFFF)) (box false false false [(0x60A, 0x9200)])
      (fun t => (t.pc, t.word 0x3FED, t.word 0x3FEE, t.word 0x3FEF)) =
    some (0x9200, some 10, some 0x250, some 0xFFFFFFFF) := by decide +kernel

/-- V47: the frame of the example of R282 at 0x3FEB, with a code word of one's own. -/
def frameBox (code : Word) : State :=
  { box true true false [(0x3FEB, 40), (0x3FEC, 1), (0x3FED, code), (0x3FEE, 0x250), (0x3FEF, 0),
      (0x3FF0, 0x251), (0x3FF1, 0x4100), (0x3FF2, 0x3FF3), (0x3FF3, 112), (0x3FF4, 111),
      (0x3FF5, 110), (0x3FF6, 109), (0x3FF7, 108), (0x3FF8, 107), (0x3FF9, 106), (0x3FFA, 105),
      (0x3FFB, 104), (0x3FFC, 103), (0x3FFD, 102), (0x3FFE, 101), (0x3FFF, 100)] with
    sr := { (box true true false []).sr with sysSP := 0x3FEB, sysFP := 0x3FEA } }

def handlerBox : State := frameBox 8

theorem test_iret : runs .iret handlerBox (fun t => (t.sr.sysSP, t.flags.toWord, t.sr.sysFP, t.pc,
    t.getReg (.gp 0), t.getReg (.gp 12))) = some (0x4000, 1, 0x4100, 0x251, 100, 112) := by
  decide +kernel

/-- V48; R171: a code word of 13 is discarded like any other; R278: in an INTRFAULT handler IRET is refused,
whatever the code word holds. -/
theorem test_iret_refused :
    exec .iret (box true true false [(0x4000, 41)]) = .refused (.iretMarker 41) ∧
    runs .iret (frameBox 13) (·.pc) = some 0x251 ∧
    exec .iret { handlerBox with faultNesting := some 0 } = .refused .iretFromIntrFault ∧
    runs .iret { handlerBox with faultNesting := some 1 } (·.faultNesting) = some (some 0) :=
  ⟨rfl, by decide +kernel, rfl, by decide +kernel⟩

/-- V50. -/
theorem test_halt : runs .halt (box true true false []) (fun t => (t.flags.toWord, t.pc)) =
    some (0x30, 0x251) := by decide +kernel

/-- V51. -/
theorem test_halt_user : runs .halt (box false false false [(0x604, 0x9300)])
    (fun t => (t.flags.toWord, t.pc, t.word 0x3FEE)) = some (0x31, 0x9300, some 0x250) := by
  decide +kernel

/-- V52, V53, for the three instructions without a described effect. -/
theorem test_phload : runs (.phload (.gp 1) (.const 0)) (box false false false [(0x608, 0x9100)])
    (·.pc) = some 0x9100 ∧
    exec (.phload (.gp 1) (.const 0)) (box true true false []) = .refused .phloadInSystemMode :=
  ⟨by decide +kernel, rfl⟩

theorem test_phstore : runs (.phstore (.gp 1) (.const 0)) (box false false false [(0x608, 0x9100)])
    (·.pc) = some 0x9100 ∧
    exec (.phstore (.gp 1) (.const 0)) (box true true false []) = .refused .phstoreInSystemMode :=
  ⟨by decide +kernel, rfl⟩

theorem test_clrpp : runs .clrpp (box false false false [(0x608, 0x9100)]) (·.pc) = some 0x9100 ∧
    exec .clrpp (box true true false []) = .refused .clrppInSystemMode :=
  ⟨by decide +kernel, rfl⟩

/-- V68: the frame of the example of R282. -/
theorem test_entry_frame :
    runs (.setsr (.gp 1) (.const 6)) (box false false false [(0x608, 0x9100)])
      (fun t => (t.sr.sysSP, t.flags.toWord, t.pc, [t.word 0x3FEB, t.word 0x3FEC, t.word 0x3FED,
        t.word 0x3FEE, t.word 0x3FF1, t.word 0x3FF3, t.word 0x3FFF])) =
    some (0x3FEB, 0x31, 0x9100, [some 40, some 1, some 8, some 0x250, some 0x4100, some 22,
      some 10]) := by decide +kernel

/-! ### PERI: control structures at 0x2000 -/

/-- A running machine in system mode with a control structure at 0x2000, then more memory. -/
def peri (cs : List Word) (more : Memory) : State :=
  box true true false (cs.zipIdx.map (fun p => (0x2000 + p.2, p.1)) ++ more)

/-- The keys of a keyboard. -/
def withKeys (s : State) (cs : List Byte) : State := s.setWorld { s.world with keyboard := cs }

/-- PERI R3, 0x2000, and what the vectors look at. -/
def periRun {α : Type} (s : State) (f : State → α) : Option (Word × Bool × α) :=
  runs (.peri (.gp 3) (.const 0x2000)) s (fun t => (t.getReg (.gp 3), t.flags.err, f t))

/-- V84, V86. -/
theorem test_discCheck : periRun (peri [1, 1] []) (fun _ => ()) = some (6000, false, ()) ∧
    periRun (peri [1, 9] []) (fun _ => ()) = some (0xFFFFFFFD, true, ()) := by decide +kernel

/-- V88. -/
theorem test_discRead_position :
    periRun (peri [2, 1, 5999, 2, 0x3000] []) (fun _ => ()) = some (0xFFFFFFFC, true, ()) := by
  decide +kernel

/-- V96. -/
theorem test_termInC : periRun (withKeys (peri [11, 10, 0x3000] []) [0x61, 0x62, 0x63, 0x64, 0x65])
    (fun t => (t.word 0x3000, t.word 0x3001, t.world.keyboard)) =
    some (5, false, some 0x64636261, some 0x65, []) := by decide +kernel

/-- V101. -/
theorem test_termInW : periRun (withKeys (peri [13, 4, 0x3000] []) [0x61, 0x62])
    (fun t => (t.word 0x3000, t.word 0x3001, t.word 0x3002)) =
    some (2, false, some 0x61, some 0x62, none) := by decide +kernel

/-- V99, V100. -/
theorem test_termOutC :
    periRun (peri [12, 0, 0x3000] [(0x3000, 0x6948)]) (·.world.output) =
      some (2, false, [0x48, 0x69]) ∧
    periRun (peri [12, 3, 0x3000] [(0x3000, 0x410042)]) (·.world.output) =
      some (3, false, [0x42, 0, 0x41]) := by decide +kernel

/-- R234's example. -/
theorem test_termOutW :
    periRun (peri [14, 2, 0x3000] [(0x3000, 0x48), (0x3001, 0x69)]) (·.world.output) =
      some (2, false, [0x48, 0x69]) := by decide +kernel

/-- Unit 1 on, with nothing received. -/
def netOn (s : State) : State := setNet s 0 (some ⟨0x123456789ABC, []⟩)

/-- The host's next answer to the start of a network unit. -/
def withStart (s : State) (n : NetStart) : State :=
  s.setWorld { s.world with host := { s.world.host with netStarts := [n] } }

/-- V105: the unit is on after the first call; a call with the unit on finds it in use. R241's example and U22:
the host turns down port 80 (-5), and has no port to turn down where none is requested. -/
theorem test_netSS :
    runs (.peri (.gp 3) (.const 0x2000)) (peri [15, 1, 1, 0x3000] [(0x3000, 0), (0x3001, 0)])
      (fun t => (t.world.nets[0]).isSome) = some true ∧
    periRun (netOn (peri [15, 1, 1, 0x3000] [(0x3000, 0), (0x3001, 0)])) (fun _ => ()) =
      some (0xFFFFFFF7, true, ()) ∧
    periRun (withStart (peri [15, 1, 1, 0x3000] [(0x3000, 0), (0x3001, 80)]) ⟨1, 2, some .memory⟩)
      (·.world.nets[0]) = some (0xFFFFFFFB, true, none) ∧
    runs (.peri (.gp 3) (.const 0x2000))
      (withStart (peri [15, 1, 1, 0x3000] [(0x3000, 0), (0x3001, 0)]) ⟨1, 2, some .memory⟩)
      (·.world.nets[0]) = some (some ⟨0x000200000001, []⟩) := by decide +kernel

/-- V102, V104. -/
theorem test_net_codes :
    periRun (netOn (peri [16, 1, 0x3000, 1025, 0x3100] [(0x3000, 0), (0x3001, 0)])) (fun _ => ()) =
      some (0xFFFFFFF8, true, ()) ∧
    periRun (netOn (peri [17, 1, 0x3000, 0x3100] [])) (·.word 0x3000) =
      some (0xFFFFFFF5, true, none) := by decide +kernel

/-- V106, V107. -/
theorem test_clock :
    periRun ((peri [18] []).setWorld { World.reset with clock := 100000000 }) (fun _ => ()) =
      some (100, false, ()) ∧
    runs (.peri (.gp 3) (.const 0x2000))
      ((peri [19] []).setWorld { World.reset with clock := 1250000 })
      (fun t => (t.word 0x2001, t.word 0x2002)) = some (some 1, some 250000) := by
  decide +kernel

/-- V108. -/
theorem test_dates : dateParts [] 0 = [2000, 1, 1, 6, 0, 0, 0] ∧
    dateParts [] 86400 = [2000, 1, 2, 0, 0, 0, 0] ∧
    dateParts [] 5101261 = [2000, 2, 29, 2, 1, 1, 1] := by decide +kernel

/-- A five-byte file on unit 8. -/
def withTape (s : State) (mode : TapeMode) (pos : Nat) (f : HostFile) : State :=
  s.setWorld { s.world with tapes := s.world.tapes.set 7 (some ⟨[0x66], mode, pos⟩), files := [f] }

/-- A file of five bytes, with the host's permissions. -/
def fiveBytes (readable writable : Bool) : HostFile :=
  ⟨[0x66], some [1, 2, 3, 4, 5], readable, writable⟩

/-- R212: three bytes over the middle; -5 before -6, for a file that has gone away; R209: -7 for a file the
host no longer gives in any way. -/
theorem test_tape_order :
    periRun (withTape (peri [10, 8, 0x3000, 3] [(0x3000, 0x00090807)]) .write 1 (fiveBytes false true))
      (·.world.files) = some (3, false, [⟨[0x66], some [1, 7, 8, 9, 5], false, true⟩]) ∧
    periRun (withTape (peri [10, 8, 0x10000, 3] []) .write 1 ⟨[0x66], none, false, true⟩)
      (fun _ => ()) = some (0xFFFFFFFB, true, ()) ∧
    periRun (withTape (peri [10, 8, 0x3000, 3] [(0x3000, 0)]) .write 1 ⟨[0x66], none, false, true⟩)
      (fun _ => ()) = some (0xFFFFFFFA, true, ()) ∧
    periRun (withTape (peri [7, 8] []) .read 0 (fiveBytes false false)) (fun _ => ()) =
      some (0xFFFFFFF9, true, ()) := by decide +kernel

/-- V93, and V92 on a file the host has. -/
theorem test_tapeLoad :
    periRun (peri [6, 1, 0x3000, 82] [(0x3000, 0x66)]) (fun _ => ()) = some (0xFFFFFFF9, true, ()) ∧
    periRun ((peri [6, 1, 0x3000, 88] [(0x3000, 0x66)]).setWorld
      { World.reset with files := [⟨[0x66], some [1, 2, 3, 4, 5], true, false⟩] }) (fun _ => ()) =
      some (0xFFFFFFF8, true, ()) := by decide +kernel

/-! ## Witnesses: for each statement with hypotheses, states and operands that meet all of them together -/

/-- The words below the stack pointer exist, with VM off, as something that evaluates. -/
theorem stackRoom_of {s : State} {n : Nat} (hv : s.flags.vm = false) (hn : n < 2 ^ 32)
    (e : ((List.range (n + 1)).all fun k => physValid s (below s k)) = true) :
    SystemStackRoom n s := by
  simp only [List.all_eq_true, List.mem_range] at e
  exact systemStackRoom_physical hv hn fun k _ hk => e k (by omega)

/-- The same for all words but one. -/
theorem stackRoomBut_of {s : State} {m n : Nat} (hv : s.flags.vm = false) (hn : n < 2 ^ 32)
    (e : ((List.range (n + 1)).all fun k =>
      decide (k = 0) || decide (k = m) || physValid s (below s k)) = true) :
    SystemStackRoomBut m n s := by
  simp only [List.all_eq_true, List.mem_range, Bool.or_eq_true, decide_eq_true_eq] at e
  have room : ∀ k : Nat, 1 ≤ k → k ≤ n → k ≠ m → physValid s (below s k) = true :=
    fun k h1 h2 h3 => ((e k (by omega)).resolve_left (by omega))
  intro k h1 h2 h3
  rw [slot_physical hv (room k h1 h2 h3)]
  refine ⟨target_below (s := s.entering) hv (room k h1 h2 h3), fun j j1 j2 j3 => ?_⟩
  rw [slot_physical hv (room j j1 j2 j3), walkReads_physical _ hv]
  exact ⟨fun hne e => below_ne (s := s) (by omega) (by omega) hne (congrArg BitVec.toNat e),
    List.not_mem_nil⟩

/-- A push to an address that does not exist, with VM off. -/
theorem pushRaises_of {s : State} {m k : Nat} (hv : s.flags.vm = false)
    (e : physValid s (below s k) = false) : PushRaises m k s :=
  ⟨⟨.memory, some (below s k), none, by
    rw [target_physical (s := s.entering) _ hv]
    exact if_neg (by rw [show physValid s.entering = physValid s from rfl, e]; decide)⟩,
    fun j _ _ _ => by rw [walkReads_physical _ hv]; exact List.not_mem_nil⟩

/-- `CanEnter` with VM off as something that evaluates. -/
def enterable (s : State) (c : Cause) (h : Word) : Bool :=
  !s.flags.ip && !s.flags.vm && decide (h ≠ 0) && decide (vectorEntry s c = .ok h) &&
    ((List.range 22).all fun k => physValid s (below s k)) &&
    (List.range 22).all fun k => decide ((s.sr.intvec + c.code).toNat ≠ (below s k).toNat)

theorem canEnter_of {s : State} {c : Cause} {h : Word} (e : enterable s c h = true) :
    CanEnter s c h := by
  simp only [enterable, Bool.and_eq_true, Bool.not_eq_true', decide_eq_true_eq, List.all_eq_true,
    List.mem_range] at e
  obtain ⟨⟨⟨⟨⟨h1, h2⟩, h3⟩, h4⟩, h5⟩, h6⟩ := e
  refine ⟨⟨h1, h3, h4, fun k _ hk => ?_⟩,
    systemStackRoom_physical h2 (by decide) fun k _ hk => h5 k (by omega)⟩
  rw [slot_physical h2 (h5 k (by omega))]
  exact h6 k (by omega)

/-- `CanEnter` with VM off or on, as something that evaluates. -/
def enterableAny (s : State) (c : Cause) (h : Word) : Bool :=
  !s.flags.ip && decide (h ≠ 0) && decide (vectorEntry s c = .ok h) &&
    ((List.range 22).all fun k => decide (k = 0) ||
      (decide (target s.entering (below s k) = .ok (slot s k)) &&
        decide ((s.sr.intvec + c.code).toNat ≠ (slot s k).toNat))) &&
    (List.range 22).all fun k => (List.range 22).all fun j =>
      (decide (j = k) || decide (slot s j ≠ slot s k)) && decide (slot s j ∉ walkReads s (below s k))

theorem canEnter_any {s : State} {c : Cause} {h : Word} (e : enterableAny s c h = true) :
    CanEnter s c h := by
  simp only [enterableAny, Bool.and_eq_true, Bool.or_eq_true, Bool.not_eq_true', decide_eq_true_eq,
    List.all_eq_true, List.mem_range] at e
  obtain ⟨⟨⟨⟨h1, h2⟩, h3⟩, h4⟩, h5⟩ := e
  refine ⟨⟨h1, h2, h3, fun k k1 hk => ?_⟩, fun k k1 hk => ⟨?_, fun j j1 hj => ⟨?_, ?_⟩⟩⟩
  · rcases h4 k (by omega) with h | h
    · omega
    · exact h.2
  · rcases h4 k (by omega) with h | h
    · omega
    · exact h.1
  · exact fun hne => ((h5 k (by omega) j (by omega)).1.resolve_left hne)
  · exact (h5 k (by omega) j (by omega)).2

/-- `Room` as something that evaluates. -/
theorem room_of {s : State} {a : Word} {n : Nat} (hv : s.flags.vm = false)
    (e : ((List.range n).all fun k => physValid s (a + BitVec.ofNat 32 k)) = true) : Room s a n := by
  simp only [List.all_eq_true, List.mem_range] at e
  exact ⟨hv, e⟩

/-- A read that gives a word. -/
theorem readable_of {s : State} {a : Word} (e : (memRead s a).bind (fun _ => .ok ()) = .ok ()) :
    ∃ w, memRead s a = .ok w := by
  cases h : memRead s a with
  | ok w => exact ⟨w, rfl⟩
  | raise c x y => rw [h] at e; cases e
  | stop x => rw [h] at e; cases e

/-- A user-mode machine with handlers for every cause at 0x9000 and above. -/
def open_ (m : Memory) : State :=
  box false false false (m ++ [(0x601, 0x9001), (0x602, 0x9002), (0x603, 0x9003), (0x604, 0x9004),
    (0x605, 0x9005), (0x606, 0x9006), (0x607, 0x9007), (0x608, 0x9008), (0x609, 0x9009),
    (0x60A, 0x900A), (0x60B, 0x900B), (0x60C, 0x900C), (0x60D, 0x900D)])

theorem test_canEnter : CanEnter (open_ []) .memory 0x9001 ∧ CanEnter (open_ []) .unimpop 0x9003 ∧
    CanEnter (open_ []) .halt 0x9004 ∧ CanEnter (open_ []) .unwrop 0x9006 ∧
    CanEnter (open_ []) .timer 0x9007 ∧ CanEnter (open_ []) .privop 0x9008 ∧
    CanEnter (open_ []) .keybd 0x9009 ∧ CanEnter (open_ []) .badcall 0x900A ∧
    CanEnter (open_ []) .debug 0x900C :=
  ⟨canEnter_of (by decide +kernel), canEnter_of (by decide +kernel), canEnter_of (by decide +kernel),
    canEnter_of (by decide +kernel), canEnter_of (by decide +kernel), canEnter_of (by decide +kernel),
    canEnter_of (by decide +kernel), canEnter_of (by decide +kernel), canEnter_of (by decide +kernel)⟩

theorem test_ready (sys ip vm : Bool) (m : Memory) : Ready (box sys ip vm m) :=
  ⟨rfl, (by decide : (0 : Word) ≠ 1)⟩

theorem witness_DecodeReadsEncodedInstruction :
    (Instr.jcond (.other 14) (.baseDisp .fp 0xFFFF)).wellFormed = true ∧
    encodeWith respelled .halt = some 5 ∧ encodeWith respelled .iret = some 0xB0000000 := by
  decide +kernel

theorem witness_EveryDecodedWordIsItsEncoding : decodeWord 0xD9802000#32 =
    .ok (.peri (.gp 3) (.const 0x2000)) ∧ decode respelled 5 = .ok .halt := by decide +kernel

/-- A HALT at the pc, in a machine whose host does nothing, no key waiting and DEBUG elsewhere. -/
def atHalt : State := open_ [(0x250, 0xB8000000)]

theorem witness_StepRunsTheDecodedInstruction :
    (atHalt.flags.r = true ∧ keyboardSignal (hostMoves atHalt) = .ignored ∧
      debugSignal (hostMoves atHalt) = .ignored ∧
      memRead (hostMoves atHalt) (hostMoves atHalt).pc = .ok 0xB8000000#32 ∧
      decode (hostMoves atHalt).cfg.code 0xB8000000#32 = .ok .halt) ∧
    atHalt.world.host.events = [] ∧ atHalt.world.keyboard = [] ∧ atHalt.pc ≠ atHalt.sr.debug ∧
    State.reset.flags.ip = true := by decide +kernel

theorem witness_FetchedWordWithoutInstruction :
    (((open_ []).setPc 0x10000).flags.r = true ∧
      keyboardSignal (hostMoves ((open_ []).setPc 0x10000)) = .ignored ∧
      debugSignal (hostMoves ((open_ []).setPc 0x10000)) = .ignored ∧
      memRead (hostMoves ((open_ []).setPc 0x10000)) 0x10000 =
        .raise .memory (some 0x10000) none) ∧
    CanEnter (hostMoves ((open_ []).setPc 0x10000)) .memory 0x9001 :=
  ⟨by decide +kernel, canEnter_of (by decide +kernel)⟩

theorem witness_FetchedWordWithoutInstruction_undecoded :
    ((open_ [(0x250, 0)]).flags.r = true ∧
      keyboardSignal (hostMoves (open_ [(0x250, 0)])) = .ignored ∧
      debugSignal (hostMoves (open_ [(0x250, 0)])) = .ignored ∧
      memRead (hostMoves (open_ [(0x250, 0)])) 0x250 = .ok 0 ∧
      decode (open_ [(0x250, 0)]).cfg.code 0 = .error .unassignedOperation) ∧
    CanEnter (hostMoves (open_ [(0x250, 0)])) .unimpop 0x9003 :=
  ⟨by decide +kernel, canEnter_of (by decide +kernel)⟩

/-- A word that names PC, and one that spells an instruction outside the 27. -/
theorem witness_FetchedWordWithoutInstruction_refused :
    (memRead (hostMoves (open_ [(0x250, 0x789F0000)])) 0x250 = .ok 0x789F0000 ∧
      decode (open_ []).cfg.code 0x789F0000 = .error .pcOperand ∧
      keyboardSignal (hostMoves (open_ [(0x250, 0x789F0000)])) = .ignored ∧
      debugSignal (hostMoves (open_ [(0x250, 0x789F0000)])) = .ignored) ∧
    (let s : State := { open_ [(0x250, 7)] with cfg := { Launch.atReset with code := respelled } };
      memRead (hostMoves s) 0x250 = .ok 7 ∧
      decode (hostMoves s).cfg.code 7 = .error .otherInstruction ∧
      keyboardSignal (hostMoves s) = .ignored ∧ debugSignal (hostMoves s) = .ignored) := by
  decide +kernel

theorem witness_HaltedCpuTakesNoStep :
    ((open_ []).setFlags ⟨false, false, false, false, true, true, false⟩).flags.r = false := rfl

theorem witness_NotificationsComeBeforeTheFetch :
    ((withKeys (open_ []) [0x61]).flags.r = true ∧
      (hostMoves (withKeys (open_ []) [0x61])).world.keyboard ≠ [] ∧
      CanEnter (hostMoves (withKeys (open_ []) [0x61])) .keybd 0x9009) ∧
    (((open_ []).setPc 0xFFFF).flags.r = true ∧
      (hostMoves ((open_ []).setPc 0xFFFF)).world.keyboard = [] ∧
      (hostMoves ((open_ []).setPc 0xFFFF)).pc = (hostMoves ((open_ []).setPc 0xFFFF)).sr.debug ∧
      CanEnter (hostMoves ((open_ []).setPc 0xFFFF)) .debug 0x900C) :=
  ⟨⟨rfl, by decide +kernel, canEnter_of (by decide +kernel)⟩,
    ⟨rfl, rfl, rfl, canEnter_of (by decide +kernel)⟩⟩

theorem box_wf (sys ip vm : Bool) {m : Memory} (h : Memory.wf m)
    (hb : ∀ c ∈ m, c.1 < 0x10000) : (box sys ip vm m).wf := by
  have hl : Launch.wf Launch.atReset := ⟨by decide +kernel, by decide +kernel⟩
  refine ⟨⟨h, hb⟩, ?_, ?_, hl⟩
  · intro u d hd
    have e : d = ⟨6000, []⟩ := by
      revert hd
      fin_cases u <;> simp [box, World.reset]
      exact fun h => h.symm
    subst e
    exact ⟨List.Pairwise.nil, by simp⟩
  · intro u n hn
    revert hn
    fin_cases u <;> simp [box, World.reset]

theorem witness_StepKeepsStateWellFormed : atHalt.wf ∧ ∃ t, step atHalt = .next t :=
  ⟨box_wf _ _ _ (by decide +kernel) (by decide +kernel), after_some (by decide +kernel)⟩

theorem witness_StepKeepsLaunchAndRecords : ∃ t, step atHalt = .next t :=
  after_some (by decide +kernel)

/-- A user-mode LOAD R1, 100, and a user-mode HALT: a step that stays in user mode and one that leaves it. -/
theorem witness_UserStepKeepsProtectedState :
    (open_ [(0x250, 0x78800064)]).flags.sys = false ∧
    (∃ t, step (open_ [(0x250, 0x78800064)]) = .next t) ∧
    ((after (step (open_ [(0x250, 0x78800064)]))).map (·.flags.sys)) = some false ∧
    ((after (step atHalt)).map (·.flags.sys)) = some true :=
  ⟨rfl, after_some (by decide +kernel), by decide +kernel, by decide +kernel⟩

/-- Through the interrupt vector, and (SYSCALL 2) through the call gate vector. -/
theorem witness_SystemModeIsEnteredThroughTheVectors :
    atHalt.flags.sys = false ∧ ((after (step atHalt)).map (fun t => (t.flags.sys, t.pc))) =
      some (true, 0x9004) ∧
    ((after (step (open_ [(0x250, 0xA8000002), (0x502, 0x9100)]))).map
      (fun t => (t.flags.sys, t.pc))) = some (true, 0x9100) := by decide +kernel

/-- Directory entry 1 at 0x801, table at 0x1000; the virtual address of the spec's vectors is 0x400805. -/
def paged (sys : Bool) (dir entry : Word) : State :=
  box sys true true [(0x801, dir), (0x1001, entry)]

theorem witness_TranslationWalksTwoTables :
    (paged false 0x1000 0x37FD).flags.vm = true ∧
    physRead (paged false 0x1000 0x37FD)
      ((0x800 : Word).extractLsb' 10 22 ++ (0x400805 : Word).extractLsb' 22 10) = .ok 0x1000 ∧
    physRead (paged false 0x1000 0x37FD)
      ((0x1000 : Word).extractLsb' 11 21 ++ (0x400805 : Word).extractLsb' 11 11) = .ok 0x37FD ∧
    (0x37FD : Word).getLsbD 0 = true ∧ (0x37FD : Word).getLsbD 1 = false ∧
    physRead (paged true 0x1000 0x3003)
      ((0x1000 : Word).extractLsb' 11 21 ++ (0x400805 : Word).extractLsb' 11 11) = .ok 0x3003 ∧
    (paged true 0x1000 0x3003).flags.sys = true ∧ (box true true false []).flags.vm = false := by
  decide +kernel

theorem witness_TranslationFaultsInOrder :
    physValid { paged false 0 0 with cfg := { Launch.atReset with physWords := 0x800 } }
      ((0x800 : Word).extractLsb' 10 22 ++ (0x400805 : Word).extractLsb' 22 10) = false ∧
    physRead (paged false 0 0)
      ((0x800 : Word).extractLsb' 10 22 ++ (0x400805 : Word).extractLsb' 22 10) = .ok 0 ∧
    physValid (paged false 0x10000000 0)
      ((0x10000000 : Word).extractLsb' 11 21 ++ (0x400805 : Word).extractLsb' 11 11) = false ∧
    (paged false 0x17FF 0x3002).flags.vm = true ∧
    physRead (paged false 0x17FF 0x3002)
      ((0x17FF : Word).extractLsb' 11 21 ++ (0x400805 : Word).extractLsb' 11 11) = .ok 0x3002 ∧
    (0x3002 : Word).getLsbD 0 = false ∧
    physRead (paged false 0x1000 0x3003)
      ((0x1000 : Word).extractLsb' 11 21 ++ (0x400805 : Word).extractLsb' 11 11) = .ok 0x3003 ∧
    (0x3003 : Word).getLsbD 0 = true ∧ (0x3003 : Word).getLsbD 1 = true ∧
    (paged false 0x1000 0x3003).flags.sys = false ∧
    Machine.translate (paged false 0x1000 0x10001) 0x400805 = .ok 0x10005 ∧
    physValid (paged false 0x1000 0x10001) 0x10005 = false := by decide +kernel

/-- At the highest address that exists, and the vectors' physical 0x3005 through the tables. -/
theorem witness_StoreThenLoadGivesTheWord :
    memWrite (box true true false []) 0xFFFF 7 = .ok (box true true false [(0xFFFF, 7)]) ∧
    memWrite (paged false 0x1000 0x3001) 0x400805 7 =
      .ok (box false true true [(0x801, 0x1000), (0x1001, 0x3001), (0x3005, 7)]) := by decide +kernel

theorem witness_StackPointerIsBanked : (box true true false []).flags.sys = true ∧
    (box false true false []).flags.sys = false := ⟨rfl, rfl⟩

theorem witness_OperandValuesAddressesAndStores :
    effAddr (box true true false []) (.baseDisp (.gp 2) 0xFFFFFFFF) = some 11 := by decide +kernel

theorem witness_LoadWritesItsRegister : Ready (box true true false [(12, 5)]) ∧
    val (box true true false [(12, 5)]) (.base (.gp 2)) = .ok 5 ∧
    val (box true true false [(12, 5)]) (.reg .sp) = .ok 0x4000 :=
  ⟨test_ready _ _ _ _, by decide +kernel, by decide +kernel⟩

theorem canStore_abs : CanStore (box true true false []) (.abs 0xFFFF) :=
  .inr ⟨0xFFFF, 0xFFFF, rfl, by decide +kernel⟩

theorem witness_StoreWritesItsOperand : Ready (box true true false []) ∧
    CanStore (box true true false []) (.abs 0xFFFF) ∧ CanStore (box true true false []) (.reg .sp) :=
  ⟨test_ready _ _ _ _, canStore_abs, .inl ⟨.sp, rfl⟩⟩

/-- `open_` with VM on: the directory at 0x800, one table at 0x1000. Page 7, the system stack's, lies at 0x5000
and is the system's own; so is page 1. Page 0 is absent, page 2 lies beyond the memory that exists, and so does
the table of directory entry 1. -/
def pagedOpen (sys : Bool) (m : Memory) : State :=
  { open_ [] with
    flags := { (open_ []).flags with vm := true, sys := sys }
    mem := m ++ (open_ []).mem ++ [(0x800, 0x1000), (0x801, 0xFFFFF800), (0x1000, 0), (0x1001, 0x3003),
      (0x1002, 0x10001), (0x1007, 0x5003)] }

/-- EXBR and EXBRV with the operand as the place of the result. -/
def resultInOperand : State :=
  { withR1 (open_ [(0x41, 5)]) 0x41 with cfg := { Launch.atReset with roles :=
    { Launch.atReset.roles with
      exbr := ⟨.main, .implied (.gp 12), .operand⟩
      exbrv := ⟨.main, .implied (.gp 12), .operand⟩ } } }

/-- A constant as the destination: STORE and INC, DPBR, and EXBR and EXBRV with the result in the operand. -/
theorem witness_OperandFaultsEnterTheirHandlers_constants :
    (StoresToOperand (open_ []) (.store (.gp 1) (.const 7)) (.const 7) ∧
      StoresToOperand (open_ []) (.inc (.const 7)) (.const 7) ∧ CanEnter (open_ []) .unwrop 0x9006) ∧
    (let s := (open_ []).setReg (.gp 12) 0x41;
      StoresToOperand s (.dpbr (.gp 1) (.const 7)) (.const 7) ∧ CanEnter s .unwrop 0x9006) ∧
    (let s := resultInOperand.setReg (.gp 12) 0x41;
      StoresToOperand s (.exbr (.gp 1) (.const 7)) (.const 7) ∧
      StoresToOperand s (.exbrv (.gp 1) (.const 7)) (.const 7) ∧ CanEnter s .unwrop 0x9006) :=
  ⟨⟨.store _ _, .inc _ 7 rfl, canEnter_of (by decide +kernel)⟩,
    ⟨.dpbr (.gp 1) (.const 7) 7 0x41 11 (by decide +kernel) (by decide +kernel) (by decide +kernel)
      (by decide +kernel), canEnter_of (by decide +kernel)⟩,
    .exbr (.gp 1) (.const 7) 0x41 0x41 (by decide +kernel) (by decide +kernel) (by decide +kernel),
    .exbrv (.gp 1) (.const 7) 0x41 0x41 5 (by decide +kernel) (by decide +kernel) (by decide +kernel)
      (by decide +kernel), canEnter_of (by decide +kernel)⟩

/-- `open_` in system mode. -/
def openSys : State := box true false false (open_ []).mem

/-- Each kind of access at an address beyond memory: an operand read in user and in system mode, one stored to, a
vector word, the stack word of PUSH and CALL at SP = 0 (V38), that of RET above memory. -/
theorem witness_OperandFaultsEnterTheirHandlers_accesses :
    (let s := open_ []; let op := Operand.abs 0x10000;
      MakesAccess s (.load (.gp 1) op) 0x10000 ∧
      MakesAccess s (.exbr (.gp 1) op) 0x10000 ∧ MakesAccess s (.store (.gp 1) op) 0x10000) ∧
    (MakesAccess openSys (.setsr (.gp 1) (.abs 0x10000)) 0x10000 ∧
      MakesAccess openSys (.peri (.gp 1) (.abs 0x10000)) 0x10000 ∧ CanEnter openSys .memory 0x9001) ∧
    (let s := (withR1 (open_ []) 0x41).setReg (.gp 12) 0x441;
      MakesAccess s (.exbrv (.gp 1) (.const 0x10000)) (0x10000 + rangeSkip 0x41) ∧
      MakesAccess s (.dpbrv (.gp 1) (.const 0x10000)) (0x10000 + rangeSkip 0x441) ∧
      Machine.translate s (0x10000 + rangeSkip 0x441) = .ok 0x10001 ∧ physValid s 0x10001 = false ∧
      CanEnter s .memory 0x9001) ∧
    (let s := (open_ []).setSP 0;
      MakesAccess s (.push (.const 5)) (s.sp - 1) ∧ MakesAccess s (.push (.reg .sp)) (s.sp - 1) ∧
      MakesAccess s (.call (.const 5)) (s.sp - 1) ∧
      Machine.translate s (s.sp - 1) = .ok 0xFFFFFFFF ∧ physValid s 0xFFFFFFFF = false ∧
      CanEnter s .memory 0x9001) ∧
    (let s := (open_ []).setSP 0x10000; MakesAccess s .ret s.sp ∧ CanEnter s .memory 0x9001) :=
  ⟨⟨.read _ _ _ (.load _ _) rfl, .read _ _ _ (.exbrWord _ _) rfl, .store _ _ _ (.store _ _) rfl⟩,
    ⟨.read _ _ _ (.setsr _ _ rfl) rfl, .read _ _ _ (.peri _ _ rfl) rfl, canEnter_of (by decide +kernel)⟩,
    ⟨.exbrv _ _ 0x10000 0x41 (by decide +kernel) (by decide +kernel),
      .dpbrv _ _ 0x10000 0x441 0x41 (by decide +kernel) (by decide +kernel) (by decide +kernel),
      by decide +kernel, by decide +kernel, canEnter_of (by decide +kernel)⟩,
    ⟨.push _ 5 rfl, .push _ 0 (by decide +kernel), .call _ 5 rfl, by decide +kernel, by decide +kernel,
      canEnter_of (by decide +kernel)⟩,
    .ret, canEnter_of (by decide +kernel)⟩

/-- UNWROP with VM off and on; MEMORY with VM off; with VM on PAGEFAULT, PAGEPRIV, MEMORY of the walk and of
the access; a trap that saves its own address and one that saves the next. -/
theorem witness_OperandFaultsEnterTheirHandlers :
    (CanEnter (open_ []) .unwrop 0x9006 ∧ CanEnter (pagedOpen false []) .unwrop 0x9006) ∧
    (MakesAccess (open_ []) (.compz (.abs 0x10000)) 0x10000 ∧
      Machine.translate (open_ []) 0x10000 = .ok 0x10000 ∧
      physValid (open_ []) 0x10000 = false ∧ CanEnter (open_ []) .memory 0x9001) ∧
    ((let s := pagedOpen false [];
        MakesAccess s (.inc (.abs 5)) 5 ∧
        Machine.translate s 5 = .raise .pagefault (some 5) none ∧
        Machine.translate s 0x805 = .raise .pagepriv (some 0x805) none ∧
        Machine.translate s 0x400005 = .raise .memory (some 0xFFFFF800) none ∧
        Machine.translate s 0x1005 = .ok 0x10005 ∧ physValid s 0x10005 = false) ∧
      CanEnter (pagedOpen false []) .pagefault 0x9002 ∧
      CanEnter (pagedOpen false []) .pagepriv 0x900B ∧
      CanEnter (pagedOpen false []) .memory 0x9001) ∧
    trapSavedPc (open_ []) .memory = 0x250 ∧
    trapSavedPc { open_ [] with cfg := { Launch.atReset with trapSavesNext := 2 } } .memory = 0x251 :=
  ⟨⟨canEnter_of (by decide +kernel), canEnter_any (by decide +kernel)⟩,
    ⟨.read _ _ _ (.compz _) rfl, by decide +kernel, by decide +kernel, canEnter_of (by decide +kernel)⟩,
    ⟨⟨.read _ _ _ (.inc _) rfl, by decide +kernel⟩, canEnter_any (by decide +kernel),
      canEnter_any (by decide +kernel), canEnter_any (by decide +kernel)⟩, by decide +kernel⟩

theorem witness_PushStoresAtTheLoweredStackPointer : Ready (box true true false []) ∧
    target (box true true false []) ((box true true false []).sp - 1) = .ok 0x3FFF ∧
    Operand.reg .fp ≠ .reg .sp ∧ val (box true true false []) (.reg .fp) = .ok 0x4100 :=
  ⟨test_ready _ _ _ _, by decide +kernel, by decide, by decide +kernel⟩

theorem witness_IncAddsOneToItsOperand : Ready (box true true false [(0xFFFF, 0xFFFFFFFF)]) ∧
    val (box true true false [(0xFFFF, 0xFFFFFFFF)]) (.abs 0xFFFF) = .ok 0xFFFFFFFF ∧
    CanStore (box true true false [(0xFFFF, 0xFFFFFFFF)]) (.abs 0xFFFF) :=
  ⟨test_ready _ _ _ _, by decide +kernel, .inr ⟨0xFFFF, 0xFFFF, rfl, by decide +kernel⟩⟩

theorem witness_CallPushesTheReturnAddressAndJumps : Ready (box true true false []) ∧
    val (box true true false []) (.const 0x300) = .ok 0x300 ∧
    target (box true true false []) ((box true true false []).sp - 1) = .ok 0x3FFF :=
  ⟨test_ready _ _ _ _, rfl, by decide +kernel⟩

theorem witness_RetPopsTheProgramCounter : Ready (box false true false [(0x7000, 0x121)]) ∧
    memRead (box false true false [(0x7000, 0x121)]) (box false true false [(0x7000, 0x121)]).sp =
      .ok 0x121 := ⟨test_ready _ _ _ _, by decide +kernel⟩

theorem witness_GetsrReadsASpecialRegister : Ready (box false true false []) ∧
    val (box false true false []) (.const 10) = .ok 10 ∧ sregOf 10 = some .usrFP :=
  ⟨test_ready _ _ _ _, rfl, rfl⟩

/-- TIMER itself, given 0, and another register with TIMER at 0. -/
theorem witness_SetsrWritesASpecialRegister :
    (box true true false []).flags.r = true ∧ (box true true false []).flags.sys = true ∧
    val (box true true false []) (.const 6) = .ok 6 ∧ sregOf 6 = some .timer ∧
    (if SReg.timer = .timer then (box true true false []).getReg (.gp 1)
      else (box true true false []).sr.timer) ≠ 1 ∧
    sregOf 1 = some .pdbr ∧
    (if SReg.pdbr = .timer then (box true true false []).getReg (.gp 1)
      else (box true true false []).sr.timer) ≠ 1 := by decide +kernel

/-- R1 = 11 keeps R, R0 = 10 clears it. -/
theorem witness_SetsrOfFlagsSetsAllSeven : Ready (box true true false []) ∧
    (box true true false []).flags.sys = true ∧ val (box true true false []) (.const 0) = .ok 0 ∧
    ((box true true false []).getReg (.gp 1)).getLsbD 0 = true ∧
    ((box true true false []).getReg (.gp 0)).getLsbD 0 = false :=
  ⟨test_ready _ _ _ _, by decide +kernel⟩

theorem witness_GetflReadsOneFlag : Ready (box false true false []) ∧
    val (box false true false []) (.const 6) = .ok 6 ∧ flagOf 6 = some .vm :=
  ⟨test_ready _ _ _ _, rfl, rfl⟩

/-- R cleared in system mode, and Z, N, ERR in user mode. -/
theorem witness_SetflWritesOneFlag : Ready (box true true false []) ∧ Ready (box false true false []) ∧
    val (withR1 (box true true false []) 0) (.const 0) = .ok 0 ∧ flagOf 0 = some .r ∧
    (withR1 (box true true false []) 0).getReg (.gp 1) = 0 ∧ flagOf 1 = some .z ∧
    flagOf 2 = some .n ∧ flagOf 3 = some .err ∧ (box false true false []).flags.sys = false :=
  ⟨test_ready _ _ _ _, test_ready _ _ _ _, by decide +kernel⟩

theorem witness_FlagsjSetsFlagsAndJumps : Ready (box true true false []) ∧
    (box true true false []).flags.sys = true ∧
    val (box true true false []) (.const 0x106) = .ok 0x106 ∧
    ((box true true false []).getReg (.gp 1)).getLsbD 0 = true ∧
    ((box true true false []).getReg (.gp 0)).getLsbD 0 = false :=
  ⟨test_ready _ _ _ _, by decide +kernel⟩

/-- The largest differences that fit, at both ends. -/
theorem witness_ComparisonsSetZeroAndNegative : Ready (box true true false []) ∧
    val (box true true false []) (.const 0) = .ok 0 ∧
    ((-2 : Int) ^ 31 ≤ (0x80000000 : Word).toInt - (0 : Word).toInt ∧
      (0x80000000 : Word).toInt - (0 : Word).toInt < 2 ^ 31) ∧
    ((-2 : Int) ^ 31 ≤ (0x7FFFFFFF : Word).toInt - (0 : Word).toInt ∧
      (0x7FFFFFFF : Word).toInt - (0 : Word).toInt < 2 ^ 31) :=
  ⟨test_ready _ _ _ _, by decide +kernel⟩

/-- Condition 14 as "Z is set". -/
def withConds (s : State) : State :=
  { s with cfg := { s.cfg with conds := [(14, 0xCCCCCCCCCCCCCCCCCCCCCCCCCCCCCCCC#128)] } }

theorem witness_JcondJumpsWhenItsConditionHolds : Ready (withConds (box true true false [])) ∧
    (withConds (box true true false [])).flags.err = false ∧
    ((box true true false []).setFlags ⟨true, false, false, true, true, true, false⟩).flags.err = true ∧
    (withConds (box true true false [])).cfg.conds.lookup 14 =
      some 0xCCCCCCCCCCCCCCCCCCCCCCCCCCCCCCCC#128 ∧
    (0xCCCCCCCCCCCCCCCCCCCCCCCCCCCCCCCC#128).getLsbD
      (box true true false []).flags.toWord.toNat = false ∧
    (0xCCCCCCCCCCCCCCCCCCCCCCCCCCCCCCCC#128).getLsbD
      (Flags.toWord ⟨true, true, false, false, true, true, false⟩).toNat = true ∧
    (withConds (box true true false [])).cfg.conds.lookup 0 = none ∧
    val (box true true false []) (.const 0x500) = .ok 0x500 :=
  ⟨⟨rfl, by decide⟩, by decide +kernel⟩

theorem witness_SbitAndCbitChangeOneBit : Ready (box true true false []) ∧
    val (box true true false []) (.const 31) = .ok 31 ∧ (31 : Word).toNat < 32 :=
  ⟨test_ready _ _ _ _, by decide +kernel⟩

/-- The descriptor in R1: 8 bits 4 from the right, then 1 bit 31 from the right, 2 words on. -/
theorem witness_ExtractInstructionsStoreTheRange :
    let s := withR1 (box true true false [(0x2002, 0x100)]) 0xBE1
    Ready s ∧
    val s (placeOperand (.gp 1) (.const 0x2000) s.cfg.roles.exbr.word) = .ok 0x2000 ∧
    val s (placeOperand (.gp 1) (.const 0x2000) s.cfg.roles.exbr.desc) = .ok 0xBE1 ∧
    rangeFits 0xBE1 = true ∧
    memRead s (0x2000 + ((0xBE1 : Word).extractLsb' 10 22).zeroExtend 32) = .ok 0x100 ∧
    CanStore s (placeOperand (.gp 1) (.const 0x2000) s.cfg.roles.exbr.data) ∧
    CanStore s (placeOperand (.gp 1) (.const 0x2000) s.cfg.roles.exbrv.data) :=
  ⟨⟨rfl, by decide⟩, by decide +kernel, by decide +kernel, by decide +kernel, by decide +kernel,
    .inl ⟨.gp 1, rfl⟩, .inl ⟨.gp 1, rfl⟩⟩

theorem witness_DepositInstructionsReplaceTheRange :
    let s := (box true true false [(0x2000, 0x2000), (0x2002, 0x100)]).setReg (.gp 12) 0xBE1
    Ready s ∧
    val s (placeOperand (.gp 1) (.abs 0x2000) s.cfg.roles.dpbr.word) = .ok 0x2000 ∧
    val s (placeOperand (.gp 1) (.abs 0x2000) s.cfg.roles.dpbr.desc) = .ok 0xBE1 ∧
    rangeFits 0xBE1 = true ∧
    val s (placeOperand (.gp 1) (.abs 0x2000) s.cfg.roles.dpbr.data) = .ok 11 ∧
    memRead s (0x2000 + ((0xBE1 : Word).extractLsb' 10 22).zeroExtend 32) = .ok 0x100 ∧
    Sys2Proof.Machine.translate s (0x2000 + ((0xBE1 : Word).extractLsb' 10 22).zeroExtend 32) =
      .ok 0x2002 ∧
    CanStore s (placeOperand (.gp 1) (.abs 0x2000) s.cfg.roles.dpbr.word) :=
  ⟨⟨rfl, by decide⟩, by decide +kernel, by decide +kernel, by decide +kernel, by decide +kernel,
    by decide +kernel, by decide +kernel, .inr ⟨0x2000, 0x2000, rfl, by decide +kernel⟩⟩

/-- One bit at bit 31, and all 32 bits. -/
theorem witness_BitRangeLaws : rangeFits 0x3E1 = true ∧ rangeFits 0 = true := by decide +kernel

/-- The highest good index, 3, with VM off, and with VM on. -/
theorem witness_SyscallEntersTheCallGate :
    (let s := box false false false [(0x503, 0x9000)];
      s.flags.r = true ∧ val s (.const 3) = .ok 3 ∧ 0 ≤ (3 : Word).toInt ∧
      (3 : Word).toInt < s.sr.cglen.toInt ∧ SystemStackRoom 18 s ∧
      physRead s (s.sr.cgbr + 3) = .ok 0x9000 ∧
      (∀ k : Nat, 1 ≤ k → k ≤ 18 → (s.sr.cgbr + 3).toNat ≠ (slot s k).toNat)) ∧
    (let s := pagedOpen false [(0x503, 0x9000)];
      val s (.const 3) = .ok 3 ∧ SystemStackRoom 18 s ∧ physRead s (s.sr.cgbr + 3) = .ok 0x9000 ∧
      (∀ k : Nat, 1 ≤ k → k ≤ 18 → (s.sr.cgbr + 3).toNat ≠ (slot s k).toNat)) := by
  refine ⟨⟨rfl, rfl, by decide, by decide, stackRoom_of rfl (by decide) (by decide +kernel),
    by decide +kernel, ?_⟩, ⟨rfl, ?_, by decide +kernel, ?_⟩⟩
  · intro k h1 h2
    interval_cases k <;> decide +kernel
  · intro k h1 h2
    obtain ⟨a, b⟩ := (canEnter_any (s := pagedOpen false [(0x503, 0x9000)]) (c := .memory)
      (h := 0x9001) (by decide +kernel)).2 k h1 (by omega)
    exact ⟨a, fun j h3 h4 => b j h3 (by omega)⟩
  · intro k h1 h2
    interval_cases k <;> decide +kernel

/-- The lowest index that is too high, and a negative one. -/
theorem witness_BadSyscallIndexEntersItsHandler : val (open_ []) (.const 4) = .ok 4 ∧
    (open_ []).sr.cglen.toInt ≤ (4 : Word).toInt ∧ (0xFFFFFFFF : Word).toInt < 0 ∧
    CanEnter (open_ []) .badcall 0x900A :=
  ⟨rfl, by decide, by decide, canEnter_of (by decide +kernel)⟩

/-- The frame of the example, and the same with code 13, in no INTRFAULT handler and in one nested in it. -/
theorem witness_IretRestoresTheFrame : Ready handlerBox ∧ handlerBox.flags.sys = true ∧
    readWords handlerBox handlerBox.sp 21 = .ok (40 :: [1, 8, 0x250, 0, 0x251, 0x4100, 0x3FF3, 112,
      111, 110, 109, 108, 107, 106, 105, 104, 103, 102, 101, 100]) ∧
    readWords (frameBox 13) (frameBox 13).sp 21 = .ok (40 :: [1, 13, 0x250, 0, 0x251, 0x4100, 0x3FF3,
      112, 111, 110, 109, 108, 107, 106, 105, 104, 103, 102, 101, 100]) ∧
    handlerBox.faultNesting ≠ some 0 ∧
    ({ handlerBox with faultNesting := some 1 } : State).faultNesting ≠ some 0 :=
  ⟨⟨rfl, by decide⟩, rfl, by decide +kernel, by decide +kernel, by decide, by decide⟩

/-- From user mode with VM off and on, and from system mode. -/
theorem witness_InterruptThenIretResumes :
    (Ready (open_ []) ∧ CanEnter (open_ []) .privop 0x9008) ∧
    (Ready (pagedOpen false []) ∧ CanEnter (pagedOpen false []) .privop 0x9008) ∧
    (Ready (pagedOpen true []) ∧ CanEnter (pagedOpen true []) .unwrop 0x9006 ∧
      (pagedOpen true []).flags.sys = true) :=
  ⟨⟨⟨rfl, by decide⟩, canEnter_of (by decide +kernel)⟩,
    ⟨⟨rfl, by decide⟩, canEnter_any (by decide +kernel)⟩,
    ⟨⟨rfl, by decide⟩, canEnter_any (by decide +kernel), rfl⟩⟩

theorem witness_HaltStopsOnlySystemMode : (box true true false []).flags.sys = true ∧
    (open_ []).flags.sys = false ∧ CanEnter (open_ []) .halt 0x9004 :=
  ⟨rfl, rfl, canEnter_of (by decide +kernel)⟩

theorem witness_PrivilegedInstructionsTrapInUserMode : (open_ []).flags.sys = false ∧
    CanEnter (open_ []) .privop 0x9008 ∧ privilegedInstr .clrpp = true ∧
    val (open_ []) (.const 6) = .ok 6 ∧ flagOf 6 = some .vm ∧ flagOf 0 = some .r ∧
    flagOf 4 = some .sys ∧ flagOf 5 = some .ip :=
  ⟨rfl, canEnter_of (by decide +kernel), rfl, rfl, rfl, rfl, rfl, rfl⟩

theorem witness_UndescribedInstructionsAreRefused : (box true true false []).flags.sys = true ∧
    (box false true false []).flags.sys = false := ⟨rfl, rfl⟩

/-- The first number of each kind that is out of range; a range of 33 bits; a marker of 41; an INTRFAULT
handler. -/
theorem witness_NumbersOutOfRangeAreRefused :
    let s := withR1 ((box true true false [(5, 6), (0x2000, 5), (0x4000, 41)]).setReg (.gp 12) 0x20) 0x20
    (val s (.const 11) = .ok 11 ∧ 10 < (11 : Word).toNat) ∧
    (val s (.const 7) = .ok 7 ∧ 6 < (7 : Word).toNat) ∧
    (val s (.const 32) = .ok 32 ∧ 32 ≤ (32 : Word).toNat) ∧ s.flags.sys = true ∧
    rangeFits 0x20 = false ∧
    val s (placeOperand (.gp 1) (.abs 0x2000) s.cfg.roles.exbr.word) = .ok 5 ∧
    val s (placeOperand (.gp 1) (.abs 0x2000) s.cfg.roles.exbr.desc) = .ok 0x20 ∧
    val s (placeOperand (.gp 1) (.abs 0x2000) s.cfg.roles.exbrv.desc) = .ok 0x20 ∧
    val s (placeOperand (.gp 1) (.abs 0x2000) s.cfg.roles.dpbr.desc) = .ok 0x20 ∧
    val s (placeOperand (.gp 1) (.abs 0x2000) s.cfg.roles.dpbr.data) = .ok 0x20 ∧
    val s (placeOperand (.gp 1) (.abs 0x2000) s.cfg.roles.dpbrv.desc) = .ok 0x20 ∧
    val s (placeOperand (.gp 1) (.abs 0x2000) s.cfg.roles.dpbrv.data) = .ok 0x20 ∧
    memRead s (5 + rangeSkip 0x20) = .ok 6 ∧ s.faultNesting ≠ some 0 ∧
    memRead s s.sp = .ok 41 ∧ ({ s with faultNesting := some 0 } : State).flags.sys = true := by
  decide +kernel

theorem witness_FatalInterruptWithIpStops : (box true true false []).flags.ip = true ∧
    Cause.privop.fatal = true ∧
    ∃ t, signal (open_ []) .privop (some 0x250) none 0x250 = .entered t :=
  ⟨rfl, rfl, by
    cases h : signal (open_ []) .privop (some 0x250) none 0x250 with
    | entered t => exact ⟨t, rfl⟩
    | ignored =>
      have e : (match signal (open_ []) .privop (some 0x250) none 0x250 with
        | .entered _ => true | .ignored => false | .stopped _ => false) = true := by decide +kernel
      rw [h] at e
      cases e
    | stopped x =>
      have e : (match signal (open_ []) .privop (some 0x250) none 0x250 with
        | .entered _ => true | .ignored => false | .stopped _ => false) = true := by decide +kernel
      rw [h] at e
      cases e⟩

theorem witness_MaskedAndUnhandledCauses : (box true true false []).flags.ip = true ∧
    vectorEntry (box true false false [(0x607, 0), (0x608, 0)]) .timer = .ok 0 ∧
    vectorEntry (box true false false [(0x607, 0), (0x608, 0)]) .privop = .ok 0 := by decide +kernel

/-- A machine that accepts interrupts, with its system stack pointer, interrupt vector base and memory size. -/
def failing (sp intvec : Word) (words : Nat) (m : Memory) : State :=
  { open_ m with
    sr := { (open_ m).sr with sysSP := sp, intvec := intvec }
    cfg := { Launch.atReset with physWords := words } }

/-- INTRFAULT entered: PAGEFAULT's vector entry is no address that exists; a stack at the edge of memory, of
which the first push fails; the last push falls off address 0, and the next is at the top of memory. -/
theorem witness_FailedEntrySignalsIntrFault :
    (let s := failing 0x4000 0xFFFFFFF8 0x10000 [(5, 0x900D)];
      EntryFailsAt s .pagefault 0 ∧ vectorEntry s .intrfault = .ok 0x900D ∧
      SystemStackRoomBut 0 (0 + 21) s ∧
      ∀ k : Nat, 1 ≤ k → k ≤ 0 + 21 → k ≠ 0 →
        (s.sr.intvec + Cause.intrfault.code).toNat ≠ (slot s k).toNat) ∧
    (let s := failing 0x10001 0x600 0x10000 [];
      EntryFailsAt s .privop 1 ∧ vectorEntry s .intrfault = .ok 0x900D ∧
      SystemStackRoomBut 1 (1 + 21) s ∧
      ∀ k : Nat, 1 ≤ k → k ≤ 1 + 21 → k ≠ 1 →
        (s.sr.intvec + Cause.intrfault.code).toNat ≠ (slot s k).toNat) ∧
    (let s := failing 20 0x600 0xFFFFFFFF [];
      EntryFailsAt s .privop 21 ∧ vectorEntry s .intrfault = .ok 0x900D ∧
      SystemStackRoomBut 21 (21 + 21) s ∧
      ∀ k : Nat, 1 ≤ k → k ≤ 21 + 21 → k ≠ 21 →
        (s.sr.intvec + Cause.intrfault.code).toNat ≠ (slot s k).toNat) := by
  refine ⟨⟨⟨rfl, .inl ⟨rfl, .memory, some 0xFFFFFFFA, none, by decide +kernel⟩⟩, by decide +kernel,
      stackRoomBut_of rfl (by decide) (by decide +kernel), ?_⟩,
    ⟨⟨rfl, .inr ⟨by decide, by decide, ⟨0x9008, by decide, by decide +kernel⟩,
        fun k h1 h2 => absurd h1 (by omega), pushRaises_of rfl (by decide +kernel)⟩⟩,
      by decide +kernel, stackRoomBut_of rfl (by decide) (by decide +kernel), ?_⟩,
    ⟨⟨rfl, .inr ⟨by decide, by decide, ⟨0x9008, by decide, by decide +kernel⟩,
        stackRoom_of rfl (by decide) (by decide +kernel), pushRaises_of rfl (by decide +kernel)⟩⟩,
      by decide +kernel, stackRoomBut_of rfl (by decide) (by decide +kernel), ?_⟩⟩ <;>
  · intro k h1 h2 h3
    interval_cases k <;> decide +kernel

/-- FatalStop of INTRFAULT: entry 13 is zero; it is no address that exists; a first push of the second entry
fails, and a last one. -/
theorem witness_FailedEntrySignalsIntrFault_stops :
    (let s := failing 0x10001 0x600 0x10000 [(0x60D, 0)];
      EntryFailsAt s .privop 1 ∧ IntrFaultFails s 1) ∧
    (let s := failing 0x4000 0xFFFF 0x10000 [];
      EntryFailsAt s .privop 0 ∧ IntrFaultFails s 0) ∧
    (let s := failing 20 0x600 0x10000 [];
      EntryFailsAt s .privop 21 ∧ IntrFaultFails s 21 ∧
      ∀ k : Nat, 1 ≤ k → k < 21 →
        (s.sr.intvec + Cause.intrfault.code).toNat ≠ (slot s k).toNat) ∧
    (let s := failing 20 0xFFFFFFF8 0x10000 [(5, 0x900D)];
      EntryFailsAt s .pagefault 0 ∧ IntrFaultFails s 0) := by
  refine ⟨⟨⟨rfl, .inr ⟨by decide, by decide, ⟨0x9008, by decide, by decide +kernel⟩,
        fun k h1 h2 => absurd h1 (by omega), pushRaises_of rfl (by decide +kernel)⟩⟩,
      .inl (by decide +kernel)⟩,
    ⟨⟨rfl, .inl ⟨rfl, .memory, some 0x10007, none, by decide +kernel⟩⟩,
      .inr (.inl ⟨.memory, some 0x1000C, none, by decide +kernel⟩)⟩,
    ⟨⟨rfl, .inr ⟨by decide, by decide, ⟨0x9008, by decide, by decide +kernel⟩,
        stackRoom_of rfl (by decide) (by decide +kernel), pushRaises_of rfl (by decide +kernel)⟩⟩,
      .inr (.inr ⟨⟨0x900D, by decide +kernel⟩, 1, by decide, by decide,
        stackRoomBut_of rfl (by decide) (by decide +kernel), pushRaises_of rfl (by decide +kernel)⟩),
      ?_⟩,
    ⟨⟨rfl, .inl ⟨rfl, .memory, some 0xFFFFFFFA, none, by decide +kernel⟩⟩,
      .inr (.inr ⟨⟨0x900D, by decide +kernel⟩, 21, by decide, by decide,
        stackRoomBut_of rfl (by decide) (by decide +kernel),
        pushRaises_of rfl (by decide +kernel)⟩)⟩⟩
  intro k h1 h2
  interval_cases k <;> decide +kernel

/-- TIMER set. -/
def withTimer (s : State) (v : Word) : State := s.setSpecial .timer v

/-- The tick itself; a LOAD with TIMER at one; a SETSR that sets it to one (R1 holds 1). -/
theorem witness_TimerTicksAfterEachInstruction :
    ((open_ []).flags.r = true ∧ (open_ []).sr.timer = 0 ∧ (withTimer (open_ []) 2).sr.timer ≠ 1 ∧
      (withTimer (open_ []) 1).sr.timer = 1 ∧
      (withTimer (box true true false []) 1).flags.ip = true ∧
      CanEnter (withTimer (open_ []) 1).countDown .timer 0x9007) ∧
    (val (withTimer (open_ []) 1) (.const 9) = .ok 9 ∧ (withTimer (open_ []) 1).sr.timer = 1 ∧
      CanEnter ((withTimer (open_ []) 1).setReg (.gp 1) 9).advance.countDown .timer 0x9007) ∧
    (let s := withR1 { open_ [] with flags := { (open_ []).flags with sys := true } } 1;
      s.flags.r = true ∧ s.flags.sys = true ∧ val s (.const 6) = .ok 6 ∧ s.getReg (.gp 1) = 1 ∧
      CanEnter (s.setSpecial .timer 1).advance.countDown .timer 0x9007) :=
  ⟨⟨rfl, rfl, by decide, rfl, rfl, canEnter_of (by decide +kernel)⟩,
    ⟨rfl, rfl, canEnter_of (by decide +kernel)⟩,
    ⟨rfl, rfl, rfl, by decide +kernel, canEnter_of (by decide +kernel)⟩⟩

/-- `PeriReady` at 0x2000 as something that evaluates. -/
theorem starts {s : State} {o : PeriOp}
    (e : (s.flags.r && s.flags.sys && decide (s.sr.timer ≠ 1) &&
      decide ((memRead s 0x2000).bind (fun w => .ok (periOpOf s w)) = .ok (some o))) = true) :
    PeriReady s (.const 0x2000) 0x2000 o := by
  simp only [Bool.and_eq_true, decide_eq_true_eq] at e
  obtain ⟨⟨⟨h1, h2⟩, h3⟩, h4⟩ := e
  cases h : memRead s 0x2000 with
  | ok w =>
    rw [h] at h4
    injection h4 with h5
    exact ⟨⟨h1, h3⟩, h2, rfl, w, h, h5⟩
  | raise c x y => rw [h] at h4; cases h4
  | stop x => rw [h] at h4; cases h4

/-- `Reads` as something that evaluates. -/
theorem reads_of {s : State} {a : Word} {n : Nat}
    (e : ((List.range n).all fun k =>
      decide ((memRead s (a + BitVec.ofNat 32 k)).bind (fun _ => .ok ()) = .ok ())) = true) :
    Reads s a n := by
  simp only [List.all_eq_true, List.mem_range, decide_eq_true_eq] at e
  exact fun k hk => readable_of (e k hk)

/-- A first word out of reach: `ReadFails`. -/
theorem readFails_of {s : State} {a : Word} {n : Nat} {c : Cause} {x y : Option Word} (hn : 0 < n)
    (e : memRead s (a + BitVec.ofNat 32 0) = .raise c x y) : ReadFails s a n :=
  ⟨0, hn, fun k hk => absurd hk (by omega), c, x, y, e⟩

/-- Packed bytes in memory as something that evaluates. -/
theorem bytesAt_of {s : State} {a : Word} {bytes : List Byte}
    (e : ((List.range bytes.length).all fun k =>
      decide ((s.word (a + BitVec.ofNat 32 (k / 4)).toNat).map (·.extractLsb' (8 * (k % 4)) 8) =
        some (bytes.getD k 0))) = true) :
    ∀ k : Nat, k < bytes.length → ByteAt s a k (bytes.getD k 0) := by
  simp only [List.all_eq_true, List.mem_range, decide_eq_true_eq, Option.map_eq_some_iff] at e
  exact e

theorem packedAt_of {s : State} {a : Word} {bytes : List Byte} (hv : s.flags.vm = false)
    (e : ((List.range ((bytes.length + 3) / 4)).all fun k =>
      physValid s (a + BitVec.ofNat 32 k)) = true)
    (h : ((List.range bytes.length).all fun k =>
      decide ((s.word (a + BitVec.ofNat 32 (k / 4)).toNat).map (·.extractLsb' (8 * (k % 4)) 8) =
        some (bytes.getD k 0))) = true) : PackedAt s a bytes :=
  ⟨room_of hv e, bytesAt_of h⟩

/-- The host's next answers about device failures. -/
def withFails (s : State) (bs : List Bool) : State :=
  s.setWorld { s.world with host := { s.world.host with failures := bs } }

/-- An operation that ends with -3; a control structure beyond memory, and one of which the last word is beyond;
a well-formed state. -/
theorem witness_PeriPutsItsResultInRegisterAndErr :
    (Ready (peri [1, 9] []) ∧ (peri [1, 9] []).flags.sys = true ∧
      val (peri [1, 9] []) (.const 0x2000) = .ok 0x2000 ∧
      periOperation 0x2000 (peri [1, 9] []) = .ok (0xFFFFFFFD, peri [1, 9] [])) ∧
    (Ready (peri [] []) ∧ (peri [] []).flags.sys = true ∧
      val (peri [] []) (.const 0x10000) = .ok 0x10000 ∧
      memRead (peri [] []) 0x10000 = .raise .memory (some 0x10000) none) ∧
    (let s := box true true false [(0xFFFC, 16), (0xFFFD, 1), (0xFFFE, 1), (0xFFFF, 1)];
      PeriReady s (.const 0xFFFC) 0xFFFC .netSend ∧
      ReadFails s (0xFFFC + 1) (inputWords .netSend)) ∧
    (box true true false []).wf :=
  ⟨⟨test_ready _ _ _ _, rfl, rfl, by decide +kernel⟩,
    ⟨test_ready _ _ _ _, rfl, rfl, by decide +kernel⟩,
    ⟨⟨test_ready _ _ _ _, rfl, rfl, 16, by decide +kernel, by decide +kernel⟩,
      3, by decide, reads_of (by decide +kernel), .memory, some 0x10000, none, by decide +kernel⟩,
    box_wf _ _ _ (by decide +kernel) (by simp)⟩

theorem witness_UnknownPeriOperationIsBadCode : Ready (peri [0] []) ∧
    (peri [0] []).flags.sys = true ∧ val (peri [0] []) (.const 0x2000) = .ok 0x2000 ∧
    memRead (peri [0] []) 0x2000 = .ok 0 ∧ ∀ o : PeriOp, periCodeOf (peri [0] []) o ≠ 0 :=
  ⟨test_ready _ _ _ _, rfl, rfl, by decide +kernel, fun o => by cases o <;> decide +kernel⟩

/-- The second word out of reach; drive numbers 0 and 9; drive 8, absent, and drive 1. -/
theorem witness_DiscCheckReportsTheSize :
    (let s := box true true false [(0xFFFF, 1)];
      PeriReady s (.const 0xFFFF) 0xFFFF .discCheck ∧
      memRead s (0xFFFF + 1) = .raise .memory (some 0x10000) none) ∧
    (PeriReady (peri [1, 9] []) (.const 0x2000) 0x2000 .discCheck ∧
      memRead (peri [1, 9] []) (0x2000 + 1) = .ok 9 ∧ 8 < (9 : Word).toInt ∧
      (0 : Word).toInt < 1) ∧
    (PeriReady (peri [1, 8] []) (.const 0x2000) 0x2000 .discCheck ∧
      memRead (peri [1, 8] []) (0x2000 + 1) = .ok (BitVec.ofNat 32 ((7 : Fin 8).val + 1)) ∧
      (peri [1, 8] []).world.discs[(7 : Fin 8)] = none) ∧
    (PeriReady (peri [1, 1] []) (.const 0x2000) 0x2000 .discCheck ∧
      memRead (peri [1, 1] []) (0x2000 + 1) = .ok (BitVec.ofNat 32 ((0 : Fin 8).val + 1)) ∧
      (peri [1, 1] []).world.discs[(0 : Fin 8)] = some ⟨6000, []⟩ ∧ 6000 < 2 ^ 31) :=
  ⟨⟨⟨test_ready _ _ _ _, rfl, rfl, 1, by decide +kernel, by decide +kernel⟩, by decide +kernel⟩,
    ⟨starts (by decide +kernel), by decide +kernel⟩, ⟨starts (by decide +kernel), by decide +kernel⟩,
    ⟨starts (by decide +kernel), by decide +kernel⟩⟩

/-- 128 words at 0x3000. -/
def blockWords : Memory := (List.range 128).map fun k => (0x3000 + k, BitVec.ofNat 32 k)

/-- Drive 9; drive 2, absent; the block after the last, and block -1; words out of reach; the last block of
drive 1, with the host's failure and without. -/
theorem witness_DiscWriteStoresTheBlocks :
    (let s := peri [3, 9, 5999, 1, 0x3000] [];
      PeriReady s (.const 0x2000) 0x2000 .discWrite ∧ memRead s (0x2000 + 1) = .ok 9 ∧
      memRead s (0x2000 + 2) = .ok 5999 ∧ memRead s (0x2000 + 3) = .ok 1 ∧
      memRead s (0x2000 + 4) = .ok 0x3000 ∧ 8 < (9 : Word).toInt) ∧
    (let s := peri [3, 2, 5999, 1, 0x3000] [];
      PeriReady s (.const 0x2000) 0x2000 .discWrite ∧
      memRead s (0x2000 + 1) = .ok (BitVec.ofNat 32 ((1 : Fin 8).val + 1)) ∧
      memRead s (0x2000 + 2) = .ok 5999 ∧ memRead s (0x2000 + 3) = .ok 1 ∧
      memRead s (0x2000 + 4) = .ok 0x3000 ∧ s.world.discs[(1 : Fin 8)] = none) ∧
    (let s := peri [3, 1, 5999, 2, 0x3000] [];
      PeriReady s (.const 0x2000) 0x2000 .discWrite ∧
      memRead s (0x2000 + 1) = .ok (BitVec.ofNat 32 ((0 : Fin 8).val + 1)) ∧
      memRead s (0x2000 + 2) = .ok 5999 ∧ memRead s (0x2000 + 3) = .ok 2 ∧
      memRead s (0x2000 + 4) = .ok 0x3000 ∧ s.world.discs[(0 : Fin 8)] = some ⟨6000, []⟩ ∧
      0 < (2 : Word).toInt ∧ (6000 : Int) < (5999 : Word).toInt + (2 : Word).toInt ∧
      (0xFFFFFFFF : Word).toInt < 0) ∧
    (let s := peri [3, 1, 5999, 1, 0x10000] [];
      PeriReady s (.const 0x2000) 0x2000 .discWrite ∧ memRead s (0x2000 + 4) = .ok 0x10000 ∧
      ReadFails s 0x10000 (128 * (1 : Word).toNat)) ∧
    (let s := withFails (peri [3, 1, 5999, 1, 0x3000] blockWords) [true];
      PeriReady s (.const 0x2000) 0x2000 .discWrite ∧ Reads s 0x3000 (128 * (1 : Word).toNat) ∧
      (hostFails s).1 = true) ∧
    (let s := withFails (peri [3, 1, 5999, 1, 0x3000] blockWords) [false, true];
      PeriReady s (.const 0x2000) 0x2000 .discWrite ∧ Reads s 0x3000 (128 * (1 : Word).toNat) ∧
      memRead s (0x2000 + 1) = .ok (BitVec.ofNat 32 ((0 : Fin 8).val + 1)) ∧
      memRead s (0x2000 + 2) = .ok 5999 ∧ memRead s (0x2000 + 3) = .ok 1 ∧
      memRead s (0x2000 + 4) = .ok 0x3000 ∧ s.world.discs[(0 : Fin 8)] = some ⟨6000, []⟩ ∧
      0 < (1 : Word).toInt ∧ 0 ≤ (5999 : Word).toInt ∧
      (5999 : Word).toInt + (1 : Word).toInt ≤ (6000 : Nat) ∧ (hostFails s).1 = false) :=
  ⟨⟨starts (by decide +kernel), by decide +kernel⟩, ⟨starts (by decide +kernel), by decide +kernel⟩,
    ⟨starts (by decide +kernel), by decide +kernel⟩,
    ⟨starts (by decide +kernel), by decide +kernel,
      readFails_of (c := .memory) (x := some 0x10000) (y := none) (by decide) (by decide +kernel)⟩,
    ⟨starts (by decide +kernel), reads_of (by decide +kernel), by decide +kernel⟩,
    ⟨starts (by decide +kernel), reads_of (by decide +kernel), by decide +kernel⟩⟩

/-- Drive 0; drive 2, absent; the block after the last; a buffer that runs out of memory; the last block of
drive 1 into the last words of memory. -/
theorem witness_DiscReadDeliversTheBlocks :
    (let s := peri [2, 0, 5999, 1, 0x3000] [];
      PeriReady s (.const 0x2000) 0x2000 .discRead ∧ memRead s (0x2000 + 1) = .ok 0 ∧
      memRead s (0x2000 + 2) = .ok 5999 ∧ memRead s (0x2000 + 3) = .ok 1 ∧
      memRead s (0x2000 + 4) = .ok 0x3000 ∧ (0 : Word).toInt < 1) ∧
    (let s := peri [2, 2, 5999, 1, 0x3000] [];
      PeriReady s (.const 0x2000) 0x2000 .discRead ∧
      memRead s (0x2000 + 1) = .ok (BitVec.ofNat 32 ((1 : Fin 8).val + 1)) ∧
      s.world.discs[(1 : Fin 8)] = none) ∧
    (let s := peri [2, 1, 6000, 1, 0x3000] [];
      PeriReady s (.const 0x2000) 0x2000 .discRead ∧ memRead s (0x2000 + 2) = .ok 6000 ∧
      (6000 : Int) < (6000 : Word).toInt + (1 : Word).toInt) ∧
    (let s := peri [2, 1, 5999, 1, 0xFF81] [];
      PeriReady s (.const 0x2000) 0x2000 .discRead ∧ memRead s (0x2000 + 4) = .ok 0xFF81 ∧
      127 < 128 * (1 : Word).toNat ∧ physValid s (0xFF81 + BitVec.ofNat 32 127) = false) ∧
    (let s := peri [2, 1, 5999, 1, 0xFF80] [];
      PeriReady s (.const 0x2000) 0x2000 .discRead ∧
      (memRead s (0x2000 + 1) = .ok (BitVec.ofNat 32 ((0 : Fin 8).val + 1)) ∧
        memRead s (0x2000 + 2) = .ok 5999 ∧ memRead s (0x2000 + 3) = .ok 1 ∧
        memRead s (0x2000 + 4) = .ok 0xFF80 ∧ s.world.discs[(0 : Fin 8)] = some ⟨6000, []⟩ ∧
        0 < (1 : Word).toInt ∧ s.flags.vm = false ∧ 0 ≤ (5999 : Word).toInt ∧
        (5999 : Word).toInt + (1 : Word).toInt ≤ (6000 : Nat) ∧ 128 * (1 : Word).toNat ≤ 2 ^ 32) ∧
      Room s 0xFF80 (128 * (1 : Word).toNat)) :=
  ⟨⟨starts (by decide +kernel), by decide +kernel⟩, ⟨starts (by decide +kernel), by decide +kernel⟩,
    ⟨starts (by decide +kernel), by decide +kernel⟩, ⟨starts (by decide +kernel), by decide +kernel⟩,
    ⟨starts (by decide +kernel), by decide +kernel, room_of rfl (by decide +kernel)⟩⟩

/-- A disc operation of no blocks on drive 1. -/
theorem witness_DiscOperationsOfNoBlocksAreRefused :
    (let s := peri [3, 1, 0, 0, 0x3000] [];
      PeriReady s (.const 0x2000) 0x2000 .discWrite ∧
      memRead s (0x2000 + 1) = .ok (BitVec.ofNat 32 ((0 : Fin 8).val + 1)) ∧
      memRead s (0x2000 + 2) = .ok 0 ∧ memRead s (0x2000 + 3) = .ok 0 ∧
      memRead s (0x2000 + 4) = .ok 0x3000 ∧ s.world.discs[(0 : Fin 8)] = some ⟨6000, []⟩ ∧
      (0 : Word).toInt ≤ 0) ∧
    (let s := peri [2, 1, 0, 0, 0x3000] [];
      PeriReady s (.const 0x2000) 0x2000 .discRead ∧
      memRead s (0x2000 + 1) = .ok (BitVec.ofNat 32 ((0 : Fin 8).val + 1)) ∧
      memRead s (0x2000 + 2) = .ok 0 ∧ memRead s (0x2000 + 3) = .ok 0 ∧
      memRead s (0x2000 + 4) = .ok 0x3000 ∧ s.world.discs[(0 : Fin 8)] = some ⟨6000, []⟩) :=
  ⟨⟨starts (by decide +kernel), by decide +kernel⟩, starts (by decide +kernel), by decide +kernel⟩

/-- Strings and words at the end of memory, fewer keys asked for than there are; and one word too far. -/
theorem witness_TermincTakesKeysAsAString :
    (let s := withKeys (peri [11, 4, 0xFFFE] []) [0x61, 0x62, 0x63, 0x64, 0x65];
      PeriReady s (.const 0x2000) 0x2000 .termInC ∧ memRead s (0x2000 + 1) = .ok 4 ∧
      memRead s (0x2000 + 2) = .ok 0xFFFE ∧ 0 < (4 : Word).toInt ∧
      Room s 0xFFFE (min (4 : Word).toNat s.world.keyboard.length / 4 + 1)) ∧
    (let s := withKeys (peri [13, 2, 0xFFFE] []) [0x61, 0x62, 0x63];
      PeriReady s (.const 0x2000) 0x2000 .termInW ∧ memRead s (0x2000 + 1) = .ok 2 ∧
      memRead s (0x2000 + 2) = .ok 0xFFFE ∧ 0 < (2 : Word).toInt ∧ s.flags.vm = false ∧
      Room s 0xFFFE (min (2 : Word).toNat s.world.keyboard.length)) ∧
    (let s := withKeys (peri [11, 4, 0xFFFF] []) [0x61, 0x62, 0x63, 0x64, 0x65];
      PeriReady s (.const 0x2000) 0x2000 .termInC ∧ memRead s (0x2000 + 1) = .ok 4 ∧
      memRead s (0x2000 + 2) = .ok 0xFFFF ∧
      1 < min (4 : Word).toNat s.world.keyboard.length / 4 + 1 ∧ s.flags.vm = false ∧
      physValid s (0xFFFF + BitVec.ofNat 32 1) = false) ∧
    (let s := withKeys (peri [13, 2, 0xFFFF] []) [0x61, 0x62, 0x63];
      PeriReady s (.const 0x2000) 0x2000 .termInW ∧ memRead s (0x2000 + 1) = .ok 2 ∧
      memRead s (0x2000 + 2) = .ok 0xFFFF ∧
      1 < min (2 : Word).toNat s.world.keyboard.length ∧ s.flags.vm = false ∧
      physValid s (0xFFFF + BitVec.ofNat 32 1) = false) ∧
    (let s := peri [13, 0, 0x3000] [];
      PeriReady s (.const 0x2000) 0x2000 .termInW ∧ memRead s (0x2000 + 1) = .ok 0 ∧
      memRead s (0x2000 + 2) = .ok 0x3000 ∧ (0 : Word).toInt ≤ 0) :=
  ⟨⟨starts (by decide +kernel), by decide +kernel, by decide +kernel, by decide,
      room_of rfl (by decide +kernel)⟩,
    ⟨starts (by decide +kernel), by decide +kernel, by decide +kernel, by decide, rfl,
      room_of rfl (by decide +kernel)⟩,
    ⟨starts (by decide +kernel), by decide +kernel⟩, ⟨starts (by decide +kernel), by decide +kernel⟩,
    starts (by decide +kernel), by decide +kernel⟩

/-- `WordsAt` as something that evaluates. -/
theorem wordsAt_of {s : State} {a : Word} {ws : List Word}
    (e : ((List.range ws.length).all fun k =>
      decide (memRead s (a + BitVec.ofNat 32 k) = .ok (ws.getD k 0))) = true) : WordsAt s a ws := by
  simp only [List.all_eq_true, List.mem_range, decide_eq_true_eq] at e
  exact e

/-- Four characters in the last word of memory; a count of zero; the same one character a word; and a word out of
reach. -/
theorem witness_TermoutcPrintsPackedCharacters :
    (let s := peri [12, 4, 0xFFFF] [(0xFFFF, 0x44004241)];
      PeriReady s (.const 0x2000) 0x2000 .termOutC ∧ memRead s (0x2000 + 1) = .ok 4 ∧
      memRead s (0x2000 + 2) = .ok 0xFFFF ∧ 0 < (4 : Word).toInt ∧
      [0x41#8, 0x42, 0, 0x44].length = (4 : Word).toNat ∧
      PackedAt s 0xFFFF [0x41, 0x42, 0, 0x44]) ∧
    (let s := peri [12, 0, 0x3000] [(0x3000, 0x6948)];
      PeriReady s (.const 0x2000) 0x2000 .termOutC ∧ memRead s (0x2000 + 1) = .ok 0 ∧
      memRead s (0x2000 + 2) = .ok 0x3000 ∧ StringAt s 0x3000 [0x48, 0x69]) ∧
    (let s := peri [12, 5, 0xFFFF] [(0xFFFF, 0x44434241)];
      PeriReady s (.const 0x2000) 0x2000 .termOutC ∧ memRead s (0x2000 + 1) = .ok 5 ∧
      memRead s (0x2000 + 2) = .ok 0xFFFF ∧ 0 < (5 : Word).toInt ∧
      WordsAt s 0xFFFF [0x44434241] ∧ [0x44434241#32].length < ((5 : Word).toNat + 3) / 4 ∧
      (∀ w ∈ [0x44434241#32], 0 ∉ unpackWord w) ∧
      memRead s (0xFFFF + BitVec.ofNat 32 1) = .raise .memory (some 0x10000) none) ∧
    (let s := peri [14, 2, 0x3000] [(0x3000, 0x48), (0x3001, 0)];
      PeriReady s (.const 0x2000) 0x2000 .termOutW ∧ memRead s (0x2000 + 1) = .ok 2 ∧
      memRead s (0x2000 + 2) = .ok 0x3000 ∧ 0 < (2 : Word).toInt ∧
      WordsAt s 0x3000 ([0x48#8, 0].map fun c => c.zeroExtend 32) ∧
      [0x48#8, 0].length = (2 : Word).toNat) ∧
    (let s := peri [14, 0, 0x3000] [(0x3000, 0x48), (0x3001, 0)];
      PeriReady s (.const 0x2000) 0x2000 .termOutW ∧ memRead s (0x2000 + 1) = .ok 0 ∧
      memRead s (0x2000 + 2) = .ok 0x3000 ∧ (0 : Byte) ∉ [0x48#8] ∧
      WordsAt s 0x3000 ([0x48#8].map fun c => c.zeroExtend 32) ∧
      memRead s (0x3000 + BitVec.ofNat 32 1) = .ok 0) ∧
    (let s := peri [14, 2, 0xFFFF] [(0xFFFF, 0x48)];
      PeriReady s (.const 0x2000) 0x2000 .termOutW ∧ memRead s (0x2000 + 1) = .ok 2 ∧
      memRead s (0x2000 + 2) = .ok 0xFFFF ∧ [0x48#8].length < (2 : Word).toNat ∧
      WordsAt s 0xFFFF ([0x48#8].map fun c => c.zeroExtend 32) ∧
      memRead s (0xFFFF + BitVec.ofNat 32 1) = .raise .memory (some 0x10000) none) :=
  ⟨⟨starts (by decide +kernel), by decide +kernel, by decide +kernel, by decide +kernel, by decide +kernel,
      packedAt_of rfl (by decide +kernel) (by decide +kernel)⟩,
    ⟨starts (by decide +kernel), by decide +kernel, by decide +kernel,
      packedAt_of rfl (by decide +kernel) (by decide +kernel), by decide +kernel, by decide +kernel⟩,
    ⟨starts (by decide +kernel), by decide +kernel, by decide +kernel, by decide +kernel,
      wordsAt_of (by decide +kernel), by decide +kernel, by simp [unpackWord], by decide +kernel⟩,
    ⟨starts (by decide +kernel), by decide +kernel, by decide +kernel, by decide +kernel,
      wordsAt_of (by decide +kernel), by decide +kernel⟩,
    ⟨starts (by decide +kernel), by decide +kernel, by decide +kernel, by decide +kernel,
      wordsAt_of (by decide +kernel), by decide +kernel⟩,
    starts (by decide +kernel), by decide +kernel, by decide +kernel, by decide +kernel,
    wordsAt_of (by decide +kernel), by decide +kernel⟩

/-- Counts of zero that run out of memory; a negative count; a wide character, counted and before a zero word. -/
theorem witness_TermoutcPrintsPackedCharacters_more :
    (let s := peri [12, 0, 0xFFFF] [(0xFFFF, 0x44434241)];
      PeriReady s (.const 0x2000) 0x2000 .termOutC ∧ memRead s (0x2000 + 1) = .ok 0 ∧
      memRead s (0x2000 + 2) = .ok 0xFFFF ∧ WordsAt s 0xFFFF [0x44434241] ∧
      (∀ w ∈ [0x44434241#32], 0 ∉ unpackWord w) ∧
      memRead s (0xFFFF + BitVec.ofNat 32 1) = .raise .memory (some 0x10000) none) ∧
    (let s := peri [14, 0, 0xFFFF] [(0xFFFF, 0x48)];
      PeriReady s (.const 0x2000) 0x2000 .termOutW ∧ memRead s (0x2000 + 1) = .ok 0 ∧
      memRead s (0x2000 + 2) = .ok 0xFFFF ∧ (0 : Byte) ∉ [0x48#8] ∧
      WordsAt s 0xFFFF ([0x48#8].map fun c => c.zeroExtend 32) ∧
      memRead s (0xFFFF + BitVec.ofNat 32 1) = .raise .memory (some 0x10000) none) ∧
    (let s := peri [12, 0xFFFFFFFF, 0x10000] [];
      PeriReady s (.const 0x2000) 0x2000 .termOutC ∧ memRead s (0x2000 + 1) = .ok 0xFFFFFFFF ∧
      memRead s (0x2000 + 2) = .ok 0x10000 ∧ (0xFFFFFFFF : Word).toInt < 0) ∧
    (let s := peri [14, 1, 0x3000] [(0x3000, 0x100), (0x3001, 0)];
      PeriReady s (.const 0x2000) 0x2000 .termOutW ∧ memRead s (0x2000 + 1) = .ok 1 ∧
      memRead s (0x2000 + 2) = .ok 0x3000 ∧ WordsAt s 0x3000 [0x100] ∧
      [0x100#32].length = (1 : Word).toNat ∧ 0 ∉ [0x100#32] ∧
      memRead s (0x3000 + BitVec.ofNat 32 1) = .ok 0 ∧ ∃ w ∈ [0x100#32], 256 ≤ w.toNat) :=
  ⟨⟨starts (by decide +kernel), by decide +kernel, by decide +kernel, wordsAt_of (by decide +kernel),
      by simp [unpackWord], by decide +kernel⟩,
    ⟨starts (by decide +kernel), by decide +kernel, by decide +kernel, by decide +kernel,
      wordsAt_of (by decide +kernel), by decide +kernel⟩,
    ⟨starts (by decide +kernel), by decide +kernel⟩,
    starts (by decide +kernel), by decide +kernel, by decide +kernel, wordsAt_of (by decide +kernel),
    by decide +kernel, by decide +kernel, by decide +kernel, 0x100, by simp, by decide +kernel⟩

/-- A host file for a tape: the name "f" at 0x3000. -/
def loading (mode : Word) (f : HostFile) : State :=
  (peri [6, 8, 0x3000, mode] [(0x3000, 0x66)]).setWorld { World.reset with files := [f] }

theorem stringAt_f (mode : Word) (f : HostFile) : StringAt (loading mode f) 0x3000 [0x66] := by
  refine ⟨⟨⟨rfl, fun k hk => ?_⟩, fun k hk => ?_⟩, by decide, by decide⟩
  · obtain rfl : k = 0 := by simpa using hk
    rfl
  · have : k < 2 := by simpa using hk
    refine ⟨0x66, ?_, ?_⟩ <;> interval_cases k <;> rfl

theorem stringAt_loaded (mode : Word) (f g : HostFile) (m : TapeMode) :
    StringAt (withTape (loading mode f) m 0 g) 0x3000 [0x66] := by
  obtain ⟨⟨⟨h1, h2⟩, h3⟩, h4⟩ := stringAt_f mode f
  exact ⟨⟨⟨h1, fun k hk => (physValid_congr _ rfl).trans (h2 k hk)⟩, h3⟩, h4⟩

/-- Unit 9; unit 8 unloaded; unit 8 loaded. -/
theorem witness_TapeUnitOperations :
    (PeriReady (peri [4, 9] []) (.const 0x2000) 0x2000 .tapeCheck ∧
      memRead (peri [4, 9] []) (0x2000 + 1) = .ok 9 ∧ 8 < (9 : Word).toInt) ∧
    (PeriReady (peri [6, 0, 1, 2] []) (.const 0x2000) 0x2000 .tapeLoad ∧
      memRead (peri [6, 0, 1, 2] []) (0x2000 + 1) = .ok 0 ∧ (0 : Word).toInt < 1 ∧
      memRead (peri [6, 0, 1, 2] []) (0x2000 + 2) = .ok 1 ∧
      memRead (peri [6, 0, 1, 2] []) (0x2000 + 3) = .ok 2) ∧
    (PeriReady (peri [7, 8] []) (.const 0x2000) 0x2000 .tapeLength ∧
      memRead (peri [7, 8] []) (0x2000 + 1) = .ok (BitVec.ofNat 32 ((7 : Fin 8).val + 1)) ∧
      (peri [7, 8] []).world.tapes[(7 : Fin 8)] = none) ∧
    (let s := withTape (peri [7, 8] []) .read 0 (fiveBytes true false);
      PeriReady s (.const 0x2000) 0x2000 .tapeLength ∧
      memRead s (0x2000 + 1) = .ok (BitVec.ofNat 32 ((7 : Fin 8).val + 1)) ∧
      s.world.tapes[(7 : Fin 8)] = some ⟨[0x66], .read, 0⟩ ∧
      hostFile s [0x66] = some (fiveBytes true false) ∧
      (fiveBytes true false).accessible = true ∧ (fiveBytes false false).accessible = false ∧
      hostFile s [0x67] = none) ∧
    PeriReady (withTape (peri [4, 8] []) .read 0 (fiveBytes true false)) (.const 0x2000) 0x2000
      .tapeCheck ∧
    PeriReady (withTape (peri [5, 8] []) .read 0 (fiveBytes true false)) (.const 0x2000) 0x2000
      .tapeRewind ∧
    PeriReady (withTape (peri [8, 8] []) .read 0 (fiveBytes true false)) (.const 0x2000) 0x2000
      .tapeUnload :=
  ⟨⟨starts (by decide +kernel), by decide +kernel⟩, ⟨starts (by decide +kernel), by decide +kernel⟩,
    ⟨starts (by decide +kernel), by decide +kernel⟩, ⟨starts (by decide +kernel), by decide +kernel⟩,
    starts (by decide +kernel), starts (by decide +kernel), starts (by decide +kernel)⟩

/-- $TAPELOAD on unit 8: no such file; a file the host does not give; 'R'; a bad mode; 'W' of a new file. -/
theorem witness_TapeUnitOperations_load :
    (let s := loading 82 ⟨[0x67], none, false, true⟩;
      PeriReady s (.const 0x2000) 0x2000 .tapeLoad ∧ StringAt s 0x3000 [0x66] ∧
      memRead s (0x2000 + 1) = .ok (BitVec.ofNat 32 ((7 : Fin 8).val + 1)) ∧
      memRead s (0x2000 + 2) = .ok 0x3000 ∧ memRead s (0x2000 + 3) = .ok 82 ∧
      s.world.tapes[(7 : Fin 8)] = none ∧ hostFile s [0x66] = none) ∧
    (let s := loading 82 (fiveBytes false false);
      PeriReady s (.const 0x2000) 0x2000 .tapeLoad ∧ StringAt s 0x3000 [0x66] ∧
      hostFile s [0x66] = some (fiveBytes false false)) ∧
    (let s := loading 82 (fiveBytes true false);
      PeriReady s (.const 0x2000) 0x2000 .tapeLoad ∧ StringAt s 0x3000 [0x66] ∧
      hostFile s [0x66] = some (fiveBytes true false) ∧ (fiveBytes true false).content ≠ none) ∧
    (let s := loading 88 (fiveBytes true false);
      PeriReady s (.const 0x2000) 0x2000 .tapeLoad ∧ StringAt s 0x3000 [0x66] ∧
      memRead s (0x2000 + 3) = .ok 88 ∧ (88 : Word) ≠ 82 ∧ (88 : Word) ≠ 87) ∧
    (let s := loading 87 ⟨[0x66], none, false, true⟩;
      PeriReady s (.const 0x2000) 0x2000 .tapeLoad ∧ StringAt s 0x3000 [0x66] ∧
      memRead s (0x2000 + 3) = .ok 87 ∧ hostFile s [0x66] = some ⟨[0x66], none, false, true⟩) :=
  ⟨⟨starts (by decide +kernel), stringAt_f _ _, by decide +kernel⟩,
    ⟨starts (by decide +kernel), stringAt_f _ _, by decide +kernel⟩,
    ⟨starts (by decide +kernel), stringAt_f _ _, by decide +kernel⟩,
    ⟨starts (by decide +kernel), stringAt_f _ _, by decide +kernel⟩,
    ⟨starts (by decide +kernel), stringAt_f _ _, by decide +kernel⟩⟩

/-- $TAPELOAD on unit 8: a file that cannot be read, or written; 'W' on a file that exists; a name beyond memory;
and on unit 8 loaded. -/
theorem witness_TapeUnitOperations_misuse :
    (let s := loading 82 (fiveBytes false true);
      PeriReady s (.const 0x2000) 0x2000 .tapeLoad ∧ StringAt s 0x3000 [0x66] ∧
      hostFile s [0x66] = some (fiveBytes false true) ∧ (fiveBytes false true).readable = false) ∧
    (let s := loading 87 (fiveBytes true false);
      PeriReady s (.const 0x2000) 0x2000 .tapeLoad ∧ StringAt s 0x3000 [0x66] ∧
      hostFile s [0x66] = some (fiveBytes true false) ∧ (fiveBytes true false).writable = false) ∧
    (let s := loading 87 (fiveBytes true true);
      PeriReady s (.const 0x2000) 0x2000 .tapeLoad ∧ StringAt s 0x3000 [0x66] ∧
      hostFile s [0x66] = some (fiveBytes true true) ∧ (fiveBytes true true).writable = true ∧
      (fiveBytes true true).content ≠ none) ∧
    (let s := peri [6, 8, 0xFFFF, 82] [(0xFFFF, 0x66666666)];
      PeriReady s (.const 0x2000) 0x2000 .tapeLoad ∧ WordsAt s 0xFFFF [0x66666666] ∧
      memRead s (0x2000 + 1) = .ok (BitVec.ofNat 32 ((7 : Fin 8).val + 1)) ∧
      memRead s (0x2000 + 2) = .ok 0xFFFF ∧ memRead s (0x2000 + 3) = .ok 82 ∧
      (∀ w ∈ [0x66666666#32], 0 ∉ unpackWord w) ∧
      memRead s (0xFFFF + BitVec.ofNat 32 1) = .raise .memory (some 0x10000) none) ∧
    (let s := withTape (loading 82 (fiveBytes true false)) .read 0 (fiveBytes true false);
      PeriReady s (.const 0x2000) 0x2000 .tapeLoad ∧ StringAt s 0x3000 [0x66] ∧
      s.world.tapes[(7 : Fin 8)] ≠ none) :=
  ⟨⟨starts (by decide +kernel), stringAt_f _ _, by decide +kernel⟩,
    ⟨starts (by decide +kernel), stringAt_f _ _, by decide +kernel⟩,
    ⟨starts (by decide +kernel), stringAt_f _ _, by decide +kernel⟩,
    ⟨starts (by decide +kernel), wordsAt_of (by decide +kernel), by decide +kernel, by decide +kernel,
      by decide +kernel, by simp [unpackWord], by decide +kernel⟩,
    starts (by decide +kernel), stringAt_loaded _ _ _ _, by decide +kernel⟩

/-- Unit 9 for $TAPEREAD and unit 0 for $TAPEWRITE; $TAPEREAD of an unloaded unit, of a file that runs out of
memory, and of the last byte of a file. -/
theorem witness_TapeReadDeliversTheNextBlock :
    (PeriReady (peri [9, 9, 0x3000] []) (.const 0x2000) 0x2000 .tapeRead ∧
      memRead (peri [9, 9, 0x3000] []) (0x2000 + 1) = .ok 9 ∧
      memRead (peri [9, 9, 0x3000] []) (0x2000 + 2) = .ok 0x3000 ∧ 8 < (9 : Word).toInt) ∧
    (PeriReady (peri [10, 0, 0x3000, 3] []) (.const 0x2000) 0x2000 .tapeWrite ∧
      memRead (peri [10, 0, 0x3000, 3] []) (0x2000 + 1) = .ok 0 ∧
      memRead (peri [10, 0, 0x3000, 3] []) (0x2000 + 3) = .ok 3 ∧ (0 : Word).toInt < 1) ∧
    (let s := withTape (peri [9, 8, 0xFFFF] []) .read 0 (fiveBytes true false);
      PeriReady s (.const 0x2000) 0x2000 .tapeRead ∧
      memRead s (0x2000 + 1) = .ok (BitVec.ofNat 32 ((7 : Fin 8).val + 1)) ∧
      memRead s (0x2000 + 2) = .ok 0xFFFF ∧
      s.world.tapes[(7 : Fin 8)] = some ⟨[0x66], .read, 0⟩ ∧
      tapeContent s ⟨[0x66], .read, 0⟩ = some [1, 2, 3, 4, 5] ∧ s.flags.vm = false ∧
      1 < (min 512 ([1#8, 2, 3, 4, 5].length - 0) + 3) / 4 ∧
      physValid s (0xFFFF + BitVec.ofNat 32 1) = false) ∧
    (PeriReady (peri [9, 8, 0x3000] []) (.const 0x2000) 0x2000 .tapeRead ∧
      memRead (peri [9, 8, 0x3000] []) (0x2000 + 1) = .ok (BitVec.ofNat 32 ((7 : Fin 8).val + 1)) ∧
      memRead (peri [9, 8, 0x3000] []) (0x2000 + 2) = .ok 0x3000 ∧
      (peri [9, 8, 0x3000] []).world.tapes[(7 : Fin 8)] = none) ∧
    (let s := withTape (peri [9, 8, 0x3000] []) .read 4 (fiveBytes true false);
      PeriReady s (.const 0x2000) 0x2000 .tapeRead ∧
      (memRead s (0x2000 + 1) = .ok (BitVec.ofNat 32 ((7 : Fin 8).val + 1)) ∧
        memRead s (0x2000 + 2) = .ok 0x3000 ∧
        s.world.tapes[(7 : Fin 8)] = some ⟨[0x66], .read, 4⟩ ∧
        tapeContent s ⟨[0x66], .read, 4⟩ = some [1, 2, 3, 4, 5]) ∧ Room s 0x3000 128) :=
  ⟨⟨starts (by decide +kernel), by decide +kernel⟩, ⟨starts (by decide +kernel), by decide +kernel⟩,
    ⟨starts (by decide +kernel), by decide +kernel⟩, ⟨starts (by decide +kernel), by decide +kernel⟩,
    ⟨starts (by decide +kernel), by decide +kernel, room_of rfl (by decide +kernel)⟩⟩

/-- $TAPEWRITE of three bytes: an unloaded unit; a source out of reach; a file gone; the host's failure; success
at the end of the file. -/
theorem witness_TapeReadDeliversTheNextBlock_write :
    (let s := peri [10, 8, 0x3000, 3] [];
      PeriReady s (.const 0x2000) 0x2000 .tapeWrite ∧ memRead s (0x2000 + 3) = .ok 3 ∧
      s.world.tapes[(7 : Fin 8)] = none) ∧
    (let s := withTape (peri [10, 8, 0x10000, 3] []) .write 5 (fiveBytes false true);
      PeriReady s (.const 0x2000) 0x2000 .tapeWrite ∧
      ReadFails s 0x10000 (((3 : Word).toNat + 3) / 4)) ∧
    (let s := withTape (peri [10, 8, 0x3000, 3] [(0x3000, 0x090807)]) .write 5
        ⟨[0x66], none, false, true⟩;
      PeriReady s (.const 0x2000) 0x2000 .tapeWrite ∧ Reads s 0x3000 (((3 : Word).toNat + 3) / 4) ∧
      tapeContent s ⟨[0x66], .write, 5⟩ = none) ∧
    (let s := withFails (withTape (peri [10, 8, 0x3000, 3] [(0x3000, 0x090807)]) .write 5
        (fiveBytes false true)) [true];
      PeriReady s (.const 0x2000) 0x2000 .tapeWrite ∧ Reads s 0x3000 (((3 : Word).toNat + 3) / 4) ∧
      (hostFails s).1 = true) ∧
    (let s := withTape (peri [10, 8, 0x3000, 3] [(0x3000, 0x090807)]) .write 5 (fiveBytes false true);
      PeriReady s (.const 0x2000) 0x2000 .tapeWrite ∧ Reads s 0x3000 (((3 : Word).toNat + 3) / 4) ∧
      PackedAt s 0x3000 [7, 8, 9] ∧
      memRead s (0x2000 + 1) = .ok (BitVec.ofNat 32 ((7 : Fin 8).val + 1)) ∧
      memRead s (0x2000 + 2) = .ok 0x3000 ∧ memRead s (0x2000 + 3) = .ok 3 ∧
      s.world.tapes[(7 : Fin 8)] = some ⟨[0x66], .write, 5⟩ ∧
      tapeContent s ⟨[0x66], .write, 5⟩ = some [1, 2, 3, 4, 5] ∧ (3 : Word).toNat ≤ 512 ∧
      (hostFails s).1 = false ∧ [7#8, 8, 9].length = (3 : Word).toNat) :=
  ⟨⟨starts (by decide +kernel), by decide +kernel⟩,
    ⟨starts (by decide +kernel),
      readFails_of (c := .memory) (x := some 0x10000) (y := none) (by decide) (by decide +kernel)⟩,
    ⟨starts (by decide +kernel), reads_of (by decide +kernel), by decide +kernel⟩,
    ⟨starts (by decide +kernel), reads_of (by decide +kernel), by decide +kernel⟩,
    ⟨starts (by decide +kernel), reads_of (by decide +kernel),
      packedAt_of rfl (by decide +kernel) (by decide +kernel), by decide +kernel⟩⟩

/-- $TAPEREAD of a unit loaded 'W', and of one whose file is gone; $TAPEWRITE of a unit loaded 'R', of 513 bytes, and
of none. -/
theorem witness_TapeReadDeliversTheNextBlock_misuse :
    (let s := withTape (peri [9, 8, 0x10000] []) .write 0 (fiveBytes true true);
      PeriReady s (.const 0x2000) 0x2000 .tapeRead ∧
      memRead s (0x2000 + 1) = .ok (BitVec.ofNat 32 ((7 : Fin 8).val + 1)) ∧
      memRead s (0x2000 + 2) = .ok 0x10000 ∧
      s.world.tapes[(7 : Fin 8)] = some ⟨[0x66], .write, 0⟩) ∧
    (let s := withTape (peri [9, 8, 0x3000] []) .read 0 ⟨[0x66], none, false, true⟩;
      PeriReady s (.const 0x2000) 0x2000 .tapeRead ∧
      s.world.tapes[(7 : Fin 8)] = some ⟨[0x66], .read, 0⟩ ∧
      tapeContent s ⟨[0x66], .read, 0⟩ = none) ∧
    (let s := withTape (peri [10, 8, 0x10000, 3] []) .read 0 (fiveBytes true true);
      PeriReady s (.const 0x2000) 0x2000 .tapeWrite ∧ memRead s (0x2000 + 3) = .ok 3 ∧
      s.world.tapes[(7 : Fin 8)] = some ⟨[0x66], .read, 0⟩) ∧
    (let s := withTape (peri [10, 8, 0x3000, 513] []) .write 0 (fiveBytes true true);
      PeriReady s (.const 0x2000) 0x2000 .tapeWrite ∧ memRead s (0x2000 + 3) = .ok 513 ∧
      512 < (513 : Word).toNat) ∧
    (let s := withTape (peri [10, 8, 0x3000, 0] []) .write 0 (fiveBytes true true);
      PeriReady s (.const 0x2000) 0x2000 .tapeWrite ∧ memRead s (0x2000 + 3) = .ok 0 ∧
      tapeContent s ⟨[0x66], .write, 0⟩ ≠ none ∧ Reads s 0x3000 (((0 : Word).toNat + 3) / 4) ∧
      (hostFails s).1 = false ∧ PackedAt s 0x3000 []) :=
  ⟨⟨starts (by decide +kernel), by decide +kernel⟩, ⟨starts (by decide +kernel), by decide +kernel⟩,
    ⟨starts (by decide +kernel), by decide +kernel⟩, ⟨starts (by decide +kernel), by decide +kernel⟩,
    starts (by decide +kernel), by decide +kernel, by decide +kernel, reads_of (by decide +kernel),
    by decide +kernel, packedAt_of rfl (by decide +kernel) (by decide +kernel)⟩

/-- A first word that cannot be stored to: `ReachFails`. -/
theorem reachFails_of {s : State} {a : Word} {n : Nat} {c : Cause} {x y : Option Word} (hn : 0 < n)
    (e : target s (a + BitVec.ofNat 32 0) = .raise c x y) : ReachFails s a n :=
  ⟨0, hn, fun k hk => absurd hk (by omega), c, x, y, e⟩

/-- `Reaches` with VM off as something that evaluates. -/
theorem reaches_of {s : State} {a : Word} {n : Nat} (hv : s.flags.vm = false)
    (e : ((List.range n).all fun k => physValid s (a + BitVec.ofNat 32 k)) = true) : Reaches s a n :=
  fun k hk => ⟨_, by rw [target_physical _ hv, if_pos ((room_of hv e).2 k hk)]⟩

/-- $NETSS: a unit off and on turned off; a unit on turned on; a unit off, with a requested port turned down and
granted, and with none requested. -/
theorem witness_NetworkAndClockOperations :
    (let s := peri [15, 1, 0, 0x3000] [];
      PeriReady s (.const 0x2000) 0x2000 .netSS ∧ Room s 0x3000 2 ∧
      memRead s (0x2000 + 1) = .ok (BitVec.ofNat 32 ((0 : Fin 2).val + 1)) ∧
      memRead s (0x2000 + 2) = .ok 0 ∧ memRead s (0x2000 + 3) = .ok 0x3000 ∧
      s.world.nets[(0 : Fin 2)] = none) ∧
    (let s := netOn (peri [15, 1, 0, 0x3000] []);
      PeriReady s (.const 0x2000) 0x2000 .netSS ∧ Room s 0x3000 2 ∧
      s.world.nets[(0 : Fin 2)] = some ⟨0x123456789ABC, []⟩) ∧
    (let s := netOn (peri [15, 1, 1, 0x3000] [(0x3001, 0)]);
      PeriReady s (.const 0x2000) 0x2000 .netSS ∧ Room s 0x3000 2 ∧
      memRead s (0x2000 + 2) = .ok 1 ∧ memRead s (0x3000 + 1) = .ok 0 ∧
      s.world.nets[(0 : Fin 2)] ≠ none) ∧
    (let s := withStart (peri [15, 1, 1, 0x3000] [(0x3001, 80)]) ⟨1, 2, some .readParams⟩;
      PeriReady s (.const 0x2000) 0x2000 .netSS ∧ Room s 0x3000 2 ∧
      memRead s (0x3000 + 1) = .ok 80 ∧ s.world.nets[(0 : Fin 2)] = none ∧ (80 : Word) ≠ 0 ∧
      (hostNetStart s).1.denial = some .readParams) ∧
    (let s := withStart (peri [15, 1, 1, 0x3000] [(0x3001, 80)]) ⟨1, 2, none⟩;
      PeriReady s (.const 0x2000) 0x2000 .netSS ∧ Room s 0x3000 2 ∧
      s.world.nets[(0 : Fin 2)] = none ∧ (hostNetStart s).1.denial = none) ∧
    (let s := peri [15, 1, 1, 0x3000] [(0x3001, 0)];
      PeriReady s (.const 0x2000) 0x2000 .netSS ∧ Room s 0x3000 2 ∧
      memRead s (0x3000 + 1) = .ok 0 ∧ s.world.nets[(0 : Fin 2)] = none) :=
  ⟨⟨starts (by decide +kernel), room_of rfl (by decide +kernel), by decide +kernel⟩,
    ⟨starts (by decide +kernel), room_of rfl (by decide +kernel), by decide +kernel⟩,
    ⟨starts (by decide +kernel), room_of rfl (by decide +kernel), by decide +kernel⟩,
    ⟨starts (by decide +kernel), room_of rfl (by decide +kernel), by decide +kernel⟩,
    ⟨starts (by decide +kernel), room_of rfl (by decide +kernel), by decide +kernel⟩,
    ⟨starts (by decide +kernel), room_of rfl (by decide +kernel), by decide +kernel⟩⟩

/-- $NETSEND of 1025 bytes and of three, with the host's failure and without; $NETRECV with nothing queued and
with a packet of five bytes, without the host's failure and with it. -/
theorem witness_NetworkAndClockOperations_packets :
    (let s := netOn (peri [16, 1, 0x3000, 1025, 0x3100] [(0x3000, 0), (0x3001, 0)]);
      PeriReady s (.const 0x2000) 0x2000 .netSend ∧ Reads s 0x3000 2 ∧
      memRead s (0x2000 + 1) = .ok (BitVec.ofNat 32 ((0 : Fin 2).val + 1)) ∧
      memRead s (0x2000 + 2) = .ok 0x3000 ∧ memRead s (0x2000 + 3) = .ok 1025 ∧
      memRead s (0x2000 + 4) = .ok 0x3100 ∧ s.world.nets[(0 : Fin 2)] ≠ none ∧
      1024 < (1025 : Word).toNat) ∧
    (let s := netOn (peri [16, 1, 0x3000, 3, 0x3100] [(0x3000, 0), (0x3001, 0), (0x3100, 0x090807)]);
      PeriReady s (.const 0x2000) 0x2000 .netSend ∧ PackedAt s 0x3100 [7, 8, 9] ∧
      memRead s (0x2000 + 3) = .ok 3 ∧ memRead s 0x3000 = .ok 0 ∧ memRead s (0x3000 + 1) = .ok 0 ∧
      [7#8, 8, 9].length = (3 : Word).toNat ∧ s.world.nets[(0 : Fin 2)] ≠ none ∧
      (hostFails s).1 = false ∧ (hostFails (withFails s [true])).1 = true) ∧
    (let s := netOn (peri [17, 1, 0x3000, 0xFF00] []);
      PeriReady s (.const 0x2000) 0x2000 .netRecv ∧ Room s 0x3000 2 ∧ Room s 0xFF00 256 ∧
      memRead s (0x2000 + 1) = .ok (BitVec.ofNat 32 ((0 : Fin 2).val + 1)) ∧
      memRead s (0x2000 + 2) = .ok 0x3000 ∧ memRead s (0x2000 + 3) = .ok 0xFF00 ∧
      s.world.nets[(0 : Fin 2)] = some ⟨0x123456789ABC, []⟩) ∧
    (let s := setNet (peri [17, 1, 0x3000, 0xFF00] []) 0
        (some ⟨0x123456789ABC, [⟨0xCBA987654321, [1, 2, 3, 4, 5]⟩]⟩);
      PeriReady s (.const 0x2000) 0x2000 .netRecv ∧ Room s 0x3000 2 ∧ Room s 0xFF00 256 ∧
      s.world.nets[(0 : Fin 2)] =
        some ⟨0x123456789ABC, ⟨0xCBA987654321, [1, 2, 3, 4, 5]⟩ :: []⟩ ∧ (hostFails s).1 = false ∧
      (hostFails (withFails s [true])).1 = true ∧
      ∀ j < 2, ∀ k < 256, 0x3000 + BitVec.ofNat 32 j ≠ 0xFF00 + BitVec.ofNat 32 k) :=
  ⟨⟨starts (by decide +kernel), reads_of (by decide +kernel), by decide +kernel⟩,
    ⟨starts (by decide +kernel), packedAt_of rfl (by decide +kernel) (by decide +kernel),
      by decide +kernel⟩,
    ⟨starts (by decide +kernel), room_of rfl (by decide +kernel), room_of rfl (by decide +kernel),
      by decide +kernel⟩,
    ⟨starts (by decide +kernel), room_of rfl (by decide +kernel), room_of rfl (by decide +kernel),
      by decide +kernel⟩⟩

/-- The three network operations with words out of reach, and on units 0, 3 and 2, which is off; command 2 of $NETSS;
a negative time. -/
theorem witness_NetworkAndClockOperations_codes :
    (let s := peri [15, 3, 7, 0xFFFE] [];
      PeriReady s (.const 0x2000) 0x2000 .netSS ∧ memRead s (0x2000 + 1) = .ok 3 ∧
      memRead s (0x2000 + 2) = .ok 7 ∧ memRead s (0x2000 + 3) = .ok 0xFFFE ∧ 2 < (3 : Word).toInt ∧
      Reaches s 0xFFFE 2 ∧ ReachFails s 0x10000 2) ∧
    (let s := peri [16, 2, 0x3000, 1024, 0x10000] [(0x3000, 0), (0x3001, 0)];
      PeriReady s (.const 0x2000) 0x2000 .netSend ∧
      memRead s (0x2000 + 1) = .ok (BitVec.ofNat 32 ((1 : Fin 2).val + 1)) ∧
      memRead s (0x2000 + 4) = .ok 0x10000 ∧ (1024 : Word).toNat ≤ 1024 ∧ Reads s 0x3000 2 ∧
      ReadFails s 0x10000 (((1024 : Word).toNat + 3) / 4) ∧ ReadFails s 0x10000 2) ∧
    (let s := peri [16, 2, 0x3000, 3, 0x3000] [(0x3000, 0), (0x3001, 0)];
      PeriReady s (.const 0x2000) 0x2000 .netSend ∧ Reads s 0x3000 2 ∧
      Reads s 0x3000 (((3 : Word).toNat + 3) / 4) ∧ s.world.nets[(1 : Fin 2)] = none ∧
      (0 : Word).toInt < 1) ∧
    (let s := peri [17, 2, 0x3000, 0xFF00] [];
      PeriReady s (.const 0x2000) 0x2000 .netRecv ∧
      memRead s (0x2000 + 1) = .ok (BitVec.ofNat 32 ((1 : Fin 2).val + 1)) ∧
      s.world.nets[(1 : Fin 2)] = none ∧ Reaches s 0x3000 2 ∧ Reaches s 0xFF00 256 ∧
      ReachFails s 0x10000 2 ∧ ReachFails s 0x10000 256) ∧
    (let s := peri [15, 1, 2, 0x3000] [];
      PeriReady s (.const 0x2000) 0x2000 .netSS ∧ Reaches s 0x3000 2 ∧
      memRead s (0x2000 + 1) = .ok (BitVec.ofNat 32 ((0 : Fin 2).val + 1)) ∧
      memRead s (0x2000 + 2) = .ok 2 ∧ memRead s (0x2000 + 3) = .ok 0x3000 ∧
      (2 : Word) ≠ 0 ∧ (2 : Word) ≠ 1) ∧
    (let s := peri [20, 0x80000000] [];
      PeriReady s (.const 0x2000) 0x2000 .dateTime ∧ memRead s (0x2000 + 1) = .ok 0x80000000 ∧
      (0x80000000 : Word).toInt < 0) :=
  ⟨⟨starts (by decide +kernel), by decide +kernel, by decide +kernel, by decide +kernel, by decide,
      reaches_of rfl (by decide +kernel),
      reachFails_of (c := .memory) (x := some 0x10000) (y := none) (by decide) (by decide +kernel)⟩,
    ⟨starts (by decide +kernel), by decide +kernel, by decide +kernel, by decide,
      reads_of (by decide +kernel),
      readFails_of (c := .memory) (x := some 0x10000) (y := none) (by decide) (by decide +kernel),
      readFails_of (c := .memory) (x := some 0x10000) (y := none) (by decide) (by decide +kernel)⟩,
    ⟨starts (by decide +kernel), reads_of (by decide +kernel), reads_of (by decide +kernel),
      by decide +kernel⟩,
    ⟨starts (by decide +kernel), by decide +kernel, by decide +kernel,
      reaches_of rfl (by decide +kernel), reaches_of rfl (by decide +kernel),
      reachFails_of (c := .memory) (x := some 0x10000) (y := none) (by decide) (by decide +kernel),
      reachFails_of (c := .memory) (x := some 0x10000) (y := none) (by decide) (by decide +kernel)⟩,
    ⟨starts (by decide +kernel), reaches_of rfl (by decide +kernel), by decide +kernel⟩,
    starts (by decide +kernel), by decide +kernel⟩

/-- The clock operations, with outputs that exist and outputs that do not; the layout at reset. -/
theorem witness_NetworkAndClockOperations_clock :
    PeriReady (peri [18] []) (.const 0x2000) 0x2000 .seconds ∧
    (PeriReady (peri [19] []) (.const 0x2000) 0x2000 .useconds ∧
      Room (peri [19] []) (0x2000 + 1) 2) ∧
    (PeriReady (peri [20, 0x7FFFFFFF] []) (.const 0x2000) 0x2000 .dateTime ∧
      memRead (peri [20, 0x7FFFFFFF] []) (0x2000 + 1) = .ok 0x7FFFFFFF ∧
      0 ≤ (0x7FFFFFFF : Word).toInt ∧ Room (peri [20, 0x7FFFFFFF] []) (0x2000 + 2) 7) ∧
    (let s := box true true false [(0xFFFE, 19)];
      PeriReady s (.const 0xFFFE) 0xFFFE .useconds ∧ s.flags.vm = false ∧
      physValid s (0xFFFE + 1 + BitVec.ofNat 32 1) = false) ∧
    (let s := box true true false [(0xFFF8, 20), (0xFFF9, 0)];
      PeriReady s (.const 0xFFF8) 0xFFF8 .dateTime ∧ memRead s (0xFFF8 + 1) = .ok 0 ∧
      s.flags.vm = false ∧ physValid s (0xFFF8 + 2 + BitVec.ofNat 32 6) = false) ∧
    Launch.atReset.netLayout.toList.Nodup :=
  ⟨starts (by decide +kernel), ⟨starts (by decide +kernel), room_of rfl (by decide +kernel)⟩,
    ⟨starts (by decide +kernel), by decide +kernel, by decide, room_of rfl (by decide +kernel)⟩,
    ⟨⟨test_ready _ _ _ _, rfl, rfl, 19, by decide +kernel, by decide +kernel⟩, by decide +kernel⟩,
    ⟨⟨test_ready _ _ _ _, rfl, rfl, 20, by decide +kernel, by decide +kernel⟩, by decide +kernel⟩,
    by decide +kernel⟩

end Sys2Proof.Tests
end

section
/-! PROOF. O10: what every step keeps. The laws give an `Effect` for the host's moves, for an entry and for the
body of an instruction; here they are put together along the ways a step can go (R288). -/

namespace Sys2Proof.Machine

/-- The timer's count is inside the CPU (R294). -/
theorem countDown_effect (s : State) : Effect s s.countDown := effect_of_world rfl id rfl

/-- A handler entered pushes a frame and leaves the world outside the CPU (R280). -/
theorem signal_effect {s t : State} {c : Cause} {addr info : Option Word} {p : Word}
    (h : signal s c addr info p = .entered t) : Effect s t :=
  (signal_entered h).2.effect

/-- An instruction, whether it took an exception or completed, with the timer tick at its end. -/
theorem exec_effect {i : Instr} {s t : State} (h : exec i s = .next t) : Effect s t := by
  rcases exec_next h with ⟨c, addr, info, p, hentered⟩ | rfl | ⟨u, hbody, -, hend⟩
  · exact signal_effect hentered
  · exact .refl t
  · rcases hend with rfl | rfl | htimer
    · exact hbody
    · exact hbody.trans (countDown_effect u)
    · exact (hbody.trans (countDown_effect u)).trans (signal_effect htimer)

/-- A whole step: the host's moves, then an interrupt entered, nothing, or an instruction run (R288). -/
theorem step_effect {s t : State} (h : step s = .next t) : Effect s t := by
  have hhost : Effect s (hostMoves s) := (hostStep_hostMoves s).effect
  obtain ⟨-, ⟨c, addr, info, p, hentered⟩ | rfl | ⟨i, hexec⟩⟩ := step_next h
  · exact hhost.trans (signal_effect hentered)
  · exact hhost
  · exact hhost.trans (exec_effect hexec)

/-- Settles O10: every way a step can go is an `Effect`, whose fields include the five of the statement. -/
theorem stepKeepsLaunchAndRecords : Obligations.StepKeepsLaunchAndRecords := by
  intro s t h
  have he : Effect s t := step_effect h
  exact ⟨he.cfg, he.output, he.sent, he.clock, he.sizes⟩

end Sys2Proof.Machine
end

section
/-! PROOF. O11: what user mode cannot reach (R44, R289, R291). A change that user mode may bring about is
`Confined`; so are the entry of a handler, the timer's count and the body of an instruction, and a step is a
chain of these after the host's moves. -/

namespace Sys2Proof.Machine

/-- The controls, VM, R, SYSFP and the world outside the CPU stay; so do the mode, IP and SYSSP, unless system
mode has been entered with IP on. -/
structure Confined (s t : State) : Prop where
  controls : SameControls s t
  vm : t.flags.vm = s.flags.vm
  r : t.flags.r = s.flags.r
  sysFP : t.sr.sysFP = s.sr.sysFP
  world : t.world = s.world
  mode : (t.flags.sys = s.flags.sys ∧ t.flags.ip = s.flags.ip ∧ t.sr.sysSP = s.sr.sysSP) ∨
    (t.flags.sys = true ∧ t.flags.ip = true)

theorem Confined.refl (s : State) : Confined s s :=
  ⟨⟨rfl, rfl, rfl, rfl, rfl⟩, rfl, rfl, rfl, rfl, .inl ⟨rfl, rfl, rfl⟩⟩

theorem Confined.trans {s t u : State} (h : Confined s t) (k : Confined t u) : Confined s u where
  controls := h.controls.trans k.controls
  vm := k.vm.trans h.vm
  r := k.r.trans h.r
  sysFP := k.sysFP.trans h.sysFP
  world := k.world.trans h.world
  mode := by
    rcases k.mode with ⟨hsys, hip, hsp⟩ | hentered
    · rw [hsys, hip, hsp]
      exact h.mode
    · exact .inr hentered

/-- The timer's count is no protected state (R294). -/
theorem countDown_confined (s : State) : Confined s s.countDown :=
  ⟨⟨rfl, rfl, rfl, rfl, rfl⟩, rfl, rfl, rfl, rfl, .inl ⟨rfl, rfl, rfl⟩⟩

/-- A handler runs in system mode with IP on, and its entry writes no other protected state (R280). -/
theorem EntryRegs.confined {s t : State} (h : EntryRegs s t) : Confined s t where
  controls := h.controls
  vm := by rw [h.flags]; rfl
  r := by rw [h.flags]; rfl
  sysFP := h.sysFP
  world := h.world
  mode := .inr (by rw [h.flags]; exact ⟨rfl, rfl⟩)

theorem signal_confined {s t : State} {c : Cause} {addr info : Option Word} {p : Word}
    (h : signal s c addr info p = .entered t) : Confined s t :=
  (signal_entered h).2.toEntryRegs.confined

/-- The body of an instruction that completes in user mode. -/
theorem UserEffect.confined {s u : State} (hs : s.flags.sys = false) (h : UserEffect s u) :
    Confined s u where
  controls := h.controls
  vm := h.vm
  r := h.r
  sysFP := h.sysFP
  world := h.world
  mode := by
    rcases h.mode with ⟨hsys, hip, hsp⟩ | ⟨hsys, hip, -⟩
    · exact .inl ⟨hsys.trans hs.symm, hip, hsp⟩
    · exact .inr ⟨hsys, hip⟩

/-- An instruction of user mode, whether it took an exception or completed, with the timer tick at its end. -/
theorem exec_confined {i : Instr} {s t : State} (hs : s.flags.sys = false)
    (h : exec i s = .next t) : Confined s t := by
  rcases exec_next h with ⟨c, addr, info, p, hentered⟩ | rfl | ⟨u, -, huser, hend⟩
  · exact signal_confined hentered
  · exact .refl t
  · have hbody : Confined s u := (huser hs).confined hs
    rcases hend with rfl | rfl | htimer
    · exact hbody
    · exact hbody.trans (countDown_confined u)
    · exact (hbody.trans (countDown_confined u)).trans (signal_confined htimer)

/-- What follows the host's moves in a step of user mode: an interrupt entered, nothing, or an instruction run
(R288). -/
theorem step_confined {s t : State} (hs : s.flags.sys = false) (h : step s = .next t) :
    Confined (hostMoves s) t := by
  obtain ⟨-, ⟨c, addr, info, p, hentered⟩ | rfl | ⟨i, hexec⟩⟩ := step_next h
  · exact signal_confined hentered
  · exact .refl _
  · exact exec_confined (by rw [(hostStep_hostMoves s).flags, hs]) hexec

/-- Settles O11: the host's moves leave the CPU, the discs, the tapes and the records, and the rest of a step
from user mode is `Confined`; system mode is then reached by an entry alone, which turns IP on. -/
theorem userStepKeepsProtectedState : Obligations.UserStepKeepsProtectedState := by
  intro s t hs h
  have hhost : HostStep s (hostMoves s) := hostStep_hostMoves s
  obtain ⟨hcontrols, hvm, hr, hfp, hworld, hmode⟩ := step_confined hs h
  have hrun : s.flags.r = true := (step_next h).1
  rw [SameControls, hhost.sr] at hcontrols
  rw [hhost.flags] at hvm hr hmode
  rw [hhost.sr] at hfp hmode
  refine ⟨hcontrols, hvm, hr.trans hrun, hfp, hworld, ?_, ?_, ?_, ?_, ?_, ?_⟩
  · rw [hworld, hhost.discs]
  · rw [hworld, hhost.tapes]
  · rw [hworld, hhost.output]
  · rw [hworld, hhost.sent]
  · intro hsystem
    rcases hmode with ⟨hsys, -, -⟩ | ⟨-, hip⟩
    · simp [hsys, hs] at hsystem
    · exact hip
  · intro huser
    rcases hmode with ⟨-, hip, hsp⟩ | ⟨hsys, -⟩
    · exact ⟨hip, hsp⟩
    · simp [hsys] at huser

end Sys2Proof.Machine
end

section
/-! PROOF. O8, O17, O29: the state at start-up (R50, R320), the banked stack pointer (R13) and the layout of the
FLAGS word (R36, R45). -/

namespace Sys2Proof.Machine

/-! ### Start-up -/

theorem reset_memWf : State.reset.memWf := ⟨List.Pairwise.nil, by simp [State.reset]⟩

/-- Every disc of the world at start-up is unwritten (log entry 8). -/
theorem reset_disc_words {u : Fin 8} {d : Disc} (h : World.reset.discs[u] = some d) :
    d.words = [] := by
  have hall : ∀ v : Fin 8, ∀ e ∈ World.reset.discs[v], e.words = [] := by decide
  exact hall u d h

theorem reset_discsWf : World.reset.discsWf := by
  intro u d hd
  rw [Disc.wf, reset_disc_words hd]
  exact ⟨List.Pairwise.nil, by simp⟩

/-- Every network unit is off at start-up (log entry 8). -/
theorem reset_nets_off (u : Fin 2) : World.reset.nets[u] = none := by
  revert u
  decide

theorem reset_netsWf : World.reset.netsWf := by
  intro u n hn
  rw [reset_nets_off u] at hn
  cases hn

theorem atReset_wf : Launch.wf Launch.atReset := ⟨by decide, by decide⟩

theorem reset_wf : State.reset.wf := ⟨reset_memWf, reset_discsWf, reset_netsWf, atReset_wf⟩

/-- Settles O8: the flags are those the state at start-up is given, and each part of it is well formed. -/
theorem resetHasTheStatedFlags : Obligations.ResetHasTheStatedFlags :=
  ⟨rfl, rfl, rfl, rfl, reset_wf⟩

/-! ### The stack pointer's two banks -/

theorem sp_system {s : State} (h : s.flags.sys = true) : s.sp = s.sr.sysSP := by simp [State.sp, h]

theorem sp_user {s : State} (h : s.flags.sys = false) : s.sp = s.sr.usrSP := by simp [State.sp, h]

theorem setSP_system {s : State} (v : Word) (h : s.flags.sys = true) :
    s.setSP v = s.setSpecial .sysSP v := by simp [State.setSP, State.setSpecial, h]

theorem setSP_user {s : State} (v : Word) (h : s.flags.sys = false) :
    s.setSP v = s.setSpecial .usrSP v := by simp [State.setSP, State.setSpecial, h]

/-- No register name reads USRSP in system mode (R13). -/
theorem getReg_setSpecial_usrSP {s : State} (v : Word) (h : s.flags.sys = true) (r : Reg) :
    (s.setSpecial .usrSP v).getReg r = s.getReg r := by
  cases r with
  | gp n => rfl
  | sp => simp [State.getReg, State.sp, State.setSpecial, h]
  | fp => rfl

/-- No register name reads SYSSP in user mode (R13). -/
theorem getReg_setSpecial_sysSP {s : State} (v : Word) (h : s.flags.sys = false) (r : Reg) :
    (s.setSpecial .sysSP v).getReg r = s.getReg r := by
  cases r with
  | gp n => rfl
  | sp => simp [State.getReg, State.sp, State.setSpecial, h]
  | fp => rfl

/-- Settles O17: in each mode SP is the stack pointer of that mode's bank, and register names leave the other
bank alone. -/
theorem stackPointerIsBanked : Obligations.StackPointerIsBanked := by
  refine fun s v => ⟨fun h => ?_, fun h => ?_, rfl, rfl⟩
  · have hset : s.setReg .sp v = s.setSpecial .sysSP v := setSP_system v h
    refine ⟨sp_system h, hset, by rw [hset]; rfl, by rw [hset]; rfl, rfl, fun r => ?_⟩
    exact ⟨getReg_setSpecial_usrSP v h r, (setReg_user_bank s r v h).1⟩
  · have hset : s.setReg .sp v = s.setSpecial .usrSP v := setSP_user v h
    refine ⟨sp_user h, hset, by rw [hset]; rfl, by rw [hset]; rfl, rfl, fun r => ?_⟩
    exact ⟨getReg_setSpecial_sysSP v h r, (setReg_system_bank s r v h).1⟩

/-! ### The FLAGS word -/

/-- The FLAGS word built one flag at a time from its high end. -/
theorem toWord_eq_concat (f : Flags) :
    f.toWord = (((((((0 : BitVec 25).concat f.vm).concat f.ip).concat f.sys).concat f.err).concat
      f.n).concat f.z).concat f.r := rfl

/-- Reading the FLAGS word's bits gives the flags (R36). -/
theorem flagsAre_toWord (f : Flags) : FlagsAre f.toWord f := by
  simp [FlagsAre, toWord_eq_concat]

/-- The FLAGS word as a number: the weights of the seven flags and nothing above them (R36, log entry 35). -/
theorem toWord_toNat (f : Flags) :
    f.toWord.toNat = f.r.toNat + 2 * f.z.toNat + 4 * f.n.toNat + 8 * f.err.toNat +
      16 * f.sys.toNat + 32 * f.ip.toNat + 64 * f.vm.toNat := by
  simp only [toWord_eq_concat, BitVec.toNat_concat, BitVec.ofNat_eq_ofNat, BitVec.toNat_ofNat]
  omega

/-- Flags taken from a word are the word's low seven bits (R45). -/
theorem flagsAre_ofWord (w : Word) : FlagsAre w (Flags.ofWord w) :=
  ⟨rfl, rfl, rfl, rfl, rfl, rfl, rfl⟩

/-- Settles O29: the special register reads as the flags' word, and writing it takes the word's bits. -/
theorem flagsWordLayout : Obligations.FlagsWordLayout :=
  fun s w => ⟨flagsAre_toWord s.flags, toWord_toNat s.flags, flagsAre_ofWord w⟩

end Sys2Proof.Machine
end

section
/-! PROOF. O9: the invariant of every step. O13 to O16: the fields of a virtual address (R67), the walk through the
two tables and its faults (R66 to R77), and a word stored and loaded (R64, R80). -/

namespace Sys2Proof.Machine

/-! ### The invariant -/

/-- The four parts of the invariant are each kept by an effect (R61, R52, R240, R191). -/
theorem Effect.wf {s t : State} (h : Effect s t) (hw : s.wf) : t.wf := by
  obtain ⟨hmem, hdiscs, hnets, hlaunch⟩ := hw
  exact ⟨h.memWf hmem, h.discsWf hdiscs, h.netsWf hnets, h.cfg ▸ hlaunch⟩

/-- Settles O9: every step is an `Effect`. -/
theorem stepKeepsStateWellFormed : Obligations.StepKeepsStateWellFormed :=
  fun _ _ hw h => (step_effect h).wf hw

/-! ### Fields of a word -/

/-- Shifting down and masking the low `n` bits extracts a field. -/
theorem ushiftRight_and_mask {m : Nat} (x : BitVec m) (i n : Nat) :
    (x >>> i) &&& (BitVec.allOnes n).zeroExtend m = (x.extractLsb' i n).zeroExtend m := by
  apply BitVec.eq_of_getLsbD_eq
  intro j hj
  simp [hj, Bool.and_comm]

/-- Masking off the low bits and adding a number that fits in them concatenates the two fields. -/
theorem and_mask_add {h l : Nat} (x : BitVec (h + l)) (y : BitVec l) :
    (x &&& (BitVec.allOnes (h + l) <<< l)) + y.zeroExtend (h + l) = x.extractLsb' l h ++ y := by
  have disjoint : (x &&& (BitVec.allOnes (h + l) <<< l)) &&& y.zeroExtend (h + l) = 0#(h + l) := by
    apply BitVec.eq_of_getLsbD_eq
    intro j hj
    by_cases hjl : j < l
    · simp [hjl]
    · simp [BitVec.getLsbD_of_ge y j (by omega)]
  rw [BitVec.add_eq_or_of_and_eq_zero _ _ disjoint]
  apply BitVec.eq_of_getLsbD_eq
  intro j hj
  rw [BitVec.getLsbD_append]
  by_cases hjl : j < l
  · simp [hj, hjl]
  · have hlow : j - l < h := by omega
    have hback : l + (j - l) = j := by omega
    simp [hj, hjl, hlow, hback, BitVec.getLsbD_of_ge y j (by omega)]

theorem dirOf_eq_field (a : Word) : dirOf a = (a.extractLsb' 22 10).zeroExtend 32 :=
  ushiftRight_and_mask a 22 10

theorem pgOf_eq_field (a : Word) : pgOf a = (a.extractLsb' 11 11).zeroExtend 32 :=
  ushiftRight_and_mask a 11 11

theorem offsOf_eq_field (a : Word) : offsOf a = (a.extractLsb' 0 11).zeroExtend 32 := by
  have h : (a >>> 0) &&& 0x7FF#32 = (a.extractLsb' 0 11).zeroExtend 32 := ushiftRight_and_mask a 0 11
  rwa [BitVec.ushiftRight_zero] at h

/-- A virtual address is its three fields, one after another (R67). -/
theorem word_eq_fields (a : Word) :
    a = a.extractLsb' 22 10 ++ a.extractLsb' 11 11 ++ a.extractLsb' 0 11 := by
  have hhigh : a.extractLsb' 22 10 ++ a.extractLsb' 11 11 = a.extractLsb' 11 21 :=
    BitVec.extractLsb'_append_extractLsb'_eq_extractLsb' rfl
  have hwhole : a.extractLsb' 11 21 ++ a.extractLsb' 0 11 = a.extractLsb' 0 32 :=
    BitVec.extractLsb'_append_extractLsb'_eq_extractLsb' rfl
  rw [hhigh, hwhole, extract_self]

/-- Settles O13: each mask takes its field, and the fields laid side by side are the address. -/
theorem virtualAddressFields : Obligations.VirtualAddressFields :=
  fun a => ⟨dirOf_eq_field a, pgOf_eq_field a, offsOf_eq_field a, word_eq_fields a⟩

/-! ### The walk through the two tables -/

/-- The directory entry stands at PDBR's high 22 bits and DIR (R68). -/
theorem dirEntryAddr_eq_fields (s : State) (a : Word) :
    dirEntryAddr s a = s.sr.pdbr.extractLsb' 10 22 ++ a.extractLsb' 22 10 := by
  rw [dirEntryAddr, dirOf_eq_field]
  exact and_mask_add (h := 22) (l := 10) s.sr.pdbr (a.extractLsb' 22 10)

/-- The table entry stands at the directory entry's high 21 bits and PG (R69). -/
theorem tableEntryAddr_eq_fields (dirEntry a : Word) :
    tableEntryAddr dirEntry a = dirEntry.extractLsb' 11 21 ++ a.extractLsb' 11 11 := by
  rw [tableEntryAddr, pgOf_eq_field, BitVec.add_comm]
  exact and_mask_add (h := 21) (l := 11) dirEntry (a.extractLsb' 11 11)

/-- The word accessed stands at the table entry's high 21 bits and OFFS (R70). -/
theorem physOf_eq_fields (entry a : Word) :
    physOf entry a = entry.extractLsb' 11 21 ++ a.extractLsb' 0 11 := by
  rw [physOf, offsOf_eq_field]
  exact and_mask_add (h := 21) (l := 11) entry (a.extractLsb' 0 11)

section
variable {s : State} {a dirEntry entry : Word}

/-- A directory entry that lies outside the memory that exists (R76). -/
theorem translate_no_directory (hvm : s.flags.vm = true)
    (hv : physValid s (dirEntryAddr s a) = false) :
    translate s a = .raise .memory (some (dirEntryAddr s a)) none := by
  simp [translate, hvm, physRead_invalid hv]

/-- A zero directory entry: there is no table (R74). -/
theorem translate_zero_directory (hvm : s.flags.vm = true)
    (hd : physRead s (dirEntryAddr s a) = .ok 0) :
    translate s a = .raise .pagefault (some a) none := by
  simp [translate, hvm, hd]

/-- A directory entry other than zero leads to the table entry, which alone decides the rest (R72). -/
theorem translate_through_directory (hvm : s.flags.vm = true)
    (hd : physRead s (dirEntryAddr s a) = .ok dirEntry) (hne : dirEntry ≠ 0) :
    translate s a = (physRead s (tableEntryAddr dirEntry a)).bind fun entry =>
      if !resident entry then .raise .pagefault (some a) none
      else if systemPage entry && !s.flags.sys then .raise .pagepriv (some a) none
      else .ok (physOf entry a) := by
  rw [translate, if_pos hvm, hd, bind_ok, if_neg hne]

/-- A table entry that lies outside the memory that exists (R76). -/
theorem translate_no_table (hvm : s.flags.vm = true)
    (hd : physRead s (dirEntryAddr s a) = .ok dirEntry) (hne : dirEntry ≠ 0)
    (hv : physValid s (tableEntryAddr dirEntry a) = false) :
    translate s a = .raise .memory (some (tableEntryAddr dirEntry a)) none := by
  rw [translate_through_directory hvm hd hne, physRead_invalid hv, bind_raise]

/-- A table entry without its resident bit (R74). -/
theorem translate_not_resident (hvm : s.flags.vm = true)
    (hd : physRead s (dirEntryAddr s a) = .ok dirEntry) (hne : dirEntry ≠ 0)
    (he : physRead s (tableEntryAddr dirEntry a) = .ok entry) (hr : resident entry = false) :
    translate s a = .raise .pagefault (some a) none := by
  rw [translate_through_directory hvm hd hne, he, bind_ok, hr]
  rfl

/-- A resident system page in user mode (R75). -/
theorem translate_system_page (hvm : s.flags.vm = true)
    (hd : physRead s (dirEntryAddr s a) = .ok dirEntry) (hne : dirEntry ≠ 0)
    (he : physRead s (tableEntryAddr dirEntry a) = .ok entry) (hr : resident entry = true)
    (hp : systemPage entry = true) (hu : s.flags.sys = false) :
    translate s a = .raise .pagepriv (some a) none := by
  rw [translate_through_directory hvm hd hne, he, bind_ok, hr, hp, hu]
  rfl

/-- A resident page that the mode may use (R70, R72). -/
theorem translate_mapped (hvm : s.flags.vm = true)
    (hd : physRead s (dirEntryAddr s a) = .ok dirEntry) (hne : dirEntry ≠ 0)
    (he : physRead s (tableEntryAddr dirEntry a) = .ok entry) (hr : resident entry = true)
    (hp : systemPage entry = false ∨ s.flags.sys = true) :
    translate s a = .ok (physOf entry a) := by
  rw [translate_through_directory hvm hd hne, he, bind_ok, hr]
  rcases hp with huser | hsystem
  · simp [huser]
  · simp [hsystem]

end

/-- Settles O14: the addresses of the walk are field concatenations, and a walk that meets no fault gives the
page's. -/
theorem translationWalksTwoTables : Obligations.TranslationWalksTwoTables := by
  refine ⟨fun s a h => translate_physical a h, fun s a dirEntry entry hvm hd hne he hr hp => ?_⟩
  rw [← dirEntryAddr_eq_fields] at hd
  rw [← tableEntryAddr_eq_fields] at he
  rw [← physOf_eq_fields]
  exact translate_mapped hvm hd hne he hr hp

/-! ### Accesses -/

/-- A load from an address that translates to one that does not exist (R76). -/
theorem memRead_no_memory {s : State} {a pa : Word} (ht : translate s a = .ok pa)
    (hv : physValid s pa = false) : memRead s a = .raise .memory (some pa) none := by
  rw [memRead, ht, bind_ok, physRead_invalid hv]

/-- A store to an address that translates to one that does not exist (R76). -/
theorem memWrite_no_memory {s : State} {a pa : Word} (v : Word) (ht : translate s a = .ok pa)
    (hv : physValid s pa = false) : memWrite s a v = .raise .memory (some pa) none := by
  simp [memWrite, target, ht, hv]

/-- Settles O15: one lemma for each fault of the walk, at the concatenated address, and the access after it. -/
theorem translationFaultsInOrder : Obligations.TranslationFaultsInOrder := by
  refine ⟨fun s a pa v ht hv => ⟨memRead_no_memory ht hv, memWrite_no_memory v ht hv⟩,
    fun s a hvm => ?_⟩
  rw [← dirEntryAddr_eq_fields]
  refine ⟨translate_no_directory hvm, translate_zero_directory hvm, fun dirEntry hd hne => ?_⟩
  rw [← tableEntryAddr_eq_fields]
  exact ⟨translate_no_table hvm hd hne, fun entry he =>
    ⟨translate_not_resident hvm hd hne he, translate_system_page hvm hd hne he⟩⟩

/-- The target of a store is the address's translation. -/
theorem translate_of_target {s : State} {a pa : Word} (h : target s a = .ok pa) :
    translate s a = .ok pa := by
  obtain ⟨pb, htranslate, hvalid⟩ := bind_eq_ok h
  split at hvalid
  · cases hvalid
    exact htranslate
  · cases hvalid

/-- A word poked at an address that exists is read there (R64). -/
theorem physRead_poke_same {s : State} {pa : Word} (v : Word) (hv : physValid s pa = true) :
    physRead (s.poke pa v) pa = .ok v :=
  physRead_of (by rw [physValid_congr pa (poke_cfg s pa v), hv]) (word_poke_same s pa v)

/-- Settles O16: a store that succeeds is a poke at the translated address, which with VM off is the address
itself. -/
theorem storeThenLoadGivesTheWord : Obligations.StoreThenLoadGivesTheWord := by
  intro s t a v h
  obtain ⟨pa, htarget, rfl⟩ := memWrite_eq_ok h
  have htranslate : translate s a = .ok pa := translate_of_target htarget
  have hread : physRead (s.poke pa v) pa = .ok v := physRead_poke_same v (target_valid htarget)
  refine ⟨⟨pa, htranslate, hread, fun b hb => word_poke_ne s pa v hb⟩, fun hvm => ?_⟩
  rw [translate_physical a hvm] at htranslate
  cases htranslate
  rw [memRead_physical _ (by rw [poke_flags, hvm]), hread]

end Sys2Proof.Machine
end

section
/-! PROOF. O1, O2, O3: the default encoding and the machine's (R101, R102, log entry 1). A word read back gives the
instruction it was built from, field by field; a word that reads as an instruction is put together from its fields. -/

namespace Sys2Proof

/-! ### The two layouts of an operand's 23 bits: a mode and a number, or a mode, a register and a number -/

section
variable (p : BitVec 3) (q : BitVec 4) (c : BitVec 20) (d : BitVec 16)

theorem mode_of_number_layout : (p ++ c).extractLsb' 20 3 = p :=
  (extract_append_high p c (by omega)).trans (extract_self p)

theorem number_of_number_layout : (p ++ c).extractLsb' 0 20 = c :=
  (extract_append_low p c (by omega)).trans (extract_self c)

theorem mode_of_register_layout : (p ++ q ++ d).extractLsb' 20 3 = p :=
  (extract_append_high (p ++ q) d (by omega)).trans
    ((extract_append_high p q (by omega)).trans (extract_self p))

theorem register_of_register_layout : (p ++ q ++ d).extractLsb' 16 4 = q :=
  (extract_append_high (p ++ q) d (by omega)).trans
    ((extract_append_low p q (by omega)).trans (extract_self q))

theorem number_of_register_layout : (p ++ q ++ d).extractLsb' 0 16 = d :=
  (extract_append_low (p ++ q) d (by omega)).trans (extract_self d)

end

/-! ### Reading a word that the encoder built -/

/-- Every operand form whose numbers fit reads back (R103). -/
theorem decodeOperand_encodeOperand (o : BitVec 5) (m : BitVec 4) {op : Operand}
    (h : op.fits = true) : decodeOperand (o ++ (m ++ encodeOperand op)) = .ok op := by
  rw [decodeOperand, modeField_append, indexField_append, dispField_append, constField_append]
  cases op with
  | const n =>
    rw [encodeOperand, mode_of_number_layout, number_of_number_layout]
    exact congrArg (Except.ok <| Operand.const ·)
      (zeroExtend_extract (of_decide_eq_true h) (by omega))
  | reg r =>
    rw [encodeOperand, mode_of_register_layout, number_of_register_layout,
      register_of_register_layout, decodeReg_encodeReg]
    rfl
  | base r =>
    rw [encodeOperand, mode_of_register_layout, number_of_register_layout,
      register_of_register_layout, decodeReg_encodeReg]
    rfl
  | baseDisp r n =>
    rw [encodeOperand, mode_of_register_layout, number_of_register_layout,
      register_of_register_layout, decodeReg_encodeReg]
    exact congrArg (Except.ok <| Operand.baseDisp r ·)
      (zeroExtend_extract (of_decide_eq_true h) (by omega))
  | abs n =>
    rw [encodeOperand, mode_of_number_layout, number_of_number_layout]
    exact congrArg (Except.ok <| Operand.abs ·)
      (zeroExtend_extract (of_decide_eq_true h) (by omega))

section
variable (o : BitVec 5) (r : Reg) (c : Cond) {op : Operand} (h : op.fits = true)
include h

/-- Shape "main register and operand" (R102). -/
theorem decodeRegOperand_encode (f : Reg → Operand → Instr) :
    decodeRegOperand (o ++ (encodeReg r ++ encodeOperand op)) f = .ok (f r op) := by
  rw [decodeRegOperand, mainField_append, decodeReg_encodeReg, decodeOperand_encodeOperand o _ h]

/-- Shape "operand only" (R102). -/
theorem decodeOperandOnly_encode (f : Operand → Instr) :
    decodeOperandOnly (o ++ ((0 : BitVec 4) ++ encodeOperand op)) f = .ok (f op) := by
  rw [decodeOperandOnly, mainField_append, if_pos rfl, decodeOperand_encodeOperand o _ h]
  rfl

/-- Shape "condition and operand" (R102). -/
theorem decodeCondOperand_encode (f : Cond → Operand → Instr) :
    decodeCondOperand (o ++ (encodeCond c ++ encodeOperand op)) f = .ok (f c op) := by
  rw [decodeCondOperand, mainField_append, decodeCond_encodeCond,
    decodeOperand_encodeOperand o _ h]
  rfl

end

/-- Shape "none" (R102). -/
theorem decodeBare_encode (o : BitVec 5) (i : Instr) :
    decodeBare (o ++ (0 : BitVec 27)) i = .ok i := by
  rw [decodeBare, extract_append_low _ _ (by omega), extract_self, if_pos rfl]

/-- The default encoding, one row of the operation table after another: the operation number leads the decoder to
the row's shape. -/
theorem decodeWord_encodeWord {i : Instr} (h : i.wellFormed = true) :
    decodeWord (encodeWord i) = .ok i := by
  rw [decodeWord, encodeWord, operationField_append]
  cases i with
  | getsr r op | setsr r op | getfl r op | setfl r op | flagsj r op | comp r op | sbit r op | cbit r op
  | exbr r op | dpbr r op | exbrv r op | dpbrv r op | load r op | store r op | phload r op
  | phstore r op | peri r op => exact decodeRegOperand_encode _ r h _
  | compz op | push op | inc op | call op | syscall op => exact decodeOperandOnly_encode _ h _
  | jcond c op => exact decodeCondOperand_encode _ c h _
  | ret | iret | halt | clrpp => exact decodeBare_encode _ _

/-! ### A word that reads as an instruction -/

theorem fields_append (w : Word) : operationField w ++ w.extractLsb' 0 27 = w :=
  (BitVec.extractLsb'_append_extractLsb'_eq_extractLsb' rfl).trans (extract_self w)

theorem mainField_append_operand (w : Word) :
    mainField w ++ w.extractLsb' 0 23 = w.extractLsb' 0 27 :=
  BitVec.extractLsb'_append_extractLsb'_eq_extractLsb' rfl

theorem number_layout {w : Word} {p : BitVec 3} (hmode : modeField w = p) :
    p ++ constField w = w.extractLsb' 0 23 := by
  subst hmode
  exact BitVec.extractLsb'_append_extractLsb'_eq_extractLsb' rfl

theorem register_layout {w : Word} {p : BitVec 3} (hmode : modeField w = p) :
    p ++ indexField w ++ dispField w = w.extractLsb' 0 23 := by
  subst hmode
  have hhigh : modeField w ++ indexField w = w.extractLsb' 16 7 :=
    BitVec.extractLsb'_append_extractLsb'_eq_extractLsb' rfl
  rw [hhigh]
  exact BitVec.extractLsb'_append_extractLsb'_eq_extractLsb' rfl

/-- A field widened to a word comes back from its low bits. -/
theorem extract_zeroExtend {k : Nat} (x : BitVec k) (hk : k ≤ 32) :
    (x.zeroExtend 32).extractLsb' 0 k = x := by
  apply BitVec.eq_of_getLsbD_eq
  intro j hj
  simp [hj, show j < 32 by omega]

/-- A field widened to a word fits the field. -/
theorem zeroExtend_fits {k : Nat} (x : BitVec k) : (x.zeroExtend 32).toNat < 2 ^ k := by
  rw [BitVec.zeroExtend, BitVec.toNat_setWidth]
  exact (Nat.mod_le _ _).trans_lt x.isLt

/-- What a mapped value comes from. -/
theorem except_map_eq_ok {ε α β : Type} {f : α → β} {x : Except ε α} {b : β}
    (h : x.map f = .ok b) : ∃ a, x = .ok a ∧ f a = b := by
  cases x with
  | error e => cases h
  | ok a => exact ⟨a, rfl, Except.ok.inj h⟩

/-- An operand that a word spells fits, and its own 23 bits are the word's (R103). -/
theorem encodeOperand_of_decodeOperand {w : Word} {op : Operand} (h : decodeOperand w = .ok op) :
    op.fits = true ∧ encodeOperand op = w.extractLsb' 0 23 := by
  unfold decodeOperand at h
  split at h
  -- a mode and a number: a constant, an absolute address
  case h_1 hmode | h_5 hmode =>
    cases h
    refine ⟨decide_eq_true (zeroExtend_fits _), ?_⟩
    rw [encodeOperand, extract_zeroExtend _ (by omega)]
    exact number_layout hmode
  -- a mode and a register, the number zero: a register, a base
  case h_2 hmode | h_3 hmode =>
    split at h
    next hspare =>
      obtain ⟨r, hr, rfl⟩ := except_map_eq_ok h
      refine ⟨rfl, ?_⟩
      rw [encodeOperand, encodeReg_decodeReg _ r hr, ← hspare]
      exact register_layout hmode
    next => cases h
  -- a mode, a register and a number: a base with a displacement
  case h_4 hmode =>
    obtain ⟨r, hr, rfl⟩ := except_map_eq_ok h
    refine ⟨decide_eq_true (zeroExtend_fits _), ?_⟩
    rw [encodeOperand, encodeReg_decodeReg _ r hr, extract_zeroExtend _ (by omega)]
    exact register_layout hmode
  -- a mode that is not assigned
  case h_6 => cases h

/-- An instruction is spelled by a word with its operation number and its fields. -/
theorem encode_of_fields {w : Word} {i : Instr} (ho : operationField w = operationNumber i)
    (hfields : encodeFields i = w.extractLsb' 0 27) (hfits : i.wellFormed = true) :
    encode i = some w := by
  rw [encode, if_pos hfits, encodeWord, ← ho, hfields, fields_append]

section
variable {w : Word} {n : BitVec 5} (ho : operationField w = n) {i : Instr}
include ho

theorem encode_of_decodeRegOperand {f : Reg → Operand → Instr} (h : decodeRegOperand w f = .ok i)
    (hn : ∀ r op, operationNumber (f r op) = n)
    (hf : ∀ r op, encodeFields (f r op) = encodeReg r ++ encodeOperand op)
    (hw : ∀ r op, (f r op).wellFormed = op.fits) : encode i = some w := by
  unfold decodeRegOperand at h
  split at h
  next => cases h
  next => cases h
  next r op hr hop =>
    cases h
    obtain ⟨hfits, hbits⟩ := encodeOperand_of_decodeOperand hop
    refine encode_of_fields (ho.trans (hn r op).symm) ?_ ((hw r op).trans hfits)
    rw [hf, encodeReg_decodeReg _ r hr, hbits, mainField_append_operand]

theorem encode_of_decodeOperandOnly {f : Operand → Instr} (h : decodeOperandOnly w f = .ok i)
    (hn : ∀ op, operationNumber (f op) = n)
    (hf : ∀ op, encodeFields (f op) = (0 : BitVec 4) ++ encodeOperand op)
    (hw : ∀ op, (f op).wellFormed = op.fits) : encode i = some w := by
  unfold decodeOperandOnly at h
  split at h
  next hmain =>
    obtain ⟨op, hop, rfl⟩ := except_map_eq_ok h
    obtain ⟨hfits, hbits⟩ := encodeOperand_of_decodeOperand hop
    refine encode_of_fields (ho.trans (hn op).symm) ?_ ((hw op).trans hfits)
    rw [hf, hbits, ← hmain, mainField_append_operand]
  next => cases h

theorem encode_of_decodeCondOperand {f : Cond → Operand → Instr}
    (h : decodeCondOperand w f = .ok i) (hn : ∀ c op, operationNumber (f c op) = n)
    (hf : ∀ c op, encodeFields (f c op) = encodeCond c ++ encodeOperand op)
    (hw : ∀ c op, (f c op).wellFormed = op.fits) : encode i = some w := by
  obtain ⟨op, hop, rfl⟩ := except_map_eq_ok h
  obtain ⟨hfits, hbits⟩ := encodeOperand_of_decodeOperand hop
  refine encode_of_fields (ho.trans (hn _ op).symm) ?_ ((hw _ op).trans hfits)
  rw [hf, encodeCond_decodeCond, hbits, mainField_append_operand]

theorem encode_of_decodeBare {j : Instr} (h : decodeBare w j = .ok i) (hn : operationNumber j = n)
    (hf : encodeFields j = 0) (hw : j.wellFormed = true) : encode i = some w := by
  unfold decodeBare at h
  split at h
  next hspare =>
    cases h
    exact encode_of_fields (ho.trans hn.symm) (hf.trans hspare.symm) hw
  next => cases h

end

/-- The default encoding has one word for an instruction: the operation number of a word that decodes tells the
instruction's shape, and the shape its fields. -/
theorem encode_of_decodeWord {w : Word} {i : Instr} (h : decodeWord w = .ok i) :
    encode i = some w := by
  unfold decodeWord at h
  split at h
  case h_1 ho | h_2 ho | h_3 ho | h_4 ho | h_5 ho | h_6 ho | h_9 ho | h_10 ho | h_11 ho | h_12 ho
    | h_13 ho | h_14 ho | h_15 ho | h_16 ho | h_24 ho | h_25 ho | h_27 ho =>
    exact encode_of_decodeRegOperand ho h (fun _ _ => rfl) (fun _ _ => rfl) (fun _ _ => rfl)
  case h_7 ho | h_17 ho | h_18 ho | h_19 ho | h_21 ho =>
    exact encode_of_decodeOperandOnly ho h (fun _ => rfl) (fun _ => rfl) (fun _ => rfl)
  case h_8 ho => exact encode_of_decodeCondOperand ho h (fun _ _ => rfl) (fun _ _ => rfl) (fun _ _ => rfl)
  case h_20 ho | h_22 ho | h_23 ho | h_26 ho => exact encode_of_decodeBare ho h rfl rfl rfl
  -- an operation that is not assigned
  case h_28 => cases h

theorem decodeWord_of_encode {w : Word} {i : Instr} (h : encode i = some w) :
    decodeWord w = .ok i := by
  unfold encode at h
  split at h
  next hfits =>
    cases h
    exact decodeWord_encodeWord hfits
  next => cases h

/-! ### The machine's encoding: the launch parameter's words first -/

section
variable {code : List (Word × Spelling)} {i : Instr}

/-- A word spells an instruction through the launch parameter, or by default where that leaves it alone (R101). -/
theorem decode_eq_ok_iff {w : Word} : decode code w = .ok i ↔
    code.lookup w = some (.instr i) ∨ code.lookup w = none ∧ decodeWord w = .ok i := by
  cases hspelling : code.lookup w with
  | none => simp [decode, hspelling]
  | some spelling => cases spelling <;> simp [decode, hspelling]

/-- An encoding is a word that the launch parameter makes spell the instruction, or the default word. -/
theorem encodeWith_eq_some {w : Word} (h : encodeWith code i = some w) :
    code.lookup w = some (.instr i) ∨ code.lookup w = none ∧ encode i = some w := by
  unfold encodeWith at h
  split at h
  next entry hfound =>
    cases h
    exact .inl (eq_of_beq (List.find?_some hfound :))
  next =>
    obtain ⟨hdefault, hfree⟩ := Option.filter_eq_some_iff.1 h
    exact .inr ⟨Option.isNone_iff_eq_none.1 hfree, hdefault⟩

/-- Where there is such a word, there is an encoding. -/
theorem exists_encodeWith {w : Word}
    (h : code.lookup w = some (.instr i) ∨ code.lookup w = none ∧ encode i = some w) :
    ∃ v, encodeWith code i = some v := by
  unfold encodeWith
  split
  next entry _ => exact ⟨entry.1, rfl⟩
  next hnone =>
    rcases h with hspelled | ⟨hfree, hdefault⟩
    · obtain ⟨before, after, rfl, -⟩ := List.lookup_eq_some_iff.1 hspelled
      have hskipped := List.find?_eq_none.1 hnone (w, .instr i) (by simp)
      exact absurd (beq_iff_eq.2 hspelled) hskipped
    · exact ⟨w, Option.filter_eq_some_iff.2 ⟨hdefault, Option.isNone_iff_eq_none.2 hfree⟩⟩

end

/-- With no launch parameter the machine's decoder and encoder are the default ones. -/
theorem decode_nil (w : Word) : decode [] w = decodeWord w := rfl

theorem encodeWith_nil (i : Instr) : encodeWith [] i = encode i := by
  cases h : encode i <;> simp [encodeWith, h]

/-- Settles O1: the encoder's word is one the launch parameter respells, or the default word, which reads back. -/
theorem decodeReadsEncodedInstruction : Obligations.DecodeReadsEncodedInstruction := by
  refine ⟨fun code i w h => ?_, fun i hfits => ?_⟩
  · exact decode_eq_ok_iff.2
      ((encodeWith_eq_some h).imp_right (And.imp_right decodeWord_of_encode))
  · have hword : encode i = some (encodeWord i) := if_pos hfits
    have hback : decodeWord (encodeWord i) = .ok i := decodeWord_encodeWord hfits
    exact ⟨encodeWord i, hword, hback, (encodeWith_nil i).trans hword, (decode_nil _).trans hback⟩

/-- Settles O2: a default word is put together from the fields it was read from, and what a word spells has that
word for an encoding, if no earlier one. -/
theorem everyDecodedWordIsItsEncoding : Obligations.EveryDecodedWordIsItsEncoding :=
  ⟨fun _ _ h => encode_of_decodeWord h, fun _ _ _ h =>
    exists_encodeWith ((decode_eq_ok_iff.1 h).imp_right (And.imp_right encode_of_decodeWord))⟩

/-- Settles O3: the first eight words are those of their instructions; the last two name PC and operation 0. -/
theorem wordsDecodeToTheirInstructions : Obligations.WordsDecodeToTheirInstructions :=
  ⟨decodeWord_of_encode rfl, decodeWord_of_encode rfl, decodeWord_of_encode rfl,
    decodeWord_of_encode rfl, decodeWord_of_encode rfl, decodeWord_of_encode rfl,
    decodeWord_of_encode rfl, decodeWord_of_encode rfl, by decide, by decide⟩

end Sys2Proof
end

section
/-! PROOF. O18, O21, O5: operands and their faults (R103 to R105, R112). An access that raises, wherever an
instruction comes to it, ends the instruction in an exception with nothing changed (R287); so does a fetch, and a
word that spells no instruction (R110, R264). -/

namespace Sys2Proof.Machine

/-! ### Operands -/

section
variable {s : State} {op : Operand} {a : Word}

/-- The value of a memory operand is the word at its effective address (R104). -/
theorem val_of_effAddr (h : effAddr s op = some a) : val s op = memRead s a := by
  cases op with
  | const n | reg r => cases h
  | base r | baseDisp r n | abs n => cases h; rfl

/-- A store to a memory operand is one to its effective address (R105). -/
theorem storeOperand_of_effAddr (v : Word) (h : effAddr s op = some a) :
    storeOperand s op v = memWrite s a v := by
  cases op with
  | const n | reg r => cases h
  | base r | baseDisp r n | abs n => cases h; rfl

end

/-- Settles O18: the definitions, form by form; the last clause is the two lemmas on memory operands. -/
theorem operandValuesAddressesAndStores : Obligations.OperandValuesAddressesAndStores :=
  fun _ _ _ v => ⟨⟨rfl, rfl⟩, ⟨rfl, rfl⟩, ⟨rfl, rfl, rfl, rfl, rfl⟩, fun _ _ h =>
    ⟨val_of_effAddr h, storeOperand_of_effAddr v h⟩⟩

/-! ### Accesses that raise

`target s a = .raise c addr info` says what is common to every access at `a` that raises: the translation raises, or
leads to a physical address that does not exist. -/

section
variable {s : State} {a : Word} {c : Cause} {addr info : Option Word}

theorem target_of_translate_raise (h : translate s a = .raise c addr info) :
    target s a = .raise c addr info := by
  rw [target, h, bind_raise]

theorem target_no_memory {pa : Word} (ht : translate s a = .ok pa)
    (hv : physValid s pa = false) : target s a = .raise .memory (some pa) none := by
  simp [target, ht, hv]

theorem memWrite_raise (v : Word) (h : target s a = .raise c addr info) :
    memWrite s a v = .raise c addr info := by
  rw [memWrite, h, bind_raise]

/-- A load raises what a store to the address would: the physical read has the store's own check (R64). -/
theorem memRead_raise (h : target s a = .raise c addr info) :
    memRead s a = .raise c addr info := by
  rcases bind_eq_raise h with htranslate | ⟨pa, htranslate, hpa⟩
  · rw [memRead, htranslate, bind_raise]
  · split at hpa
    next => cases hpa
    next hv =>
      cases hpa
      exact memRead_no_memory htranslate (by simpa using hv)

end

/-! ### Instructions that come to a part that raises -/

section
variable {α : Type} {s : State} {c : Cause} {addr info : Option Word}

/-- A part that gives a value leaves the instruction to its next part. -/
theorem finish_bind_ok {x : Res α} {v : α} (k : α → Res State) (h : x = .ok v) :
    finish s (x.bind k) = finish s (k v) := by
  rw [h, bind_ok]

/-- A part that raises ends the instruction. -/
theorem finish_bind_raise {x : Res α} (k : α → Res State) (h : x = .raise c addr info) :
    finish s (x.bind k) = takeException s c addr info := by
  rw [h, bind_raise, finish_raise]

/-- The same in a privileged instruction that system mode runs. -/
theorem finish_privileged_raise {x : Res α} (k : α → Res State) (hsys : s.flags.sys = true)
    (h : x = .raise c addr info) :
    finish s (privileged s (x.bind k)) = takeException s c addr info := by
  rw [privileged_system _ hsys, finish_bind_raise k h]

theorem pushValue_raise {op : Operand} (h : val s op = .raise c addr info) :
    pushValue s op = .raise c addr info := by
  have hne : op ≠ .reg .sp := by
    rintro rfl
    cases h
  rw [pushValue, if_neg hne, h, bind_raise]

/-- An instruction that takes the value of an operand takes what that raises. -/
theorem ReadsOperand.raises {i : Instr} {op : Operand} (hreads : ReadsOperand s i op)
    (h : val s op = .raise c addr info) : exec i s = takeException s c addr info := by
  cases hreads with
  | getsr | getfl | setfl | comp | compz | sbit | cbit | load | inc | call | syscall
  | exbrWord | dpbrWord | exbrvWord | dpbrvWord => exact finish_bind_raise _ h
  | setsr r op hsys | flagsj r op hsys | peri r op hsys => exact finish_privileged_raise _ hsys h
  | jcond cond op hcond => exact (finish_bind_ok _ hcond).trans (finish_bind_raise _ h)
  | push => exact finish_bind_raise _ (pushValue_raise h)
  | exbrDesc r op w hw | dpbrDesc r op w hw | exbrvDesc r op w hw | dpbrvDesc r op w hw =>
    exact (finish_bind_ok _ hw).trans (finish_bind_raise _ h)
  | dpbrData r op w d hw hd | dpbrvData r op w d hw hd =>
    exact (finish_bind_ok _ hw).trans ((finish_bind_ok _ hd).trans (finish_bind_raise _ h))

theorem fittingRange_ok {d : Word} (h : rangeFits d = true) : fittingRange d = .ok d := if_pos h

/-- An instruction that stores its result in an operand takes what any store there raises. -/
theorem StoresToOperand.raises {i : Instr} {op : Operand} (hstores : StoresToOperand s i op)
    (h : ∀ v, storeOperand s op v = .raise c addr info) : exec i s = takeException s c addr info := by
  cases hstores with
  | store => exact finish_bind_raise _ (h _)
  | inc op v hv => exact (finish_bind_ok _ hv).trans (finish_bind_raise _ (h _))
  | exbr r op w d hw hd hfits =>
    exact (finish_bind_ok _ hw).trans <| (finish_bind_ok _ hd).trans <|
      (finish_bind_ok _ (fittingRange_ok hfits)).trans (finish_bind_raise _ (h _))
  | dpbr r op w d v hw hd hfits hv =>
    exact (finish_bind_ok _ hw).trans <| (finish_bind_ok _ hd).trans <| (finish_bind_ok _ hv).trans <|
      (finish_bind_ok _ (fittingRange_ok hfits)).trans (finish_bind_raise _ (h _))
  | exbrv r op a d w ha hd hfits hw =>
    exact (finish_bind_ok _ ha).trans <| (finish_bind_ok _ hd).trans <| (finish_bind_ok _ hw).trans <|
      (finish_bind_ok _ (fittingRange_ok hfits)).trans (finish_bind_raise _ (h _))

/-- The push of PUSH raises as it would from the state before a free choice for `PUSH SP` (U6). -/
theorem push_pushValue_raise {op : Operand} {v : Word} (hv : val s op = .ok v)
    (h : target s (s.sp - 1) = .raise c addr info) :
    ∃ vt, pushValue s op = .ok vt ∧ push vt.2 vt.1 = .raise c addr info := by
  unfold pushValue
  split
  next =>
    have hdrawn : target (drawBit s).2 ((drawBit s).2.sp - 1) = .raise c addr info :=
      (target_congr (s.sp - 1) rfl rfl rfl rfl rfl).trans h
    exact ⟨_, rfl, push_raise _ hdrawn⟩
  next => exact ⟨(v, s), by rw [hv, bind_ok], push_raise v h⟩

/-- An instruction that comes to access memory takes what the access raises. -/
theorem MakesAccess.raises {i : Instr} {a : Word} (haccess : MakesAccess s i a)
    (h : target s a = .raise c addr info) : exec i s = takeException s c addr info := by
  cases haccess with
  | read _ op _ hreads ha => exact hreads.raises ((val_of_effAddr ha).trans (memRead_raise h))
  | store _ op _ hstores ha =>
    exact hstores.raises fun v => (storeOperand_of_effAddr v ha).trans (memWrite_raise v h)
  | exbrv r op a d ha hd =>
    exact (finish_bind_ok _ ha).trans <| (finish_bind_ok _ hd).trans
      (finish_bind_raise _ (memRead_raise h))
  | dpbrv r op a d v ha hd hv =>
    exact (finish_bind_ok _ ha).trans <| (finish_bind_ok _ hd).trans <| (finish_bind_ok _ hv).trans
      (finish_bind_raise _ (memRead_raise h))
  | push op v hv =>
    obtain ⟨vt, hvalue, hpush⟩ := push_pushValue_raise hv h
    exact (finish_bind_ok _ hvalue).trans (finish_bind_raise _ hpush)
  | call op v hv =>
    exact (finish_bind_ok _ hv).trans (finish_bind_raise _ (push_raise _ h))
  | ret =>
    have hpop : pop s = .raise c addr info := by rw [pop, memRead_raise h, bind_raise]
    exact finish_bind_raise _ hpop

end

/-- Settles O21: the instruction takes the exception of its access, which enters the handler that stands ready. -/
theorem operandFaultsEnterTheirHandlers : Obligations.OperandFaultsEnterTheirHandlers := by
  refine ⟨fun s h n i hstores hready => ?_, fun s h a i haccess => ⟨?_, ?_⟩, fun _ _ => rfl⟩
  · rw [hstores.raises fun _ => rfl]
    exact takeException_whole _ _ hready
  · intro c addr info htranslate hready
    rw [haccess.raises (target_of_translate_raise htranslate)]
    exact takeException_whole _ _ hready
  · intro pa htranslate hinvalid hready
    rw [haccess.raises (target_no_memory htranslate hinvalid)]
    exact takeException_whole _ _ hready

/-! ### Fetched words without an instruction -/

section
variable {s : State} {w : Word} {c : Cause} {addr info : Option Word}

/-- A fetch that raises (R83). -/
theorem fetch_raise (h : memRead s s.pc = .raise c addr info) :
    fetch s = .ended (takeException s c addr info) := by
  simp [fetch, h]

/-- A word that spells nothing raises UNIMPOP with its own address (R110, R264). -/
theorem fetch_undecoded {e : DecodeError} (hw : memRead s s.pc = .ok w)
    (he : decode s.cfg.code w = .error e) (hpc : e ≠ .pcOperand) (hother : e ≠ .otherInstruction) :
    fetch s = .ended (takeException s .unimpop (some s.pc) none) := by
  cases e with
  | pcOperand => exact absurd rfl hpc
  | otherInstruction => exact absurd rfl hother
  | unassignedOperation | unassignedMode | spareFieldSet | respelledAway => simp [fetch, hw, he]

/-- A word that names PC as an operand (D29). -/
theorem fetch_pcOperand (hw : memRead s s.pc = .ok w)
    (he : decode s.cfg.code w = .error .pcOperand) : fetch s = .ended (.refused .pcOperand) := by
  simp [fetch, hw, he]

/-- A word that spells an instruction outside the 27 (R109, U24). -/
theorem fetch_otherInstruction (hw : memRead s s.pc = .ok w)
    (he : decode s.cfg.code w = .error .otherInstruction) :
    fetch s = .ended (.refused .otherInstruction) := by
  simp [fetch, hw, he]

end

/-- A step at which no notification is taken, and whose fetch ends it (R288). -/
theorem step_of_fetch_ended {s : State} {o : Host.Outcome State Fault Refusal}
    (hr : s.flags.r = true) (hkey : keyboardSignal (hostMoves s) = .ignored)
    (hdebug : debugSignal (hostMoves s) = .ignored) (h : fetch (hostMoves s) = .ended o) :
    step s = o := by
  have hbegin : beginStep s = .ended o := by
    simp [beginStep, hr, hkey, hdebug, afterSignal, h]
  rw [step, hbegin]

/-- Settles O5: the four ends of a fetch that gives no instruction; an exception it takes enters the handler that
stands ready. -/
theorem fetchedWordWithoutInstruction : Obligations.FetchedWordWithoutInstruction := by
  intro s hr hkey hdebug
  have hstep {o : Host.Outcome State Fault Refusal} (h : fetch (hostMoves s) = .ended o) :
      step s = o := step_of_fetch_ended hr hkey hdebug h
  refine ⟨fun c addr info hraise => ?_, fun w h e hw he hpc hother hready => ?_, fun w hw => ?_⟩
  · have htaken := hstep (fetch_raise hraise)
    refine ⟨htaken, fun h hready => ?_⟩
    rw [htaken]
    exact takeException_whole _ _ hready
  · rw [hstep (fetch_undecoded hw he hpc hother)]
    exact takeException_whole _ _ hready
  · exact ⟨fun he => hstep (fetch_pcOperand hw he), fun he => hstep (fetch_otherInstruction hw he)⟩

end Sys2Proof.Machine
end

section
/-! PROOF. O26 to O28, O30 to O35, O46: the special register, flag and bit instructions (R120 to R129), and the
numbers, ranges and frames that stop by name (U1, U2, U4, U5, U9, R278). -/

namespace Sys2Proof.Machine

/-! ### The numbers of special registers, flags and bits -/

theorem specialOf_ok {n : Word} {k : SReg} (h : sregOf n = some k) : specialOf n = .ok k := by
  simp [specialOf, h]

theorem flagNumbered_ok {n : Word} {k : Flag} (h : flagOf n = some k) : flagNumbered n = .ok k := by
  simp [flagNumbered, h]

theorem bitMask_ok {n : Word} (h : n.toNat < 32) : bitMask n = .ok ((1 : Word) <<< n.toNat) :=
  if_pos h

/-- The special registers are numbered 0 to 10 (R32). -/
theorem specialOf_refused {n : Word} (h : 10 < n.toNat) :
    specialOf n = .stop (.refusal (.specialRegisterNumber n)) := by
  have hnone : sregOf n = none := by
    unfold sregOf
    split
    case h_12 => rfl
    all_goals omega
  simp [specialOf, hnone]

/-- The flags are numbered 0 to 6 (R35). -/
theorem flagNumbered_refused {n : Word} (h : 6 < n.toNat) :
    flagNumbered n = .stop (.refusal (.flagNumber n)) := by
  have hnone : flagOf n = none := by
    unfold flagOf
    split
    case h_8 => rfl
    all_goals omega
  simp [flagNumbered, hnone]

theorem bitMask_refused {n : Word} (h : 32 ≤ n.toNat) :
    bitMask n = .stop (.refusal (.bitNumber n)) := if_neg (by omega)

theorem fittingRange_refused {d : Word} (h : rangeFits d = false) :
    fittingRange d = .stop (.refusal (.bitRange d)) := by simp [fittingRange, h]

section
variable {α : Type} {s : State} {x : Res α} {e : Refusal}

/-- A part that stops by name ends the instruction so. -/
theorem finish_bind_refused (k : α → Res State) (h : x = .stop (.refusal e)) :
    finish s (x.bind k) = .refused e := by
  rw [h, bind_stop, finish_stop]
  rfl

end

/-! ### Special registers and flags after one has been written -/

section
variable {s t : State} {k q : SReg}

/-- A special register of the ten that are storage reads the value written to it, any other what it held. -/
theorem getSpecial_setSpecial (v : Word) (hk : k ≠ .flags) :
    (s.setSpecial k v).getSpecial q = if k = q then v else s.getSpecial q := by
  cases k with
  | flags => exact absurd rfl hk
  | pdbr | intvec | cgbr | cglen | debug | timer | sysSP | sysFP | usrSP | usrFP =>
    cases q <;> rfl

theorem setSpecial_flags_of_ne (v : Word) (hk : k ≠ .flags) :
    (s.setSpecial k v).flags = s.flags := by
  cases k with
  | flags => exact absurd rfl hk
  | pdbr | intvec | cgbr | cglen | debug | timer | sysSP | sysFP | usrSP | usrFP => rfl

/-- The tick writes no special register but TIMER. -/
theorem Ticked.getSpecial (h : Ticked s t) (hq : q ≠ .timer) : t.getSpecial q = s.getSpecial q := by
  cases q with
  | timer => exact absurd rfl hq
  | flags => exact congrArg Flags.toWord h.flags
  | pdbr | intvec | cgbr | cglen | debug | sysSP | sysFP | usrSP | usrFP =>
    simp only [State.getSpecial, h.sr]

end

/-- A flag reads the value written to it, any other what it was (R123). -/
theorem get_set (f : Flags) (k q : Flag) (b : Bool) :
    (f.set k b).get q = if q = k then b else f.get q := by
  cases k <;> cases q <;> rfl

/-! ### How an instruction ends -/

section
variable {s : State}

/-- An instruction that writes one register. -/
theorem finish_setReg (r : Reg) (v : Word) (hready : Ready s) :
    ∃ t, finish s (.ok (s.setReg r v).advance) = .next t ∧ t.getReg r = v ∧ t.pc = s.pc + 1 ∧
      OnlyReg r s t := by
  obtain ⟨hr, htimer⟩ := hready
  obtain ⟨t, hnext, hticked⟩ := complete_ticked (u := (s.setReg r v).advance) (by simpa) (by simpa)
  rw [State.advance, setReg_pc] at hticked
  exact ⟨t, hnext, hticked.onlyReg⟩

/-- An instruction that writes flags and the pc: where it clears R, the CPU has halted without a tick (R298). -/
theorem finish_setFlags (f : Flags) (p : Word) (hready : Ready s) :
    ∃ t, finish s (.ok ((s.setFlags f).setPc p)) = .next t ∧ t.flags = f ∧ t.pc = p ∧
      (f.r = true → OnlyFlags s t) ∧ (f.r = false → OnlyHalted s t) := by
  cases hr : f.r with
  | true =>
    obtain ⟨t, hnext, hticked⟩ := complete_ticked (u := (s.setFlags f).setPc p) hr hready.2
    obtain ⟨hflags, hpc, honly⟩ := hticked.onlyFlags
    exact ⟨t, hnext, hflags, hpc, fun _ => honly, nofun⟩
  | false =>
    exact ⟨_, complete_halted hr, rfl, rfl, nofun, fun _ => onlyHalted_of s f p hr⟩

/-- An instruction that writes the pc alone. -/
theorem finish_setPc (p : Word) (hready : Ready s) :
    ∃ t, finish s (.ok (s.setPc p)) = .next t ∧ t.pc = p ∧ OnlyPc s t := by
  obtain ⟨t, hnext, hticked⟩ := complete_ticked (u := s.setPc p) hready.1 hready.2
  exact ⟨t, hnext, hticked.onlyPc⟩

/-- All seven flags taken from a word, R among them (R36, R45). -/
theorem finish_setFlags_ofWord (w p : Word) (hready : Ready s) :
    ∃ t, finish s (.ok ((s.setFlags (Flags.ofWord w)).setPc p)) = .next t ∧ t.pc = p ∧
      FlagsAre w t.flags ∧ (w.getLsbD 0 = true → OnlyFlags s t) ∧
      (w.getLsbD 0 = false → OnlyHalted s t) := by
  obtain ⟨t, hnext, hflags, hpc, honly⟩ := finish_setFlags (Flags.ofWord w) p hready
  exact ⟨t, hnext, hpc, hflags ▸ flagsAre_ofWord w, honly⟩

end

/-! ### The instructions, once their operands are read -/

section
variable {s : State} {r : Reg} {op : Operand} {n : Word}

theorem exec_getsr {k : SReg} (hv : val s op = .ok n) (hk : sregOf n = some k) :
    exec (.getsr r op) s = finish s (.ok (s.setReg r (s.getSpecial k)).advance) :=
  (finish_bind_ok _ hv).trans (finish_bind_ok _ (specialOf_ok hk))

theorem exec_setsr {k : SReg} (hsys : s.flags.sys = true) (hv : val s op = .ok n)
    (hk : sregOf n = some k) :
    exec (.setsr r op) s = finish s (.ok (s.setSpecial k (s.getReg r)).advance) :=
  (congrArg (finish s) (privileged_system _ hsys)).trans <|
    (finish_bind_ok _ hv).trans (finish_bind_ok _ (specialOf_ok hk))

theorem exec_getfl {k : Flag} (hv : val s op = .ok n) (hk : flagOf n = some k) :
    exec (.getfl r op) s = finish s (.ok (s.setReg r (if s.flags.get k then 1 else 0)).advance) :=
  (finish_bind_ok _ hv).trans (finish_bind_ok _ (flagNumbered_ok hk))

/-- SETFL of a flag the mode may set (R44). -/
theorem exec_setfl {k : Flag} (hv : val s op = .ok n) (hk : flagOf n = some k)
    (hmay : s.flags.sys = true ∨ flagProtected k = false) :
    exec (.setfl r op) s =
      finish s (.ok (s.setFlags (s.flags.set k (s.getReg r != 0))).advance) := by
  refine (finish_bind_ok _ hv).trans ((finish_bind_ok _ (flagNumbered_ok hk)).trans ?_)
  have hallowed : (!s.flags.sys && flagProtected k) = false := by
    rcases hmay with h | h <;> simp [h]
  rw [hallowed]
  rfl

theorem exec_flagsj (hsys : s.flags.sys = true) (hv : val s op = .ok n) :
    exec (.flagsj r op) s = finish s (.ok ((s.setFlags (Flags.ofWord (s.getReg r))).setPc n)) :=
  (congrArg (finish s) (privileged_system _ hsys)).trans (finish_bind_ok _ hv)

theorem exec_jcond_taken {c : Cond} (hc : condValue s c = .ok true) (hv : val s op = .ok n) :
    exec (.jcond c op) s = finish s (.ok (s.setPc n)) :=
  (finish_bind_ok _ hc).trans (finish_bind_ok _ hv)

theorem exec_jcond_not_taken {c : Cond} (hc : condValue s c = .ok false) :
    exec (.jcond c op) s = finish s (.ok s.advance) :=
  finish_bind_ok _ hc

theorem exec_sbit (hv : val s op = .ok n) (hn : n.toNat < 32) :
    exec (.sbit r op) s =
      finish s (.ok (s.setReg r (s.getReg r ||| (1 : Word) <<< n.toNat)).advance) :=
  (finish_bind_ok _ hv).trans (finish_bind_ok _ (bitMask_ok hn))

theorem exec_cbit (hv : val s op = .ok n) (hn : n.toNat < 32) :
    exec (.cbit r op) s =
      finish s (.ok (s.setReg r (s.getReg r &&& ~~~((1 : Word) <<< n.toNat))).advance) :=
  (finish_bind_ok _ hv).trans (finish_bind_ok _ (bitMask_ok hn))

end

/-! ### Special registers -/

/-- Settles O26: GETSR writes one register, with the value of the special register its number names. -/
theorem getsrReadsASpecialRegister : Obligations.GetsrReadsASpecialRegister := by
  refine ⟨⟨rfl, rfl, rfl, rfl, rfl, rfl, rfl, rfl, rfl, rfl, rfl⟩,
    fun s => ⟨rfl, rfl, rfl, rfl, rfl, rfl, rfl, rfl, rfl, rfl, rfl⟩, ?_⟩
  intro s r op n k hready hv hk
  rw [exec_getsr hv hk]
  exact finish_setReg r (s.getSpecial k) hready

/-- Settles O27: the tick comes after the write, so it counts down from the value SETSR gives TIMER. -/
theorem setsrWritesASpecialRegister : Obligations.SetsrWritesASpecialRegister := by
  intro s r op n k hr hsys hv hk hne hquiet
  have htimer : (s.setSpecial k (s.getReg r)).sr.timer =
      if k = .timer then s.getReg r else s.sr.timer :=
    getSpecial_setSpecial (q := .timer) (s.getReg r) hne
  have hflags := setSpecial_flags_of_ne (s := s) (s.getReg r) hne
  obtain ⟨t, hnext, hticked⟩ := complete_ticked (u := (s.setSpecial k (s.getReg r)).advance)
    (by simpa [hflags]) (by simpa [htimer])
  have htick : t.sr.timer = afterTick (if k = .timer then s.getReg r else s.sr.timer) := by
    rw [hticked.timer, advance_sr, htimer]
  have hspecial {q : SReg} (hq : q ≠ .timer) :
      t.getSpecial q = if k = q then s.getReg r else s.getSpecial q :=
    (hticked.getSpecial hq).trans (getSpecial_setSpecial (s.getReg r) hne)
  refine ⟨t, (exec_setsr hsys hv hk).trans hnext, ?_, ?_, fun q hqk hq => ?_, fun hkt => ?_,
    hticked.flags.trans hflags, ?_, fun a => ?_, ?_, ?_, ?_⟩
  · simp [hticked.pc]
  · split
    next hkt =>
      subst hkt
      exact htick
    next hkt => simp [hspecial hkt]
  · simp [hspecial hq, Ne.symm hqk]
  · simp [htick, hkt]
  · simp [hticked.gpr]
  · rw [hticked.word]
    simp [State.word]
  · simp [hticked.world]
  · simp [hticked.cfg]
  · simp [hticked.nesting]

/-- Settles O28: FLAGS takes the seven low bits, R among them. -/
theorem setsrOfFlagsSetsAllSeven : Obligations.SetsrOfFlagsSetsAllSeven := by
  intro s r op hready hsys hv
  rw [exec_setsr (k := .flags) hsys hv rfl]
  exact finish_setFlags_ofWord (s.getReg r) (s.pc + 1) hready

/-! ### Flags -/

/-- Settles O30: GETFL writes one register, with the flag its number names. -/
theorem getflReadsOneFlag : Obligations.GetflReadsOneFlag := by
  refine ⟨⟨rfl, rfl, rfl, rfl, rfl, rfl, rfl⟩, fun s r op n k hready hv hk => ?_⟩
  rw [exec_getfl hv hk]
  exact finish_setReg r _ hready

/-- Settles O31: the flag named takes the value, the others stay; R is then off only where R is the flag named and
the value is zero. -/
theorem setflWritesOneFlag : Obligations.SetflWritesOneFlag := by
  intro s r op n k hready hv hk hmay
  have hallowed : s.flags.sys = true ∨ flagProtected k = false :=
    hmay.imp_right (by rintro (rfl | rfl | rfl) <;> rfl)
  have hset : (s.flags.set k (s.getReg r != 0)).get k = decide (s.getReg r ≠ 0) := by
    rw [get_set, if_pos rfl, Bool.eq_iff_iff]
    simp
  obtain ⟨t, hnext, hflags, hpc, honly, hhalted⟩ :=
    finish_setFlags (s.flags.set k (s.getReg r != 0)) (s.pc + 1) hready
  refine ⟨t, (exec_setfl hv hk hallowed).trans hnext, hpc, hflags ▸ hset,
    fun q hq => hflags ▸ (get_set ..).trans (if_neg hq), fun hruns => honly ?_, fun hkr hzero => hhalted ?_⟩
  · by_cases hkr : k = .r
    · subst hkr
      exact hset.trans (decide_eq_true (hruns.resolve_left (absurd rfl)))
    · exact (get_set s.flags k .r _).trans ((if_neg (Ne.symm hkr)).trans hready.1)
  · subst hkr
    exact hset.trans (by simp [hzero])

/-- Settles O32: the flags from the word, the pc from the operand. -/
theorem flagsjSetsFlagsAndJumps : Obligations.FlagsjSetsFlagsAndJumps := by
  intro s r op a hready hsys hv
  rw [exec_flagsj hsys hv]
  exact finish_setFlags_ofWord (s.getReg r) a hready

/-! ### Comparisons and conditional jumps -/

/-- COMP writes Z and N and may draw a free bit; N is the comparison where the difference does not overflow (U3). -/
theorem compared_eq (s : State) (a b : Word) : ∃ n draws,
    compared s a b = (s.setFlags (s.flags.setZN (compareZ a b) n)).setDraws draws ∧
      (compareOverflows a b = false → n = compareN a b) := by
  unfold compared
  split
  next hover => exact ⟨_, _, rfl, fun h => by simp [h] at hover⟩
  next => exact ⟨_, s.draws, rfl, fun _ => rfl⟩

/-- An instruction that writes Z and N alone, and may draw a free bit. -/
theorem finish_setZN {s : State} (z n : Bool) (draws : Nat) (hready : Ready s) :
    ∃ t, finish s (.ok ((s.setFlags (s.flags.setZN z n)).setDraws draws).advance) = .next t ∧
      t.pc = s.pc + 1 ∧ OnlyFlags s t ∧ SameButZN s.flags t.flags ∧ t.flags.z = z ∧
      t.flags.n = n := by
  obtain ⟨t, hnext, hticked⟩ := complete_ticked
    (u := (((s.setFlags (s.flags.setZN z n)).setPc (s.pc + 1)).setDraws draws)) hready.1 hready.2
  obtain ⟨hflags, hpc, honly⟩ := hticked.of_setDraws.onlyFlags
  refine ⟨t, hnext, hpc, honly, ?_⟩
  rw [hflags]
  exact ⟨⟨rfl, rfl, rfl, rfl, rfl⟩, rfl, rfl⟩

/-- Settles O33: COMP and COMPZ write Z and N as the comparison says, N of COMP where the difference fits a word. -/
theorem comparisonsSetZeroAndNegative : Obligations.ComparisonsSetZeroAndNegative := by
  refine ⟨fun s r op b hready hv => ?_, fun s op a hready hv => ?_⟩
  · obtain ⟨n, draws, hcompared, hn⟩ := compared_eq s (s.getReg r) b
    obtain ⟨t, hnext, hpc, honly, hsame, hz, htn⟩ :=
      finish_setZN (compareZ (s.getReg r) b) n draws hready
    have hexec : exec (.comp r op) s = .next t := by
      rw [← hnext, ← hcompared]
      exact finish_bind_ok _ hv
    refine ⟨t, hexec, hpc, honly, hsame, hz, fun hlow hhigh => htn.trans (hn ?_)⟩
    rw [compareOverflows, decide_eq_false hlow.not_gt, decide_eq_false hhigh.not_ge]
    rfl
  · obtain ⟨t, hnext, hends⟩ := finish_setZN (compareZeroZ a) (compareZeroN a) s.draws hready
    exact ⟨t, (finish_bind_ok _ hv).trans hnext, hends⟩

theorem condValue_other {s : State} {k : Fin 15} {set : BitVec 128}
    (h : s.cfg.conds.lookup k = some set) :
    condValue s (.other k) = .ok (set.getLsbD s.flags.toWord.toNat) := by
  simp [condValue, inFlagSet, h]

theorem condValue_undefined {s : State} {k : Fin 15} (h : s.cfg.conds.lookup k = none) :
    condValue s (.other k) = .stop (.refusal (.jcondCondition k)) := by
  simp [condValue, h]

/-- A condition with a value: the jump, or the next instruction with the target not evaluated (R127). -/
theorem jcond_of_condValue {s : State} {c : Cond} {op : Operand} {holds : Bool} (hready : Ready s)
    (hc : condValue s c = .ok holds) :
    (∀ a, holds = true → val s op = .ok a →
      ∃ t, exec (.jcond c op) s = .next t ∧ t.pc = a ∧ OnlyPc s t) ∧
    (holds = false → ∃ t, exec (.jcond c op) s = .next t ∧ t.pc = s.pc + 1 ∧ OnlyPc s t) := by
  refine ⟨fun a hholds hv => ?_, fun hfails => ?_⟩
  · rw [exec_jcond_taken (hc.trans (congrArg _ hholds)) hv]
    exact finish_setPc a hready
  · rw [exec_jcond_not_taken (hc.trans (congrArg _ hfails))]
    exact finish_setPc (s.pc + 1) hready

/-- Settles O34: ERR and a defined condition have a value; an undefined one stops JCOND. -/
theorem jcondJumpsWhenItsConditionHolds : Obligations.JcondJumpsWhenItsConditionHolds := by
  intro s op hready
  have herr : condValue s .err = .ok s.flags.err := rfl
  refine ⟨(jcond_of_condValue hready herr).1, (jcond_of_condValue hready herr).2, fun k set hset => ?_,
    fun k hnone => ?_⟩
  · exact jcond_of_condValue hready (condValue_other hset)
  · exact finish_bind_refused _ (condValue_undefined hnone)

/-! ### Bits -/

/-- The mask of a bit number has that bit alone. -/
theorem getLsbD_one_shiftLeft {n i : Nat} (hi : i < 32) :
    ((1 : Word) <<< n).getLsbD i = decide (i = n) := by
  have hmask : (1 : Word) <<< n = BitVec.twoPow 32 n := (BitVec.twoPow_eq 32 n).symm
  rw [hmask, BitVec.getLsbD_twoPow]
  by_cases h : i = n
  · subst h
    simp [hi]
  · simp [h, Ne.symm h]

/-- Settles O35: OR with the mask sets its bit, AND with the complement clears it. -/
theorem sbitAndCbitChangeOneBit : Obligations.SbitAndCbitChangeOneBit := by
  refine fun s r op n hready hv hn => ⟨?_, ?_⟩
  · obtain ⟨t, hnext, hreg, hpc, honly⟩ :=
      finish_setReg r (s.getReg r ||| (1 : Word) <<< n.toNat) hready
    refine ⟨t, (exec_sbit hv hn).trans hnext, hpc, honly, fun i hi => ?_⟩
    rw [hreg, BitVec.getLsbD_or, getLsbD_one_shiftLeft hi]
    split <;> simp [*]
  · obtain ⟨t, hnext, hreg, hpc, honly⟩ :=
      finish_setReg r (s.getReg r &&& ~~~((1 : Word) <<< n.toNat)) hready
    refine ⟨t, (exec_cbit hv hn).trans hnext, hpc, honly, fun i hi => ?_⟩
    rw [hreg, BitVec.getLsbD_and, BitVec.getLsbD_not, getLsbD_one_shiftLeft hi]
    split <;> simp [*]

/-! ### Refusals -/

section
variable {s : State} {r : Reg} {op : Operand}

/-- In system mode the return from an INTRFAULT handler is refused (R278, log entry 21). -/
theorem exec_iret_intrFault (hsys : s.flags.sys = true) (h : s.faultNesting = some 0) :
    exec .iret s = .refused .iretFromIntrFault := by
  have hrefused : returnFromInterrupt s = .stop (.refusal .iretFromIntrFault) := if_pos h
  exact congrArg (finish s) ((privileged_system _ hsys).trans hrefused)

/-- In system mode a frame whose marker is not 40 is refused (U9). -/
theorem exec_iret_marker {m : Word} (hsys : s.flags.sys = true) (h : s.faultNesting ≠ some 0)
    (hm : memRead s s.sp = .ok m) (hne : m ≠ 40) : exec .iret s = .refused (.iretMarker m) := by
  have hrefused : returnFromInterrupt s = .stop (.refusal (.iretMarker m)) := by
    rw [returnFromInterrupt, if_neg h, hm]
    exact if_pos hne
  exact congrArg (finish s) ((privileged_system _ hsys).trans hrefused)

/-- A special register, flag or bit number out of range stops its instruction once the operand is read. -/
theorem refused_number {n : Word} (hv : val s op = .ok n) :
    (10 < n.toNat → exec (.getsr r op) s = .refused (.specialRegisterNumber n) ∧
      (s.flags.sys = true → exec (.setsr r op) s = .refused (.specialRegisterNumber n))) ∧
    (6 < n.toNat → exec (.getfl r op) s = .refused (.flagNumber n) ∧
      exec (.setfl r op) s = .refused (.flagNumber n)) ∧
    (32 ≤ n.toNat → exec (.sbit r op) s = .refused (.bitNumber n) ∧
      exec (.cbit r op) s = .refused (.bitNumber n)) := by
  refine ⟨fun hn => ⟨?_, fun hsys => ?_⟩, fun hn => ⟨?_, ?_⟩, fun hn => ⟨?_, ?_⟩⟩
  · exact (finish_bind_ok _ hv).trans (finish_bind_refused _ (specialOf_refused hn))
  · exact (congrArg (finish s) (privileged_system _ hsys)).trans <|
      (finish_bind_ok _ hv).trans (finish_bind_refused _ (specialOf_refused hn))
  · exact (finish_bind_ok _ hv).trans (finish_bind_refused _ (flagNumbered_refused hn))
  · exact (finish_bind_ok _ hv).trans (finish_bind_refused _ (flagNumbered_refused hn))
  · exact (finish_bind_ok _ hv).trans (finish_bind_refused _ (bitMask_refused hn))
  · exact (finish_bind_ok _ hv).trans (finish_bind_refused _ (bitMask_refused hn))

end

/-- Settles O46: each of these instructions comes to the check of its number, range or frame after its reads and
stops there, before any store. -/
theorem numbersOutOfRangeAreRefused : Obligations.NumbersOutOfRangeAreRefused := by
  refine ⟨fun s r op n hv => refused_number hv, fun s r op w d v m hfits => ?_, fun s hsys =>
    ⟨exec_iret_intrFault hsys, fun m hnested hm hne => exec_iret_marker hsys hnested hm hne⟩⟩
  have hrange := fittingRange_refused hfits
  refine ⟨fun hw hd => ?_, fun ha hd hm => ?_, fun hw hd hdata => ?_, fun ha hd hdata hm => ?_⟩
  · exact (finish_bind_ok _ hw).trans <| (finish_bind_ok _ hd).trans (finish_bind_refused _ hrange)
  · exact (finish_bind_ok _ ha).trans <| (finish_bind_ok _ hd).trans <|
      (finish_bind_ok _ hm).trans (finish_bind_refused _ hrange)
  · exact (finish_bind_ok _ hw).trans <| (finish_bind_ok _ hd).trans <|
      (finish_bind_ok _ hdata).trans (finish_bind_refused _ hrange)
  · exact (finish_bind_ok _ ha).trans <| (finish_bind_ok _ hd).trans <|
      (finish_bind_ok _ hdata).trans <| (finish_bind_ok _ hm).trans (finish_bind_refused _ hrange)

end Sys2Proof.Machine
end

section
/-! PROOF. O36 to O38: bit ranges (R140 to R146). A descriptor's mask is known bit by bit; extraction, deposit and
the laws that join them follow bit by bit. An instruction, its operands read, is one store. -/

namespace Sys2Proof.Machine

/-! ### The range of a descriptor, bit by bit -/

section
variable {w d v : Word}

/-- No range is longer than a word (R140). -/
theorem rangeLen_le (d : Word) : rangeLen d ≤ 32 := by
  unfold rangeLen
  split <;> omega

/-- The length as R140 has it: the field, 32 where the field is zero. -/
theorem rangeLen_eq_field (d : Word) :
    rangeLen d = if d.extractLsb' 0 5 = 0 then 32 else (d.extractLsb' 0 5).toNat :=
  if_congr (BitVec.toNat_eq (y := 0)).symm rfl rfl

theorem rangeFits_iff : rangeFits d = true ↔ rangeShift d + rangeLen d ≤ 32 := decide_eq_true_iff

/-- The mask has the low `len` bits. -/
theorem getLsbD_rangeMask (d : Word) (i : Nat) :
    (rangeMask d).getLsbD i = decide (i < rangeLen d) := by
  have hlen := rangeLen_le d
  rw [rangeMask, BitVec.getLsbD_ofNat, Nat.testBit_two_pow_sub_one]
  by_cases hi : i < rangeLen d
  · simp [hi, show i < 32 by omega]
  · simp [hi]

/-- Extraction right-aligns the range and fills with zeros (R141). -/
theorem getLsbD_extractRange (w d : Word) (i : Nat) :
    (extractRange w d).getLsbD i = (decide (i < rangeLen d) && w.getLsbD (rangeShift d + i)) := by
  rw [extractRange, BitVec.getLsbD_and, BitVec.getLsbD_ushiftRight, getLsbD_rangeMask, Bool.and_comm]

/-- Deposit takes the range's bits from the value, every other from the word (R142). -/
theorem getLsbD_depositRange (w d v : Word) {i : Nat} (hi : i < 32) :
    (depositRange w d v).getLsbD i =
      if rangeShift d ≤ i ∧ i < rangeShift d + rangeLen d then v.getLsbD (i - rangeShift d)
      else w.getLsbD i := by
  simp only [depositRange, BitVec.getLsbD_or, BitVec.getLsbD_and, BitVec.getLsbD_not,
    BitVec.getLsbD_shiftLeft, getLsbD_rangeMask]
  split
  next hin => simp [hi, show ¬ i < rangeShift d by omega, show i - rangeShift d < rangeLen d by omega]
  next hout =>
    by_cases hbelow : i < rangeShift d
    · simp [hi, hbelow]
    · simp [hi, show ¬ i - rangeShift d < rangeLen d by omega]

/-- What was deposited is extracted again, cut to the range: a range that fits loses none of its bits. -/
theorem extractRange_depositRange (w v : Word) (hfits : rangeFits d = true) :
    extractRange (depositRange w d v) d = v &&& rangeMask d := by
  have hend := rangeFits_iff.mp hfits
  apply BitVec.eq_of_getLsbD_eq
  intro i _
  rw [getLsbD_extractRange, BitVec.getLsbD_and, getLsbD_rangeMask]
  by_cases hi : i < rangeLen d
  · rw [getLsbD_depositRange w d v (by omega : rangeShift d + i < 32)]
    simp [hi]
  · simp [hi]

/-- A range put back where it was extracted changes nothing. -/
theorem depositRange_extractRange (w d : Word) : depositRange w d (extractRange w d) = w := by
  apply BitVec.eq_of_getLsbD_eq
  intro i hi
  rw [getLsbD_depositRange w d _ hi]
  split
  next hin =>
    have hback : rangeShift d + (i - rangeShift d) = i := by omega
    simp [getLsbD_extractRange, hback, show i - rangeShift d < rangeLen d by omega]
  next => rfl

end

/-- Settles O38: the descriptor's fields by definition, extraction and deposit bit by bit, then the laws. -/
theorem bitRangeLaws : Obligations.BitRangeLaws :=
  fun w d v => ⟨⟨rfl, rangeLen_eq_field d⟩, rangeFits_iff, fun hfits =>
    ⟨getLsbD_extractRange w d, fun _ hi => getLsbD_depositRange w d v hi,
      extractRange_depositRange w v hfits, depositRange_extractRange w d⟩⟩

/-! ### How a store ends an instruction -/

section
variable {s : State}

/-- An instruction that ends in a store to an operand. -/
theorem finish_storeOperand {dest : Operand} (v : Word) (hready : Ready s) (hdest : CanStore s dest) :
    ∃ t, finish s ((storeOperand s dest v).bind fun u => .ok u.advance) = .next t ∧
      t.pc = s.pc + 1 ∧ t.flags = s.flags ∧ WroteTo dest v s t := by
  obtain ⟨hr, htimer⟩ := hready
  obtain ⟨u, hstore, hflags, hsame, hpc, hwrote⟩ := stored_ticked v (s.pc + 1) hdest
  obtain ⟨t, hnext, hticked⟩ :=
    complete_ticked (u := u.setPc (s.pc + 1)) (by simpa [hflags]) (by simpa [hsame])
  refine ⟨t, ?_, hwrote t hticked⟩
  rw [finish_bind_ok _ hstore, State.advance, hpc]
  exact hnext

/-- An instruction that ends in a store to memory. -/
theorem finish_memWrite {a pa : Word} (v : Word) (hready : Ready s) (htarget : target s a = .ok pa) :
    ∃ t, finish s ((memWrite s a v).bind fun u => .ok u.advance) = .next t ∧
      t.pc = s.pc + 1 ∧ OnlyWord pa s t ∧ t.word pa.toNat = some v := by
  obtain ⟨t, hnext, hticked⟩ :=
    complete_ticked (u := (s.poke pa v).setPc (s.pc + 1)) hready.1 hready.2
  exact ⟨t, (finish_bind_ok _ (memWrite_of v htarget)).trans hnext, hticked.onlyWord⟩

/-- An address that can be read can be stored to, at its translation. -/
theorem target_of_memRead {a pa w : Word} (hread : memRead s a = .ok w)
    (htranslate : translate s a = .ok pa) : target s a = .ok pa := by
  rw [memRead, htranslate, bind_ok] at hread
  rw [target, htranslate, bind_ok, if_pos (physRead_eq_ok hread).1]

end

/-! ### The instructions, once their operands are read -/

section
variable {s : State} {r : Reg} {op : Operand} {a w d v : Word}

theorem exec_exbr (hw : val s (placeOperand r op s.cfg.roles.exbr.word) = .ok w)
    (hd : val s (placeOperand r op s.cfg.roles.exbr.desc) = .ok d) (hfits : rangeFits d = true) :
    exec (.exbr r op) s =
      finish s ((storeOperand s (placeOperand r op s.cfg.roles.exbr.data) (extractRange w d)).bind
        fun t => .ok t.advance) :=
  (finish_bind_ok _ hw).trans <| (finish_bind_ok _ hd).trans (finish_bind_ok _ (fittingRange_ok hfits))

theorem exec_exbrv (ha : val s (placeOperand r op s.cfg.roles.exbrv.word) = .ok a)
    (hd : val s (placeOperand r op s.cfg.roles.exbrv.desc) = .ok d) (hfits : rangeFits d = true)
    (hw : memRead s (a + rangeSkip d) = .ok w) :
    exec (.exbrv r op) s =
      finish s ((storeOperand s (placeOperand r op s.cfg.roles.exbrv.data) (extractRange w d)).bind
        fun t => .ok t.advance) :=
  (finish_bind_ok _ ha).trans <| (finish_bind_ok _ hd).trans <| (finish_bind_ok _ hw).trans
    (finish_bind_ok _ (fittingRange_ok hfits))

theorem exec_dpbr (hw : val s (placeOperand r op s.cfg.roles.dpbr.word) = .ok w)
    (hd : val s (placeOperand r op s.cfg.roles.dpbr.desc) = .ok d) (hfits : rangeFits d = true)
    (hv : val s (placeOperand r op s.cfg.roles.dpbr.data) = .ok v) :
    exec (.dpbr r op) s =
      finish s ((storeOperand s (placeOperand r op s.cfg.roles.dpbr.word) (depositRange w d v)).bind
        fun t => .ok t.advance) :=
  (finish_bind_ok _ hw).trans <| (finish_bind_ok _ hd).trans <| (finish_bind_ok _ hv).trans
    (finish_bind_ok _ (fittingRange_ok hfits))

theorem exec_dpbrv (ha : val s (placeOperand r op s.cfg.roles.dpbrv.word) = .ok a)
    (hd : val s (placeOperand r op s.cfg.roles.dpbrv.desc) = .ok d) (hfits : rangeFits d = true)
    (hv : val s (placeOperand r op s.cfg.roles.dpbrv.data) = .ok v)
    (hw : memRead s (a + rangeSkip d) = .ok w) :
    exec (.dpbrv r op) s =
      finish s ((memWrite s (a + rangeSkip d) (depositRange w d v)).bind fun t => .ok t.advance) :=
  (finish_bind_ok _ ha).trans <| (finish_bind_ok _ hd).trans <| (finish_bind_ok _ hv).trans <|
    (finish_bind_ok _ hw).trans (finish_bind_ok _ (fittingRange_ok hfits))

end

/-- Settles O36: each instruction is a store of the extracted range in the place of its data. -/
theorem extractInstructionsStoreTheRange : Obligations.ExtractInstructionsStoreTheRange := by
  refine ⟨fun s r op w d hready hw hd hfits hdest => ?_,
    fun s r op a w d hready ha hd hfits hw hdest => ?_⟩
  · rw [exec_exbr hw hd hfits]
    exact finish_storeOperand _ hready hdest
  · rw [exec_exbrv ha hd hfits hw]
    exact finish_storeOperand _ hready hdest

/-- Settles O37: DPBR is a store in the place of its word, DPBRV one to the address it has just read. -/
theorem depositInstructionsReplaceTheRange : Obligations.DepositInstructionsReplaceTheRange := by
  refine ⟨fun s r op w d v hready hw hd hfits hv hdest => ?_,
    fun s r op a w d v pa hready ha hd hfits hv hw htranslate => ?_⟩
  · rw [exec_dpbr hw hd hfits hv]
    exact finish_storeOperand _ hready hdest
  · rw [exec_dpbrv ha hd hfits hv hw]
    exact finish_memWrite _ hready (target_of_memRead hw htranslate)

end Sys2Proof.Machine
end

section
/-! PROOF. O19, O20, O22 to O25: the general instructions (R150 to R156). Each, its operand read, is one register
write, one store or one push; INC and `PUSH SP` also draw free values, of which its frame says nothing. -/

namespace Sys2Proof.Machine

section
variable {s t : State} {op : Operand} {a pa v : Word}

/-! ### LOAD and RET: one register written -/

theorem exec_load {r : Reg} (hv : val s op = .ok v) :
    exec (.load r op) s = finish s (.ok (s.setReg r v).advance) :=
  finish_bind_ok _ hv

/-- The pop of RET writes SP, the word it pops the pc. -/
theorem exec_ret (hread : memRead s s.sp = .ok a) :
    exec .ret s = finish s (.ok ((s.setReg .sp (s.sp + 1)).setPc a)) := by
  have hpop : pop s = .ok (a, s.setReg .sp (s.sp + 1)) := by
    rw [pop, hread, bind_ok]
    rfl
  exact finish_bind_ok _ hpop

/-- An instruction that writes one register and jumps. -/
theorem finish_setReg_setPc (r : Reg) (v p : Word) (hready : Ready s) :
    ∃ t, finish s (.ok ((s.setReg r v).setPc p)) = .next t ∧ t.getReg r = v ∧ t.pc = p ∧
      OnlyReg r s t := by
  obtain ⟨hr, htimer⟩ := hready
  obtain ⟨t, hnext, hticked⟩ := complete_ticked (u := (s.setReg r v).setPc p) (by simpa) (by simpa)
  exact ⟨t, hnext, hticked.onlyReg⟩

/-! ### INC: a store, and two free flags -/

/-- Z and N are written with free bits (U7). -/
theorem freeZN_eq (s : State) : ∃ z n draws,
    freeZN s = (s.setFlags (s.flags.setZN z n)).setDraws draws :=
  ⟨_, _, _, rfl⟩

/-- Flags written before the tick can be put back after it. -/
theorem Ticked.setFlags_back {f : Flags} (h : Ticked (s.setFlags f) t) :
    Ticked s (t.setFlags s.flags) :=
  ⟨h.gpr, h.pc, rfl, h.mem, h.world, h.cfg, h.nesting, h.sr⟩

/-- `WroteTo` leaves the flags open: all it needs of them is the mode, which selects the bank of SP and FP. -/
theorem WroteTo.of_setFlags {f : Flags} (h : WroteTo op v s (t.setFlags f))
    (hsys : t.flags.sys = f.sys) : WroteTo op v s t := by
  have hreg (q : Reg) : t.getReg q = (t.setFlags f).getReg q :=
    getReg_congr (s := t.setFlags f) (t := t) rfl hsys ⟨rfl, rfl, rfl, rfl⟩ q
  exact {
    controls := h.controls
    world := h.world
    launch := h.launch
    timer := h.timer
    nesting := h.nesting
    register := fun q hq => (hreg q).trans (h.register q hq)
    word := h.word
    others := fun q hq => (hreg q).trans (h.others q hq)
    otherBank := h.otherBank
    memory := h.memory }

/-- An instruction that ends in a store to an operand and leaves Z and N free. -/
theorem finish_storeOperand_freeZN (v : Word) (hready : Ready s) (hdest : CanStore s op) :
    ∃ t, finish s ((storeOperand s op v).bind fun u => .ok (freeZN u).advance) = .next t ∧
      t.pc = s.pc + 1 ∧ SameButZN s.flags t.flags ∧ WroteTo op v s t := by
  obtain ⟨hr, htimer⟩ := hready
  obtain ⟨u, hstore, hflags, hsame, hpc, hwrote⟩ := stored_ticked v (s.pc + 1) hdest
  obtain ⟨z, n, draws, hfree⟩ := freeZN_eq u
  obtain ⟨t, hnext, hticked⟩ := complete_ticked
    (u := (((u.setPc (s.pc + 1)).setFlags (u.flags.setZN z n)).setDraws draws))
    (by simpa [Flags.setZN, hflags]) (by simpa [hsame])
  have htflags : t.flags = s.flags.setZN z n := by
    rw [hticked.flags, setDraws_flags, setFlags_flags, hflags]
  obtain ⟨htpc, -, hw⟩ := hwrote _ hticked.of_setDraws.setFlags_back
  refine ⟨t, ?_, htpc, ?_, hw.of_setFlags ?_⟩
  · rw [finish_bind_ok _ hstore, hfree, State.advance, setDraws_pc, setFlags_pc, hpc]
    exact hnext
  · rw [htflags]
    exact ⟨rfl, rfl, rfl, rfl, rfl⟩
  · rw [htflags, setPc_flags, hflags]
    rfl

theorem exec_inc (hv : val s op = .ok v) :
    exec (.inc op) s =
      finish s ((storeOperand s op (v + 1)).bind fun u => .ok (freeZN u).advance) :=
  finish_bind_ok _ hv

/-! ### PUSH and CALL: a word pushed -/

/-- A push to an address that exists succeeds, and the instruction that then sets the pc completes. -/
theorem push_completes (v p : Word) (hready : Ready s) (htarget : target s (s.sp - 1) = .ok pa) :
    ∃ u t, push s v = .ok u ∧ u.pc = s.pc ∧ complete (u.setPc p) = .next t ∧ t.pc = p ∧
      PushedWord pa v s t := by
  obtain ⟨hr, htimer⟩ := hready
  obtain ⟨u, hpush, hflags, hsame, hpc, hpushed⟩ := pushed_ticked v p htarget
  obtain ⟨t, hnext, hticked⟩ :=
    complete_ticked (u := u.setPc p) (by simpa [hflags]) (by simpa [hsame])
  exact ⟨u, t, hpush, hpc, hnext, hpushed t hticked⟩

/-- `PushedWord` leaves the count of free values open, before as after. -/
theorem PushedWord.of_setDraws {n : Nat} (h : PushedWord pa v (s.setDraws n) t) :
    PushedWord pa v s t :=
  ⟨⟨h.controls, h.world, h.launch, h.timer, h.nesting⟩, h.pointer, h.word, h.others, h.otherBank,
    h.flags, h.memory⟩

theorem pushValue_of_val (hne : op ≠ .reg .sp) (hv : val s op = .ok v) :
    pushValue s op = .ok (v, s) := by
  rw [pushValue, if_neg hne, hv, bind_ok]

/-- `PUSH SP` takes SP from before or after the decrement, by a free bit (U6, log entry 17). -/
theorem pushValue_sp (s : State) : ∃ v n,
    pushValue s (.reg .sp) = .ok (v, s.setDraws n) ∧ (v = s.sp ∨ v = s.sp - 1) :=
  ⟨_, _, rfl, ite_eq_or_eq ..⟩

/-- PUSH of a value taken with or without a free choice. -/
theorem exec_push_of_pushValue {n : Nat} (hready : Ready s) (htarget : target s (s.sp - 1) = .ok pa)
    (hvalue : pushValue s op = .ok (v, s.setDraws n)) :
    ∃ t, exec (.push op) s = .next t ∧ t.pc = s.pc + 1 ∧ PushedWord pa v s t := by
  have hdrawn : target (s.setDraws n) ((s.setDraws n).sp - 1) = .ok pa :=
    (target_congr (s.sp - 1) rfl rfl rfl rfl rfl).trans htarget
  obtain ⟨u, t, hpush, hpc, hnext, htpc, hpushed⟩ :=
    push_completes (s := s.setDraws n) v (s.pc + 1) hready hdrawn
  refine ⟨t, ?_, htpc, hpushed.of_setDraws⟩
  rw [← hnext, ← setDraws_pc s n, ← hpc]
  exact (finish_bind_ok _ hvalue).trans (finish_bind_ok _ hpush)

end

/-- Settles O19: LOAD writes one register, with the value of its operand. -/
theorem loadWritesItsRegister : Obligations.LoadWritesItsRegister := by
  intro s r op v hready hv
  rw [exec_load hv]
  exact finish_setReg r v hready

/-- Settles O20: STORE is a store of its register to its operand. -/
theorem storeWritesItsOperand : Obligations.StoreWritesItsOperand :=
  fun s r _ hready hdest => finish_storeOperand (s.getReg r) hready hdest

/-- Settles O22: the value is the operand's, or for SP one of the two of the free choice; then it is one push. -/
theorem pushStoresAtTheLoweredStackPointer : Obligations.PushStoresAtTheLoweredStackPointer := by
  refine fun s op pa hready htarget => ⟨fun v hne hv => ?_, ?_⟩
  · exact exec_push_of_pushValue (n := s.draws) hready htarget (pushValue_of_val hne hv)
  · rintro rfl
    obtain ⟨v, n, hvalue, hchoice⟩ := pushValue_sp s
    obtain ⟨t, hexec, hpc, hpushed⟩ := exec_push_of_pushValue hready htarget hvalue
    exact ⟨t, v, hexec, hpc, hchoice, hpushed⟩

/-- Settles O23: INC is a store of the operand's value and one, with Z and N left to free bits. -/
theorem incAddsOneToItsOperand : Obligations.IncAddsOneToItsOperand := by
  intro s op v hready hv hdest
  rw [exec_inc hv]
  exact finish_storeOperand_freeZN (v + 1) hready hdest

/-- Settles O24: the target is read first, then the next address is pushed and the pc set to the target. -/
theorem callPushesTheReturnAddressAndJumps : Obligations.CallPushesTheReturnAddressAndJumps := by
  intro s op a pa hready hv htarget
  obtain ⟨u, t, hpush, -, hnext, hends⟩ := push_completes (s.pc + 1) a hready htarget
  exact ⟨t, (finish_bind_ok _ hv).trans ((finish_bind_ok _ hpush).trans hnext), hends⟩

/-- Settles O25: RET writes SP, one higher, and the pc, with the word SP pointed to. -/
theorem retPopsTheProgramCounter : Obligations.RetPopsTheProgramCounter := by
  intro s a hready hread
  obtain ⟨t, hnext, hsp, hpc, honly⟩ := finish_setReg_setPc .sp (s.sp + 1) a hready
  exact ⟨t, (exec_ret hread).trans hnext, hpc, hsp, honly⟩

end Sys2Proof.Machine
end

section
/-! PROOF. O39 to O41, O43 to O45: the system instructions (R170 to R176). The words SYSCALL pushes stand below the
system stack pointer, IRET's restored frame is one update of each field, and an instruction that user mode may not
run is its exception and nothing else. -/

namespace Sys2Proof.Machine

/-! ### How an instruction ends whose TIMER takes no interrupt -/

/-- The TIMER register counted down by a CPU that runs, and left by one that has halted (R294, R298). -/
def State.counted (s : State) : State :=
  s.setSpecials { s.sr with timer := if s.flags.r then afterTick s.sr.timer else s.sr.timer }

theorem countDown_eq_counted {s : State} (hr : s.flags.r = true) (h0 : s.sr.timer ≠ 0) :
    s.countDown = s.counted := by
  rw [State.counted, if_pos hr, afterTick_ne h0]
  rfl

/-- With IP on TIMER may expire with the instruction: the notification is ignored (R271). -/
theorem complete_expired_masked {s : State} (hr : s.flags.r = true) (hip : s.flags.ip = true)
    (htimer : s.sr.timer = 1) : complete s = .next s.countDown := by
  have hignored : signal s.countDown .timer none none s.pc = .ignored := signal_masked hip
  simp [complete, hr, htimer, hignored]

/-- Where TIMER does not expire, or IP masks its expiry, the instruction's end is the count alone. -/
theorem complete_eq_counted {s : State} (h : s.sr.timer ≠ 1 ∨ s.flags.ip = true) :
    complete s = .next s.counted := by
  cases hr : s.flags.r with
  | false =>
    rw [complete_halted hr, State.counted, hr]
    rfl
  | true =>
    by_cases htimer : s.sr.timer = 1
    · have hip := h.resolve_left (absurd htimer)
      rw [complete_expired_masked hr hip htimer, countDown_eq_counted hr (by simp [htimer])]
    · rw [complete_quiet hr htimer]
      split
      next h0 =>
        rw [State.counted, if_pos hr, h0, afterTick_zero, ← h0]
        rfl
      next h0 => rw [countDown_eq_counted hr h0]

/-! ### SYSCALL -/

/-- In `u` the words `vs` have been pushed on the system stack of `s`, in system mode with IP on, the first at the
highest address. -/
structure PushedBelow (vs : List Word) (s u : State) : Prop extends Pushes s.entering u where
  sysSP : u.sr.sysSP = below s vs.length
  word : ∀ (i : Nat) (w : Word), vs[i]? = some w → u.word (slot s (i + 1)).toNat = some w
  memory : SameMemoryBelow vs.length s u

/-- Where the stack has room the pushes are all done, however many free values were drawn before them. -/
theorem pushAll_room {s : State} {vs : List Word} (draws : Nat) (room : SystemStackRoom vs.length s) :
    ∃ u, pushAll vs (s.setDraws draws).entering = .done u ∧ PushedBelow vs s u := by
  have hreads (a : Word) : walkReads (s.setDraws draws).entering a = walkReads s a :=
    walkReads_agree rfl rfl rfl fun _ _ => rfl
  have htarget (a : Word) : target (s.setDraws draws).entering a = target s.entering a :=
    target_congr a rfl rfl rfl rfl rfl
  obtain ⟨u, hdone, hpushes, hsp, hword, hmemory⟩ :=
    pushAll_slots vs (s := (s.setDraws draws).entering) (p := slot s) rfl fun k h1 hk => by
      rw [htarget, hreads]
      exact room k h1 hk
  refine ⟨u, hdone, (pushes_setDraws s.entering draws).trans hpushes, hsp, fun i w hw => ?_, hmemory⟩
  obtain ⟨hi, hget⟩ := List.getElem?_eq_some_iff.1 hw
  rw [hword i hi, hget]

/-- The words SYSCALL pushes (R170). -/
def callWords (s : State) (spSlot : Word) : List Word :=
  savedRegs s spSlot (s.pc + 1) ++ [s.flags.toWord, 40]

theorem callWords_length (s : State) (spSlot : Word) : (callWords s spSlot).length = 18 := by
  simp [callWords, savedRegs_length]

/-- A word of memory outside what was pushed is read as before. -/
theorem PushedBelow.physRead_eq {vs : List Word} {s u : State} {pa w : Word} (h : PushedBelow vs s u)
    (hread : physRead s pa = .ok w)
    (hout : ∀ k : Nat, 1 ≤ k → k ≤ vs.length → pa.toNat ≠ (slot s k).toNat) :
    physRead u pa = .ok w :=
  (physRead_agree h.launch (h.memory _ hout)).trans hread

/-- SYSCALL's actions, its pushes done and the gate then read. -/
theorem enterCall_of_pushed {s u : State} {i gate : Word}
    (hdone : pushAll (callWords s (drawSpSlot s).1) (drawSpSlot s).2.entering = .done u)
    (hread : physRead u (u.sr.cgbr + i) = .ok gate) :
    enterCall s i = .ok ((u.setFaultNesting (nestingOnCall s)).setPc gate) := by
  rw [callWords] at hdone
  simp only [enterCall, hdone, hread, orFatal, bind_ok]

/-- SYSCALL's actions, where the frame has room and the gate stands outside it. -/
theorem enterCall_whole {s : State} {i gate : Word} (room : SystemStackRoom 18 s)
    (hgate : physRead s (s.sr.cgbr + i) = .ok gate)
    (hout : ∀ k : Nat, 1 ≤ k → k ≤ 18 → (s.sr.cgbr + i).toNat ≠ (slot s k).toNat) :
    ∃ u, enterCall s i = .ok ((u.setFaultNesting (nestingOnCall s)).setPc gate) ∧
      PushedBelow (callWords s (drawSpSlot s).1) s u := by
  have hlength := callWords_length s (drawSpSlot s).1
  obtain ⟨u, hdone, hpushed⟩ := pushAll_room (vs := callWords s (drawSpSlot s).1) (s.draws + 1)
    (hlength.symm ▸ room)
  have hread : physRead u (u.sr.cgbr + i) = .ok gate := by
    obtain ⟨-, -, hcgbr, -, -⟩ := hpushed.controls
    rw [hcgbr]
    exact hpushed.physRead_eq hgate (hlength.symm ▸ hout)
  exact ⟨u, enterCall_of_pushed hdone hread, hpushed⟩

/-- The frame of SYSCALL, word by word, in the state the instruction ends in. -/
theorem PushedBelow.callEntered {s u : State} {gate : Word} (hr : s.flags.r = true)
    (h : PushedBelow (callWords s (drawSpSlot s).1) s u) :
    CallEntered s ((u.setFaultNesting (nestingOnCall s)).setPc gate).counted gate := by
  obtain ⟨hregs, hspSlot, hfp, hpc, hrest⟩ :=
    savedRegs_get s (drawSpSlot s).1 (s.pc + 1) [s.flags.toWord, 40]
  have hlength := callWords_length s (drawSpSlot s).1
  have hslotWord := h.word _ _ hspSlot
  have hrunning : u.flags.r = true := h.flags ▸ hr
  exact {
    controls := h.controls
    world := h.world
    launch := h.launch
    timer := (if_pos hrunning).trans (congrArg afterTick h.timer)
    nesting := rfl
    regs := fun k => h.word _ _ (hregs k)
    spSlot := (drawSpSlot_value s).imp (fun e => hslotWord.trans (congrArg some e))
      (fun e => hslotWord.trans (congrArg some e))
    fp := h.word _ _ hfp
    returnPc := h.word _ _ hpc
    oldflags := h.word 16 _ (hrest 0)
    marker := h.word 17 _ (hrest 1)
    memory := hlength ▸ h.memory
    gpr := h.gpr
    flags := h.flags
    sysSP := hlength ▸ h.sysSP
    sysFP := h.sysFP
    user := h.user
    target := rfl }

theorem badCall_iff {s : State} {i : Word} :
    badCall s i = true ↔ i.toInt < 0 ∨ s.sr.cglen.toInt ≤ i.toInt := by
  simp [badCall]

theorem exec_syscall_good {s : State} {op : Operand} {i : Word} (hv : val s op = .ok i)
    (hlow : 0 ≤ i.toInt) (hhigh : i.toInt < s.sr.cglen.toInt) :
    exec (.syscall op) s = finish s (enterCall s i) :=
  (finish_bind_ok _ hv).trans <| congrArg (finish s) <|
    if_neg fun hbad => (badCall_iff.1 hbad).elim hlow.not_gt hhigh.not_ge

theorem exec_syscall_bad {s : State} {op : Operand} {i : Word} (hv : val s op = .ok i)
    (hbad : i.toInt < 0 ∨ s.sr.cglen.toInt ≤ i.toInt) :
    exec (.syscall op) s = takeException s .badcall (some s.pc) (some i) :=
  (finish_bind_ok _ hv).trans <| congrArg (finish s) <| if_pos (badCall_iff.2 hbad)

/-- Settles O39: the frame has room and the gate is read behind it; IP is then on, so TIMER only counts. -/
theorem syscallEntersTheCallGate : Obligations.SyscallEntersTheCallGate := by
  intro s op i gate hr hv hlow hhigh room hgate hout
  obtain ⟨u, hentered, hpushed⟩ := enterCall_whole room hgate hout
  have hmasked : u.flags.ip = true := hpushed.flags ▸ rfl
  refine ⟨_, ?_, hpushed.callEntered hr⟩
  rw [exec_syscall_good hv hlow hhigh, hentered]
  exact complete_eq_counted (.inr hmasked)

/-- Settles O40: the index raises BADCALL before anything is pushed. -/
theorem badSyscallIndexEntersItsHandler : Obligations.BadSyscallIndexEntersItsHandler := by
  intro s op i h hv hbad hready
  rw [exec_syscall_bad hv hbad]
  exact takeException_whole _ _ hready

/-! ### IRET -/

/-- In system mode the frame is taken off the system stack, and its FP goes to the system bank. -/
theorem restoreFrame_system {s : State} (ws : List Word) (hsys : s.flags.sys = true) :
    restoreFrame s ws =
      ((((s.setSpecials { s.sr with sysSP := s.sr.sysSP + 21, sysFP := ws.getD 5 0 }).setGpr
        (Vector.ofFn fun k : Fin 13 => ws.getD (19 - k.val) 0)).setFlags
        (Flags.ofWord (ws.getD 0 0))).setPc (ws.getD 4 0)).setFaultNesting
        (s.faultNesting.map (· - 1)) := by
  simp only [restoreFrame, State.setSP, State.setFP, State.sp, setGpr_flags, setSpecials_flags, hsys,
    if_true]
  rfl

/-- A list read starts with the word at its address. -/
theorem readWords_cons {s : State} {a w : Word} {n : Nat} {ws : List Word}
    (h : readWords s a (n + 1) = .ok (w :: ws)) :
    memRead s a = .ok w ∧ readWords s (a + 1) n = .ok ws := by
  obtain ⟨v, hv, hbind⟩ := bind_eq_ok h
  obtain ⟨vs, hvs, hcons⟩ := bind_eq_ok hbind
  cases hcons
  exact ⟨hv, hvs⟩

theorem exec_iret {s : State} {ws : List Word} (hsys : s.flags.sys = true)
    (hframe : readWords s s.sp 21 = .ok (40 :: ws)) (hnesting : s.faultNesting ≠ some 0) :
    exec .iret s = complete (restoreFrame s ws) := by
  obtain ⟨hmarker, hwords⟩ := readWords_cons hframe
  have hrestored : returnFromInterrupt s = .ok (restoreFrame s ws) := by
    rw [returnFromInterrupt, if_neg hnesting, hmarker, hwords]
    rfl
  exact congrArg (finish s) ((privileged_system _ hsys).trans hrestored)

/-- Settles O41: the frame's words, each in its place, then the count if R is restored as 1. -/
theorem iretRestoresTheFrame : Obligations.IretRestoresTheFrame := by
  intro s ws hready hsys hframe hnesting
  have hquiet : (restoreFrame s ws).sr.timer ≠ 1 := by
    rw [restoreFrame_system ws hsys]
    exact hready.2
  refine ⟨_, (exec_iret hsys hframe hnesting).trans (complete_eq_counted (.inl hquiet)), ?_⟩
  rw [restoreFrame_system ws hsys]
  exact ⟨rfl, flagsAre_ofWord _, fun k => Vector.getElem_ofFn _, rfl, rfl, rfl, rfl,
    ⟨rfl, rfl, rfl, rfl, rfl⟩, fun _ => rfl, rfl, rfl, rfl, rfl⟩

/-! ### HALT -/

theorem exec_halt_system {s : State} (hsys : s.flags.sys = true) :
    exec .halt s = .next ((s.setFlags s.flags.halted).setPc (s.pc + 1)) :=
  (congrArg (finish s) (if_pos hsys)).trans (complete_halted rfl)

theorem exec_halt_user {s : State} (hsys : s.flags.sys = false) :
    exec .halt s = takeException s .halt (some s.pc) none :=
  congrArg (finish s) (if_neg (by simp [hsys]))

theorem get_halted {f : Flags} {q : Flag} (hq : q ≠ .r) : f.halted.get q = f.get q := by
  cases q with
  | r => exact absurd rfl hq
  | z | n | err | sys | ip | vm => rfl

/-- Settles O43: system mode clears R, and a halted CPU does not count; user mode takes the exception, whose entry
leaves R. -/
theorem haltStopsOnlySystemMode : Obligations.HaltStopsOnlySystemMode := by
  refine ⟨fun s hsys => ?_, fun s h hsys hready => ?_⟩
  · exact ⟨_, exec_halt_system hsys, rfl, onlyHalted_of s _ _ rfl, fun q hq => get_halted hq⟩
  · obtain ⟨t, htaken, hentered⟩ := takeException_whole (some s.pc) none hready
    exact ⟨t, (exec_halt_user hsys).trans htaken, by rw [hentered.flags]; rfl, hentered⟩

/-! ### Privileged instructions -/

/-- In user mode a privileged instruction raises PRIVOP with its own address, its operands not read (R176). -/
theorem exec_privileged_user {s : State} {i : Instr} (hsys : s.flags.sys = false)
    (hi : privilegedInstr i = true) : exec i s = takeException s .privop (some s.pc) none := by
  cases i with
  | setsr | flagsj | iret | phload | phstore | clrpp | peri =>
    exact congrArg (finish s) (privileged_user _ hsys)
  | getsr | getfl | setfl | comp | compz | jcond | sbit | cbit | exbr | dpbr | exbrv | dpbrv | load | store
  | push | inc | call | ret | syscall | halt => cases hi

/-- In user mode SETFL of a protected flag raises PRIVOP, whatever value it would write (R44, R123). -/
theorem exec_setfl_user {s : State} {r : Reg} {op : Operand} {n : Word} {k : Flag}
    (hsys : s.flags.sys = false) (hv : val s op = .ok n) (hk : flagOf n = some k)
    (hprotected : flagProtected k = true) :
    exec (.setfl r op) s = takeException s .privop (some s.pc) none :=
  (finish_bind_ok _ hv).trans <| (finish_bind_ok _ (flagNumbered_ok hk)).trans <|
    congrArg (finish s) (if_pos (by simp [hsys, hprotected]))

/-- Settles O44: each is its exception, which enters the handler that stands ready. -/
theorem privilegedInstructionsTrapInUserMode : Obligations.PrivilegedInstructionsTrapInUserMode := by
  refine fun s h hsys hready => ⟨fun i hi => ?_, fun r op n k hv hk hnamed => ?_⟩
  · rw [exec_privileged_user hsys hi]
    exact takeException_whole _ _ hready
  · have hprotected : flagProtected k = true := by
      rcases hnamed with rfl | rfl | rfl | rfl <;> rfl
    rw [exec_setfl_user hsys hv hk hprotected]
    exact takeException_whole _ _ hready

/-- Settles O45: all three are privileged, and in system mode nothing but their refusal. -/
theorem undescribedInstructionsAreRefused : Obligations.UndescribedInstructionsAreRefused := by
  refine fun s r op => ⟨fun hsys => ?_, fun hsys => ?_⟩
  · have hruns (x : Res State) : finish s (privileged s x) = finish s x :=
      congrArg (finish s) (privileged_system x hsys)
    exact ⟨hruns _, hruns _, hruns _⟩
  · exact ⟨exec_privileged_user hsys rfl, exec_privileged_user hsys rfl,
      exec_privileged_user hsys rfl⟩

end Sys2Proof.Machine
end

section
/-! PROOF. O51, O52: how any PERI ends (R190 to R195). An operation that gives a result ends its PERI with it; what
is left is which results the words of the control structure give. -/

namespace Sys2Proof.Machine

/-- An operation that leaves memory ends a PERI that does, with the world as the operation left it. -/
theorem exec_peri_world {s u : State} {r : Reg} {op : Operand} {cs result : Word} {o : PeriOp} {w : World}
    (h : PeriReady s op cs o) (hp : runPeriOp o cs s = .ok (result, u)) (hm : u.mem = s.mem)
    (hw : u.world = w) :
    ∃ t, exec (.peri r op) s = .next t ∧ SameMemory s t ∧ PeriEnded r result w s t := by
  obtain ⟨t, hexec, hended, hmem⟩ := exec_peri_ready (r := r) h hp
  exact ⟨t, hexec, sameMemory_of_mem (hmem.trans hm), hw ▸ hended⟩

/-- A control structure whose operation answers an error code and changes nothing (R191 to R195). -/
theorem periFails_of_operation {s : State} {r : Reg} {op : Operand} {cs : Word} {code : Int} (hs : Ready s)
    (hsys : s.flags.sys = true) (hv : val s op = .ok cs)
    (hp : periOperation cs s = answer (BitVec.ofInt 32 code) s) : PeriFails s r op code := by
  obtain ⟨t, hexec, hended, hmem⟩ := exec_peri_ended (r := r) hs hsys hv hp
  exact ⟨t, hexec, sameMemory_of_mem hmem, hended⟩

/-- A first word of the control structure that cannot be read is -2 (R195). -/
theorem periOperation_unreadable {s : State} {cs : Word} {c : Cause} {addr info : Option Word}
    (h : memRead s cs = .raise c addr info) : periOperation cs s = answer errReadParams s := by
  have hfirst : param s cs 0 = .raise c addr info := by simpa [param] using h
  simp [periOperation, hfirst, access]

/-- A number of no operation is -1 (R193). -/
theorem periOperation_unknown {s : State} {cs code : Word} (h : memRead s cs = .ok code)
    (hno : ∀ o : PeriOp, periCodeOf s o ≠ code) : periOperation cs s = answer errBadCode s := by
  have hfirst : param s cs 0 = .ok code := by simpa [param] using h
  have hnone : periOpOf s code = none :=
    List.find?_eq_none.2 fun o _ => by simpa using hno o
  simp [periOperation, hfirst, access, hnone]

/-- Settles O51: every operation's result ends its PERI; an unread word of its control structure is the result -2;
numbers that are distinct each select their own operation. -/
theorem periPutsItsResultInRegisterAndErr : Obligations.PeriPutsItsResultInRegisterAndErr := by
  refine ⟨fun s u r op cs result hs hsys hv hp => ?_, fun s r op cs c addr info hs hsys hv hm => ?_,
    fun s r op cs o h hf => ?_, fun s o hwf => ?_⟩
  · obtain ⟨t, hexec, hended, hmem⟩ := exec_peri_ended hs hsys hv hp
    exact ⟨t, hexec, hended, sameMemory_of_mem hmem⟩
  · exact periFails_of_operation hs hsys hv (periOperation_unreadable hm)
  · exact exec_peri_same h (runPeriOp_readParams o hf)
  · obtain ⟨-, -, -, hlaunch⟩ := hwf
    exact periOpOf_periCodeOf hlaunch.1 o

/-- Settles O52: the operation is the answer -1, and -1 is negative. -/
theorem unknownPeriOperationIsBadCode : Obligations.UnknownPeriOperationIsBadCode := by
  intro s r op cs code hs hsys hv hm hno
  obtain ⟨t, hexec, hmem, hended⟩ :=
    periFails_of_operation (r := r) hs hsys hv (periOperation_unknown hm hno)
  exact ⟨t, hexec, hended.main, hended.err.trans (by decide), hended, hmem⟩

end Sys2Proof.Machine
end

section
/-! PROOF. O53, O54, O55: the disc operations (R199 to R201). Each operation is said once for each way it can end,
in the order of its checks; the statements read those ends off. -/

namespace Sys2Proof.Machine

/-! ### $DISCCHECK -/

theorem discCheck_badNumber {s : State} {cs drive : Word} (h : memRead s (cs + 1) = .ok drive)
    (hbad : drive.toInt < 1 ∨ 8 < drive.toInt) : discCheck s cs = answer errDevNumber s := by
  simp only [discCheck, withParam1_ok h, unitOfEight_none hbad]

theorem discCheck_absent {s : State} {cs : Word} {u : Fin 8}
    (h : memRead s (cs + 1) = .ok (BitVec.ofNat 32 (u.val + 1))) (hd : s.world.discs[u] = none) :
    discCheck s cs = answer 0 s := by
  simp only [discCheck, withParam1_ok h, unitOfEight_succ, hd]

theorem discCheck_present {s : State} {cs : Word} {u : Fin 8} {d : Disc}
    (h : memRead s (cs + 1) = .ok (BitVec.ofNat 32 (u.val + 1))) (hd : s.world.discs[u] = some d) :
    discCheck s cs = answerCount d.size s := by
  simp only [discCheck, withParam1_ok h, unitOfEight_succ, hd]

/-- Settles O53: one end of the operation for each clause; the size is a count. -/
theorem discCheckReportsTheSize : Obligations.DiscCheckReportsTheSize := by
  intro s r op cs h
  have same {result : Word} (hp : discCheck s cs = answer result s) :
      ∃ t, exec (.peri r op) s = .next t ∧ PeriEnded r result s.world s t ∧ SameMemory s t := by
    obtain ⟨t, hexec, hmem, hended⟩ := exec_peri_same (r := r) h hp
    exact ⟨t, hexec, hended, hmem⟩
  refine ⟨fun c addr info hm => same (withParam1_raise hm),
    fun drive hm hbad => same (discCheck_badNumber hm hbad), fun u hm => ?_⟩
  cases hd : s.world.discs[u] with
  | none =>
    obtain ⟨t, hexec, hended, hmem⟩ := same (discCheck_absent hm hd)
    exact ⟨t, 0, hexec, hmem, hended, fun _ => rfl, fun _ hd' => (nomatch hd')⟩
  | some d =>
    obtain ⟨result, v, hcount, hresult, hvmem, hvworld⟩ := answerCount_ok d.size s
    obtain ⟨t, hexec, hmem, hended⟩ :=
      exec_peri_world (r := r) h ((discCheck_present hm hd).trans hcount) hvmem hvworld
    refine ⟨t, result, hexec, hmem, hended, (nomatch ·), fun d' hd' hsize => ?_⟩
    cases hd'
    exact hresult.2 hsize

/-! ### The control structure of a transfer -/

/-- The four inputs of $DISCREAD and $DISCWRITE, where they can be read (R200, R201). -/
structure TransferInputs (s : State) (cs drive first count addr : Word) : Prop where
  drive : memRead s (cs + 1) = .ok drive
  first : memRead s (cs + 2) = .ok first
  count : memRead s (cs + 3) = .ok count
  addr : memRead s (cs + 4) = .ok addr

theorem TransferInputs.params {s : State} {cs drive first count addr : Word}
    {k : Word → Word → Word → Word → PeriRes} (h : TransferInputs s cs drive first count addr) :
    withParams4 s cs k = k drive first count addr :=
  withParams4_ok h.drive h.first h.count h.addr

theorem driveOf_badNumber {s : State} {drive : Word} (h : drive.toInt < 1 ∨ 8 < drive.toInt) :
    driveOf s drive = none := by
  simp [driveOf, unitOfEight_none h]

theorem badRun_iff (d : Disc) (first count : Word) :
    badRun d first count = true ↔ first.toInt < 0 ∨ (d.size : Int) < first.toInt + count.toInt := by
  simp [badRun]

theorem not_badRun {d : Disc} {first count : Word} (h0 : 0 ≤ first.toInt)
    (hsize : first.toInt + count.toInt ≤ d.size) : ¬ badRun d first count = true := by
  rw [badRun_iff]
  omega

/-- Before the first bad block of a run lie at most the drive's own words from its first block on. -/
theorem wordsBeforeBad_le (d : Disc) (first : Word) :
    wordsBeforeBad d first ≤ 128 * (d.size - first.toNat) := by
  unfold wordsBeforeBad
  split <;> omega

theorem SameDiscOutside.mono {lo hi hi' : Nat} {d : Disc} {words : Memory}
    (h : SameDiscOutside lo hi d words) (hle : hi ≤ max lo hi') : SameDiscOutside lo hi' d words :=
  fun p hp => h p (by omega)

theorem SameMemoryOutside.mono {a : Word} {m n : Nat} {s t : State} (h : SameMemoryOutside a m s t)
    (hle : m ≤ n) : SameMemoryOutside a n s t :=
  fun b hb => h b fun k hk => hb k (by omega)

theorem SameMemoryOutside.of_mem {a : Word} {n : Nat} {s t u : State} (h : SameMemoryOutside a n s t)
    (hm : u.mem = t.mem) : SameMemoryOutside a n s u :=
  fun b hb => (sameMemory_of_mem hm b).trans (h b hb)

/-! ### $DISCWRITE -/

section
variable {s : State} {cs drive first count addr : Word}

theorem discWrite_noDrive (hin : TransferInputs s cs drive first count addr)
    (hd : driveOf s drive = none) : discWrite s cs = answer errDevNumber s := by
  simp only [discWrite, hin.params, hd]

variable {u : Fin 8} {d : Disc}

theorem discWrite_badCount (hin : TransferInputs s cs drive first count addr)
    (hd : driveOf s drive = some (u, d)) (hc : count.toInt ≤ 0) :
    discWrite s cs = .stop (.refusal (.periCount count)) := by
  simp only [discWrite, hin.params, hd, if_pos hc]

theorem discWrite_badRun (hin : TransferInputs s cs drive first count addr)
    (hd : driveOf s drive = some (u, d)) (hc : 0 < count.toInt) (hb : badRun d first count = true) :
    discWrite s cs = answer errPosition (scribbleDisc s u d first (wordsBeforeBad d first)) := by
  simp only [discWrite, hin.params, hd, if_neg (not_le.2 hc), if_pos hb]

theorem discWrite_unreadable {c : Cause} {a info : Option Word}
    (hin : TransferInputs s cs drive first count addr)
    (hd : driveOf s drive = some (u, d)) (hc : 0 < count.toInt) (hb : ¬ badRun d first count = true)
    (hr : readWords s addr (128 * count.toNat) = .raise c a info) :
    discWrite s cs = answer errMemory (scribbleDisc s u d first (128 * count.toNat)) := by
  simp only [discWrite, hin.params, hd, if_neg (not_le.2 hc), if_neg hb, hr, access]

theorem discWrite_deviceFails {ws : List Word} (hin : TransferInputs s cs drive first count addr)
    (hd : driveOf s drive = some (u, d)) (hc : 0 < count.toInt) (hb : ¬ badRun d first count = true)
    (hr : readWords s addr (128 * count.toNat) = .ok ws) (hf : (hostFails s).1 = true) :
    discWrite s cs =
      answer errDevFailed (scribbleDisc (hostFails s).2 u d first (128 * count.toNat)) := by
  simp only [discWrite, hin.params, hd, if_neg (not_le.2 hc), if_neg hb, hr, access, if_pos hf]

theorem discWrite_done {ws : List Word} (hin : TransferInputs s cs drive first count addr)
    (hd : driveOf s drive = some (u, d)) (hc : 0 < count.toInt) (hb : ¬ badRun d first count = true)
    (hr : readWords s addr (128 * count.toNat) = .ok ws) (hf : (hostFails s).1 = false) :
    discWrite s cs = answer count
      (setDiscWords (hostFails s).2 u d (writeDiscWords ws (128 * first.toNat) d.words)) := by
  simp only [discWrite, hin.params, hd, if_neg (not_le.2 hc), if_neg hb, hr, access,
    if_neg (Bool.not_eq_true _ ▸ hf)]

end

theorem hostFails_mem (s : State) : (hostFails s).2.mem = s.mem := by
  rw [(hostFails_frame s).1]
  rfl

theorem hostFails_discs (s : State) : (hostFails s).2.world.discs = s.world.discs := by
  obtain ⟨-, fs, hw⟩ := hostFails_frame s
  rw [hw]

/-- A failed $DISCWRITE: the drive's words in the run may have changed, and nothing else (U10). -/
theorem exec_discWrite_failed {s v : State} {r : Reg} {op : Operand} {cs code first : Word} {u : Fin 8}
    {d : Disc} {n hi : Nat} (h : PeriReady s op cs .discWrite)
    (hp : discWrite s cs = answer code (scribbleDisc v u d first n)) (hv : v.mem = s.mem)
    (hdiscs : v.world.discs = s.world.discs) (hhi : 128 * first.toNat + n ≤ max (128 * first.toNat) hi) :
    ∃ t words, exec (.peri r op) s = .next t ∧ SameMemory s t ∧
      SameDiscOutside (128 * first.toNat) hi d words ∧
      PeriEnded r code
        { v.world with discs := s.world.discs.set u (some { d with words := words }) } s t := by
  obtain ⟨hmem, words, houtside, hworld⟩ := scribbleDisc_frame v u d first n
  obtain ⟨t, hexec, hsame, hended⟩ :=
    exec_peri_world (r := r) h hp (hmem.trans hv) (hworld.trans (by rw [hdiscs]))
  exact ⟨t, words, hexec, hsame, houtside.mono hhi, hended⟩

/-- Settles O54: the ends of $DISCWRITE in the order of its checks, and what each leaves. -/
theorem discWriteStoresTheBlocks : Obligations.DiscWriteStoresTheBlocks := by
  intro s r op cs drive first count addr h hdrive hfirst hcount haddr
  have hin : TransferInputs s cs drive first count addr := ⟨hdrive, hfirst, hcount, haddr⟩
  refine ⟨fun hbad => exec_peri_same h (discWrite_noDrive hin (driveOf_badNumber hbad)), ?_⟩
  rintro u rfl
  refine ⟨fun hnone => exec_peri_same h (discWrite_noDrive hin (driveOf_absent hnone)),
    fun d hsome => ?_⟩
  have hd := driveOf_succ hsome
  refine ⟨fun hc => exec_peri_refused h (discWrite_badCount hin hd hc), fun hc => ⟨fun hrun => ?_,
    fun h0 hsize => ?_⟩⟩
  · have hwords := wordsBeforeBad_le d first
    exact exec_discWrite_failed h (discWrite_badRun hin hd hc ((badRun_iff d first count).2 hrun)) rfl
      rfl (by omega)
  have hb := not_badRun h0 hsize
  refine ⟨fun hfails => ?_, fun hreads hf => ?_, fun hreads hf => ?_⟩
  · obtain ⟨c, a, info, hr⟩ := readWords_fails hfails
    exact exec_discWrite_failed h (discWrite_unreadable hin hd hc hb hr) rfl rfl (by omega)
  · obtain ⟨ws, hr, -, -⟩ := readWords_ok hreads
    exact exec_discWrite_failed h (discWrite_deviceFails hin hd hc hb hr hf) (hostFails_mem s)
      (hostFails_discs s) (by omega)
  · obtain ⟨ws, hr, hlen, hws⟩ := readWords_ok hreads
    obtain ⟨hstored, houtside⟩ := writeDiscWords_read ws (128 * first.toNat) d.words
    obtain ⟨t, hexec, hmem, hended⟩ := exec_peri_world (r := r) h (discWrite_done hin hd hc hb hr hf)
      (hostFails_mem s) (by rw [setDiscWords, setWorld_world, hostFails_discs])
    refine ⟨t, _, hexec, hended, hmem, fun j hj => ?_, fun p hp => houtside p (by omega)⟩
    have hj' : j < ws.length := by omega
    exact ⟨ws[j], hws j hj', hstored j hj'⟩

/-! ### $DISCREAD -/

section
variable {s : State} {cs drive first count addr : Word}

theorem discRead_noDrive (hin : TransferInputs s cs drive first count addr)
    (hd : driveOf s drive = none) : discRead s cs = answer errDevNumber s := by
  simp only [discRead, hin.params, hd]

variable {u : Fin 8} {d : Disc}

theorem discRead_badCount (hin : TransferInputs s cs drive first count addr)
    (hd : driveOf s drive = some (u, d)) (hc : count.toInt ≤ 0) :
    discRead s cs = .stop (.refusal (.periCount count)) := by
  simp only [discRead, hin.params, hd, if_pos hc]

theorem discRead_badRun (hin : TransferInputs s cs drive first count addr)
    (hd : driveOf s drive = some (u, d)) (hc : 0 < count.toInt) (hb : badRun d first count = true) :
    discRead s cs = answer errPosition (scribble s addr (wordsBeforeBad d first)) := by
  simp only [discRead, hin.params, hd, if_neg (not_le.2 hc), if_pos hb]

theorem discRead_unreached {c : Cause} {a info : Option Word}
    (hin : TransferInputs s cs drive first count addr)
    (hd : driveOf s drive = some (u, d)) (hc : 0 < count.toInt) (hb : ¬ badRun d first count = true)
    (hst : storeItems (discItems d first (128 * count.toNat)) addr s = .raise c a info) :
    discRead s cs = answer errMemory
      (failedStores s (discItems d first (128 * count.toNat)) addr (128 * count.toNat)) := by
  simp only [discRead, hin.params, hd, if_neg (not_le.2 hc), if_neg hb, hst, access]

theorem discRead_done {t : State} (hin : TransferInputs s cs drive first count addr)
    (hd : driveOf s drive = some (u, d)) (hc : 0 < count.toInt) (hb : ¬ badRun d first count = true)
    (hst : storeItems (discItems d first (128 * count.toNat)) addr s = .ok t) :
    discRead s cs = answer count t := by
  simp only [discRead, hin.params, hd, if_neg (not_le.2 hc), if_neg hb, hst, access]

end

@[simp] theorem discItems_length (d : Disc) (first : Word) (n : Nat) :
    (discItems d first n).length = n := by
  simp [discItems]

/-- A word that has been written is delivered whole (R200, U12). -/
theorem discItems_written {d : Disc} {first x : Word} {n j : Nat} (hj : j < (discItems d first n).length)
    (hx : Memory.read d.words (128 * first.toNat + j) = some x) :
    (discItems d first n)[j] = .exact x := by
  simp [discItems, hx]

/-- A word stored for an item defined whole is the item's. -/
theorem eq_of_masked_exact {w x : Word}
    (h : w &&& (Item.exact x).mask = (Item.exact x).value &&& (Item.exact x).mask) : w = x := by
  have hmask : (Item.exact x).mask = BitVec.allOnes 32 :=
    (by decide : (0xFFFFFFFF : Word) = BitVec.allOnes 32)
  rw [hmask, BitVec.and_allOnes, BitVec.and_allOnes] at h
  exact h

/-- A PERI that stores to the `n` words from an address at most, and leaves the world. -/
theorem exec_peri_stores {s u : State} {r : Reg} {op : Operand} {cs result addr : Word} {o : PeriOp}
    {w : World} {n : Nat} (h : PeriReady s op cs o) (hp : runPeriOp o cs s = .ok (result, u))
    (hw : u.world = w) (hout : SameMemoryOutside addr n s u) :
    ∃ t, exec (.peri r op) s = .next t ∧ PeriEnded r result w s t ∧ SameMemoryOutside addr n s t ∧
      t.mem = u.mem := by
  obtain ⟨t, hexec, hended, hmem⟩ := exec_peri_ready (r := r) h hp
  exact ⟨t, hexec, hw ▸ hended, hout.of_mem hmem, hmem⟩

/-- Settles O55: the ends of $DISCREAD in the order of its checks, and what each leaves with VM off. -/
theorem discReadDeliversTheBlocks : Obligations.DiscReadDeliversTheBlocks := by
  intro s r op cs drive first count addr h hdrive hfirst hcount haddr
  have hin : TransferInputs s cs drive first count addr := ⟨hdrive, hfirst, hcount, haddr⟩
  refine ⟨fun hbad => exec_peri_same h (discRead_noDrive hin (driveOf_badNumber hbad)), ?_⟩
  rintro u rfl
  refine ⟨fun hnone => exec_peri_same h (discRead_noDrive hin (driveOf_absent hnone)),
    fun d hsome => ?_⟩
  have hd := driveOf_succ hsome
  refine ⟨fun hc => exec_peri_refused h (discRead_badCount hin hd hc), fun hc hvm hrun => ?_,
    fun hc hvm h0 hsize => ?_⟩
  · obtain ⟨hworld, hout⟩ := scribble_frame addr (wordsBeforeBad d first) hvm
    obtain ⟨t, hexec, hended, hout', -⟩ := exec_peri_stores (r := r) h
      (discRead_badRun hin hd hc ((badRun_iff d first count).2 hrun)) hworld
      (hout.mono (wordsBeforeBad_le d first))
    exact ⟨t, hexec, hended, hout'⟩
  have hb := not_badRun h0 hsize
  refine ⟨fun j hj hbad => ?_, fun hfits hroom => ?_⟩
  · obtain ⟨c, a, info, hst⟩ := storeItems_fails (is := discItems d first (128 * count.toNat)) hvm
      (by simpa using hj) hbad
    obtain ⟨hworld, hout⟩ := failedStores_frame addr (discItems_length d first _).le hvm
    obtain ⟨t, hexec, hended, hout', -⟩ := exec_peri_stores (r := r) h
      (discRead_unreached hin hd hc hb hst) hworld hout
    exact ⟨t, hexec, hended, hout'⟩
  · obtain ⟨v, hst, hworld, hout, hstored⟩ := storeItems_physical
      (is := discItems d first (128 * count.toNat)) (by simpa using hroom) (by simpa using hfits)
    rw [discItems_length] at hout
    obtain ⟨t, hexec, hended, hout', hmem⟩ := exec_peri_stores (r := r) h
      (discRead_done hin hd hc hb hst) hworld hout
    refine ⟨t, hexec, hended, hout', fun j hj => ?_⟩
    have hj' : j < (discItems d first (128 * count.toNat)).length := by simpa using hj
    obtain ⟨w, hw, hitem⟩ := hstored j hj'
    refine ⟨w, (sameMemory_of_mem hmem _).trans hw, fun x hx => ?_⟩
    rw [discItems_written hj' hx] at hitem
    exact eq_of_masked_exact hitem

end Sys2Proof.Machine
end

section
/-! PROOF. O58: the tape operations that move no block (R206 to R210). Each operation is said once for each way it
can end, in the order of its checks; the statement reads those ends off. -/

namespace Sys2Proof.Machine

/-! ### The unit's number and an unloaded unit -/

section
variable {s : State} {cs : Word} {u : Fin 8}

/-- Of the operations that take a unit's number alone, a number of no unit is -3 (R205). -/
theorem runPeriOp_badUnit {unit : Word} {o : PeriOp}
    (ho : o = .tapeCheck ∨ o = .tapeRewind ∨ o = .tapeLength ∨ o = .tapeUnload)
    (hunit : memRead s (cs + 1) = .ok unit) (hbad : unit.toInt < 1 ∨ 8 < unit.toInt) :
    runPeriOp o cs s = answer errDevNumber s := by
  have hnone := unitOfEight_none hbad
  rcases ho with rfl | rfl | rfl | rfl
  · simp only [runPeriOp, tapeCheck, withParam1_ok hunit, hnone]
  · simp only [runPeriOp, tapeRewind, withParam1_ok hunit, hnone]
  · simp only [runPeriOp, tapeLength, withParam1_ok hunit, hnone]
  · simp only [runPeriOp, tapeUnload, withParam1_ok hunit, hnone]

/-- The same operations on an unloaded unit: mode 0, or the code of each (R206, R207, R209, R210). -/
theorem runPeriOp_unloaded {o : PeriOp} {code : Int}
    (ho : (o = .tapeCheck ∧ code = 0) ∨ (o = .tapeRewind ∧ code = -3) ∨ (o = .tapeLength ∧ code = -7) ∨
      (o = .tapeUnload ∧ code = -7))
    (hunit : memRead s (cs + 1) = .ok (BitVec.ofNat 32 (u.val + 1))) (hnone : s.world.tapes[u] = none) :
    runPeriOp o cs s = answer (BitVec.ofInt 32 code) s := by
  rcases ho with ⟨rfl, rfl⟩ | ⟨rfl, rfl⟩ | ⟨rfl, rfl⟩ | ⟨rfl, rfl⟩
  · simp only [runPeriOp, tapeCheck, withParam1_ok hunit, unitOfEight_succ, hnone]
    rfl
  · simp only [runPeriOp, tapeRewind, withParam1_ok hunit, unitOfEight_succ, hnone, errDevNumber]
  · simp only [runPeriOp, tapeLength, withParam1_ok hunit, unitOfEight_succ, hnone, errNotFound]
  · simp only [runPeriOp, tapeUnload, withParam1_ok hunit, unitOfEight_succ, hnone, errNotFound]

/-! ### A loaded unit -/

variable {tape : Tape}

theorem tapeCheck_loaded (hunit : memRead s (cs + 1) = .ok (BitVec.ofNat 32 (u.val + 1)))
    (hsome : s.world.tapes[u] = some tape) : tapeCheck s cs = answer (modeLetter tape.mode) s := by
  simp only [tapeCheck, withParam1_ok hunit, unitOfEight_succ, hsome]

theorem tapeRewind_loaded (hunit : memRead s (cs + 1) = .ok (BitVec.ofNat 32 (u.val + 1)))
    (hsome : s.world.tapes[u] = some tape) :
    tapeRewind s cs = answer 1 (setTape s u (some { tape with pos := 0 })) := by
  simp only [tapeRewind, withParam1_ok hunit, unitOfEight_succ, hsome]

theorem tapeUnload_loaded (hunit : memRead s (cs + 1) = .ok (BitVec.ofNat 32 (u.val + 1)))
    (hsome : s.world.tapes[u] = some tape) : tapeUnload s cs = answer 1 (setTape s u none) := by
  simp only [tapeUnload, withParam1_ok hunit, unitOfEight_succ, hsome]

theorem tapeLength_unknown (hunit : memRead s (cs + 1) = .ok (BitVec.ofNat 32 (u.val + 1)))
    (hsome : s.world.tapes[u] = some tape) (hsize : tapeSize s tape = none) :
    tapeLength s cs = answer errNotFound s := by
  simp only [tapeLength, withParam1_ok hunit, unitOfEight_succ, hsome, hsize]

theorem tapeLength_known {n : Nat} (hunit : memRead s (cs + 1) = .ok (BitVec.ofNat 32 (u.val + 1)))
    (hsome : s.world.tapes[u] = some tape) (hsize : tapeSize s tape = some n) :
    tapeLength s cs = answerCount n s := by
  simp only [tapeLength, withParam1_ok hunit, unitOfEight_succ, hsome, hsize]

theorem tapeSize_noFile (h : hostFile s tape.file = none) : tapeSize s tape = none := by
  rw [tapeSize, h, Option.bind_none]

theorem tapeSize_inaccessible {f : HostFile} (h : hostFile s tape.file = some f)
    (ha : f.accessible = false) : tapeSize s tape = none := by
  rw [tapeSize, h, Option.bind_some, ha, if_neg Bool.false_ne_true]

theorem tapeSize_accessible {f : HostFile} {bytes : List Byte} (h : hostFile s tape.file = some f)
    (ha : f.accessible = true) (hc : f.content = some bytes) : tapeSize s tape = some bytes.length := by
  rw [tapeSize, h, Option.bind_some, if_pos ha, hc, Option.map_some]

end

/-! ### $TAPELOAD -/

/-- The three inputs of an operation that takes them, where they can be read (R208, R212). -/
structure ThreeInputs (s : State) (cs a b c : Word) : Prop where
  one : memRead s (cs + 1) = .ok a
  two : memRead s (cs + 2) = .ok b
  three : memRead s (cs + 3) = .ok c

theorem ThreeInputs.params {s : State} {cs a b c : Word} {k : Word → Word → Word → PeriRes}
    (h : ThreeInputs s cs a b c) : withParams3 s cs k = k a b c :=
  withParams3_ok h.one h.two h.three

section
variable {s : State} {cs unit nameAddr mode : Word} {u : Fin 8} {name : List Byte}

theorem tapeLoad_badUnit (hin : ThreeInputs s cs unit nameAddr mode)
    (hbad : unit.toInt < 1 ∨ 8 < unit.toInt) : tapeLoad s cs = answer errDevNumber s := by
  simp only [tapeLoad, hin.params, unitOfEight_none hbad]

theorem tapeLoad_unreadable {c : Cause} {a info : Option Word}
    (hin : ThreeInputs s cs (BitVec.ofNat 32 (u.val + 1)) nameAddr mode)
    (hname : readString s nameAddr addressSpace = .raise c a info) :
    tapeLoad s cs = answer errMemory s := by
  simp only [tapeLoad, hin.params, unitOfEight_succ, hname, access]

theorem tapeLoad_loaded {tape : Tape} (hin : ThreeInputs s cs (BitVec.ofNat 32 (u.val + 1)) nameAddr mode)
    (hname : readString s nameAddr addressSpace = .ok name) (hsome : s.world.tapes[u] = some tape) :
    tapeLoad s cs = .stop (.refusal .tapeMisuse) := by
  simp only [tapeLoad, hin.params, unitOfEight_succ, hname, access, hsome]

theorem tapeLoad_free (hin : ThreeInputs s cs (BitVec.ofNat 32 (u.val + 1)) nameAddr mode)
    (hname : readString s nameAddr addressSpace = .ok name) (hnone : s.world.tapes[u] = none) :
    tapeLoad s cs = loadTape s u name mode := by
  simp only [tapeLoad, hin.params, unitOfEight_succ, hname, access, hnone]

end

/-- A string in memory is no longer than the address space. -/
theorem readString_stringAt {s : State} {a : Word} {name : List Byte} (h : StringAt s a name) :
    readString s a addressSpace = .ok name := by
  obtain ⟨hpacked, hzero, hlen⟩ := h
  exact readString_of hpacked hzero (by unfold addressSpace; omega)

theorem modeOf_none {mode : Word} (hr : mode ≠ 82) (hw : mode ≠ 87) : modeOf mode = none := by
  rw [modeOf, if_neg hr, if_neg hw]

theorem accessible_of_readable {f : HostFile} (h : (f.readable && f.content.isSome) = true) :
    f.accessible = true := by
  simp [HostFile.accessible, h]

theorem accessible_of_writable {f : HostFile} (h : f.writable = true) : f.accessible = true := by
  simp [HostFile.accessible, h]

section
variable {s : State} {u : Fin 8} {name : List Byte} {mode : Word} {f : HostFile}

theorem loadTape_noFile (h : hostFile s name = none) : loadTape s u name mode = answer errNotFound s := by
  simp only [loadTape, h]

theorem loadTape_inaccessible (h : hostFile s name = some f) (ha : f.accessible = false) :
    loadTape s u name mode = answer errNotFound s := by
  simp [loadTape, h, ha]

theorem loadTape_badMode (h : hostFile s name = some f) (ha : f.accessible = true) (hr : mode ≠ 82)
    (hw : mode ≠ 87) : loadTape s u name mode = answer errBadParam s := by
  simp [loadTape, h, ha, modeOf_none hr hw]

theorem loadTape_unreadable (hm : modeOf mode = some .read) (h : hostFile s name = some f)
    (hf : (f.readable && f.content.isSome) = false) : loadTape s u name mode = answer errNotFound s := by
  simp [loadTape, h, hm, hf]

theorem loadTape_read (hm : modeOf mode = some .read) (h : hostFile s name = some f)
    (hf : (f.readable && f.content.isSome) = true) :
    loadTape s u name mode = answer 1 (setTape s u (some ⟨name, .read, 0⟩)) := by
  simp [loadTape, h, accessible_of_readable hf, hm, hf]

theorem loadTape_unwritable (hm : modeOf mode = some .write) (h : hostFile s name = some f)
    (hf : f.writable = false) : loadTape s u name mode = answer errNotFound s := by
  simp [loadTape, h, hm, hf]

theorem loadTape_exists (hm : modeOf mode = some .write) (h : hostFile s name = some f)
    (hf : f.writable = true) (hc : f.content.isSome = true) :
    loadTape s u name mode = .stop (.refusal .tapeMisuse) := by
  simp [loadTape, h, accessible_of_writable hf, hm, hf, hc]

theorem loadTape_write (hm : modeOf mode = some .write) (h : hostFile s name = some f)
    (hf : f.writable = true) (hc : f.content = none) :
    loadTape s u name mode =
      answer 1 (setTape (setFileBytes s name []) u (some ⟨name, .write, 0⟩)) := by
  simp [loadTape, h, accessible_of_writable hf, hm, hf, hc]

end

/-- Settles O58: for an unloaded unit the operations that take its number and the ends of `loadTape`, then the
failures of $TAPELOAD on any unit, then the operations on a loaded one. -/
theorem tapeUnitOperations : Obligations.TapeUnitOperations := by
  intro s r op cs o h
  refine ⟨fun unit hunit hbad => ⟨fun ho => exec_peri_same h (runPeriOp_badUnit ho hunit hbad), ?_⟩,
    fun u hunit => ⟨fun hnone => ⟨fun code ho => exec_peri_same h (runPeriOp_unloaded ho hunit hnone), ?_⟩,
      ?_, fun tape hsome => ⟨?_, ?_, ?_, ?_⟩⟩⟩
  · rintro a b rfl ha hb
    exact exec_peri_same h (tapeLoad_badUnit ⟨hunit, ha, hb⟩ hbad)
  · rintro nameAddr mode name rfl ha hm hstring
    have hload : runPeriOp .tapeLoad cs s = loadTape s u name mode :=
      tapeLoad_free ⟨hunit, ha, hm⟩ (readString_stringAt hstring) hnone
    refine ⟨fun hf => exec_peri_same h (hload.trans (loadTape_noFile hf)), fun f hf =>
      ⟨fun hno => exec_peri_same h (hload.trans (loadTape_inaccessible hf hno)),
        fun hyes hr hw => exec_peri_same h (hload.trans (loadTape_badMode hf hyes hr hw)), ?_, ?_⟩⟩
    · rintro rfl
      refine ⟨fun hno => exec_peri_same h (hload.trans (loadTape_unreadable rfl hf ?_)), fun hread hc =>
        exec_peri_world h (hload.trans (loadTape_read rfl hf ?_)) rfl rfl⟩
      · rcases hno with hno | hno <;> simp [hno]
      · simpa [hread] using Option.isSome_iff_ne_none.2 hc
    · rintro rfl
      exact ⟨fun hno => exec_peri_same h (hload.trans (loadTape_unwritable rfl hf hno)),
        fun hwrite hc => exec_peri_refused h
          (hload.trans (loadTape_exists rfl hf hwrite (Option.isSome_iff_ne_none.2 hc))),
        fun hwrite hc => exec_peri_world h (hload.trans (loadTape_write rfl hf hwrite hc)) rfl rfl⟩
  · rintro nameAddr mode rfl ha hm
    refine ⟨fun ws c a info hws hlen hzero hfault => exec_peri_same h ?_, fun name hstring hloaded => ?_⟩
    · exact tapeLoad_unreadable ⟨hunit, ha, hm⟩ (readString_fails hws hzero hfault hlen)
    · obtain ⟨tape, hsome⟩ := Option.ne_none_iff_exists'.1 hloaded
      exact exec_peri_refused h
        (tapeLoad_loaded ⟨hunit, ha, hm⟩ (readString_stringAt hstring) hsome)
  · rintro rfl
    have hletter := exec_peri_same (r := r) h (tapeCheck_loaded hunit hsome)
    cases hmode : tape.mode <;> rw [hmode] at hletter <;> exact hletter
  · rintro rfl
    exact exec_peri_world h (tapeRewind_loaded hunit hsome) rfl rfl
  · rintro rfl
    exact exec_peri_world h (tapeUnload_loaded hunit hsome) rfl rfl
  · rintro rfl
    refine ⟨fun hf => exec_peri_same h (tapeLength_unknown hunit hsome (tapeSize_noFile hf)), fun f hf =>
      ⟨fun hno => exec_peri_same h (tapeLength_unknown hunit hsome (tapeSize_inaccessible hf hno)),
        fun bytes hyes hc => ?_⟩⟩
    obtain ⟨result, v, hcount, hresult, hvmem, hvworld⟩ := answerCount_ok bytes.length s
    obtain ⟨t, hexec, hmem, hended⟩ := exec_peri_world (r := r) h
      ((tapeLength_known hunit hsome (tapeSize_accessible hf hyes hc)).trans hcount) hvmem hvworld
    exact ⟨t, result, hexec, hmem, hresult, hended⟩

end Sys2Proof.Machine
end

section
/-! PROOF. O59: the tape operations that move a block (R211 to R213). $TAPEREAD and $TAPEWRITE are each said once for
each way they can end, in the order of their checks; the statement reads those ends off. -/

namespace Sys2Proof.Machine

/-! ### The block -/

theorem blockAt_length (bytes : List Byte) (pos : Nat) :
    (blockAt bytes pos).length = min 512 (bytes.length - pos) := by
  rw [blockAt, List.length_take, List.length_drop]

theorem blockAt_getD {bytes : List Byte} {pos k : Nat} (hk : k < (blockAt bytes pos).length) :
    (blockAt bytes pos).getD k 0 = bytes.getD (pos + k) 0 := by
  have hk' := blockAt_length bytes pos ▸ hk
  rw [List.getD_eq_getElem _ _ hk, List.getD_eq_getElem _ _ (by omega)]
  simp [blockAt]

theorem blockItems_length (block : List Byte) : (blockItems block).length = (block.length + 3) / 4 := by
  rw [blockItems, List.length_map, (chunks_length block).1]

/-- A block fits its 128 words (R211). -/
theorem blockItems_length_le (bytes : List Byte) (pos : Nat) :
    (blockItems (blockAt bytes pos)).length ≤ 128 := by
  rw [blockItems_length, blockAt_length]
  omega

/-- The words beyond those that hold a short block get free values (U14). -/
def freeBeyond (s : State) (addr : Word) (block : List Byte) : State :=
  if block = [] then s
  else scribble s (addr + BitVec.ofNat 32 (blockItems block).length) (128 - (blockItems block).length)

/-- What a $TAPEREAD leaves that failed at a store: free words, and a position moved by part of the block (U10). -/
def failedTapeRead (s : State) (u : Fin 8) (tape : Tape) (block : List Byte) (addr : Word) : State :=
  let moved := drawUpTo block.length (failedStores s (blockItems block) addr 128)
  setTape moved.2 u (some { tape with pos := tape.pos + moved.1 })

/-- A unit is loaded in one mode (R205). -/
theorem ne_write_of_read {m : TapeMode} (h : m = .read) : m ≠ .write := by
  rw [h]
  decide

theorem ne_read_of_write {m : TapeMode} (h : m = .write) : m ≠ .read := by
  rw [h]
  decide

/-! ### $TAPEREAD -/

section
variable {s : State} {cs unit addr : Word} {u : Fin 8} {tape : Tape} {bytes : List Byte}

theorem tapeRead_badUnit (hunit : memRead s (cs + 1) = .ok unit) (haddr : memRead s (cs + 2) = .ok addr)
    (hbad : unit.toInt < 1 ∨ 8 < unit.toInt) : tapeRead s cs = answer errDevNumber s := by
  simp only [tapeRead, withParams2_ok hunit haddr, unitOfEight_none hbad]

theorem tapeRead_unloaded (hunit : memRead s (cs + 1) = .ok (BitVec.ofNat 32 (u.val + 1)))
    (haddr : memRead s (cs + 2) = .ok addr) (hnone : s.world.tapes[u] = none) :
    tapeRead s cs = answer errDevNumber s := by
  simp only [tapeRead, withParams2_ok hunit haddr, unitOfEight_succ, hnone]

theorem tapeRead_misuse (hunit : memRead s (cs + 1) = .ok (BitVec.ofNat 32 (u.val + 1)))
    (haddr : memRead s (cs + 2) = .ok addr) (hsome : s.world.tapes[u] = some tape)
    (hmode : tape.mode = .write) : tapeRead s cs = .stop (.refusal .tapeMisuse) := by
  simp only [tapeRead, withParams2_ok hunit haddr, unitOfEight_succ, hsome, if_pos hmode]

theorem tapeRead_gone (hunit : memRead s (cs + 1) = .ok (BitVec.ofNat 32 (u.val + 1)))
    (haddr : memRead s (cs + 2) = .ok addr) (hsome : s.world.tapes[u] = some tape)
    (hmode : tape.mode = .read) (hgone : tapeContent s tape = none) :
    tapeRead s cs = answer errDevNumber s := by
  simp only [tapeRead, withParams2_ok hunit haddr, unitOfEight_succ, hsome, if_neg (ne_write_of_read hmode),
    hgone]

theorem tapeRead_unreached {c : Cause} {a info : Option Word}
    (hunit : memRead s (cs + 1) = .ok (BitVec.ofNat 32 (u.val + 1)))
    (haddr : memRead s (cs + 2) = .ok addr) (hsome : s.world.tapes[u] = some tape)
    (hmode : tape.mode = .read) (hbytes : tapeContent s tape = some bytes)
    (hst : storeItems (blockItems (blockAt bytes tape.pos)) addr s = .raise c a info) :
    tapeRead s cs = answer errMemory (failedTapeRead s u tape (blockAt bytes tape.pos) addr) := by
  simp only [tapeRead, withParams2_ok hunit haddr, unitOfEight_succ, hsome, if_neg (ne_write_of_read hmode),
    hbytes, hst, access, failedTapeRead]

theorem tapeRead_done {v : State} (hunit : memRead s (cs + 1) = .ok (BitVec.ofNat 32 (u.val + 1)))
    (haddr : memRead s (cs + 2) = .ok addr) (hsome : s.world.tapes[u] = some tape)
    (hmode : tape.mode = .read) (hbytes : tapeContent s tape = some bytes)
    (hst : storeItems (blockItems (blockAt bytes tape.pos)) addr s = .ok v) :
    tapeRead s cs = answer (BitVec.ofNat 32 (blockAt bytes tape.pos).length)
      (setTape (freeBeyond v addr (blockAt bytes tape.pos)) u
        (some { tape with pos := tape.pos + (blockAt bytes tape.pos).length })) := by
  simp only [tapeRead, withParams2_ok hunit haddr, unitOfEight_succ, hsome, if_neg (ne_write_of_read hmode),
    hbytes, hst, access, freeBeyond]

end

/-! ### What $TAPEREAD leaves, with VM off -/

theorem failedTapeRead_frame {s : State} (u : Fin 8) (tape : Tape) {block : List Byte} (addr : Word)
    (hfits : (blockItems block).length ≤ 128) (hvm : s.flags.vm = false) :
    SameMemoryOutside addr 128 s (failedTapeRead s u tape block addr) ∧
      ∃ pos, tape.pos ≤ pos ∧ pos ≤ tape.pos + block.length ∧
        (failedTapeRead s u tape block addr).world =
          { s.world with tapes := s.world.tapes.set u (some { tape with pos := pos }) } := by
  obtain ⟨hworld, hout⟩ := failedStores_frame addr hfits hvm
  have hle := drawUpTo_le block.length (failedStores s (blockItems block) addr 128)
  refine ⟨hout.of_mem rfl, _, Nat.le_add_right _ _, Nat.add_le_add_left hle _, ?_⟩
  simp only [failedTapeRead, setTape, setWorld_world, drawUpTo, drawWord, setDraws_world, hworld]

theorem offset_add (a : Word) (m k : Nat) :
    a + BitVec.ofNat 32 m + BitVec.ofNat 32 k = a + BitVec.ofNat 32 (m + k) := by
  rw [BitVec.ofNat_add, BitVec.add_assoc]

theorem SameMemoryOutside.trans {a : Word} {n : Nat} {s t u : State} (h : SameMemoryOutside a n s t)
    (k : SameMemoryOutside a n t u) : SameMemoryOutside a n s u :=
  fun b hb => (k b hb).trans (h b hb)

/-- The words beyond a block are words of its 128, and none of those that hold it. -/
theorem freeBeyond_frame {s : State} (addr : Word) {block : List Byte}
    (hfits : (blockItems block).length ≤ 128) (hvm : s.flags.vm = false) :
    (freeBeyond s addr block).world = s.world ∧
      SameMemoryOutside addr 128 s (freeBeyond s addr block) ∧
      ∀ j : Nat, j < (blockItems block).length →
        (freeBeyond s addr block).word (addr + BitVec.ofNat 32 j).toNat =
          s.word (addr + BitVec.ofNat 32 j).toNat := by
  unfold freeBeyond
  split
  · exact ⟨rfl, fun _ _ => rfl, fun _ _ => rfl⟩
  · obtain ⟨hworld, hout⟩ := scribble_frame (addr + BitVec.ofNat 32 (blockItems block).length)
      (128 - (blockItems block).length) hvm
    refine ⟨hworld, fun b hb => hout b fun k hk => ?_, fun j hj => hout _ fun k hk => ?_⟩
    · rw [offset_add]
      exact hb _ (by omega)
    · rw [offset_add]
      exact offset_ne (by omega) (by omega) (by omega)

/-- A block stored, with its words beyond it free: its bytes stand packed at the address (R211, R213). -/
theorem storeBlock_physical {s : State} {addr : Word} (bytes : List Byte) (pos : Nat)
    (hroom : Room s addr 128) :
    ∃ v, storeItems (blockItems (blockAt bytes pos)) addr s = .ok v ∧
      (freeBeyond v addr (blockAt bytes pos)).world = s.world ∧
      SameMemoryOutside addr 128 s (freeBeyond v addr (blockAt bytes pos)) ∧
      ∀ k : Nat, k < (blockAt bytes pos).length →
        ByteAt (freeBeyond v addr (blockAt bytes pos)) addr k (bytes.getD (pos + k) 0) := by
  obtain ⟨hvm, hvalid⟩ := hroom
  have hfits := blockItems_length_le bytes pos
  have hlen := blockItems_length (blockAt bytes pos)
  obtain ⟨v, hst, hworld, hout, hstored⟩ := storeBytes_physical (bytes := blockAt bytes pos)
    (a := addr) (s := s) ⟨hvm, fun k hk => hvalid k (by omega)⟩ (by omega)
  have hvm' : v.flags.vm = false := by rw [(periStep_storeItems hst).flags, hvm]
  obtain ⟨hworld', hout', hkept⟩ := freeBeyond_frame addr hfits hvm'
  refine ⟨v, hst, hworld'.trans hworld, (hout.mono (by omega)).trans hout', fun k hk => ?_⟩
  obtain ⟨w, hw, hbyte⟩ := hstored k hk
  exact ⟨w, (hkept _ (by omega)).trans hw, hbyte.trans (blockAt_getD hk)⟩

/-! ### $TAPEWRITE -/

section
variable {s : State} {cs unit addr count : Word} {u : Fin 8} {tape : Tape}

theorem tapeWrite_badUnit (hin : ThreeInputs s cs unit addr count)
    (hbad : unit.toInt < 1 ∨ 8 < unit.toInt) : tapeWrite s cs = answer errDevNumber s := by
  simp only [tapeWrite, hin.params, unitOfEight_none hbad]

theorem tapeWrite_unloaded (hin : ThreeInputs s cs (BitVec.ofNat 32 (u.val + 1)) addr count)
    (hnone : s.world.tapes[u] = none) : tapeWrite s cs = answer errDevNumber s := by
  simp only [tapeWrite, hin.params, unitOfEight_succ, hnone]

theorem tapeWrite_misuse (hin : ThreeInputs s cs (BitVec.ofNat 32 (u.val + 1)) addr count)
    (hsome : s.world.tapes[u] = some tape) (hbad : tape.mode = .read ∨ 512 < count.toNat) :
    tapeWrite s cs = .stop (.refusal .tapeMisuse) := by
  simp only [tapeWrite, hin.params, unitOfEight_succ, hsome]
  split
  · rfl
  · rename_i hmode
    rw [if_pos (hbad.resolve_left hmode)]

theorem tapeWrite_unreadable {c : Cause} {a info : Option Word}
    (hin : ThreeInputs s cs (BitVec.ofNat 32 (u.val + 1)) addr count)
    (hsome : s.world.tapes[u] = some tape) (hmode : tape.mode = .write) (hcount : count.toNat ≤ 512)
    (hr : readWords s addr ((count.toNat + 3) / 4) = .raise c a info) :
    tapeWrite s cs = answer errMemory (scribbleTape s u tape count.toNat) := by
  simp only [tapeWrite, hin.params, unitOfEight_succ, hsome, if_neg (ne_read_of_write hmode),
    if_neg (not_lt.2 hcount), hr, access]

theorem tapeWrite_gone {ws : List Word}
    (hin : ThreeInputs s cs (BitVec.ofNat 32 (u.val + 1)) addr count)
    (hsome : s.world.tapes[u] = some tape) (hmode : tape.mode = .write) (hcount : count.toNat ≤ 512)
    (hr : readWords s addr ((count.toNat + 3) / 4) = .ok ws) (hgone : tapeContent s tape = none) :
    tapeWrite s cs = answer errDevFailed s := by
  simp only [tapeWrite, hin.params, unitOfEight_succ, hsome, if_neg (ne_read_of_write hmode),
    if_neg (not_lt.2 hcount), hr, access, hgone]

theorem tapeWrite_deviceFails {ws : List Word} {bytes : List Byte}
    (hin : ThreeInputs s cs (BitVec.ofNat 32 (u.val + 1)) addr count)
    (hsome : s.world.tapes[u] = some tape) (hmode : tape.mode = .write) (hcount : count.toNat ≤ 512)
    (hr : readWords s addr ((count.toNat + 3) / 4) = .ok ws) (hbytes : tapeContent s tape = some bytes)
    (hf : (hostFails s).1 = true) :
    tapeWrite s cs = answer errDevFailed (scribbleTape (hostFails s).2 u tape count.toNat) := by
  simp only [tapeWrite, hin.params, unitOfEight_succ, hsome, if_neg (ne_read_of_write hmode),
    if_neg (not_lt.2 hcount), hr, access, hbytes, if_pos hf]

theorem tapeWrite_done {ws : List Word} {bytes : List Byte}
    (hin : ThreeInputs s cs (BitVec.ofNat 32 (u.val + 1)) addr count)
    (hsome : s.world.tapes[u] = some tape) (hmode : tape.mode = .write) (hcount : count.toNat ≤ 512)
    (hr : readWords s addr ((count.toNat + 3) / 4) = .ok ws) (hbytes : tapeContent s tape = some bytes)
    (hf : (hostFails s).1 = false) :
    tapeWrite s cs = answer count
      (setTape (writeFile (hostFails s).2 tape bytes ((ws.flatMap unpackWord).take count.toNat)) u
        (some { tape with pos := tape.pos + count.toNat })) := by
  simp only [tapeWrite, hin.params, unitOfEight_succ, hsome, if_neg (ne_read_of_write hmode),
    if_neg (not_lt.2 hcount), hr, access, hbytes, if_neg (Bool.not_eq_true _ ▸ hf)]

end

/-! ### What $TAPEWRITE leaves -/

/-- The host's answer is no move of its files or tapes (log entry 16). -/
theorem hostFails_files (s : State) :
    (hostFails s).2.world.files = s.world.files ∧ (hostFails s).2.world.tapes = s.world.tapes := by
  obtain ⟨-, fs, hw⟩ := hostFails_frame s
  rw [hw]
  exact ⟨rfl, rfl⟩

section
variable {s v : State} {tape : Tape}

theorem tapeContent_congr (h : v.world.files = s.world.files) : tapeContent v tape = tapeContent s tape := by
  simp only [tapeContent, hostFile, h]

theorem wroteFile_congr {new : List Byte} {files : List HostFile} (h : v.world.files = s.world.files) :
    WroteFile v tape new files ↔ WroteFile s tape new files := by
  simp only [WroteFile, tapeContent_congr h, h]

theorem failedWrite_congr {n pos : Nat} {files : List HostFile} (h : v.world.files = s.world.files) :
    FailedWrite v tape n files pos ↔ FailedWrite s tape n files pos := by
  simp only [FailedWrite, wroteFile_congr h]

end

/-- A failed $TAPEWRITE: some bytes in the unit's file, the position moved among them, and nothing else (U10). -/
theorem exec_tapeWrite_failed {s v : State} {r : Reg} {op : Operand} {cs code : Word} {u : Fin 8}
    {tape : Tape} {n : Nat} (h : PeriReady s op cs .tapeWrite)
    (hp : tapeWrite s cs = answer code (scribbleTape v u tape n)) (hv : v.mem = s.mem)
    (hfiles : v.world.files = s.world.files) (htapes : v.world.tapes = s.world.tapes) :
    ∃ t files pos, exec (.peri r op) s = .next t ∧ SameMemory s t ∧ FailedWrite s tape n files pos ∧
      PeriEnded r code
        { v.world with
          files := files
          tapes := s.world.tapes.set u (some { tape with pos := pos }) } s t := by
  obtain ⟨hmem, files, pos, hwrite, hworld⟩ := scribbleTape_frame v u tape n
  obtain ⟨t, hexec, hsame, hended⟩ :=
    exec_peri_world (r := r) h hp (hmem.trans hv) (hworld.trans (by rw [htapes]))
  exact ⟨t, files, pos, hexec, hsame, (failedWrite_congr hfiles).1 hwrite, hended⟩

/-- A $TAPEWRITE that ends well: the bytes in the unit's file, the position moved by their number (R212). -/
theorem exec_tapeWrite_done {s : State} {r : Reg} {op : Operand} {cs count : Word} {u : Fin 8} {tape : Tape}
    {bytes new : List Byte} (h : PeriReady s op cs .tapeWrite) (hbytes : tapeContent s tape = some bytes)
    (hp : tapeWrite s cs = answer count (setTape (writeFile (hostFails s).2 tape bytes new) u
      (some { tape with pos := tape.pos + new.length }))) :
    ∃ t files, exec (.peri r op) s = .next t ∧ SameMemory s t ∧ WroteFile s tape new files ∧
      PeriEnded r count
        { (hostFails s).2.world with
          files := files
          tapes := s.world.tapes.set u (some { tape with pos := tape.pos + new.length }) } s t := by
  obtain ⟨hfiles, htapes⟩ := hostFails_files s
  obtain ⟨hmem, files, hwrote, hworld⟩ :=
    writeFile_frame (hostFails s).2 tape new ((tapeContent_congr hfiles).trans hbytes)
  obtain ⟨t, hexec, hsame, hended⟩ := exec_peri_world (r := r) h hp (hmem.trans (hostFails_mem s))
    (by rw [setTape, setWorld_world, hworld, htapes])
  exact ⟨t, files, hexec, hsame, (wroteFile_congr hfiles).1 hwrote, hended⟩

/-- Settles O59: the ends of $TAPEREAD in the order of its checks, then those of $TAPEWRITE, with what each leaves. -/
theorem tapeReadDeliversTheNextBlock : Obligations.TapeReadDeliversTheNextBlock := by
  intro s r op cs unit addr o h hunit haddr
  refine ⟨fun hbad => ⟨?_, ?_⟩, ?_⟩
  · rintro rfl
    exact exec_peri_same h (tapeRead_badUnit hunit haddr hbad)
  · rintro count rfl hcount
    exact exec_peri_same h (tapeWrite_badUnit ⟨hunit, haddr, hcount⟩ hbad)
  rintro u rfl
  refine ⟨?_, ?_, ?_⟩
  · rintro rfl hnone
    exact exec_peri_same h (tapeRead_unloaded hunit haddr hnone)
  · rintro tape rfl hsome
    refine ⟨fun hmode => exec_peri_refused h (tapeRead_misuse hunit haddr hsome hmode),
      fun hmode hgone => exec_peri_same h (tapeRead_gone hunit haddr hsome hmode hgone),
      fun bytes hmode hbytes => ?_⟩
    rw [← blockAt_length bytes tape.pos]
    refine ⟨fun j hvm hj hbad => ?_, fun hroom => ?_⟩
    · obtain ⟨c, a, info, hst⟩ := storeItems_fails (is := blockItems (blockAt bytes tape.pos)) hvm
        (by rwa [blockItems_length]) hbad
      obtain ⟨hout, pos, hlow, hhigh, hworld⟩ :=
        failedTapeRead_frame u tape addr (blockItems_length_le bytes tape.pos) hvm
      obtain ⟨t, hexec, hended, hout', -⟩ := exec_peri_stores (r := r) h
        (tapeRead_unreached hunit haddr hsome hmode hbytes hst) hworld hout
      exact ⟨t, pos, hexec, hlow, hhigh, hended, hout'⟩
    · obtain ⟨v, hst, hworld, hout, hstored⟩ := storeBlock_physical bytes tape.pos hroom
      obtain ⟨t, hexec, hended, hout', hmem⟩ := exec_peri_stores (r := r) h
        (tapeRead_done hunit haddr hsome hmode hbytes hst) (by rw [setTape, setWorld_world, hworld])
        (hout.of_mem rfl)
      refine ⟨t, hexec, hended, hout', fun k hk => ?_⟩
      obtain ⟨w, hw, hbyte⟩ := hstored k hk
      exact ⟨w, (sameMemory_of_mem hmem _).trans hw, hbyte⟩
  · rintro count rfl hcount
    have hin : ThreeInputs s cs (BitVec.ofNat 32 (u.val + 1)) addr count := ⟨hunit, haddr, hcount⟩
    refine ⟨fun hnone => exec_peri_same h (tapeWrite_unloaded hin hnone), fun tape hsome =>
      ⟨fun hbad => exec_peri_refused h (tapeWrite_misuse hin hsome hbad), fun hmode hmax =>
        ⟨fun hfails => ?_, fun hreads => ?_⟩⟩⟩
    · obtain ⟨c, a, info, hr⟩ := readWords_fails hfails
      exact exec_tapeWrite_failed h (tapeWrite_unreadable hin hsome hmode hmax hr) rfl rfl rfl
    obtain ⟨ws, hr, -, -⟩ := readWords_ok hreads
    refine ⟨fun hgone => exec_peri_same h (tapeWrite_gone hin hsome hmode hmax hr hgone),
      fun hcontent hf => ?_, fun new hcontent hf hlen hpacked => ?_⟩
    · obtain ⟨bytes, hbytes⟩ := Option.ne_none_iff_exists'.1 hcontent
      obtain ⟨hfiles, htapes⟩ := hostFails_files s
      exact exec_tapeWrite_failed h (tapeWrite_deviceFails hin hsome hmode hmax hr hbytes hf)
        (hostFails_mem s) hfiles htapes
    · obtain ⟨bytes, hbytes⟩ := Option.ne_none_iff_exists'.1 hcontent
      obtain ⟨vs, hvs, hnew⟩ := readWords_packed hpacked
      rw [hlen] at hvs hnew
      refine exec_tapeWrite_done h hbytes ?_
      rw [tapeWrite_done hin hsome hmode hmax hvs hbytes hf, hnew, hlen]

end Sys2Proof.Machine
end

section
/-! PROOF. O56: the keyboard operations (R231, R233). Both are one read of keys, whose items are the words of a
string or one word a key; the read is said once for each way it can end. -/

namespace Sys2Proof.Machine

/-! ### The words that keys are stored in -/

/-- A string of keys is stored as whole words: its groups of four, the terminator among them (R62). -/
theorem stringItems_eq (keys : List Byte) :
    stringItems keys = ((chunks (keys ++ [0])).map packWord).map Item.exact := by
  rw [List.map_map]
  rfl

theorem wordItems_eq (keys : List Byte) :
    wordItems keys = (keys.map fun c => c.zeroExtend 32).map Item.exact := by
  rw [List.map_map]
  rfl

theorem stringWords_length (keys : List Byte) :
    ((chunks (keys ++ [0])).map packWord).length = keys.length / 4 + 1 := by
  rw [List.length_map, (chunks_length _).1, List.length_append, List.length_singleton]
  omega

theorem stringItems_length (keys : List Byte) : (stringItems keys).length = keys.length / 4 + 1 := by
  rw [stringItems_eq, List.length_map, stringWords_length]

theorem wordItems_length (keys : List Byte) : (wordItems keys).length = keys.length :=
  List.length_map _

/-- The terminator is the zero that lies beyond the keys anyway. -/
theorem getD_append_zero (keys : List Byte) (k : Nat) : (keys ++ [0]).getD k 0 = keys.getD k 0 := by
  rcases Nat.lt_trichotomy k keys.length with h | rfl | h
  · rw [List.getD_append _ _ _ _ h]
  · rw [List.getD_append_right _ _ _ _ le_rfl, Nat.sub_self, List.getD_eq_default _ _ le_rfl]
    rfl
  · rw [List.getD_eq_default _ _ (by simpa using h), List.getD_eq_default _ _ h.le]

/-- Keys stored as a string, with VM off: packed, and zero to the end of the last word (R231). -/
theorem storeString_physical {s : State} {addr : Word} {keys : List Byte}
    (hroom : Room s addr (keys.length / 4 + 1)) (hlen : keys.length / 4 + 1 ≤ 2 ^ 32) :
    ∃ v, storeItems (stringItems keys) addr s = .ok v ∧ v.world = s.world ∧
      SameMemoryOutside addr (keys.length / 4 + 1) s v ∧
      ∀ k : Nat, k < 4 * (keys.length / 4 + 1) → ByteAt v addr k (keys.getD k 0) := by
  rw [← stringWords_length] at hroom hlen ⊢
  obtain ⟨v, hst, hworld, hout, hstored⟩ := storeWords_physical hroom hlen
  refine ⟨v, by rwa [stringItems_eq], hworld, hout, fun k hk => ?_⟩
  have hgroup : k / 4 < (chunks (keys ++ [0])).length := by
    rw [List.length_map] at hk
    omega
  refine ⟨_, hstored (k / 4) (by rwa [List.length_map]), ?_⟩
  rw [List.getElem_map, packWord_byte _ _ (Nat.mod_lt _ (by omega))
    ((chunks_length _).2 _ (List.getElem_mem hgroup)), chunks_get _ _ hgroup, getD_append_zero]

/-- Keys stored one a word, with VM off (R233). -/
theorem storeKeyWords_physical {s : State} {addr : Word} {keys : List Byte}
    (hroom : Room s addr keys.length) (hlen : keys.length ≤ 2 ^ 32) :
    ∃ v, storeItems (wordItems keys) addr s = .ok v ∧ v.world = s.world ∧
      SameMemoryOutside addr keys.length s v ∧
      ∀ k : Nat, k < keys.length →
        v.word (addr + BitVec.ofNat 32 k).toNat = some ((keys.getD k 0).zeroExtend 32) := by
  have hwords : (keys.map fun c => c.zeroExtend 32).length = keys.length := List.length_map _
  obtain ⟨v, hst, hworld, hout, hstored⟩ := storeWords_physical (ws := keys.map fun c => c.zeroExtend 32)
    (by rwa [hwords]) (by rwa [hwords])
  refine ⟨v, by rwa [wordItems_eq], hworld, by rwa [hwords] at hout, fun k hk => ?_⟩
  rw [hstored k (by rwa [hwords]), List.getElem_map, List.getD_eq_getElem _ _ hk]

/-! ### A read of keys -/

section
variable {s : State} {r : Reg} {op : Operand} {cs count addr : Word} {o : PeriOp}

/-- Some keys leave the buffer of a read that fails (U10). -/
def failedKeys (s : State) (n : Nat) (items : List Item) (addr : Word) : State :=
  let gone := drawUpTo n (failedStores s items addr items.length)
  dropKeys gone.2 gone.1

theorem readKeys_unreached {n : Nat} {items : List Item} {c : Cause} {a info : Option Word}
    (hst : storeItems items addr s = .raise c a info) :
    readKeys s n items addr = answer errMemory (failedKeys s n items addr) := by
  simp only [readKeys, hst, access, failedKeys]

theorem readKeys_done {n : Nat} {items : List Item} {v : State} (hst : storeItems items addr s = .ok v) :
    readKeys s n items addr = answer (BitVec.ofNat 32 n) (dropKeys v n) := by
  simp only [readKeys, hst, access]

theorem failedKeys_frame (n : Nat) (items : List Item) (addr : Word) (hvm : s.flags.vm = false) :
    SameMemoryOutside addr items.length s (failedKeys s n items addr) ∧
      ∃ gone, gone ≤ n ∧
        (failedKeys s n items addr).world =
          { s.world with keyboard := s.world.keyboard.drop gone } := by
  obtain ⟨hworld, hout⟩ := failedStores_frame (is := items) addr le_rfl hvm
  refine ⟨hout.of_mem rfl, _, drawUpTo_le n (failedStores s items addr items.length), ?_⟩
  simp only [failedKeys, dropKeys, setWorld_world, drawUpTo, drawWord, setDraws_world, hworld]

/-- A read of keys that meets a word that does not exist (R231, U10). -/
theorem exec_readKeys_failed {n m j : Nat} {items : List Item} (h : PeriReady s op cs o)
    (hp : runPeriOp o cs s = readKeys s n items addr) (hm : items.length = m) (hvm : s.flags.vm = false)
    (hj : j < m) (hbad : physValid s (addr + BitVec.ofNat 32 j) = false) :
    ∃ t gone, exec (.peri r op) s = .next t ∧ gone ≤ n ∧
      PeriEnded r (BitVec.ofInt 32 (-5))
        { s.world with keyboard := s.world.keyboard.drop gone } s t ∧
      SameMemoryOutside addr m s t := by
  subst hm
  obtain ⟨c, a, info, hst⟩ := storeItems_fails hvm hj hbad
  obtain ⟨hout, gone, hgone, hworld⟩ := failedKeys_frame n items addr hvm
  obtain ⟨t, hexec, hended, hout', -⟩ :=
    exec_peri_stores (r := r) h (hp.trans (readKeys_unreached hst)) hworld hout
  exact ⟨t, gone, hexec, hgone, hended, hout'⟩

/-- A read of keys that are all stored: they leave the buffer (R231, R233). -/
theorem exec_readKeys_done {n m : Nat} {items : List Item} {v : State} (h : PeriReady s op cs o)
    (hp : runPeriOp o cs s = readKeys s n items addr) (hst : storeItems items addr s = .ok v)
    (hworld : v.world = s.world) (hout : SameMemoryOutside addr m s v) :
    ∃ t, exec (.peri r op) s = .next t ∧
      PeriEnded r (BitVec.ofNat 32 n) { s.world with keyboard := s.world.keyboard.drop n } s t ∧
      SameMemoryOutside addr m s t ∧ SameMemory v t := by
  obtain ⟨t, hexec, hended, hout', hmem⟩ := exec_peri_stores (r := r) h (hp.trans (readKeys_done hst))
    (by rw [dropKeys, setWorld_world, hworld]) (hout.of_mem rfl)
  exact ⟨t, hexec, hended, hout', sameMemory_of_mem hmem⟩

/-! ### $TERMINC and $TERMINW -/

/-- The keys that a read of at most `count` takes. -/
def takenKeys (s : State) (count : Word) : List Byte := s.world.keyboard.take (takeable s count)

theorem takenKeys_length : (takenKeys s count).length = takeable s count := by
  rw [takenKeys, List.length_take]
  exact min_eq_left (min_le_right _ _)

theorem takeable_lt : takeable s count < 2 ^ 32 := (min_le_left _ _).trans_lt count.isLt

theorem takenKeys_getD {k : Nat} (hk : k < takeable s count) :
    (takenKeys s count).getD k 0 = s.world.keyboard.getD k 0 := by
  have htaken := takenKeys_length (s := s) (count := count)
  have hkeys : takeable s count ≤ s.world.keyboard.length := min_le_right _ _
  rw [List.getD_eq_getElem _ _ (by omega), List.getD_eq_getElem _ _ (by omega)]
  simp only [takenKeys, List.getElem_take]

theorem runPeriOp_termIn_badCount (ho : o = .termInC ∨ o = .termInW)
    (hcount : memRead s (cs + 1) = .ok count) (haddr : memRead s (cs + 2) = .ok addr)
    (hc : count.toInt ≤ 0) : runPeriOp o cs s = .stop (.refusal (.periCount count)) := by
  rcases ho with rfl | rfl
  · simp only [runPeriOp, termInC, withParams2_ok hcount haddr, if_pos hc]
  · simp only [runPeriOp, termInW, withParams2_ok hcount haddr, if_pos hc]

theorem termInC_reads (hcount : memRead s (cs + 1) = .ok count) (haddr : memRead s (cs + 2) = .ok addr)
    (hc : 0 < count.toInt) :
    termInC s cs = readKeys s (takeable s count) (stringItems (takenKeys s count)) addr := by
  simp only [termInC, withParams2_ok hcount haddr, if_neg (not_le.2 hc), takenKeys]

theorem termInW_reads (hcount : memRead s (cs + 1) = .ok count) (haddr : memRead s (cs + 2) = .ok addr)
    (hc : 0 < count.toInt) :
    termInW s cs = readKeys s (takeable s count) (wordItems (takenKeys s count)) addr := by
  simp only [termInW, withParams2_ok hcount haddr, if_neg (not_le.2 hc), takenKeys]

end

/-- Settles O56: both operations are a read of the keys taken, which ends in one of its two ways. -/
theorem termincTakesKeysAsAString : Obligations.TermincTakesKeysAsAString := by
  intro s r op cs count addr o h hcount haddr
  refine ⟨fun ho hc => exec_peri_refused h (runPeriOp_termIn_badCount ho hcount haddr hc), fun hc => ?_⟩
  have hlen := takenKeys_length (s := s) (count := count)
  have hlt := takeable_lt (s := s) (count := count)
  refine ⟨?_, ?_, ?_⟩
  · rintro rfl hroom
    obtain ⟨v, hst, hworld, hout, hstored⟩ := storeString_physical (keys := takenKeys s count)
      (by rwa [hlen]) (by omega)
    rw [hlen] at hout hstored
    obtain ⟨t, hexec, hended, hout', hsame⟩ :=
      exec_readKeys_done h (termInC_reads hcount haddr hc) hst hworld hout
    refine ⟨t, hexec, hended, hout', fun k hk => ?_⟩
    obtain ⟨w, hw, hbyte⟩ := hstored k hk
    exact ⟨w, (hsame _).trans hw, hbyte⟩
  · rintro rfl hvm hroom
    obtain ⟨v, hst, hworld, hout, hstored⟩ := storeKeyWords_physical (keys := takenKeys s count)
      (by rwa [hlen]) (by omega)
    rw [hlen] at hout hstored
    obtain ⟨t, hexec, hended, hout', hsame⟩ :=
      exec_readKeys_done h (termInW_reads hcount haddr hc) hst hworld hout
    refine ⟨t, hexec, hended, hout', fun k hk => ?_⟩
    rw [hsame, hstored k hk, takenKeys_getD hk]
  · rintro j words (⟨rfl, rfl⟩ | ⟨rfl, rfl⟩) hj hvm hbad
    · exact exec_readKeys_failed h (termInC_reads hcount haddr hc)
        (by rw [stringItems_length, hlen, takeable]) hvm hj hbad
    · exact exec_readKeys_failed h (termInW_reads hcount haddr hc)
        (by rw [wordItems_length, hlen, takeable]) hvm hj hbad

end Sys2Proof.Machine
end

section
/-! PROOF. O57: the print operations (R232, R234). $TERMOUTC and $TERMOUTW are each said once for each way they can
end, by count and to the zero; the statement reads those ends off. -/

namespace Sys2Proof.Machine

/-! ### The ends of a print -/

section
variable {s : State} {r : Reg} {op : Operand} {cs : Word} {o : PeriOp} {chars : List Byte}

/-- Characters printed: their number is the result, and memory is as it was (R232). -/
theorem exec_printed (h : PeriReady s op cs o) (hp : runPeriOp o cs s = printed s chars) :
    ∃ t result, exec (.peri r op) s = .next t ∧ SameMemory s t ∧ CountIs chars.length result ∧
      PeriEnded r result { s.world with output := s.world.output ++ chars } s t := by
  obtain ⟨result, v, hcount, hresult, hvmem, hvworld⟩ := answerCount_ok chars.length (printChars s chars)
  obtain ⟨t, hexec, hmem, hended⟩ := exec_peri_world (r := r) h (hp.trans hcount) hvmem hvworld
  exact ⟨t, result, hexec, hmem, hresult, hended⟩

/-- A print that failed: some beginning of the characters is printed (U10). -/
theorem exec_printFailed (h : PeriReady s op cs o) (hp : runPeriOp o cs s = printFailed s chars) :
    ∃ t n, exec (.peri r op) s = .next t ∧ SameMemory s t ∧
      PeriEnded r (BitVec.ofInt 32 (-5))
        { s.world with output := s.world.output ++ chars.take n } s t := by
  obtain ⟨t, hexec, hmem, hended⟩ := exec_peri_world (r := r) h hp rfl rfl
  exact ⟨t, _, hexec, hmem, hended⟩

end

theorem zero_toInt_not_neg : ¬ (0 : Word).toInt < 0 := by decide

theorem ne_zero_of_toInt_pos {count : Word} (h : 0 < count.toInt) : count ≠ 0 := by
  rintro rfl
  exact absurd h (by decide)

/-- Words that end before the first that cannot be read: reading on fails there (R87). -/
theorem WordsAt.readFails {s : State} {addr : Word} {ws : List Word} {n : Nat} {c : Cause}
    {a info : Option Word} (h : WordsAt s addr ws) (hlen : ws.length < n)
    (hf : memRead s (addr + BitVec.ofNat 32 ws.length) = .raise c a info) : ReadFails s addr n :=
  ⟨ws.length, hlen, fun k hk => ⟨_, h k hk⟩, c, a, info, hf⟩

/-! ### $TERMOUTC and $TERMOUTW -/

section
variable {s : State} {cs count addr : Word} {ws : List Word} {chars : List Byte} {c : Cause}
  {a info : Option Word}

theorem runPeriOp_termOut_badCount {o : PeriOp} (ho : o = .termOutC ∨ o = .termOutW)
    (hcount : memRead s (cs + 1) = .ok count) (haddr : memRead s (cs + 2) = .ok addr)
    (hc : count.toInt < 0) : runPeriOp o cs s = .stop (.refusal (.periCount count)) := by
  rcases ho with rfl | rfl
  · simp only [runPeriOp, termOutC, withParams2_ok hcount haddr, if_pos hc]
  · simp only [runPeriOp, termOutW, withParams2_ok hcount haddr, if_pos hc]

theorem termOutC_counted (hcount : memRead s (cs + 1) = .ok count) (haddr : memRead s (cs + 2) = .ok addr)
    (hc : 0 < count.toInt) (hr : readWords s addr ((count.toNat + 3) / 4) = .ok ws) :
    termOutC s cs = printed s ((ws.flatMap unpackWord).take count.toNat) := by
  simp only [termOutC, withParams2_ok hcount haddr, if_neg hc.not_gt, if_neg (ne_zero_of_toInt_pos hc), hr,
    access]

theorem termOutC_countedFails (hcount : memRead s (cs + 1) = .ok count)
    (haddr : memRead s (cs + 2) = .ok addr) (hc : 0 < count.toInt)
    (hr : readWords s addr ((count.toNat + 3) / 4) = .raise c a info) :
    termOutC s cs = printFailed s
      (((readablePrefix s addr ((count.toNat + 3) / 4)).flatMap unpackWord).take count.toNat) := by
  simp only [termOutC, withParams2_ok hcount haddr, if_neg hc.not_gt, if_neg (ne_zero_of_toInt_pos hc), hr,
    access]

theorem termOutC_string (hcount : memRead s (cs + 1) = .ok 0) (haddr : memRead s (cs + 2) = .ok addr)
    (hr : readString s addr addressSpace = .ok chars) : termOutC s cs = printed s chars := by
  simp only [termOutC, withParams2_ok hcount haddr, if_neg zero_toInt_not_neg, if_true, hr, access]

theorem termOutC_stringFails (hcount : memRead s (cs + 1) = .ok 0) (haddr : memRead s (cs + 2) = .ok addr)
    (hr : readString s addr addressSpace = .raise c a info) :
    termOutC s cs = printFailed s ((readablePrefix s addr addressSpace).flatMap unpackWord) := by
  simp only [termOutC, withParams2_ok hcount haddr, if_neg zero_toInt_not_neg, if_true, hr, access]

/-- A print of packed characters that meets a word it cannot read: of the words before it, some of the characters it
was to print (R232, U10). -/
theorem termOutC_fails (hcount : memRead s (cs + 1) = .ok count) (haddr : memRead s (cs + 2) = .ok addr)
    (hws : WordsAt s addr ws)
    (hlen : 0 < count.toInt ∧ ws.length < (count.toNat + 3) / 4 ∨
      count = 0 ∧ ws.length < 2 ^ 32 ∧ ∀ w ∈ ws, 0 ∉ unpackWord w)
    (hf : memRead s (addr + BitVec.ofNat 32 ws.length) = .raise c a info) :
    ∃ chars, termOutC s cs = printFailed s chars ∧
      ∀ n, ∃ m, chars.take n = (ws.flatMap unpackWord).take m := by
  rcases hlen with ⟨hc, hlen⟩ | ⟨rfl, hlen, hzero⟩
  · obtain ⟨c', a', info', hr⟩ := readWords_fails (hws.readFails hlen hf)
    rw [termOutC_countedFails hcount haddr hc hr, readablePrefix_of hlen (readWords_at hws) hf]
    exact ⟨_, rfl, fun n => ⟨_, List.take_take⟩⟩
  · rw [termOutC_stringFails hcount haddr (readString_fails hws hzero hf hlen),
      readablePrefix_of (n := addressSpace) hlen (readWords_at hws) hf]
    exact ⟨_, rfl, fun n => ⟨n, rfl⟩⟩

/-- The words that $TERMOUTW prints: `count` of them, or with a count of zero those before the zero word (R234). -/
def outWords (s : State) (addr count : Word) : Res (List Word) :=
  if count = 0 then readUntilZero s addr addressSpace else readWords s addr count.toNat

/-- The words of those that can be read before one that cannot. -/
def outPrefix (s : State) (addr count : Word) : List Word :=
  readablePrefix s addr (if count = 0 then addressSpace else count.toNat)

theorem termOutW_eq (hcount : memRead s (cs + 1) = .ok count) (haddr : memRead s (cs + 2) = .ok addr)
    (hc : ¬ count.toInt < 0) :
    termOutW s cs = access (outWords s addr count)
      (wordChars (outPrefix s addr count) (printFailed s)) fun ws => wordChars ws (printed s) := by
  by_cases hzero : count = 0
  · simp only [termOutW, withParams2_ok hcount haddr, if_neg hc, outWords, outPrefix, if_pos hzero]
  · simp only [termOutW, withParams2_ok hcount haddr, if_neg hc, outWords, outPrefix, if_neg hzero]

theorem termOutW_whole (hcount : memRead s (cs + 1) = .ok count) (haddr : memRead s (cs + 2) = .ok addr)
    (hws : WordsAt s addr ws)
    (hlen : 0 < count.toInt ∧ ws.length = count.toNat ∨
      count = 0 ∧ ws.length < 2 ^ 32 ∧ 0 ∉ ws ∧ memRead s (addr + BitVec.ofNat 32 ws.length) = .ok 0) :
    termOutW s cs = wordChars ws (printed s) := by
  rcases hlen with ⟨hc, hlen⟩ | ⟨rfl, hlen, hzero, hend⟩
  · rw [termOutW_eq hcount haddr hc.not_gt, outWords, if_neg (ne_zero_of_toInt_pos hc), ← hlen,
      readWords_at hws, access]
  · rw [termOutW_eq hcount haddr zero_toInt_not_neg, outWords, if_pos rfl,
      readUntilZero_words (n := addressSpace) hws hzero hend hlen, access]

theorem termOutW_fails (hcount : memRead s (cs + 1) = .ok count) (haddr : memRead s (cs + 2) = .ok addr)
    (hws : WordsAt s addr ws)
    (hlen : 0 < count.toInt ∧ ws.length < count.toNat ∨ count = 0 ∧ ws.length < 2 ^ 32 ∧ 0 ∉ ws)
    (hf : memRead s (addr + BitVec.ofNat 32 ws.length) = .raise c a info) :
    termOutW s cs = wordChars ws (printFailed s) := by
  rcases hlen with ⟨hc, hlen⟩ | ⟨rfl, hlen, hzero⟩
  · obtain ⟨c', a', info', hr⟩ := readWords_fails (hws.readFails hlen hf)
    rw [termOutW_eq hcount haddr hc.not_gt, outWords, outPrefix, if_neg (ne_zero_of_toInt_pos hc),
      if_neg (ne_zero_of_toInt_pos hc), hr, access, readablePrefix_of hlen (readWords_at hws) hf]
  · rw [termOutW_eq hcount haddr zero_toInt_not_neg, outWords, outPrefix, if_pos rfl, if_pos rfl,
      readUntilZero_fails (n := addressSpace) hws hzero hf hlen, access,
      readablePrefix_of (n := addressSpace) hlen (readWords_at hws) hf]

end

/-- Characters one a word hold no zero word where none of them is zero. -/
theorem zero_notMem_words {chars : List Byte} (h : 0 ∉ chars) :
    (0 : Word) ∉ chars.map fun c => c.zeroExtend 32 := by
  intro hmem
  obtain ⟨c, hc, hzero⟩ := List.mem_map.1 hmem
  have hbyte : c = 0 := by
    have hnat := congrArg BitVec.toNat hzero
    simp only [BitVec.truncate_eq_setWidth] at hnat
    bv_omega
  exact h (hbyte ▸ hc)

/-- Settles O57: the refusal, then the ends of $TERMOUTC, then those of $TERMOUTW, whose words each hold a character
or are refused. -/
theorem termoutcPrintsPackedCharacters : Obligations.TermoutcPrintsPackedCharacters := by
  intro s r op cs count addr o h hcount haddr
  refine ⟨fun ho hc => exec_peri_refused h (runPeriOp_termOut_badCount ho hcount haddr hc),
    ?_, ?_, ?_, ?_, ?_⟩
  · rintro chars rfl (⟨hc, hlen, hpacked⟩ | ⟨rfl, hstring⟩)
    · obtain ⟨ws, hr, hchars⟩ := readWords_packed hpacked
      rw [hlen] at hr hchars
      exact exec_printed h ((termOutC_counted hcount haddr hc hr).trans (by rw [hchars]))
    · exact exec_printed h (termOutC_string hcount haddr (readString_stringAt hstring))
  · rintro ws c a info rfl hws hlen hf
    obtain ⟨chars, hp, hprefix⟩ := termOutC_fails hcount haddr hws hlen hf
    obtain ⟨t, n, hexec, hmem, hended⟩ := exec_printFailed (r := r) h hp
    obtain ⟨m, hm⟩ := hprefix n
    exact ⟨t, m, hexec, hmem, hm ▸ hended⟩
  · rintro chars rfl hws hlen
    rw [← List.length_map (fun c : Byte => c.zeroExtend 32)] at hlen
    refine exec_printed h ((termOutW_whole hcount haddr hws ?_).trans (wordChars_of chars _))
    exact hlen.imp_right fun ⟨hc, hlt, hzero, hend⟩ => ⟨hc, hlt, zero_notMem_words hzero, hend⟩
  · rintro chars c a info rfl hws hlen hf
    rw [← List.length_map (fun c : Byte => c.zeroExtend 32)] at hlen hf
    refine exec_printFailed h ((termOutW_fails hcount haddr hws ?_ hf).trans (wordChars_of chars _))
    exact hlen.imp_right fun ⟨hc, hlt, hzero⟩ => ⟨hc, hlt, zero_notMem_words hzero⟩
  · rintro ws rfl hws hlen hwide
    exact exec_peri_refused h ((termOutW_whole hcount haddr hws hlen).trans (wordChars_wide hwide _))

end Sys2Proof.Machine
end

section
/-! PROOF. O60: the network operations (R240 to R243) and the clock operations (R250 to R252). Each operation is said
once for each way it can end, in the order of its checks; the statement reads those ends off. -/

namespace Sys2Proof.Machine

/-! ### The clock -/

section
variable {s : State} {r : Reg} {op : Operand} {cs : Word} {o : PeriOp}

/-- A success whose result the spec does not state: some word that is zero or positive (U18). -/
theorem exec_unstated {u : State} {w : World} (h : PeriReady s op cs o)
    (hp : runPeriOp o cs s = answerUnstated u) (hw : u.world = w) :
    ∃ t result, exec (.peri r op) s = .next t ∧ 0 ≤ result.toInt ∧ PeriEnded r result w s t ∧
      t.mem = u.mem := by
  obtain ⟨result, v, hanswer, hpos, hmem, hworld⟩ := answerUnstated_ok u
  obtain ⟨t, hexec, hended, hmem'⟩ := exec_peri_ready (r := r) h (hp.trans hanswer)
  exact ⟨t, result, hexec, hpos, hw ▸ hworld ▸ hended, hmem'.trans hmem⟩

theorem storeOutputs_done {k : Nat} {ws : List Word} {v : State}
    (hst : storeItems (ws.map Item.exact) (cs + BitVec.ofNat 32 k) s = .ok v) :
    storeOutputs s cs k ws = answerUnstated v := by
  simp only [storeOutputs, hst, access]

theorem storeOutputs_fails {k : Nat} {ws : List Word} {c : Cause} {a info : Option Word}
    (hst : storeItems (ws.map Item.exact) (cs + BitVec.ofNat 32 k) s = .raise c a info) :
    storeOutputs s cs k ws = answer errReadParams
      (failedStores s (ws.map Item.exact) (cs + BitVec.ofNat 32 k) ws.length) := by
  simp only [storeOutputs, hst, access]

/-- Outputs stored in the control structure, with VM off (R251, R252). -/
theorem exec_storeOutputs_done {k : Nat} {ws : List Word} (h : PeriReady s op cs o)
    (hp : runPeriOp o cs s = storeOutputs s cs k ws)
    (hroom : Room s (cs + BitVec.ofNat 32 k) ws.length) (hlen : ws.length ≤ 2 ^ 32) :
    ∃ t result, exec (.peri r op) s = .next t ∧ 0 ≤ result.toInt ∧ PeriEnded r result s.world s t ∧
      SameMemoryOutside (cs + BitVec.ofNat 32 k) ws.length s t ∧
      ∀ j (hj : j < ws.length),
        t.word (cs + BitVec.ofNat 32 k + BitVec.ofNat 32 j).toNat = some ws[j] := by
  obtain ⟨v, hst, hworld, hout, hstored⟩ := storeWords_physical hroom hlen
  obtain ⟨t, result, hexec, hpos, hended, hmem⟩ :=
    exec_unstated (r := r) h (hp.trans (storeOutputs_done hst)) hworld
  exact ⟨t, result, hexec, hpos, hended, hout.of_mem hmem, fun j hj =>
    (sameMemory_of_mem hmem _).trans (hstored j hj)⟩

/-- An output that does not exist is -2, and the other outputs hold anything (R251, R252, U10). -/
theorem exec_storeOutputs_failed {k j : Nat} {ws : List Word} (h : PeriReady s op cs o)
    (hp : runPeriOp o cs s = storeOutputs s cs k ws) (hvm : s.flags.vm = false) (hj : j < ws.length)
    (hbad : physValid s (cs + BitVec.ofNat 32 k + BitVec.ofNat 32 j) = false) :
    ∃ t, exec (.peri r op) s = .next t ∧
      SameMemoryOutside (cs + BitVec.ofNat 32 k) ws.length s t ∧
      PeriEnded r (BitVec.ofInt 32 (-2)) s.world s t := by
  have hitems : (ws.map Item.exact).length = ws.length := List.length_map _
  obtain ⟨c, a, info, hst⟩ := storeItems_fails hvm (hitems.symm ▸ hj) hbad
  obtain ⟨hworld, hout⟩ := failedStores_frame (cs + BitVec.ofNat 32 k) hitems.le hvm
  obtain ⟨t, hexec, hended, hout', -⟩ :=
    exec_peri_stores (r := r) h (hp.trans (storeOutputs_fails hst)) hworld hout
  exact ⟨t, hexec, hout', hended⟩

theorem dateTimeOp_negative {time : Word} (htime : memRead s (cs + 1) = .ok time) (hneg : time.toInt < 0) :
    dateTimeOp s cs = .stop (.refusal (.negativeTime time)) := by
  simp only [dateTimeOp, withParam1_ok htime, if_pos hneg]

theorem dateTimeOp_stores {time : Word} (htime : memRead s (cs + 1) = .ok time) (hpos : 0 ≤ time.toInt) :
    dateTimeOp s cs =
      storeOutputs s cs 2 ((dateParts s.cfg.zone time.toNat).map (BitVec.ofNat 32)) := by
  simp only [dateTimeOp, withParam1_ok htime, if_neg hpos.not_gt]

end

theorem dateParts_length (zone : List (Nat × Int)) (t : Nat) : (dateParts zone t).length = 7 := rfl

/-! ### A change of the world alone, and an address pair stored after it -/

/-- Of memory, flags and launch parameters nothing has changed: a move of the world or a draw. -/
structure WorldMove (s v : State) : Prop where
  mem : v.mem = s.mem
  flags : v.flags = s.flags
  cfg : v.cfg = s.cfg

theorem WorldMove.refl (s : State) : WorldMove s s := ⟨rfl, rfl, rfl⟩

theorem worldMove_hostNetStart (s : State) :
    WorldMove s (hostNetStart s).2 ∧ (hostNetStart s).2.world.nets = s.world.nets := by
  unfold hostNetStart
  split <;> exact ⟨⟨rfl, rfl, rfl⟩, rfl⟩

theorem worldMove_hostFails (s : State) :
    WorldMove s (hostFails s).2 ∧ (hostFails s).2.world.nets = s.world.nets ∧
      (hostFails s).2.world.sent = s.world.sent := by
  unfold hostFails
  split <;> exact ⟨⟨rfl, rfl, rfl⟩, rfl, rfl⟩

theorem AddressAt.of_words {v w : State} {p : Word} {a : BitVec 48} (h : AddressAt v p a)
    (hfirst : w.word p.toNat = v.word p.toNat) (hsecond : w.word (p + 1).toNat = v.word (p + 1).toNat)
    (hcfg : w.cfg = v.cfg) : AddressAt w p a := by
  obtain ⟨w0, w1, h0, h1, hpair⟩ := h
  exact ⟨w0, w1, hfirst.trans h0, hsecond.trans h1, hcfg ▸ hpair⟩

section
variable {s v : State}

theorem WorldMove.setNet (h : WorldMove s v) (u : Fin 2) (net : Option NetUnit) :
    WorldMove s (setNet v u net) := ⟨h.mem, h.flags, h.cfg⟩

theorem WorldMove.room {a : Word} {n : Nat} (h : WorldMove s v) (hroom : Room s a n) : Room v a n :=
  ⟨by rw [h.flags, hroom.1], fun k hk => (physValid_congr _ h.cfg).trans (hroom.2 k hk)⟩

/-- An address pair stored after the world moved: memory is as before it but for the pair (R241, R243). -/
theorem WorldMove.storeAddr {p : Word} (h : WorldMove s v) (a : BitVec 48) (hroom : Room s p 2) :
    ∃ w, storeAddr v p a = .ok w ∧ w.world = v.world ∧ SameMemoryOutside p 2 s w ∧ AddressAt w p a ∧
      w.flags = s.flags ∧ w.cfg = s.cfg := by
  obtain ⟨w, hst, hworld, hout, haddr⟩ := storeAddr_physical a (h.room hroom)
  have hstep := periStep_storeAddr hst
  exact ⟨w, hst, hworld, fun b hb => (hout b hb).trans (sameMemory_of_mem h.mem b), haddr,
    hstep.flags.trans h.flags, hstep.cfg.trans h.cfg⟩

/-- An operation that ends well with an address pair stored (R241). -/
theorem exec_pairStored {r : Reg} {op : Operand} {cs p : Word} {o : PeriOp} {a : BitVec 48} {world : World}
    (h : PeriReady s op cs o) (hv : WorldMove s v) (hw : v.world = world) (hroom : Room s p 2)
    (hp : ∀ w, Machine.storeAddr v p a = .ok w → runPeriOp o cs s = answerUnstated w) :
    ∃ t result, exec (.peri r op) s = .next t ∧ 0 ≤ result.toInt ∧ PeriEnded r result world s t ∧
      SameMemoryOutside p 2 s t ∧ AddressAt t p a := by
  obtain ⟨w, hst, hworld, hout, haddr, -, hcfg⟩ := hv.storeAddr a hroom
  obtain ⟨t, result, hexec, hpos, hended, hmem⟩ :=
    exec_unstated (r := r) h (hp w hst) (hworld.trans hw)
  have hsame := sameMemory_of_mem hmem
  exact ⟨t, result, hexec, hpos, hended, hout.of_mem hmem,
    haddr.of_words (hsame _) (hsame _) (hended.launch.trans hcfg.symm)⟩

end

/-! ### $NETSS -/

section
variable {s : State} {cs n command p port : Word} {u : Fin 2}

theorem netSS_unreached (hin : ThreeInputs s cs n command p) (hf : ReachFails s p 2) :
    netSS s cs = answer errMemory s := by
  obtain ⟨c, a, info, hr⟩ := reachable_fails hf
  simp only [netSS, hin.params, hr, access]

theorem netSS_badUnit (hin : ThreeInputs s cs n command p) (hr : Reaches s p 2)
    (hbad : n.toInt < 1 ∨ 2 < n.toInt) : netSS s cs = answer errDevNumber s := by
  simp only [netSS, hin.params, reachable_of hr, access, unitOfTwo_none hbad]

theorem netSS_badCommand (hin : ThreeInputs s cs (BitVec.ofNat 32 (u.val + 1)) command p)
    (hr : Reaches s p 2) (h0 : command ≠ 0) (h1 : command ≠ 1) :
    netSS s cs = .stop (.refusal (.netCommand command)) := by
  simp only [netSS, hin.params, reachable_of hr, access, unitOfTwo_succ, if_neg h0, if_neg h1]

theorem netSS_stop (hin : ThreeInputs s cs (BitVec.ofNat 32 (u.val + 1)) 0 p) (hr : Reaches s p 2) :
    netSS s cs = stopNet s u p := by
  simp only [netSS, hin.params, reachable_of hr, access, unitOfTwo_succ, if_true]

theorem netSS_start (hin : ThreeInputs s cs (BitVec.ofNat 32 (u.val + 1)) 1 p) (hr : Reaches s p 2)
    (hport : memRead s (p + 1) = .ok port) : netSS s cs = startNet s u p port := by
  have hone : (1 : Word) ≠ 0 := by decide
  simp only [netSS, hin.params, reachable_of hr, access, unitOfTwo_succ, if_neg hone, if_true, hport]

theorem stopNet_off (hnone : s.world.nets[u] = none) : stopNet s u p = answer errDevNumber s := by
  simp only [stopNet, hnone]

theorem stopNet_done {net : NetUnit} {w : State} (hsome : s.world.nets[u] = some net)
    (hst : storeAddr (setNet s u none) p net.addr = .ok w) : stopNet s u p = answerUnstated w := by
  simp only [stopNet, hsome, hst, access]

theorem startNet_on (hon : s.world.nets[u] ≠ none) : startNet s u p port = answer errInUse s := by
  obtain ⟨net, hsome⟩ := Option.ne_none_iff_exists'.1 hon
  simp only [startNet, hsome]

theorem startNet_denied {d : NetDenial} (hnone : s.world.nets[u] = none) (hport : port ≠ 0)
    (hd : (hostNetStart s).1.denial = some d) :
    startNet s u p port = answer (denialCode d) (hostNetStart s).2 := by
  simp only [startNet, hnone, NetStart.deniedFor, if_neg hport, hd]

theorem deniedFor_none {start : NetStart} (h : port = 0 ∨ start.denial = none) :
    start.deniedFor port = none := by
  unfold NetStart.deniedFor
  split
  · rfl
  · exact h.resolve_left ‹_›

theorem startNet_done {w : State} (hnone : s.world.nets[u] = none)
    (hgrant : port = 0 ∨ (hostNetStart s).1.denial = none)
    (hst : storeAddr (setNet (hostNetStart s).2 u (some ⟨(hostNetStart s).1.address port, []⟩)) p
      ((hostNetStart s).1.address port) = .ok w) :
    startNet s u p port = answerUnstated w := by
  simp only [startNet, hnone, deniedFor_none hgrant, hst, access]

end

/-- The codes with which the host may turn down a requested port (R241, U22). -/
theorem denialCode_listed (d : NetDenial) :
    ∃ code : Int, denialCode d = BitVec.ofInt 32 code ∧
      (code = -2 ∨ code = -5 ∨ code = -3 ∨ code = -9) := by
  cases d with
  | readParams => exact ⟨-2, rfl, by simp⟩
  | memory => exact ⟨-5, rfl, by simp⟩
  | devNumber => exact ⟨-3, rfl, by simp⟩
  | inUse => exact ⟨-9, rfl, by simp⟩

/-! ### $NETSEND -/

section
variable {s : State} {cs n p count addr : Word} {u : Fin 2} {pair ws : List Word}

/-- The four inputs of $NETSEND can be read. -/
abbrev SendInputs (s : State) (cs n p count addr : Word) : Prop := TransferInputs s cs n p count addr

theorem packetWords_eq (h : count.toNat ≤ 1024) : packetWords count = (count.toNat + 3) / 4 := if_pos h

/-- Where a count of at most 1024 has its words, the words that $NETSEND reads can be read (R242). -/
theorem readPacket_ok (h : count.toNat ≤ 1024 → Reads s addr ((count.toNat + 3) / 4)) :
    ∃ ws, readWords s addr (packetWords count) = .ok ws := by
  by_cases hle : count.toNat ≤ 1024
  · obtain ⟨ws, hws, -⟩ := readWords_ok (h hle)
    exact ⟨ws, packetWords_eq hle ▸ hws⟩
  · exact ⟨[], by rw [packetWords, if_neg hle, readWords]⟩

theorem readPair {w0 w1 : Word} (h0 : memRead s p = .ok w0) (h1 : memRead s (p + 1) = .ok w1) :
    readWords s p 2 = .ok [w0, w1] := by
  simp only [readWords, h0, h1, bind_ok]

theorem netSend_noPair (hin : SendInputs s cs n p count addr) (hf : ReadFails s p 2) :
    netSend s cs = answer errMemory s := by
  obtain ⟨c, a, info, hr⟩ := readWords_fails hf
  simp only [netSend, hin.params, hr, access]

theorem netSend_noData (hin : SendInputs s cs n p count addr) (hpair : readWords s p 2 = .ok pair)
    (hle : count.toNat ≤ 1024) (hf : ReadFails s addr ((count.toNat + 3) / 4)) :
    netSend s cs = answer errMemory s := by
  obtain ⟨c, a, info, hr⟩ := readWords_fails hf
  simp only [netSend, hin.params, hpair, access, packetWords_eq hle, hr]

theorem netSend_badUnit (hin : SendInputs s cs n p count addr) (hpair : readWords s p 2 = .ok pair)
    (hws : readWords s addr (packetWords count) = .ok ws) (hbad : n.toInt < 1 ∨ 2 < n.toInt) :
    netSend s cs = answer errDevNumber s := by
  simp only [netSend, hin.params, hpair, access, hws, unitOfTwo_none hbad]

theorem netSend_off (hin : SendInputs s cs (BitVec.ofNat 32 (u.val + 1)) p count addr)
    (hpair : readWords s p 2 = .ok pair) (hws : readWords s addr (packetWords count) = .ok ws)
    (hnone : s.world.nets[u] = none) : netSend s cs = answer errDevNumber s := by
  simp only [netSend, hin.params, hpair, access, hws, unitOfTwo_succ, hnone]

theorem netSend_tooLong (hin : SendInputs s cs (BitVec.ofNat 32 (u.val + 1)) p count addr)
    (hpair : readWords s p 2 = .ok pair) (hws : readWords s addr (packetWords count) = .ok ws)
    (hon : s.world.nets[u] ≠ none) (hlong : 1024 < count.toNat) : netSend s cs = answer errBadParam s := by
  obtain ⟨net, hsome⟩ := Option.ne_none_iff_exists'.1 hon
  simp only [netSend, hin.params, hpair, access, hws, unitOfTwo_succ, hsome, if_pos hlong]

/-- The packet that two words of address and some words of bytes make (R242). -/
def packetOf (s : State) (w0 w1 : Word) (bytes : List Byte) : Packet :=
  ⟨gather s.cfg.netLayout (w1 ++ w0), bytes⟩

/-- The host may fail after the packet is away (U10). -/
def failedSend (s : State) (u : Fin 2) (packet : Packet) : State :=
  if (drawBit s).1 then sendPacket (drawBit s).2 u packet else (drawBit s).2

theorem failedSend_frame (s : State) (u : Fin 2) (packet : Packet) :
    (failedSend s u packet).mem = s.mem ∧
      ∃ left, (left = s.world.sent ∨ left = s.world.sent ++ [(u, packet)]) ∧
        (failedSend s u packet).world = { s.world with sent := left } := by
  unfold failedSend
  split
  · exact ⟨rfl, _, .inr rfl, rfl⟩
  · exact ⟨rfl, _, .inl rfl, rfl⟩

variable {w0 w1 : Word} {bytes : List Byte}

/-- $NETSEND with all its inputs in order: the host has the last word (R242). -/
theorem netSend_host (hin : SendInputs s cs (BitVec.ofNat 32 (u.val + 1)) p count addr)
    (hon : s.world.nets[u] ≠ none) (h0 : memRead s p = .ok w0) (h1 : memRead s (p + 1) = .ok w1)
    (hle : count.toNat ≤ 1024) (hlen : bytes.length = count.toNat) (hpacked : PackedAt s addr bytes) :
    netSend s cs = if (hostFails s).1 then
        answer errDevFailed (failedSend (hostFails s).2 u (packetOf s w0 w1 bytes))
      else answerUnstated (sendPacket (hostFails s).2 u (packetOf s w0 w1 bytes)) := by
  obtain ⟨net, hsome⟩ := Option.ne_none_iff_exists'.1 hon
  obtain ⟨ws, hws, hbytes⟩ := readWords_packed hpacked
  rw [hlen] at hws hbytes
  simp only [netSend, hin.params, readPair h0 h1, access, packetWords_eq hle, hws, unitOfTwo_succ, hsome,
    if_neg (not_lt.2 hle), hbytes, failedSend, packetOf, pairBits, List.getD_cons_zero, List.getD_cons_succ]

end

/-! ### $NETRECV -/

section
variable {s : State} {cs n p addr : Word} {u : Fin 2} {net : NetUnit} {packet : Packet} {rest : List Packet}

theorem netRecv_noPair (hin : ThreeInputs s cs n p addr) (hf : ReachFails s p 2) :
    netRecv s cs = answer errMemory s := by
  obtain ⟨c, a, info, hr⟩ := reachable_fails hf
  simp only [netRecv, hin.params, hr, access]

theorem netRecv_noBuffer (hin : ThreeInputs s cs n p addr) (hp : Reaches s p 2)
    (hf : ReachFails s addr 256) : netRecv s cs = answer errMemory s := by
  obtain ⟨c, a, info, hr⟩ := reachable_fails hf
  simp only [netRecv, hin.params, reachable_of hp, hr, access]

theorem netRecv_badUnit (hin : ThreeInputs s cs n p addr) (hp : Reaches s p 2)
    (ha : Reaches s addr 256) (hbad : n.toInt < 1 ∨ 2 < n.toInt) :
    netRecv s cs = answer errDevNumber s := by
  simp only [netRecv, hin.params, reachable_of hp, reachable_of ha, access, unitOfTwo_none hbad]

theorem netRecv_off (hin : ThreeInputs s cs (BitVec.ofNat 32 (u.val + 1)) p addr) (hp : Reaches s p 2)
    (ha : Reaches s addr 256) (hnone : s.world.nets[u] = none) :
    netRecv s cs = answer errDevNumber s := by
  simp only [netRecv, hin.params, reachable_of hp, reachable_of ha, access, unitOfTwo_succ, hnone]

theorem netRecv_empty (hin : ThreeInputs s cs (BitVec.ofNat 32 (u.val + 1)) p addr) (hp : Reaches s p 2)
    (ha : Reaches s addr 256) (hsome : s.world.nets[u] = some net) (hqueue : net.queue = []) :
    netRecv s cs = answer (BitVec.ofInt 32 (if (hostFails s).1 then -6 else -11)) (hostFails s).2 := by
  simp only [netRecv, hin.params, reachable_of hp, reachable_of ha, access, unitOfTwo_succ, hsome, hqueue]
  split <;> rfl

/-- The packet's unit with the packet taken off its queue (R243). -/
def takePacket (s : State) (u : Fin 2) (net : NetUnit) (rest : List Packet) : State :=
  setNet s u (some { net with queue := rest })

/-- What a $NETRECV leaves that the host failed: the packet taken or not, and free words (U10). -/
def failedRecv (s : State) (u : Fin 2) (net : NetUnit) (rest : List Packet) (p addr : Word)
    (bytes : List Byte) : State :=
  scribbleAll
    (if (drawBit s).1 then (takePacket s u net rest).setDraws (drawBit s).2.draws else (drawBit s).2)
    (addressRange p 2 ++ addressRange addr (blockItems bytes).length)

theorem netRecv_deviceFails (hin : ThreeInputs s cs (BitVec.ofNat 32 (u.val + 1)) p addr)
    (hp : Reaches s p 2) (ha : Reaches s addr 256) (hsome : s.world.nets[u] = some net)
    (hqueue : net.queue = packet :: rest) (hf : (hostFails s).1 = true) :
    netRecv s cs =
      answer errDevFailed (failedRecv (hostFails s).2 u net rest p addr packet.bytes) := by
  simp only [netRecv, hin.params, reachable_of hp, reachable_of ha, access, unitOfTwo_succ, hsome, hqueue,
    if_pos hf, failedRecv, takePacket, blockItems]

theorem netRecv_done {v w : State} (hin : ThreeInputs s cs (BitVec.ofNat 32 (u.val + 1)) p addr)
    (hp : Reaches s p 2) (ha : Reaches s addr 256) (hsome : s.world.nets[u] = some net)
    (hqueue : net.queue = packet :: rest) (hf : (hostFails s).1 = false)
    (hpair : storeAddr (takePacket (hostFails s).2 u net rest) p packet.addr = .ok v)
    (hbytes : storeItems (blockItems packet.bytes) addr v = .ok w) :
    netRecv s cs = answerUnstated w := by
  simp only [takePacket] at hpair
  simp only [blockItems] at hbytes
  simp only [netRecv, hin.params, reachable_of hp, reachable_of ha, access, unitOfTwo_succ, hsome, hqueue,
    if_neg (Bool.not_eq_true _ ▸ hf), hpair, bind_ok, hbytes]

end

/-- Memory outside an address pair and the `n` words of a packet. -/
def SameMemoryOutsidePacket (p addr : Word) (n : Nat) (s t : State) : Prop :=
  ∀ b : Nat, (∀ k : Nat, k < 2 → b ≠ (p + BitVec.ofNat 32 k).toNat) →
    (∀ k : Nat, k < n → b ≠ (addr + BitVec.ofNat 32 k).toNat) → t.word b = s.word b

section
variable {s v : State} {p addr : Word}

/-- With VM off, a failed $NETRECV frees words of the pair and the packet alone (U10). -/
theorem failedRecv_frame (hv : WorldMove s v) (u : Fin 2) (net : NetUnit) (rest : List Packet)
    (bytes : List Byte) (hvm : s.flags.vm = false) :
    SameMemoryOutsidePacket p addr ((bytes.length + 3) / 4) s (failedRecv v u net rest p addr bytes) ∧
      ∃ nets, (nets = v.world.nets ∨ nets = v.world.nets.set u (some { net with queue := rest })) ∧
        (failedRecv v u net rest p addr bytes).world = { v.world with nets := nets } := by
  have hvm' : v.flags.vm = false := hv.flags ▸ hvm
  have hframe (t : State) (hmem : t.mem = v.mem) (hflags : t.flags.vm = false) :
      SameMemoryOutsidePacket p addr ((bytes.length + 3) / 4) s
          (scribbleAll t (addressRange p 2 ++ addressRange addr (blockItems bytes).length)) ∧
        (scribbleAll t (addressRange p 2 ++ addressRange addr (blockItems bytes).length)).world =
          t.world := by
    obtain ⟨hworld, hout⟩ := scribbleAll_frame
      (addressRange p 2 ++ addressRange addr (blockItems bytes).length) hflags
    refine ⟨fun b hp ha => (hout b fun c hc => ?_).trans (sameMemory_of_mem (hmem.trans hv.mem) b), hworld⟩
    rcases List.mem_append.1 hc with hc | hc
    · obtain ⟨k, hk, rfl⟩ := mem_addressRange hc
      exact hp k hk
    · obtain ⟨k, hk, rfl⟩ := mem_addressRange hc
      exact ha k (blockItems_length bytes ▸ hk)
  unfold failedRecv
  split
  · obtain ⟨hout, hworld⟩ := hframe ((takePacket v u net rest).setDraws (drawBit v).2.draws) rfl hvm'
    exact ⟨hout, _, .inr rfl, hworld⟩
  · obtain ⟨hout, hworld⟩ := hframe (drawBit v).2 rfl hvm'
    exact ⟨hout, _, .inl rfl, hworld⟩

/-- A packet stored, its source first and its bytes then, in words apart from each other (R243). -/
theorem storePacket_physical {bytes : List Byte} (hv : WorldMove s v) (a : BitVec 48) (hp : Room s p 2)
    (ha : Room s addr 256) (hlen : bytes.length ≤ 1024)
    (hapart : ∀ j k : Nat, j < 2 → k < 256 → p + BitVec.ofNat 32 j ≠ addr + BitVec.ofNat 32 k) :
    ∃ v' w, storeAddr v p a = .ok v' ∧ storeItems (blockItems bytes) addr v' = .ok w ∧
      w.world = v.world ∧ w.cfg = s.cfg ∧ AddressAt w p a ∧
      (∀ k : Nat, k < bytes.length → ByteAt w addr k (bytes.getD k 0)) ∧
      SameMemoryOutsidePacket p addr ((bytes.length + 3) / 4) s w := by
  obtain ⟨v', hpair, hworld, hout, haddr, hflags, hcfg⟩ := hv.storeAddr a hp
  have hroom : Room v' addr ((bytes.length + 3) / 4) :=
    ⟨by rw [hflags, ha.1], fun k hk => (physValid_congr _ hcfg).trans (ha.2 k (by omega))⟩
  obtain ⟨w, hbytes, hworld', hout', hstored⟩ := storeBytes_physical hroom (by omega)
  have hcfg' : w.cfg = v'.cfg := (periStep_storeItems hbytes).cfg
  have hkept (j : Nat) (hj : j < 2) : w.word (p + BitVec.ofNat 32 j).toNat =
      v'.word (p + BitVec.ofNat 32 j).toNat :=
    hout' _ fun k hk => BitVec.toNat_ne_iff_ne.2 (hapart j k hj (by omega))
  refine ⟨v', w, hpair, hbytes, hworld'.trans hworld, hcfg'.trans hcfg,
    haddr.of_words (by simpa using hkept 0 (by omega)) (hkept 1 (by omega)) hcfg', hstored,
    fun b hb hb' => (hout' b hb').trans (hout b hb)⟩

end

/-! ### The operations as PERI runs them -/

section
variable {s : State} {r : Reg} {op : Operand} {cs p addr : Word} {u : Fin 2}

/-- A $NETSEND with all its inputs in order that the host does not fail (R242). -/
theorem exec_netSend_done {q : Packet} (h : PeriReady s op cs .netSend)
    (hp : netSend s cs = answerUnstated (sendPacket (hostFails s).2 u q)) :
    ∃ t result, exec (.peri r op) s = .next t ∧ 0 ≤ result.toInt ∧ SameMemory s t ∧
      PeriEnded r result { (hostFails s).2.world with sent := s.world.sent ++ [(u, q)] } s t := by
  obtain ⟨hmove, -, hsent⟩ := worldMove_hostFails s
  obtain ⟨t, result, hexec, hpos, hended, hmem⟩ :=
    exec_unstated (r := r) h hp (by rw [sendPacket, setWorld_world, hsent])
  exact ⟨t, result, hexec, hpos, sameMemory_of_mem (hmem.trans hmove.mem), hended⟩

/-- A $NETSEND that the host fails: the packet is sent or not (R242, U10). -/
theorem exec_netSend_failed {q : Packet} (h : PeriReady s op cs .netSend)
    (hp : netSend s cs = answer errDevFailed (failedSend (hostFails s).2 u q)) :
    ∃ t left, exec (.peri r op) s = .next t ∧ SameMemory s t ∧
      PeriEnded r (BitVec.ofInt 32 (-6)) { (hostFails s).2.world with sent := left } s t ∧
      (left = s.world.sent ∨ left = s.world.sent ++ [(u, q)]) := by
  obtain ⟨hmove, -, hsent⟩ := worldMove_hostFails s
  obtain ⟨hmem, left, hleft, hworld⟩ := failedSend_frame (hostFails s).2 u q
  obtain ⟨t, hexec, hsame, hended⟩ := exec_peri_world (r := r) h hp (hmem.trans hmove.mem) hworld
  exact ⟨t, left, hexec, hsame, hended, hsent ▸ hleft⟩

variable {net : NetUnit} {packet : Packet} {rest : List Packet}

/-- A $NETRECV that the host fails: the packet is taken or not, and the words it goes to hold anything (R243, U10). -/
theorem exec_netRecv_failed (h : PeriReady s op cs .netRecv)
    (hp : netRecv s cs =
      answer errDevFailed (failedRecv (hostFails s).2 u net rest p addr packet.bytes))
    (hvm : s.flags.vm = false) :
    ∃ t nets, exec (.peri r op) s = .next t ∧
      PeriEnded r (BitVec.ofInt 32 (-6)) { (hostFails s).2.world with nets := nets } s t ∧
      (nets = s.world.nets ∨ nets = s.world.nets.set u (some { net with queue := rest })) ∧
      SameMemoryOutsidePacket p addr ((packet.bytes.length + 3) / 4) s t := by
  obtain ⟨hmove, hnets, -⟩ := worldMove_hostFails s
  obtain ⟨hout, nets, hcases, hworld⟩ :=
    failedRecv_frame (p := p) (addr := addr) hmove u net rest packet.bytes hvm
  obtain ⟨t, hexec, hended, hmem⟩ := exec_peri_ready (r := r) h hp
  exact ⟨t, nets, hexec, hworld ▸ hended, hnets ▸ hcases,
    fun b hb hb' => (sameMemory_of_mem hmem b).trans (hout b hb hb')⟩

/-- A $NETRECV that delivers the oldest packet (R243). -/
theorem exec_netRecv_done (h : PeriReady s op cs .netRecv)
    (hin : ThreeInputs s cs (BitVec.ofNat 32 (u.val + 1)) p addr) (hp : Room s p 2) (ha : Room s addr 256)
    (hsome : s.world.nets[u] = some net) (hqueue : net.queue = packet :: rest)
    (hlen : packet.bytes.length ≤ 1024) (hf : (hostFails s).1 = false)
    (hapart : ∀ j k : Nat, j < 2 → k < 256 → p + BitVec.ofNat 32 j ≠ addr + BitVec.ofNat 32 k) :
    ∃ t result, exec (.peri r op) s = .next t ∧ 0 ≤ result.toInt ∧
      PeriEnded r result
        { (hostFails s).2.world with nets := s.world.nets.set u (some { net with queue := rest }) } s t ∧
      AddressAt t p packet.addr ∧
      (∀ k : Nat, k < packet.bytes.length → ByteAt t addr k (packet.bytes.getD k 0)) ∧
      SameMemoryOutsidePacket p addr ((packet.bytes.length + 3) / 4) s t := by
  obtain ⟨hmove, hnets, -⟩ := worldMove_hostFails s
  obtain ⟨v, w, hpair, hbytes, hworld, hcfg, haddr, hstored, hout⟩ := storePacket_physical
    (hmove.setNet u (some { net with queue := rest })) packet.addr hp ha hlen hapart
  obtain ⟨t, result, hexec, hpos, hended, hmem⟩ := exec_unstated (r := r) h
    (netRecv_done hin (reaches_of_room hp) (reaches_of_room ha) hsome hqueue hf hpair hbytes)
    (hworld.trans (by rw [setNet, setWorld_world, hnets]))
  have hsame := sameMemory_of_mem hmem
  refine ⟨t, result, hexec, hpos, hended,
    haddr.of_words (hsame _) (hsame _) (hended.launch.trans hcfg.symm), fun k hk => ?_,
    fun b hb hb' => (hsame b).trans (hout b hb hb')⟩
  obtain ⟨x, hx, hbyte⟩ := hstored k hk
  exact ⟨x, (hsame _).trans hx, hbyte⟩

/-- A unit turned off: its address goes to the pair (R241). -/
theorem exec_netSS_stopped (h : PeriReady s op cs .netSS)
    (hin : ThreeInputs s cs (BitVec.ofNat 32 (u.val + 1)) 0 p) (hroom : Room s p 2)
    (hsome : s.world.nets[u] = some net) :
    ∃ t result, exec (.peri r op) s = .next t ∧ 0 ≤ result.toInt ∧
      PeriEnded r result { s.world with nets := s.world.nets.set u none } s t ∧
      SameMemoryOutside p 2 s t ∧ AddressAt t p net.addr :=
  exec_pairStored h ((WorldMove.refl s).setNet u none) rfl hroom fun _ hst =>
    (netSS_stop hin (reaches_of_room hroom)).trans (stopNet_done hsome hst)

variable {port : Word}

/-- A start that the host turns down (R241, log entry 29). -/
theorem exec_netSS_denied {d : NetDenial} (h : PeriReady s op cs .netSS)
    (hp : netSS s cs = startNet s u p port) (hnone : s.world.nets[u] = none) (hport : port ≠ 0)
    (hd : (hostNetStart s).1.denial = some d) :
    ∃ t code, exec (.peri r op) s = .next t ∧ SameMemory s t ∧
      PeriEnded r (BitVec.ofInt 32 code) (hostNetStart s).2.world s t ∧
      (code = -2 ∨ code = -5 ∨ code = -3 ∨ code = -9) := by
  obtain ⟨hmove, -⟩ := worldMove_hostNetStart s
  obtain ⟨code, hcode, hlisted⟩ := denialCode_listed d
  obtain ⟨t, hexec, hsame, hended⟩ := exec_peri_world (r := r) h
    (hp.trans (startNet_denied hnone hport hd)) hmove.mem rfl
  exact ⟨t, code, hexec, hsame, hcode ▸ hended, hlisted⟩

/-- A start that the host grants: the unit's address goes to the pair (R241). -/
theorem exec_netSS_started (h : PeriReady s op cs .netSS) (hp : netSS s cs = startNet s u p port)
    (hroom : Room s p 2) (hnone : s.world.nets[u] = none)
    (hgrant : port = 0 ∨ (hostNetStart s).1.denial = none) :
    ∃ t result, exec (.peri r op) s = .next t ∧ 0 ≤ result.toInt ∧
      PeriEnded r result
        { (hostNetStart s).2.world with
          nets := s.world.nets.set u (some ⟨(hostNetStart s).1.address port, []⟩) } s t ∧
      SameMemoryOutside p 2 s t ∧ AddressAt t p ((hostNetStart s).1.address port) := by
  obtain ⟨hmove, hnets⟩ := worldMove_hostNetStart s
  exact exec_pairStored h (hmove.setNet u _) (by rw [setNet, setWorld_world, hnets]) hroom
    fun _ hst => hp.trans (startNet_done hnone hgrant hst)

end

/-- Settles O60: the ends of $NETSS, $NETSEND and $NETRECV in the order of their checks, then those of the clock
operations; the round trip of an address; R252's examples by evaluation. -/
theorem networkAndClockOperations : Obligations.NetworkAndClockOperations := by
  refine ⟨fun s r op cs o h => ⟨?_, ?_, ?_, ?_, ?_, ?_, ?_, ?_⟩, fun layout a hdistinct =>
    gather_layOut hdistinct a, by decide, by decide, by decide⟩
  · rintro n command p rfl hn hcommand hp
    have hin : ThreeInputs s cs n command p := ⟨hn, hcommand, hp⟩
    refine ⟨fun hf => exec_peri_same h (netSS_unreached hin hf), fun hr hbad =>
      exec_peri_same h (netSS_badUnit hin hr hbad), ?_, ?_⟩
    · rintro u hr rfl h0 h1
      exact exec_peri_refused h (netSS_badCommand hin hr h0 h1)
    · rintro u port rfl hroom
      have hr := reaches_of_room hroom
      refine ⟨?_, ?_⟩
      · rintro rfl
        exact ⟨fun hnone => exec_peri_same h ((netSS_stop hin hr).trans (stopNet_off hnone)),
          fun net hsome => exec_netSS_stopped h hin hroom hsome⟩
      · rintro rfl hport
        have hstart := netSS_start hin hr hport
        exact ⟨fun hon => exec_peri_same h (hstart.trans (startNet_on hon)), fun hnone =>
          ⟨fun d hport0 hd => exec_netSS_denied h hstart hnone hport0 hd, fun hgrant =>
            exec_netSS_started h hstart hroom hnone hgrant⟩⟩
  · rintro n p count a rfl hn hp hcount ha
    have hin : SendInputs s cs n p count a := ⟨hn, hp, hcount, ha⟩
    refine ⟨fun hf => exec_peri_same h (netSend_noPair hin hf), fun hpair hle hf => ?_,
      fun hpair hdata => ?_, ?_⟩
    · obtain ⟨pair, hpair, -⟩ := readWords_ok hpair
      exact exec_peri_same h (netSend_noData hin hpair hle hf)
    · obtain ⟨pair, hpair, -⟩ := readWords_ok hpair
      obtain ⟨ws, hws⟩ := readPacket_ok hdata
      refine ⟨fun hbad => exec_peri_same h (netSend_badUnit hin hpair hws hbad), ?_⟩
      rintro u rfl
      exact ⟨fun hnone => exec_peri_same h (netSend_off hin hpair hws hnone), fun hon hlong =>
        exec_peri_same h (netSend_tooLong hin hpair hws hon hlong)⟩
    · rintro u w0 w1 bytes rfl hon h0 h1 hle hlen hpacked
      have hhost := netSend_host hin hon h0 h1 hle hlen hpacked
      exact ⟨fun hf => exec_netSend_done h (hhost.trans (if_neg (by simp [hf]))), fun hf =>
        exec_netSend_failed h (hhost.trans (if_pos hf))⟩
  · rintro n p a rfl hn hp ha
    have hin : ThreeInputs s cs n p a := ⟨hn, hp, ha⟩
    refine ⟨fun hf => exec_peri_same h (netRecv_noPair hin hf), fun hrp hf =>
      exec_peri_same h (netRecv_noBuffer hin hrp hf), fun hrp hra =>
      ⟨fun hbad => exec_peri_same h (netRecv_badUnit hin hrp hra hbad), ?_⟩, ?_⟩
    · rintro u rfl
      refine ⟨fun hnone => exec_peri_same h (netRecv_off hin hrp hra hnone), fun net hsome hqueue => ?_⟩
      obtain ⟨hmove, -⟩ := worldMove_hostFails s
      exact exec_peri_world h (netRecv_empty hin hrp hra hsome hqueue) hmove.mem rfl
    · rintro u net packet rest rfl hsome hqueue hlen hroom hbuffer
      refine ⟨fun hf => ?_, fun hf hapart =>
        exec_netRecv_done h hin hroom hbuffer hsome hqueue hlen hf hapart⟩
      exact exec_netRecv_failed h (netRecv_deviceFails hin (reaches_of_room hroom)
        (reaches_of_room hbuffer) hsome hqueue hf) hroom.1
  · rintro rfl
    obtain ⟨result, v, hcount, hresult, hvmem, hvworld⟩ := answerCount_ok (clockSeconds s) s
    obtain ⟨t, hexec, hmem, hended⟩ := exec_peri_world (r := r) h hcount hvmem hvworld
    exact ⟨t, result, hexec, hmem, hresult, hended⟩
  · rintro rfl hroom
    obtain ⟨t, result, hexec, hpos, hended, hout, hstored⟩ :=
      exec_storeOutputs_done (r := r) (k := 1) h rfl hroom (by simp)
    refine ⟨t, result, hexec, hpos, hended, hout, by simpa [clockSeconds] using hstored 0 (by simp), ?_⟩
    rw [show cs + 2 = cs + 1 + 1 from (BitVec.add_assoc cs 1 1).symm]
    exact hstored 1 (by simp)
  · rintro j rfl hvm hj hbad
    exact exec_storeOutputs_failed (k := 1) h rfl hvm hj hbad
  · rintro time rfl htime hneg
    exact exec_peri_refused h (dateTimeOp_negative htime hneg)
  · rintro time rfl htime hpos
    have hstores := dateTimeOp_stores htime hpos
    refine ⟨fun hroom => ?_, fun j hvm hj hbad => exec_storeOutputs_failed h hstores hvm hj hbad⟩
    obtain ⟨t, result, hexec, hpos', hended, hout, hstored⟩ :=
      exec_storeOutputs_done (r := r) h hstores hroom (by simp [dateParts_length])
    refine ⟨t, result, hexec, hpos', hended, hout, fun k hk => ?_⟩
    refine (hstored k (by simpa [dateParts_length] using hk)).trans ?_
    rw [List.getElem_map, List.getD_eq_getElem _ _ (by simpa [dateParts_length] using hk)]

end Sys2Proof.Machine
end

section
/-! PROOF. O12: the ways from user mode to system mode (R290). A handler is entered at an address of the interrupt
vector, SYSCALL ends at one of the call gate vector, and nothing else in a step of user mode turns SYS on. -/

namespace Sys2Proof.Machine

/-- The pc stands where R290 lets system mode be reached by a program whose IP was `ip`: at an address of the
interrupt vector, interrupts accepted, or at a gate. -/
def ThroughVectors (ip : Bool) (t : State) : Prop := (ip = false ∧ AtVector t) ∨ AtGate t

/-- A handler is entered only with interrupts accepted, at an address of the vector (R270, R280). -/
theorem signal_throughVectors {s t : State} {c : Cause} {addr info : Option Word} {p : Word}
    (h : signal s c addr info p = .entered t) : ThroughVectors s.flags.ip t :=
  .inl ⟨(signal_entered h).1, signal_vector h⟩

/-- The timer's count moves no gate. -/
theorem AtGate.countDown {u : State} (h : AtGate u) : AtGate u.countDown := h

/-- An instruction of user mode whose body completed: system mode comes from SYSCALL, and IP then masks TIMER, or
from the TIMER handler. -/
theorem UserEffect.throughVectors {s u t : State} (h : UserEffect s u)
    (hend : t = u ∨ t = u.countDown ∨ signal u.countDown .timer none none u.pc = .entered t)
    (hsys : t.flags.sys = true) : ThroughVectors s.flags.ip t := by
  rcases h.mode with ⟨huser, hip, -⟩ | ⟨-, hmasked, hgate⟩
  · rcases hend with rfl | rfl | htimer
    · simp [huser] at hsys
    · simp [huser] at hsys
    · rw [← hip, ← countDown_flags u]
      exact signal_throughVectors htimer
  · rcases hend with rfl | rfl | htimer
    · exact .inr hgate
    · exact .inr hgate.countDown
    · have haccepted : u.flags.ip = false := (signal_entered htimer).1
      simp [hmasked] at haccepted

theorem exec_throughVectors {i : Instr} {s t : State} (huser : s.flags.sys = false)
    (h : exec i s = .next t) (hsys : t.flags.sys = true) : ThroughVectors s.flags.ip t := by
  rcases exec_next h with ⟨c, addr, info, p, hentered⟩ | rfl | ⟨u, -, heffect, hend⟩
  · exact signal_throughVectors hentered
  · simp [huser] at hsys
  · exact (heffect huser).throughVectors hend hsys

/-- Settles O12: the host's moves leave SYS and IP; after them a step enters a handler, does nothing, or runs an
instruction. -/
theorem systemModeIsEnteredThroughTheVectors : Obligations.SystemModeIsEnteredThroughTheVectors := by
  intro s t huser h hsys
  have hflags : (hostMoves s).flags = s.flags := (hostStep_hostMoves s).flags
  show ThroughVectors s.flags.ip t
  rw [← hflags]
  obtain ⟨-, ⟨c, addr, info, p, hentered⟩ | rfl | ⟨i, hexec⟩⟩ := step_next h
  · exact signal_throughVectors hentered
  · simp [hflags, huser] at hsys
  · exact exec_throughVectors (by rw [hflags, huser]) hexec hsys

end Sys2Proof.Machine
end

section
/-! PROOF. O47, O48: causes that enter no handler (R270 to R273, R279). With IP on, or with a zero vector entry, a
notification is ignored and a fatal cause stops the machine. -/

namespace Sys2Proof.Machine

/-- TIMER, KEYBD and DEBUG are the notifications (R261). -/
theorem fatal_eq_false_iff (c : Cause) : c.fatal = false ↔ c = .timer ∨ c = .keybd ∨ c = .debug := by
  cases c <;> simp [Cause.fatal]

section
variable {s : State} {c : Cause} {addr info : Option Word} {p : Word}

/-- A vector entry of zero installs no handler (R279). -/
theorem signal_unhandled (hip : s.flags.ip = false) (hvec : vectorEntry s c = .ok 0) :
    signal s c addr info p =
      if c.fatal then .stopped (fatalStop s c addr info) else .ignored := by
  simp [signal, hip, hvec]

/-- What IP and a zero vector entry each do. -/
theorem signal_not_entered (h : s.flags.ip = true ∨ vectorEntry s c = .ok 0) :
    signal s c addr info p =
      if c.fatal then .stopped (fatalStop s c addr info) else .ignored := by
  cases hip : s.flags.ip with
  | true => exact signal_masked hip
  | false => exact signal_unhandled hip (h.resolve_left (by simp [hip]))

theorem signal_ignored (h : s.flags.ip = true ∨ vectorEntry s c = .ok 0) (hc : c.fatal = false) :
    signal s c addr info p = .ignored := by
  simp [signal_not_entered h, hc]

theorem signal_stopped (h : s.flags.ip = true ∨ vectorEntry s c = .ok 0) (hc : c.fatal = true) :
    signal s c addr info p = .stopped (fatalStop s c addr info) := by
  simp [signal_not_entered h, hc]

end

/-- Settles O48: the kinds by cause, and what each kind comes to where no handler is entered. -/
theorem maskedAndUnhandledCauses : Obligations.MaskedAndUnhandledCauses :=
  ⟨fatal_eq_false_iff, fun _ _ _ _ _ h => ⟨signal_ignored h, signal_stopped h⟩⟩

/-- Settles O47: IP masks the handler, start-up has IP on, and so has every handler entered. -/
theorem fatalInterruptWithIpStops : Obligations.FatalInterruptWithIpStops := by
  refine ⟨fun s c addr info hip hfatal => ?_, rfl, fun s t c addr info p hentered => ?_⟩
  · rw [takeException, signal_stopped (.inl hip) hfatal]
    rfl
  · rw [(signal_entered hentered).2.flags]
    rfl

end Sys2Proof.Machine
end

section
/-! PROOF. O4, O6, O7: what a step does before it runs an instruction (R288, R298): nothing from R = 0; then KEYBD,
then DEBUG, then the fetch. -/

namespace Sys2Proof.Machine

/-- Settles O6: a step begins with the check of R. -/
theorem haltedCpuTakesNoStep : Obligations.HaltedCpuTakesNoStep := by
  intro s hr
  simp [step, beginStep, hr]

section
variable {s t : State}

/-- KEYBD is not taken with no key waiting, nor with IP on (R271, R274). -/
theorem keyboardSignal_ignored (h : s.world.keyboard = [] ∨ s.flags.ip = true) :
    keyboardSignal s = .ignored := by
  rcases h with hempty | hip
  · exact if_pos hempty
  · exact ite_eq_left_iff.2 fun _ => signal_ignored (.inl hip) rfl

/-- DEBUG is not taken away from `$DEBUG`, nor with IP on (R271, R277). -/
theorem debugSignal_ignored (h : s.pc ≠ s.sr.debug ∨ s.flags.ip = true) :
    debugSignal s = .ignored := by
  rcases h with hne | hip
  · exact if_neg hne
  · exact ite_eq_right_iff.2 fun _ => signal_ignored (.inl hip) rfl

theorem keyboardSignal_waiting (h : s.world.keyboard ≠ []) :
    keyboardSignal s = signal s .keybd none none s.pc := if_neg h

theorem debugSignal_reached (h : s.pc = s.sr.debug) :
    debugSignal s = signal s .debug (some s.pc) none s.pc := if_pos h

theorem hostMoves_of_no_events (h : s.world.host.events = []) : hostMoves s = s := by
  simp [hostMoves, h]

/-- A step at which no notification is taken, and whose fetch gives an instruction (R288). -/
theorem step_of_fetch_run {i : Instr} {u : State} (hr : s.flags.r = true)
    (hkey : keyboardSignal (hostMoves s) = .ignored) (hdebug : debugSignal (hostMoves s) = .ignored)
    (h : fetch (hostMoves s) = .run i u) : step s = exec i u := by
  have hbegin : beginStep s = .run i u := by
    simp [beginStep, hr, hkey, hdebug, afterSignal, h]
  rw [step, hbegin]

theorem fetch_decoded {w : Word} {i : Instr} (hw : memRead s s.pc = .ok w)
    (hi : decode s.cfg.code w = .ok i) : fetch s = .run i s := by
  simp [fetch, hw, hi]

/-- A KEYBD handler entered is the whole step. -/
theorem step_of_keyboardSignal (hr : s.flags.r = true)
    (h : keyboardSignal (hostMoves s) = .entered t) : step s = .next t := by
  have hbegin : beginStep s = .ended (.next t) := by
    simp [beginStep, hr, h, afterSignal]
  rw [step, hbegin]

/-- So is a DEBUG handler entered with no key taken. -/
theorem step_of_debugSignal (hr : s.flags.r = true)
    (hkey : keyboardSignal (hostMoves s) = .ignored)
    (h : debugSignal (hostMoves s) = .entered t) : step s = .next t := by
  have hbegin : beginStep s = .ended (.next t) := by
    simp [beginStep, hr, hkey, h, afterSignal]
  rw [step, hbegin]

end

/-- Settles O4: the fetch comes after the two notifications, and each of these has its own condition. -/
theorem stepRunsTheDecodedInstruction : Obligations.StepRunsTheDecodedInstruction :=
  ⟨fun _ _ _ hr hkey hdebug hw hi => step_of_fetch_run hr hkey hdebug (fetch_decoded hw hi),
    fun _ => hostMoves_of_no_events, fun _ => keyboardSignal_ignored, fun _ => debugSignal_ignored⟩

/-- Settles O7: a handler that stands ready is entered whole, and its entry ends the step before the fetch. -/
theorem notificationsComeBeforeTheFetch : Obligations.NotificationsComeBeforeTheFetch := by
  refine ⟨fun s h hr hwaiting hready => ?_, fun s h hr hempty hreached hready => ?_⟩
  · obtain ⟨t, hsignal, hentered⟩ := signal_whole none none (hostMoves s).pc hready
    exact ⟨t, step_of_keyboardSignal hr ((keyboardSignal_waiting hwaiting).trans hsignal), hentered⟩
  · obtain ⟨t, hsignal, hentered⟩ :=
      signal_whole (some (hostMoves s).pc) none (hostMoves s).pc hready
    exact ⟨t, step_of_debugSignal hr (keyboardSignal_ignored (.inl hempty))
      ((debugSignal_reached hreached).trans hsignal), hentered⟩

end Sys2Proof.Machine
end

section
/-! PROOF. O50: the timer tick at the end of an instruction (R294). A count that does not expire, or expires masked,
is one update of TIMER; one that expires enters the TIMER handler from the state counted down. -/

namespace Sys2Proof.Machine

section
variable {u : State}

theorem complete_timer_zero (h : u.sr.timer = 0) : complete u = .next u := by
  simp [complete, h]

/-- A count that does not reach zero, or reaches it with IP on, goes down by one and nothing more (R271, R294). -/
theorem complete_countDown (hr : u.flags.r = true) (h0 : u.sr.timer ≠ 0)
    (h : u.sr.timer ≠ 1 ∨ u.flags.ip = true) : complete u = .next u.countDown := by
  rw [complete_eq_counted h, countDown_eq_counted hr h0]

/-- A count that reaches zero enters the TIMER handler that stands ready; the pc is already that of the next
instruction (R268, R294). -/
theorem complete_expired {h : Word} (hr : u.flags.r = true) (htimer : u.sr.timer = 1)
    (hready : CanEnter u.countDown .timer h) :
    ∃ t, complete u = .next t ∧ t.sr.timer = 0 ∧
      HandlerEntered u.countDown t .timer none none u.pc h := by
  obtain ⟨t, hsignal, hentered⟩ := signal_whole none none u.pc hready
  refine ⟨t, ?_, ?_, hentered⟩
  · simp [complete, hr, htimer, hsignal]
  · rw [hentered.timer, countDown_sr, htimer]
    rfl

end

/-- Settles O50: the tick by its three cases, after LOAD, which leaves TIMER, and after the SETSR that writes it. -/
theorem timerTicksAfterEachInstruction : Obligations.TimerTicksAfterEachInstruction := by
  refine ⟨fun s r op v h hr hv => ⟨fun htimer hready => ?_, fun hsys hsix hone hready => ?_⟩,
    fun u hr => ⟨complete_timer_zero, complete_countDown hr, fun h => complete_expired hr⟩⟩
  · rw [exec_load hv, ← setReg_pc s r v]
    exact complete_expired (by simpa) (by simpa) hready
  · subst hsix
    rw [exec_setsr (k := .timer) hsys hv rfl, hone]
    exact complete_expired hr rfl hready

end Sys2Proof.Machine
end

section
/-! PROOF. O42: an entry undone by IRET (R171, R282). The frame an entry leaves reads back word by word at the stack
pointer it leaves, so the frame IRET restores is that of the interrupted program. -/

namespace Sys2Proof.Machine

/-- The FLAGS word holds all seven flags (R36, R45). -/
theorem ofWord_toWord (f : Flags) : Flags.ofWord f.toWord = f := by
  cases f
  simp [Flags.ofWord, toWord_eq_concat]

/-- Up the stack from a word below the pointer. -/
theorem below_add (s : State) {k n : Nat} (h : k ≤ n) :
    below s n + BitVec.ofNat 32 k = below s (n - k) := by
  obtain ⟨m, rfl⟩ := Nat.exists_eq_add_of_le' h
  rw [Nat.add_sub_cancel]
  simp only [below, BitVec.ofNat_add]
  bv_omega

/-- An entry leaves a handler that IRET may end: INTRFAULT's is one deeper, or over (log entry 21). -/
theorem nestingOnEntry_ne_zero (s : State) : nestingOnEntry s ≠ some 0 := by
  unfold nestingOnEntry
  split
  · cases s.faultNesting <;> simp
  · simp

/-- From a handler that system mode entered IRET goes back to the nesting before it. -/
theorem nestingOnEntry_pred {s : State} (hsys : s.flags.sys = true) :
    (nestingOnEntry s).map (· - 1) = s.faultNesting := by
  rw [nestingOnEntry, if_pos hsys]
  cases s.faultNesting <;> rfl

/-- What `t` holds in the place of the word `k` below `s`'s system stack pointer. -/
def frameWord (s t : State) (k : Nat) : Word := (t.word (slot s k).toNat).getD 0

/-- The twenty words above the marker of a 21-word frame, the lowest first. -/
def frameWords (s t : State) : List Word := List.ofFn fun j : Fin 20 => frameWord s t (20 - j)

theorem frameWord_eq {s t : State} {k : Nat} {w : Word} (h : t.word (slot s k).toNat = some w) :
    frameWord s t k = w := by
  rw [frameWord, h, Option.getD_some]

theorem frameWords_getD (s t : State) {j : Nat} (hj : j < 20) :
    (frameWords s t).getD j 0 = frameWord s t (20 - j) := by
  unfold frameWords
  rw [List.getD_eq_getElem _ _ (by simpa using hj), List.getElem_ofFn]

section
variable {s t : State} {c : Cause} {addr info : Option Word} {p h : Word}

/-- Every word of an entry frame is written. -/
theorem EntryFrame.written (hframe : EntryFrame s t c addr info p) {k : Nat} (h1 : 1 ≤ k)
    (hk : k ≤ 21) : t.word (slot s k).toNat = some (frameWord s t k) := by
  obtain ⟨w, hw⟩ : ∃ w, t.word (slot s k).toNat = some w := by
    by_cases hreg : k ≤ 13
    · have hword := hframe.regs ⟨k - 1, by omega⟩
      rw [Nat.sub_add_cancel h1] at hword
      exact ⟨_, hword⟩
    · obtain ⟨i, hi, -⟩ := hframe.info
      obtain ⟨a, ha, -⟩ := hframe.addr
      have hcase : k = 14 ∨ k = 15 ∨ k = 16 ∨ k = 17 ∨ k = 18 ∨ k = 19 ∨ k = 20 ∨ k = 21 := by omega
      rcases hcase with rfl | rfl | rfl | rfl | rfl | rfl | rfl | rfl
      · exact hframe.spSlot.elim (⟨_, ·⟩) (⟨_, ·⟩)
      · exact ⟨_, hframe.fp⟩
      · exact ⟨_, hframe.pc⟩
      · exact ⟨i, hi⟩
      · exact ⟨a, ha⟩
      · exact ⟨_, hframe.code⟩
      · exact ⟨_, hframe.oldflags⟩
      · exact ⟨_, hframe.marker⟩
  rw [hw, frameWord_eq hw]

/-- The handler can read the frame its entry pushed, also where VM is on: none of the words pushed is a table entry
by which they are translated. -/
theorem HandlerEntered.memRead_below (hentered : HandlerEntered s t c addr info p h)
    (room : SystemStackRoom 21 s) {k : Nat} (h1 : 1 ≤ k) (hk : k ≤ 21) :
    memRead t (below s k) = .ok (frameWord s t k) := by
  have htarget : target t (below s k) = .ok (slot s k) :=
    target_slot room h1 hk (by rw [hentered.flags]; rfl) (by rw [hentered.flags]; rfl)
      hentered.controls.1 hentered.launch hentered.memory
  exact memRead_of_target htarget (hentered.toEntryFrame.written h1 hk)

theorem HandlerEntered.sp (hentered : HandlerEntered s t c addr info p h) : t.sp = below s 21 := by
  rw [sp_system (by rw [hentered.flags]; rfl), hentered.sysSP]

/-- The frame of an entry, as IRET reads it. -/
theorem HandlerEntered.readWords_frame (hentered : HandlerEntered s t c addr info p h)
    (room : SystemStackRoom 21 s) : readWords t t.sp 21 = .ok (40 :: frameWords s t) := by
  have hlength : (40 :: frameWords s t).length = 21 := by simp [frameWords]
  have hat : WordsAt t t.sp (40 :: frameWords s t) := by
    intro k hk
    rw [hlength] at hk
    rw [hentered.sp, below_add s (by omega), hentered.memRead_below room (by omega) (by omega)]
    cases k with
    | zero => exact congrArg Res.ok (frameWord_eq hentered.marker)
    | succ k =>
      rw [List.getD_cons_succ, frameWords_getD s t (by omega), show 21 - (k + 1) = 20 - k by omega]
  rw [← hlength]
  exact readWords_at hat

/-- What IRET restores from an entry's frame: the registers, FP, flags and stack pointer of the interrupted program,
and the saved pc (R171, R282). -/
theorem HandlerEntered.restoreFrame_eq (hentered : HandlerEntered s t c addr info p h) :
    restoreFrame t (frameWords s t) =
      ((((t.setSpecials { t.sr with sysSP := s.sr.sysSP, sysFP := s.sr.sysFP }).setGpr s.gpr).setFlags
        s.flags).setPc p).setFaultNesting ((nestingOnEntry s).map (· - 1)) := by
  have hgpr : (Vector.ofFn fun k : Fin 13 => (frameWords s t).getD (19 - k.val) 0) = s.gpr := by
    refine Vector.ext fun k hk => ?_
    rw [Vector.getElem_ofFn, frameWords_getD s t (by omega), show 20 - (19 - k) = k + 1 by omega]
    exact frameWord_eq (hentered.regs ⟨k, hk⟩)
  have hflags : Flags.ofWord ((frameWords s t).getD 0 0) = s.flags := by
    rw [frameWords_getD s t (by decide), frameWord_eq hentered.oldflags, ofWord_toWord]
  have hpc : (frameWords s t).getD 4 0 = p := by
    rw [frameWords_getD s t (by decide), frameWord_eq hentered.pc]
  have hfp : (frameWords s t).getD 5 0 = s.sr.sysFP := by
    rw [frameWords_getD s t (by decide), frameWord_eq hentered.fp]
  have hsp : t.sr.sysSP + 21 = s.sr.sysSP := by
    rw [hentered.sysSP]
    exact BitVec.sub_add_cancel _ _
  rw [restoreFrame_system _ (by rw [hentered.flags]; rfl), hgpr, hflags, hpc, hfp, hsp,
    hentered.nesting]

/-- IRET in a handler just entered ends with that frame restored and TIMER counted. -/
theorem HandlerEntered.exec_iret (hentered : HandlerEntered s t c addr info p h)
    (room : SystemStackRoom 21 s) (htimer : s.sr.timer ≠ 1) :
    exec .iret t = .next (restoreFrame t (frameWords s t)).counted := by
  have hsys : t.flags.sys = true := by rw [hentered.flags]; rfl
  have hnesting : t.faultNesting ≠ some 0 := by
    rw [hentered.nesting]
    exact nestingOnEntry_ne_zero s
  have hquiet : (restoreFrame t (frameWords s t)).sr.timer ≠ 1 := by
    rw [hentered.restoreFrame_eq]
    show t.sr.timer ≠ 1
    rwa [hentered.timer]
  rw [Machine.exec_iret hsys (hentered.readWords_frame room) hnesting]
  exact complete_eq_counted (.inl hquiet)

end

/-- Settles O42: the entry keeps what its frame does not hold, and IRET restores what it holds. -/
theorem interruptThenIretResumes : Obligations.InterruptThenIretResumes := by
  intro s c addr info savedPc h ⟨hr, htimer⟩ hready
  obtain ⟨t, hsignal, hentered⟩ := signal_whole addr info savedPc hready
  obtain ⟨-, room⟩ := hready
  refine ⟨t, _, hsignal, hentered.exec_iret room htimer, ?_⟩
  rw [hentered.restoreFrame_eq]
  exact ⟨rfl, rfl, rfl, ⟨rfl, rfl, hentered.user⟩, hentered.controls,
    (if_pos hr).trans (congrArg afterTick hentered.timer), hentered.world, hentered.launch,
    hentered.memory, nestingOnEntry_pred⟩

end Sys2Proof.Machine
end

section
/-! PROOF. O49: an entry that cannot be completed (R278, log entries 10, 19, 21). What the failed entry leaves is the
state before it but for SYSSP and the words it pushed, so the stack below it, and the vector, are those of the state
before; there the entry for INTRFAULT is made, or fails too. -/

namespace Sys2Proof.Machine

/-- The state an entry leaves that failed at its `m`th push, or, where `m` is 0, at the vector: SYSSP at that push, the
words before it stored, all else as it was but SYS and IP, of which nothing is said. -/
structure EntryLeft (m : Nat) (s t : State) : Prop where
  pushes : Pushes s.entering t.entering
  sysSP : t.sr.sysSP = below s m
  memory : SameMemoryBelow (m - 1) s t

/-- The failed entry goes on to INTRFAULT from the state it left. -/
theorem signal_left {s : State} {c : Cause} {m : Nat} (addr info : Option Word) (p : Word)
    (h : EntryFailsAt s c m) :
    ∃ t w, signal s c addr info p = intrFault t c addr w ∧ (∀ x, addr = some x → w = x) ∧
      EntryLeft m s t := by
  obtain ⟨t, w, hsignal, hw, hpushes, hsp, hmemory⟩ := signal_fails addr info p h
  exact ⟨t, w, hsignal, hw, hpushes, hsp, hmemory⟩

section
variable {m : Nat} {s t : State}

/-- Places on the stack counted from the pointer the failed entry left. -/
theorem EntryLeft.below_eq (h : EntryLeft m s t) (k : Nat) : below t k = below s (m + k) := by
  rw [below, h.sysSP, below, below, BitVec.ofNat_add]
  bv_omega

/-- Words the failed entry has not pushed are as before. -/
theorem EntryLeft.words_eq (h : EntryLeft m s t) {reads : List Word}
    (hclear : ∀ j : Nat, 1 ≤ j → j < m → slot s j ∉ reads) :
    ∀ q ∈ reads, t.word q.toNat = s.word q.toNat := fun _ hq =>
  h.memory _ fun j h1 hj => toNat_ne fun heq => hclear j h1 (by omega) (heq ▸ hq)

theorem EntryLeft.vm (h : EntryLeft m s t) : t.flags.vm = s.flags.vm := by
  have hflags : t.flags.entering = s.flags.entering := h.pushes.flags
  show t.flags.entering.vm = s.flags.entering.vm
  rw [hflags]

theorem EntryLeft.intvec (h : EntryLeft m s t) : t.sr.intvec = s.sr.intvec := by
  obtain ⟨-, hintvec, -, -, -⟩ := h.pushes.controls
  exact hintvec

section
variable {a : Word} (hclear : ∀ j : Nat, 1 ≤ j → j < m → slot s j ∉ walkReads s a)
include hclear

/-- An address none of whose table entries the failed entry has pushed is translated as before (R72). -/
theorem EntryLeft.walkReads_eq (h : EntryLeft m s t) : walkReads t a = walkReads s a :=
  walkReads_agree h.vm h.pushes.controls.1 h.pushes.launch (h.words_eq hclear)

theorem EntryLeft.target_eq (h : EntryLeft m s t) :
    target t.entering a = target s.entering a :=
  target_agree (s := s.entering) (t := t.entering) h.vm rfl h.pushes.controls.1 h.pushes.launch
    (h.words_eq hclear)

end

/-- A vector entry that the failed entry has not overwritten. -/
theorem EntryLeft.vectorEntry_eq {c : Cause} (h : EntryLeft m s t)
    (hout : ∀ k : Nat, 1 ≤ k → k < m → (s.sr.intvec + c.code).toNat ≠ (slot s k).toNat) :
    vectorEntry t c = vectorEntry s c := by
  rw [vectorEntry, h.intvec]
  exact physRead_agree h.pushes.launch (h.memory _ fun k h1 hk => hout k h1 (by omega))

/-- Room below the word the failed push left out is room below the pointer the failed entry left. -/
theorem EntryLeft.room {n : Nat} (h : EntryLeft m s t) (room : SystemStackRoomBut m (m + n) s) :
    ∀ k : Nat, 1 ≤ k → k ≤ n → target t.entering (below t k) = .ok (slot s (m + k)) ∧
      ∀ j : Nat, 1 ≤ j → j ≤ n →
        (j ≠ k → slot s (m + j) ≠ slot s (m + k)) ∧ slot s (m + j) ∉ walkReads t (below t k) := by
  intro k h1 hk
  obtain ⟨htarget, hapart⟩ := room (m + k) (by omega) (by omega) (by omega)
  have hclear : ∀ j : Nat, 1 ≤ j → j < m → slot s j ∉ walkReads s (below s (m + k)) :=
    fun j j1 hj => (hapart j j1 (by omega) (by omega)).2
  rw [h.below_eq, h.target_eq hclear, h.walkReads_eq hclear]
  refine ⟨htarget, fun j j1 hj => ?_⟩
  obtain ⟨hne, hnotRead⟩ := hapart (m + j) (by omega) (by omega) (by omega)
  exact ⟨fun hjk => hne (by omega), hnotRead⟩

/-- A push that raises below the word the failed push left out. -/
theorem EntryLeft.pushRaises {n : Nat} (h : EntryLeft m s t) (h1 : 1 ≤ n)
    (hraises : PushRaises m (m + n) s) :
    (∃ c addr info, target t.entering (below t n) = .raise c addr info) ∧
      ∀ j : Nat, 1 ≤ j → j < n → slot s (m + j) ∉ walkReads t (below t n) := by
  obtain ⟨hraise, hnotRead⟩ := hraises
  have hclear : ∀ j : Nat, 1 ≤ j → j < m → slot s j ∉ walkReads s (below s (m + n)) :=
    fun j j1 hj => hnotRead j j1 (by omega) (by omega)
  rw [h.below_eq, h.target_eq hclear, h.walkReads_eq hclear]
  exact ⟨hraise, fun j j1 hj => hnotRead (m + j) (by omega) (by omega) (by omega)⟩

/-- The registers after INTRFAULT's entry are those of an entry from the state before the failed one (R278, R280). -/
theorem EntryLeft.entryRegs {u : State} (h : EntryLeft m s t) (hentered : EntersFrom t u) :
    EntryRegs s u where
  flags := hentered.flags.trans h.pushes.flags
  gpr := hentered.gpr.trans h.pushes.gpr
  user := ⟨hentered.user.1.trans h.pushes.user.1, hentered.user.2.trans h.pushes.user.2⟩
  sysFP := hentered.sysFP.trans h.pushes.sysFP
  controls := SameControls.trans (t := t) h.pushes.controls hentered.controls
  timer := hentered.timer.trans h.pushes.timer
  world := hentered.world.trans h.pushes.world
  launch := hentered.launch.trans h.pushes.launch

/-- The entry for INTRFAULT fails from the state the failed entry left, where the statement says it fails. -/
theorem EntryLeft.intrFault_stopped {c : Cause} (addr : Option Word) (w : Word)
    (h : EntryLeft m s t) (hfails : IntrFaultFails s m)
    (hout : ∀ k : Nat, 1 ≤ k → k < m →
      (s.sr.intvec + Cause.intrfault.code).toNat ≠ (slot s k).toNat) :
    intrFault t c addr w = .stopped (fatalStop t .intrfault addr (some c.code)) := by
  refine intrFault_dead (p := fun k => slot s (m + k)) c addr w ?_
  rw [h.vectorEntry_eq hout]
  refine hfails.imp_right (Or.imp_right fun ⟨hvec, n, h1, hn, room, hraises⟩ => ?_)
  rw [Nat.add_sub_assoc h1] at room
  exact ⟨hvec, n, h1, hn, h.room room, h.pushRaises h1 hraises⟩

end

/-- Settles O49: INTRFAULT is signalled from the state the failed entry left, and entered there, or fails there too. -/
theorem failedEntrySignalsIntrFault : Obligations.FailedEntrySignalsIntrFault := by
  intro s c addr info savedPc m hfails
  obtain ⟨t, w, hsignal, hw, hleft⟩ := signal_left addr info savedPc hfails
  refine ⟨fun h hvec hne room hout => ?_, fun hdead hout => ?_⟩
  · have hvec' : vectorEntry t .intrfault = .ok h :=
      (hleft.vectorEntry_eq fun k h1 hk => hout k h1 (by omega) (by omega)).trans hvec
    obtain ⟨u, hentered, hfrom, hpc, hsp, hnesting, hmarker, hcode, haddr, horig, hsame⟩ :=
      intrFault_whole (p := fun k => slot s (m + k)) c addr w hvec' hne (hleft.room room)
        fun k h1 hk => hleft.intvec ▸ hout (m + k) (by omega) (by omega) (by omega)
    have hregs : EntryRegs s u := hleft.entryRegs hfrom
    have hsys : u.flags.sys = true := by rw [hregs.flags]; rfl
    refine ⟨u, hsignal.trans hentered, hpc, hregs, hsp.trans (hleft.below_eq 21), hmarker, hcode,
      ⟨w, haddr, hw⟩, horig, fun b hb => ?_, exec_iret_intrFault hsys hnesting⟩
    rw [hsame b fun k h1 hk => hb (m + k) (by omega) (by omega) (by omega)]
    exact hleft.memory b fun k h1 hk => hb k h1 (by omega) (by omega)
  · exact ⟨_, hsignal.trans (hleft.intrFault_stopped addr w hdead hout), rfl, hleft.pushes.gpr,
      hleft.pushes.pc, hleft.sysSP, hleft.pushes.world, hleft.memory⟩

end Sys2Proof.Machine
end
